-- ==== Sys2Proof/Word.lean ====
section
/-! DEFINITION. The word types of the engine (10_state.md R18, R22, R24; 00_scope.md R12, R14). -/

namespace Sys2Proof

/-- One byte of memory or of the vector register file. -/
abbrev Byte := BitVec 8

/-- XLEN = 32: an integer register, an address or an instruction word (R12). -/
abbrev Word := BitVec 32

/-- FLEN = 64: a floating-point register (R12). -/
abbrev Dword := BitVec 64

/-- The number of an integer register, as the rd, rs1 and rs2 fields hold it (R18). -/
abbrev XReg := BitVec 5

/-- The number of a floating-point register (R22). -/
abbrev FReg := BitVec 5

/-- The number of a vector register, the base of a group when LMUL > 1 (R54). -/
abbrev VReg := BitVec 5

end Sys2Proof
end

