-- ==== Sys2Proof/Syntax.lean ====
section
/-! DEFINITION. The instructions: one constructor per row of spec/opcode_table.json (30_encoding.md R51 to R60).
Operands are the fields of the word, in the order of the assembler syntax (R61); the immediates of branches and JAL
are the whole even offsets of R53. Every field a word may hold freely is an operand, so that no bit is lost. -/

namespace Sys2Proof

inductive Instr where
  -- The integer unit, RV32I (40_rv32i.md)
  /-- LUI, R66. -/
  | lui (rd : XReg) (immU : BitVec 20)
  /-- AUIPC, R67. -/
  | auipc (rd : XReg) (immU : BitVec 20)
  /-- JAL, R68. -/
  | jal (rd : XReg) (immJ : BitVec 21)
  /-- JALR, R69. -/
  | jalr (rd rs1 : XReg) (imm12 : BitVec 12)
  /-- BEQ, R71. -/
  | beq (rs1 rs2 : XReg) (immB : BitVec 13)
  /-- BNE, R72. -/
  | bne (rs1 rs2 : XReg) (immB : BitVec 13)
  /-- BLT, R73. -/
  | blt (rs1 rs2 : XReg) (immB : BitVec 13)
  /-- BGE, R74. -/
  | bge (rs1 rs2 : XReg) (immB : BitVec 13)
  /-- BLTU, R75. -/
  | bltu (rs1 rs2 : XReg) (immB : BitVec 13)
  /-- BGEU, R76. -/
  | bgeu (rs1 rs2 : XReg) (immB : BitVec 13)
  /-- LB, R78. -/
  | lb (rd rs1 : XReg) (imm12 : BitVec 12)
  /-- LH, R79. -/
  | lh (rd rs1 : XReg) (imm12 : BitVec 12)
  /-- LW, R80. -/
  | lw (rd rs1 : XReg) (imm12 : BitVec 12)
  /-- LBU, R81. -/
  | lbu (rd rs1 : XReg) (imm12 : BitVec 12)
  /-- LHU, R82. -/
  | lhu (rd rs1 : XReg) (imm12 : BitVec 12)
  /-- SB, R83. -/
  | sb (rs2 rs1 : XReg) (immS : BitVec 12)
  /-- SH, R84. -/
  | sh (rs2 rs1 : XReg) (immS : BitVec 12)
  /-- SW, R85. -/
  | sw (rs2 rs1 : XReg) (immS : BitVec 12)
  /-- ADDI, R86. -/
  | addi (rd rs1 : XReg) (imm12 : BitVec 12)
  /-- SLTI, R87. -/
  | slti (rd rs1 : XReg) (imm12 : BitVec 12)
  /-- SLTIU, R88. -/
  | sltiu (rd rs1 : XReg) (imm12 : BitVec 12)
  /-- XORI, R89. -/
  | xori (rd rs1 : XReg) (imm12 : BitVec 12)
  /-- ORI, R90. -/
  | ori (rd rs1 : XReg) (imm12 : BitVec 12)
  /-- ANDI, R91. -/
  | andi (rd rs1 : XReg) (imm12 : BitVec 12)
  /-- SLLI, R92. -/
  | slli (rd rs1 : XReg) (shamt : BitVec 5)
  /-- SRLI, R93. -/
  | srli (rd rs1 : XReg) (shamt : BitVec 5)
  /-- SRAI, R94. -/
  | srai (rd rs1 : XReg) (shamt : BitVec 5)
  /-- ADD, R95. -/
  | add (rd rs1 rs2 : XReg)
  /-- SUB, R96. -/
  | sub (rd rs1 rs2 : XReg)
  /-- SLL, R97. -/
  | sll (rd rs1 rs2 : XReg)
  /-- SLT, R98. -/
  | slt (rd rs1 rs2 : XReg)
  /-- SLTU, R99. -/
  | sltu (rd rs1 rs2 : XReg)
  /-- XOR, R100. -/
  | xor (rd rs1 rs2 : XReg)
  /-- SRL, R101. -/
  | srl (rd rs1 rs2 : XReg)
  /-- SRA, R102. -/
  | sra (rd rs1 rs2 : XReg)
  /-- OR, R103. -/
  | or (rd rs1 rs2 : XReg)
  /-- AND, R104. -/
  | and (rd rs1 rs2 : XReg)
  /-- FENCE, R105. -/
  | fence (fm pred succ : BitVec 4) (rs1 rd : XReg)
  /-- FENCE.I, R106. -/
  | fenceI (imm12 : BitVec 12) (rs1 rd : XReg)
  /-- ECALL, R107. -/
  | ecall
  /-- EBREAK, R108. -/
  | ebreak
  -- The multiply/divide unit (41_rv32m.md)
  /-- MUL, R114. -/
  | mul (rd rs1 rs2 : XReg)
  /-- MULH, R115. -/
  | mulh (rd rs1 rs2 : XReg)
  /-- MULHSU, R116. -/
  | mulhsu (rd rs1 rs2 : XReg)
  /-- MULHU, R117. -/
  | mulhu (rd rs1 rs2 : XReg)
  /-- DIV, R118. -/
  | div (rd rs1 rs2 : XReg)
  /-- DIVU, R119. -/
  | divu (rd rs1 rs2 : XReg)
  /-- REM, R120. -/
  | rem (rd rs1 rs2 : XReg)
  /-- REMU, R121. -/
  | remu (rd rs1 rs2 : XReg)
  -- The atomic unit (42_rv32a.md)
  /-- LR.W, R124. -/
  | lrW (rd rs1 : XReg) (aq rl : Bool)
  /-- SC.W, R125. -/
  | scW (rd rs2 rs1 : XReg) (aq rl : Bool)
  /-- AMOSWAP.W, R126. -/
  | amoswapW (rd rs2 rs1 : XReg) (aq rl : Bool)
  /-- AMOADD.W, R127. -/
  | amoaddW (rd rs2 rs1 : XReg) (aq rl : Bool)
  /-- AMOXOR.W, R128. -/
  | amoxorW (rd rs2 rs1 : XReg) (aq rl : Bool)
  /-- AMOAND.W, R129. -/
  | amoandW (rd rs2 rs1 : XReg) (aq rl : Bool)
  /-- AMOOR.W, R130. -/
  | amoorW (rd rs2 rs1 : XReg) (aq rl : Bool)
  /-- AMOMIN.W, R131. -/
  | amominW (rd rs2 rs1 : XReg) (aq rl : Bool)
  /-- AMOMAX.W, R132. -/
  | amomaxW (rd rs2 rs1 : XReg) (aq rl : Bool)
  /-- AMOMINU.W, R133. -/
  | amominuW (rd rs2 rs1 : XReg) (aq rl : Bool)
  /-- AMOMAXU.W, R134. -/
  | amomaxuW (rd rs2 rs1 : XReg) (aq rl : Bool)
  -- The floating-point units (43_fp.md)
  /-- FLW, R143. -/
  | flw (rd : FReg) (rs1 : XReg) (imm12 : BitVec 12)
  /-- FSW, R144. -/
  | fsw (rs2 : FReg) (rs1 : XReg) (immS : BitVec 12)
  /-- FMADD.S, R159. -/
  | fmaddS (rd rs1 rs2 rs3 : FReg) (rm : BitVec 3)
  /-- FMSUB.S, R160. -/
  | fmsubS (rd rs1 rs2 rs3 : FReg) (rm : BitVec 3)
  /-- FNMSUB.S, R161. -/
  | fnmsubS (rd rs1 rs2 rs3 : FReg) (rm : BitVec 3)
  /-- FNMADD.S, R162. -/
  | fnmaddS (rd rs1 rs2 rs3 : FReg) (rm : BitVec 3)
  /-- FADD.S, R147. -/
  | faddS (rd rs1 rs2 : FReg) (rm : BitVec 3)
  /-- FSUB.S, R148. -/
  | fsubS (rd rs1 rs2 : FReg) (rm : BitVec 3)
  /-- FMUL.S, R149. -/
  | fmulS (rd rs1 rs2 : FReg) (rm : BitVec 3)
  /-- FDIV.S, R150. -/
  | fdivS (rd rs1 rs2 : FReg) (rm : BitVec 3)
  /-- FSQRT.S, R151. -/
  | fsqrtS (rd rs1 : FReg) (rm : BitVec 3)
  /-- FSGNJ.S, R168. -/
  | fsgnjS (rd rs1 rs2 : FReg)
  /-- FSGNJN.S, R169. -/
  | fsgnjnS (rd rs1 rs2 : FReg)
  /-- FSGNJX.S, R170. -/
  | fsgnjxS (rd rs1 rs2 : FReg)
  /-- FMIN.S, R175. -/
  | fminS (rd rs1 rs2 : FReg)
  /-- FMAX.S, R176. -/
  | fmaxS (rd rs1 rs2 : FReg)
  /-- FEQ.S, R180. -/
  | feqS (rd : XReg) (rs1 rs2 : FReg)
  /-- FLT.S, R181. -/
  | fltS (rd : XReg) (rs1 rs2 : FReg)
  /-- FLE.S, R182. -/
  | fleS (rd : XReg) (rs1 rs2 : FReg)
  /-- FCVT.W.S, R187. -/
  | fcvtWS (rd : XReg) (rs1 : FReg) (rm : BitVec 3)
  /-- FCVT.WU.S, R188. -/
  | fcvtWUS (rd : XReg) (rs1 : FReg) (rm : BitVec 3)
  /-- FCVT.S.W, R189. -/
  | fcvtSW (rd : FReg) (rs1 : XReg) (rm : BitVec 3)
  /-- FCVT.S.WU, R190. -/
  | fcvtSWU (rd : FReg) (rs1 : XReg) (rm : BitVec 3)
  /-- FMV.X.W, R197. -/
  | fmvXW (rd : XReg) (rs1 : FReg)
  /-- FMV.W.X, R198. -/
  | fmvWX (rd : FReg) (rs1 : XReg)
  /-- FLD, R145. -/
  | fld (rd : FReg) (rs1 : XReg) (imm12 : BitVec 12)
  /-- FSD, R146. -/
  | fsd (rs2 : FReg) (rs1 : XReg) (immS : BitVec 12)
  /-- FMADD.D, R163. -/
  | fmaddD (rd rs1 rs2 rs3 : FReg) (rm : BitVec 3)
  /-- FMSUB.D, R164. -/
  | fmsubD (rd rs1 rs2 rs3 : FReg) (rm : BitVec 3)
  /-- FNMSUB.D, R165. -/
  | fnmsubD (rd rs1 rs2 rs3 : FReg) (rm : BitVec 3)
  /-- FNMADD.D, R166. -/
  | fnmaddD (rd rs1 rs2 rs3 : FReg) (rm : BitVec 3)
  /-- FADD.D, R153. -/
  | faddD (rd rs1 rs2 : FReg) (rm : BitVec 3)
  /-- FSUB.D, R154. -/
  | fsubD (rd rs1 rs2 : FReg) (rm : BitVec 3)
  /-- FMUL.D, R155. -/
  | fmulD (rd rs1 rs2 : FReg) (rm : BitVec 3)
  /-- FDIV.D, R156. -/
  | fdivD (rd rs1 rs2 : FReg) (rm : BitVec 3)
  /-- FSQRT.D, R157. -/
  | fsqrtD (rd rs1 : FReg) (rm : BitVec 3)
  /-- FSGNJ.D, R171. -/
  | fsgnjD (rd rs1 rs2 : FReg)
  /-- FSGNJN.D, R172. -/
  | fsgnjnD (rd rs1 rs2 : FReg)
  /-- FSGNJX.D, R173. -/
  | fsgnjxD (rd rs1 rs2 : FReg)
  /-- FMIN.D, R177. -/
  | fminD (rd rs1 rs2 : FReg)
  /-- FMAX.D, R178. -/
  | fmaxD (rd rs1 rs2 : FReg)
  /-- FEQ.D, R183. -/
  | feqD (rd : XReg) (rs1 rs2 : FReg)
  /-- FLT.D, R184. -/
  | fltD (rd : XReg) (rs1 rs2 : FReg)
  /-- FLE.D, R185. -/
  | fleD (rd : XReg) (rs1 rs2 : FReg)
  /-- FCVT.W.D, R191. -/
  | fcvtWD (rd : XReg) (rs1 : FReg) (rm : BitVec 3)
  /-- FCVT.WU.D, R192. -/
  | fcvtWUD (rd : XReg) (rs1 : FReg) (rm : BitVec 3)
  /-- FCVT.D.W, R193. -/
  | fcvtDW (rd : FReg) (rs1 : XReg) (rm : BitVec 3)
  /-- FCVT.D.WU, R194. -/
  | fcvtDWU (rd : FReg) (rs1 : XReg) (rm : BitVec 3)
  /-- FCVT.S.D, R195. -/
  | fcvtSD (rd rs1 : FReg) (rm : BitVec 3)
  /-- FCVT.D.S, R196. -/
  | fcvtDS (rd rs1 : FReg) (rm : BitVec 3)
  -- The CSR unit (44_zicsr.md)
  /-- CSRRW, R203. -/
  | csrrw (rd : XReg) (csr : BitVec 12) (rs1 : XReg)
  /-- CSRRS, R204. -/
  | csrrs (rd : XReg) (csr : BitVec 12) (rs1 : XReg)
  /-- CSRRC, R205. -/
  | csrrc (rd : XReg) (csr : BitVec 12) (rs1 : XReg)
  -- Vector configuration, loads and stores (45_vector_config_mem.md)
  /-- VSETVLI, R208. -/
  | vsetvli (rd rs1 : XReg) (zimm : BitVec 11)
  /-- VLE8.V, R214. -/
  | vle8V (vd : VReg) (rs1 : XReg)
  /-- VLSE8.V, R217. -/
  | vlse8V (vd : VReg) (rs1 rs2 : XReg)
  /-- VSE8.V, R220. -/
  | vse8V (vs3 : VReg) (rs1 : XReg)
  /-- VSSE8.V, R223. -/
  | vsse8V (vs3 : VReg) (rs1 rs2 : XReg)
  /-- VLE16.V, R215. -/
  | vle16V (vd : VReg) (rs1 : XReg)
  /-- VLSE16.V, R218. -/
  | vlse16V (vd : VReg) (rs1 rs2 : XReg)
  /-- VSE16.V, R221. -/
  | vse16V (vs3 : VReg) (rs1 : XReg)
  /-- VSSE16.V, R224. -/
  | vsse16V (vs3 : VReg) (rs1 rs2 : XReg)
  /-- VLE32.V, R216. -/
  | vle32V (vd : VReg) (rs1 : XReg)
  /-- VLSE32.V, R219. -/
  | vlse32V (vd : VReg) (rs1 rs2 : XReg)
  /-- VSE32.V, R222. -/
  | vse32V (vs3 : VReg) (rs1 : XReg)
  /-- VSSE32.V, R225. -/
  | vsse32V (vs3 : VReg) (rs1 rs2 : XReg)
  -- Vector ALU, compares, moves and reductions (46_vector_alu.md)
  /-- VADD.VV, R230. -/
  | vaddVV (vd vs2 vs1 : VReg)
  /-- VADD.VX, R231. -/
  | vaddVX (vd vs2 : VReg) (rs1 : XReg)
  /-- VADD.VI, R232. -/
  | vaddVI (vd vs2 : VReg) (imm5 : BitVec 5)
  /-- VSUB.VV, R233. -/
  | vsubVV (vd vs2 vs1 : VReg)
  /-- VSUB.VX, R234. -/
  | vsubVX (vd vs2 : VReg) (rs1 : XReg)
  /-- VMINU.VV, R237. -/
  | vminuVV (vd vs2 vs1 : VReg)
  /-- VMINU.VX, R238. -/
  | vminuVX (vd vs2 : VReg) (rs1 : XReg)
  /-- VMAXU.VV, R239. -/
  | vmaxuVV (vd vs2 vs1 : VReg)
  /-- VMAXU.VX, R240. -/
  | vmaxuVX (vd vs2 : VReg) (rs1 : XReg)
  /-- VAND.VV, R241. -/
  | vandVV (vd vs2 vs1 : VReg)
  /-- VAND.VX, R242. -/
  | vandVX (vd vs2 : VReg) (rs1 : XReg)
  /-- VAND.VI, R243. -/
  | vandVI (vd vs2 : VReg) (imm5 : BitVec 5)
  /-- VOR.VV, R244. -/
  | vorVV (vd vs2 vs1 : VReg)
  /-- VOR.VX, R245. -/
  | vorVX (vd vs2 : VReg) (rs1 : XReg)
  /-- VOR.VI, R246. -/
  | vorVI (vd vs2 : VReg) (imm5 : BitVec 5)
  /-- VXOR.VV, R247. -/
  | vxorVV (vd vs2 vs1 : VReg)
  /-- VXOR.VX, R248. -/
  | vxorVX (vd vs2 : VReg) (rs1 : XReg)
  /-- VXOR.VI, R249. -/
  | vxorVI (vd vs2 : VReg) (imm5 : BitVec 5)
  /-- VMSEQ.VV, R257. -/
  | vmseqVV (vd vs2 vs1 : VReg)
  /-- VMSEQ.VX, R258. -/
  | vmseqVX (vd vs2 : VReg) (rs1 : XReg)
  /-- VMSEQ.VI, R259. -/
  | vmseqVI (vd vs2 : VReg) (imm5 : BitVec 5)
  /-- VMSNE.VV, R260. -/
  | vmsneVV (vd vs2 vs1 : VReg)
  /-- VMSNE.VX, R261. -/
  | vmsneVX (vd vs2 : VReg) (rs1 : XReg)
  /-- VMSNE.VI, R262. -/
  | vmsneVI (vd vs2 : VReg) (imm5 : BitVec 5)
  /-- VMSLT.VV, R263. -/
  | vmsltVV (vd vs2 vs1 : VReg)
  /-- VMSLT.VX, R264. -/
  | vmsltVX (vd vs2 : VReg) (rs1 : XReg)
  /-- VMSLE.VV, R265. -/
  | vmsleVV (vd vs2 vs1 : VReg)
  /-- VMSLE.VX, R266. -/
  | vmsleVX (vd vs2 : VReg) (rs1 : XReg)
  /-- VMSLE.VI, R267. -/
  | vmsleVI (vd vs2 : VReg) (imm5 : BitVec 5)
  /-- VMSGT.VX, R268. -/
  | vmsgtVX (vd vs2 : VReg) (rs1 : XReg)
  /-- VMSGT.VI, R269. -/
  | vmsgtVI (vd vs2 : VReg) (imm5 : BitVec 5)
  /-- VSLL.VV, R251. -/
  | vsllVV (vd vs2 vs1 : VReg)
  /-- VSLL.VX, R252. -/
  | vsllVX (vd vs2 : VReg) (rs1 : XReg)
  /-- VSLL.VI, R253. -/
  | vsllVI (vd vs2 : VReg) (imm5 : BitVec 5)
  /-- VSRL.VV, R254. -/
  | vsrlVV (vd vs2 vs1 : VReg)
  /-- VSRL.VX, R255. -/
  | vsrlVX (vd vs2 : VReg) (rs1 : XReg)
  /-- VSRL.VI, R256. -/
  | vsrlVI (vd vs2 : VReg) (imm5 : BitVec 5)
  /-- VMUL.VV, R235. -/
  | vmulVV (vd vs2 vs1 : VReg)
  /-- VMUL.VX, R236. -/
  | vmulVX (vd vs2 : VReg) (rs1 : XReg)
  /-- VREDSUM.VS, R272. -/
  | vredsumVS (vd vs2 vs1 : VReg)
  /-- VWREDSUMU.VS, R273. -/
  | vwredsumuVS (vd vs2 vs1 : VReg)
  /-- VMV.X.S, R270. -/
  | vmvXS (rd : XReg) (vs2 : VReg)
  /-- VMV.S.X, R271. -/
  | vmvSX (vd : VReg) (rs1 : XReg)
  deriving DecidableEq, Repr

end Sys2Proof
end

