-- ==== Sys2Proof/WellFormed.lean ====
section
/-! DEFINITION. Which terms of `Instr` a word can stand for. The operand types fix every field's width; three things
are left to check: a branch offset is even, a JAL offset is even (30_encoding.md R53), an rm field is not reserved (R55). -/

namespace Sys2Proof

/-- The rm values the decoder refuses (R55). -/
def reservedRm (rm : BitVec 3) : Bool := rm == 0b101#3 || rm == 0b110#3

/-- A branch offset has bit 0 clear: "13-bit signed immediate, always even" (R53). -/
def evenBranchOffset (off : BitVec 13) : Bool := !off.getLsbD 0

/-- A JAL offset has bit 0 clear: "21-bit signed immediate, always even" (R53). -/
def evenJumpOffset (off : BitVec 21) : Bool := !off.getLsbD 0

/-- The checks on the operands of an instruction. -/
def wellFormed : Instr → Bool
  | .lui _ _ => true
  | .auipc _ _ => true
  | .jal _ immJ => evenJumpOffset immJ
  | .jalr _ _ _ => true
  | .beq _ _ immB => evenBranchOffset immB
  | .bne _ _ immB => evenBranchOffset immB
  | .blt _ _ immB => evenBranchOffset immB
  | .bge _ _ immB => evenBranchOffset immB
  | .bltu _ _ immB => evenBranchOffset immB
  | .bgeu _ _ immB => evenBranchOffset immB
  | .lb _ _ _ => true
  | .lh _ _ _ => true
  | .lw _ _ _ => true
  | .lbu _ _ _ => true
  | .lhu _ _ _ => true
  | .sb _ _ _ => true
  | .sh _ _ _ => true
  | .sw _ _ _ => true
  | .addi _ _ _ => true
  | .slti _ _ _ => true
  | .sltiu _ _ _ => true
  | .xori _ _ _ => true
  | .ori _ _ _ => true
  | .andi _ _ _ => true
  | .slli _ _ _ => true
  | .srli _ _ _ => true
  | .srai _ _ _ => true
  | .add _ _ _ => true
  | .sub _ _ _ => true
  | .sll _ _ _ => true
  | .slt _ _ _ => true
  | .sltu _ _ _ => true
  | .xor _ _ _ => true
  | .srl _ _ _ => true
  | .sra _ _ _ => true
  | .or _ _ _ => true
  | .and _ _ _ => true
  | .fence _ _ _ _ _ => true
  | .fenceI _ _ _ => true
  | .ecall => true
  | .ebreak => true
  | .mul _ _ _ => true
  | .mulh _ _ _ => true
  | .mulhsu _ _ _ => true
  | .mulhu _ _ _ => true
  | .div _ _ _ => true
  | .divu _ _ _ => true
  | .rem _ _ _ => true
  | .remu _ _ _ => true
  | .lrW _ _ _ _ => true
  | .scW _ _ _ _ _ => true
  | .amoswapW _ _ _ _ _ => true
  | .amoaddW _ _ _ _ _ => true
  | .amoxorW _ _ _ _ _ => true
  | .amoandW _ _ _ _ _ => true
  | .amoorW _ _ _ _ _ => true
  | .amominW _ _ _ _ _ => true
  | .amomaxW _ _ _ _ _ => true
  | .amominuW _ _ _ _ _ => true
  | .amomaxuW _ _ _ _ _ => true
  | .flw _ _ _ => true
  | .fsw _ _ _ => true
  | .fmaddS _ _ _ _ rm => !reservedRm rm
  | .fmsubS _ _ _ _ rm => !reservedRm rm
  | .fnmsubS _ _ _ _ rm => !reservedRm rm
  | .fnmaddS _ _ _ _ rm => !reservedRm rm
  | .faddS _ _ _ rm => !reservedRm rm
  | .fsubS _ _ _ rm => !reservedRm rm
  | .fmulS _ _ _ rm => !reservedRm rm
  | .fdivS _ _ _ rm => !reservedRm rm
  | .fsqrtS _ _ rm => !reservedRm rm
  | .fsgnjS _ _ _ => true
  | .fsgnjnS _ _ _ => true
  | .fsgnjxS _ _ _ => true
  | .fminS _ _ _ => true
  | .fmaxS _ _ _ => true
  | .feqS _ _ _ => true
  | .fltS _ _ _ => true
  | .fleS _ _ _ => true
  | .fcvtWS _ _ rm => !reservedRm rm
  | .fcvtWUS _ _ rm => !reservedRm rm
  | .fcvtSW _ _ rm => !reservedRm rm
  | .fcvtSWU _ _ rm => !reservedRm rm
  | .fmvXW _ _ => true
  | .fmvWX _ _ => true
  | .fld _ _ _ => true
  | .fsd _ _ _ => true
  | .fmaddD _ _ _ _ rm => !reservedRm rm
  | .fmsubD _ _ _ _ rm => !reservedRm rm
  | .fnmsubD _ _ _ _ rm => !reservedRm rm
  | .fnmaddD _ _ _ _ rm => !reservedRm rm
  | .faddD _ _ _ rm => !reservedRm rm
  | .fsubD _ _ _ rm => !reservedRm rm
  | .fmulD _ _ _ rm => !reservedRm rm
  | .fdivD _ _ _ rm => !reservedRm rm
  | .fsqrtD _ _ rm => !reservedRm rm
  | .fsgnjD _ _ _ => true
  | .fsgnjnD _ _ _ => true
  | .fsgnjxD _ _ _ => true
  | .fminD _ _ _ => true
  | .fmaxD _ _ _ => true
  | .feqD _ _ _ => true
  | .fltD _ _ _ => true
  | .fleD _ _ _ => true
  | .fcvtWD _ _ rm => !reservedRm rm
  | .fcvtWUD _ _ rm => !reservedRm rm
  | .fcvtDW _ _ rm => !reservedRm rm
  | .fcvtDWU _ _ rm => !reservedRm rm
  | .fcvtSD _ _ rm => !reservedRm rm
  | .fcvtDS _ _ rm => !reservedRm rm
  | .csrrw _ _ _ => true
  | .csrrs _ _ _ => true
  | .csrrc _ _ _ => true
  | .vsetvli _ _ _ => true
  | .vle8V _ _ => true
  | .vlse8V _ _ _ => true
  | .vse8V _ _ => true
  | .vsse8V _ _ _ => true
  | .vle16V _ _ => true
  | .vlse16V _ _ _ => true
  | .vse16V _ _ => true
  | .vsse16V _ _ _ => true
  | .vle32V _ _ => true
  | .vlse32V _ _ _ => true
  | .vse32V _ _ => true
  | .vsse32V _ _ _ => true
  | .vaddVV _ _ _ => true
  | .vaddVX _ _ _ => true
  | .vaddVI _ _ _ => true
  | .vsubVV _ _ _ => true
  | .vsubVX _ _ _ => true
  | .vminuVV _ _ _ => true
  | .vminuVX _ _ _ => true
  | .vmaxuVV _ _ _ => true
  | .vmaxuVX _ _ _ => true
  | .vandVV _ _ _ => true
  | .vandVX _ _ _ => true
  | .vandVI _ _ _ => true
  | .vorVV _ _ _ => true
  | .vorVX _ _ _ => true
  | .vorVI _ _ _ => true
  | .vxorVV _ _ _ => true
  | .vxorVX _ _ _ => true
  | .vxorVI _ _ _ => true
  | .vmseqVV _ _ _ => true
  | .vmseqVX _ _ _ => true
  | .vmseqVI _ _ _ => true
  | .vmsneVV _ _ _ => true
  | .vmsneVX _ _ _ => true
  | .vmsneVI _ _ _ => true
  | .vmsltVV _ _ _ => true
  | .vmsltVX _ _ _ => true
  | .vmsleVV _ _ _ => true
  | .vmsleVX _ _ _ => true
  | .vmsleVI _ _ _ => true
  | .vmsgtVX _ _ _ => true
  | .vmsgtVI _ _ _ => true
  | .vsllVV _ _ _ => true
  | .vsllVX _ _ _ => true
  | .vsllVI _ _ _ => true
  | .vsrlVV _ _ _ => true
  | .vsrlVX _ _ _ => true
  | .vsrlVI _ _ _ => true
  | .vmulVV _ _ _ => true
  | .vmulVX _ _ _ => true
  | .vredsumVS _ _ _ => true
  | .vwredsumuVS _ _ _ => true
  | .vmvXS _ _ => true
  | .vmvSX _ _ => true

end Sys2Proof
end

