-- ==== Sys2Proof/Decode.lean ====
section
/-! DEFINITION. Decoding and encoding (30_encoding.md R50 to R60). The decoder is the opcode map of R58, read row by
row as R55 says, with the reserved-rm check after a row matches; the encoder is written from the formats of R51 and
R52. Every rejected word raises IllegalInstruction in the step (R55, R56). -/

namespace Sys2Proof

/-! ## The fields of a word (R51 to R53) -/

def rdField (w : Word) : BitVec 5 := w.extractLsb' 7 5
def rs1Field (w : Word) : BitVec 5 := w.extractLsb' 15 5
def rs2Field (w : Word) : BitVec 5 := w.extractLsb' 20 5
def rs3Field (w : Word) : BitVec 5 := w.extractLsb' 27 5
def rmField (w : Word) : BitVec 3 := w.extractLsb' 12 3
def immIField (w : Word) : BitVec 12 := w.extractLsb' 20 12
def immSField (w : Word) : BitVec 12 := w.extractLsb' 25 7 ++ w.extractLsb' 7 5
/-- The whole branch offset, bit 0 being 0: `w[31] : w[7] : w[30:25] : w[11:8] : 0`. -/
def immBField (w : Word) : BitVec 13 :=
  w.extractLsb' 31 1 ++ w.extractLsb' 7 1 ++ w.extractLsb' 25 6 ++ w.extractLsb' 8 4 ++ 0#1
/-- The bits 31:12 that LUI and AUIPC place there. -/
def immUField (w : Word) : BitVec 20 := w.extractLsb' 12 20
/-- The whole JAL offset, bit 0 being 0: `w[31] : w[19:12] : w[20] : w[30:21] : 0`. -/
def immJField (w : Word) : BitVec 21 :=
  w.extractLsb' 31 1 ++ w.extractLsb' 12 8 ++ w.extractLsb' 20 1 ++ w.extractLsb' 21 10 ++ 0#1
def zimmField (w : Word) : BitVec 11 := w.extractLsb' 20 11
def fmField (w : Word) : BitVec 4 := w.extractLsb' 28 4
def predField (w : Word) : BitVec 4 := w.extractLsb' 24 4
def succField (w : Word) : BitVec 4 := w.extractLsb' 20 4
def aqField (w : Word) : Bool := w.getLsbD 26
def rlField (w : Word) : Bool := w.getLsbD 25

/-! ## The opcode map (R58) -/

/-- One row of the opcode map: a word is an instance of it when its bits under `mask` are `pattern`. -/
structure OpRow where
  mnemonic : String
  pattern : Word
  mask : Word
  hasRm : Bool
  build : Word → Instr

/-- A word is an instance of a row (R55). -/
def OpRow.accepts (r : OpRow) (w : Word) : Bool := w &&& r.mask == r.pattern

/-- The integer unit, RV32I (40_rv32i.md): rows of R58, in the order of the opcode table. -/
def rv32iRowsA : List OpRow := [
  ⟨"lui", 0x00000037, 0x0000007f, false,
    fun w => .lui (rdField w) (immUField w)⟩,
  ⟨"auipc", 0x00000017, 0x0000007f, false,
    fun w => .auipc (rdField w) (immUField w)⟩,
  ⟨"jal", 0x0000006f, 0x0000007f, false,
    fun w => .jal (rdField w) (immJField w)⟩,
  ⟨"jalr", 0x00000067, 0x0000707f, false,
    fun w => .jalr (rdField w) (rs1Field w) (immIField w)⟩,
  ⟨"beq", 0x00000063, 0x0000707f, false,
    fun w => .beq (rs1Field w) (rs2Field w) (immBField w)⟩,
  ⟨"bne", 0x00001063, 0x0000707f, false,
    fun w => .bne (rs1Field w) (rs2Field w) (immBField w)⟩,
  ⟨"blt", 0x00004063, 0x0000707f, false,
    fun w => .blt (rs1Field w) (rs2Field w) (immBField w)⟩,
  ⟨"bge", 0x00005063, 0x0000707f, false,
    fun w => .bge (rs1Field w) (rs2Field w) (immBField w)⟩,
  ⟨"bltu", 0x00006063, 0x0000707f, false,
    fun w => .bltu (rs1Field w) (rs2Field w) (immBField w)⟩,
  ⟨"bgeu", 0x00007063, 0x0000707f, false,
    fun w => .bgeu (rs1Field w) (rs2Field w) (immBField w)⟩,
  ⟨"lb", 0x00000003, 0x0000707f, false,
    fun w => .lb (rdField w) (rs1Field w) (immIField w)⟩,
  ⟨"lh", 0x00001003, 0x0000707f, false,
    fun w => .lh (rdField w) (rs1Field w) (immIField w)⟩,
  ⟨"lw", 0x00002003, 0x0000707f, false,
    fun w => .lw (rdField w) (rs1Field w) (immIField w)⟩,
  ⟨"lbu", 0x00004003, 0x0000707f, false,
    fun w => .lbu (rdField w) (rs1Field w) (immIField w)⟩,
  ⟨"lhu", 0x00005003, 0x0000707f, false,
    fun w => .lhu (rdField w) (rs1Field w) (immIField w)⟩,
  ⟨"sb", 0x00000023, 0x0000707f, false,
    fun w => .sb (rs2Field w) (rs1Field w) (immSField w)⟩,
  ⟨"sh", 0x00001023, 0x0000707f, false,
    fun w => .sh (rs2Field w) (rs1Field w) (immSField w)⟩,
  ⟨"sw", 0x00002023, 0x0000707f, false,
    fun w => .sw (rs2Field w) (rs1Field w) (immSField w)⟩,
  ⟨"addi", 0x00000013, 0x0000707f, false,
    fun w => .addi (rdField w) (rs1Field w) (immIField w)⟩,
  ⟨"slti", 0x00002013, 0x0000707f, false,
    fun w => .slti (rdField w) (rs1Field w) (immIField w)⟩,
  ⟨"sltiu", 0x00003013, 0x0000707f, false,
    fun w => .sltiu (rdField w) (rs1Field w) (immIField w)⟩,
  ⟨"xori", 0x00004013, 0x0000707f, false,
    fun w => .xori (rdField w) (rs1Field w) (immIField w)⟩,
  ⟨"ori", 0x00006013, 0x0000707f, false,
    fun w => .ori (rdField w) (rs1Field w) (immIField w)⟩,
  ⟨"andi", 0x00007013, 0x0000707f, false,
    fun w => .andi (rdField w) (rs1Field w) (immIField w)⟩,
  ⟨"slli", 0x00001013, 0xfe00707f, false,
    fun w => .slli (rdField w) (rs1Field w) (rs2Field w)⟩]

/-- The integer unit, RV32I (40_rv32i.md): rows of R58, in the order of the opcode table. -/
def rv32iRowsB : List OpRow := [
  ⟨"srli", 0x00005013, 0xfe00707f, false,
    fun w => .srli (rdField w) (rs1Field w) (rs2Field w)⟩,
  ⟨"srai", 0x40005013, 0xfe00707f, false,
    fun w => .srai (rdField w) (rs1Field w) (rs2Field w)⟩,
  ⟨"add", 0x00000033, 0xfe00707f, false,
    fun w => .add (rdField w) (rs1Field w) (rs2Field w)⟩,
  ⟨"sub", 0x40000033, 0xfe00707f, false,
    fun w => .sub (rdField w) (rs1Field w) (rs2Field w)⟩,
  ⟨"sll", 0x00001033, 0xfe00707f, false,
    fun w => .sll (rdField w) (rs1Field w) (rs2Field w)⟩,
  ⟨"slt", 0x00002033, 0xfe00707f, false,
    fun w => .slt (rdField w) (rs1Field w) (rs2Field w)⟩,
  ⟨"sltu", 0x00003033, 0xfe00707f, false,
    fun w => .sltu (rdField w) (rs1Field w) (rs2Field w)⟩,
  ⟨"xor", 0x00004033, 0xfe00707f, false,
    fun w => .xor (rdField w) (rs1Field w) (rs2Field w)⟩,
  ⟨"srl", 0x00005033, 0xfe00707f, false,
    fun w => .srl (rdField w) (rs1Field w) (rs2Field w)⟩,
  ⟨"sra", 0x40005033, 0xfe00707f, false,
    fun w => .sra (rdField w) (rs1Field w) (rs2Field w)⟩,
  ⟨"or", 0x00006033, 0xfe00707f, false,
    fun w => .or (rdField w) (rs1Field w) (rs2Field w)⟩,
  ⟨"and", 0x00007033, 0xfe00707f, false,
    fun w => .and (rdField w) (rs1Field w) (rs2Field w)⟩,
  ⟨"fence", 0x0000000f, 0x0000707f, false,
    fun w => .fence (fmField w) (predField w) (succField w) (rs1Field w) (rdField w)⟩,
  ⟨"fence.i", 0x0000100f, 0x0000707f, false,
    fun w => .fenceI (immIField w) (rs1Field w) (rdField w)⟩,
  ⟨"ecall", 0x00000073, 0xffffffff, false,
    fun _ => .ecall⟩,
  ⟨"ebreak", 0x00100073, 0xffffffff, false,
    fun _ => .ebreak⟩]

/-- The multiply/divide unit (41_rv32m.md): rows of R58, in the order of the opcode table. -/
def rv32mRows : List OpRow := [
  ⟨"mul", 0x02000033, 0xfe00707f, false,
    fun w => .mul (rdField w) (rs1Field w) (rs2Field w)⟩,
  ⟨"mulh", 0x02001033, 0xfe00707f, false,
    fun w => .mulh (rdField w) (rs1Field w) (rs2Field w)⟩,
  ⟨"mulhsu", 0x02002033, 0xfe00707f, false,
    fun w => .mulhsu (rdField w) (rs1Field w) (rs2Field w)⟩,
  ⟨"mulhu", 0x02003033, 0xfe00707f, false,
    fun w => .mulhu (rdField w) (rs1Field w) (rs2Field w)⟩,
  ⟨"div", 0x02004033, 0xfe00707f, false,
    fun w => .div (rdField w) (rs1Field w) (rs2Field w)⟩,
  ⟨"divu", 0x02005033, 0xfe00707f, false,
    fun w => .divu (rdField w) (rs1Field w) (rs2Field w)⟩,
  ⟨"rem", 0x02006033, 0xfe00707f, false,
    fun w => .rem (rdField w) (rs1Field w) (rs2Field w)⟩,
  ⟨"remu", 0x02007033, 0xfe00707f, false,
    fun w => .remu (rdField w) (rs1Field w) (rs2Field w)⟩]

/-- The atomic unit (42_rv32a.md): rows of R58, in the order of the opcode table. -/
def rv32aRows : List OpRow := [
  ⟨"lr.w", 0x1000202f, 0xf9f0707f, false,
    fun w => .lrW (rdField w) (rs1Field w) (aqField w) (rlField w)⟩,
  ⟨"sc.w", 0x1800202f, 0xf800707f, false,
    fun w => .scW (rdField w) (rs2Field w) (rs1Field w) (aqField w) (rlField w)⟩,
  ⟨"amoswap.w", 0x0800202f, 0xf800707f, false,
    fun w => .amoswapW (rdField w) (rs2Field w) (rs1Field w) (aqField w) (rlField w)⟩,
  ⟨"amoadd.w", 0x0000202f, 0xf800707f, false,
    fun w => .amoaddW (rdField w) (rs2Field w) (rs1Field w) (aqField w) (rlField w)⟩,
  ⟨"amoxor.w", 0x2000202f, 0xf800707f, false,
    fun w => .amoxorW (rdField w) (rs2Field w) (rs1Field w) (aqField w) (rlField w)⟩,
  ⟨"amoand.w", 0x6000202f, 0xf800707f, false,
    fun w => .amoandW (rdField w) (rs2Field w) (rs1Field w) (aqField w) (rlField w)⟩,
  ⟨"amoor.w", 0x4000202f, 0xf800707f, false,
    fun w => .amoorW (rdField w) (rs2Field w) (rs1Field w) (aqField w) (rlField w)⟩,
  ⟨"amomin.w", 0x8000202f, 0xf800707f, false,
    fun w => .amominW (rdField w) (rs2Field w) (rs1Field w) (aqField w) (rlField w)⟩,
  ⟨"amomax.w", 0xa000202f, 0xf800707f, false,
    fun w => .amomaxW (rdField w) (rs2Field w) (rs1Field w) (aqField w) (rlField w)⟩,
  ⟨"amominu.w", 0xc000202f, 0xf800707f, false,
    fun w => .amominuW (rdField w) (rs2Field w) (rs1Field w) (aqField w) (rlField w)⟩,
  ⟨"amomaxu.w", 0xe000202f, 0xf800707f, false,
    fun w => .amomaxuW (rdField w) (rs2Field w) (rs1Field w) (aqField w) (rlField w)⟩]

/-- The floating-point units (43_fp.md): rows of R58, in the order of the opcode table. -/
def fpRowsA : List OpRow := [
  ⟨"flw", 0x00002007, 0x0000707f, false,
    fun w => .flw (rdField w) (rs1Field w) (immIField w)⟩,
  ⟨"fsw", 0x00002027, 0x0000707f, false,
    fun w => .fsw (rs2Field w) (rs1Field w) (immSField w)⟩,
  ⟨"fmadd.s", 0x00000043, 0x0600007f, true,
    fun w => .fmaddS (rdField w) (rs1Field w) (rs2Field w) (rs3Field w) (rmField w)⟩,
  ⟨"fmsub.s", 0x00000047, 0x0600007f, true,
    fun w => .fmsubS (rdField w) (rs1Field w) (rs2Field w) (rs3Field w) (rmField w)⟩,
  ⟨"fnmsub.s", 0x0000004b, 0x0600007f, true,
    fun w => .fnmsubS (rdField w) (rs1Field w) (rs2Field w) (rs3Field w) (rmField w)⟩,
  ⟨"fnmadd.s", 0x0000004f, 0x0600007f, true,
    fun w => .fnmaddS (rdField w) (rs1Field w) (rs2Field w) (rs3Field w) (rmField w)⟩,
  ⟨"fadd.s", 0x00000053, 0xfe00007f, true,
    fun w => .faddS (rdField w) (rs1Field w) (rs2Field w) (rmField w)⟩,
  ⟨"fsub.s", 0x08000053, 0xfe00007f, true,
    fun w => .fsubS (rdField w) (rs1Field w) (rs2Field w) (rmField w)⟩,
  ⟨"fmul.s", 0x10000053, 0xfe00007f, true,
    fun w => .fmulS (rdField w) (rs1Field w) (rs2Field w) (rmField w)⟩,
  ⟨"fdiv.s", 0x18000053, 0xfe00007f, true,
    fun w => .fdivS (rdField w) (rs1Field w) (rs2Field w) (rmField w)⟩,
  ⟨"fsqrt.s", 0x58000053, 0xfff0007f, true,
    fun w => .fsqrtS (rdField w) (rs1Field w) (rmField w)⟩,
  ⟨"fsgnj.s", 0x20000053, 0xfe00707f, false,
    fun w => .fsgnjS (rdField w) (rs1Field w) (rs2Field w)⟩,
  ⟨"fsgnjn.s", 0x20001053, 0xfe00707f, false,
    fun w => .fsgnjnS (rdField w) (rs1Field w) (rs2Field w)⟩,
  ⟨"fsgnjx.s", 0x20002053, 0xfe00707f, false,
    fun w => .fsgnjxS (rdField w) (rs1Field w) (rs2Field w)⟩,
  ⟨"fmin.s", 0x28000053, 0xfe00707f, false,
    fun w => .fminS (rdField w) (rs1Field w) (rs2Field w)⟩,
  ⟨"fmax.s", 0x28001053, 0xfe00707f, false,
    fun w => .fmaxS (rdField w) (rs1Field w) (rs2Field w)⟩,
  ⟨"feq.s", 0xa0002053, 0xfe00707f, false,
    fun w => .feqS (rdField w) (rs1Field w) (rs2Field w)⟩,
  ⟨"flt.s", 0xa0001053, 0xfe00707f, false,
    fun w => .fltS (rdField w) (rs1Field w) (rs2Field w)⟩,
  ⟨"fle.s", 0xa0000053, 0xfe00707f, false,
    fun w => .fleS (rdField w) (rs1Field w) (rs2Field w)⟩,
  ⟨"fcvt.w.s", 0xc0000053, 0xfff0007f, true,
    fun w => .fcvtWS (rdField w) (rs1Field w) (rmField w)⟩,
  ⟨"fcvt.wu.s", 0xc0100053, 0xfff0007f, true,
    fun w => .fcvtWUS (rdField w) (rs1Field w) (rmField w)⟩,
  ⟨"fcvt.s.w", 0xd0000053, 0xfff0007f, true,
    fun w => .fcvtSW (rdField w) (rs1Field w) (rmField w)⟩,
  ⟨"fcvt.s.wu", 0xd0100053, 0xfff0007f, true,
    fun w => .fcvtSWU (rdField w) (rs1Field w) (rmField w)⟩,
  ⟨"fmv.x.w", 0xe0000053, 0xfff0707f, false,
    fun w => .fmvXW (rdField w) (rs1Field w)⟩,
  ⟨"fmv.w.x", 0xf0000053, 0xfff0707f, false,
    fun w => .fmvWX (rdField w) (rs1Field w)⟩]

/-- The floating-point units (43_fp.md): rows of R58, in the order of the opcode table. -/
def fpRowsB : List OpRow := [
  ⟨"fld", 0x00003007, 0x0000707f, false,
    fun w => .fld (rdField w) (rs1Field w) (immIField w)⟩,
  ⟨"fsd", 0x00003027, 0x0000707f, false,
    fun w => .fsd (rs2Field w) (rs1Field w) (immSField w)⟩,
  ⟨"fmadd.d", 0x02000043, 0x0600007f, true,
    fun w => .fmaddD (rdField w) (rs1Field w) (rs2Field w) (rs3Field w) (rmField w)⟩,
  ⟨"fmsub.d", 0x02000047, 0x0600007f, true,
    fun w => .fmsubD (rdField w) (rs1Field w) (rs2Field w) (rs3Field w) (rmField w)⟩,
  ⟨"fnmsub.d", 0x0200004b, 0x0600007f, true,
    fun w => .fnmsubD (rdField w) (rs1Field w) (rs2Field w) (rs3Field w) (rmField w)⟩,
  ⟨"fnmadd.d", 0x0200004f, 0x0600007f, true,
    fun w => .fnmaddD (rdField w) (rs1Field w) (rs2Field w) (rs3Field w) (rmField w)⟩,
  ⟨"fadd.d", 0x02000053, 0xfe00007f, true,
    fun w => .faddD (rdField w) (rs1Field w) (rs2Field w) (rmField w)⟩,
  ⟨"fsub.d", 0x0a000053, 0xfe00007f, true,
    fun w => .fsubD (rdField w) (rs1Field w) (rs2Field w) (rmField w)⟩,
  ⟨"fmul.d", 0x12000053, 0xfe00007f, true,
    fun w => .fmulD (rdField w) (rs1Field w) (rs2Field w) (rmField w)⟩,
  ⟨"fdiv.d", 0x1a000053, 0xfe00007f, true,
    fun w => .fdivD (rdField w) (rs1Field w) (rs2Field w) (rmField w)⟩,
  ⟨"fsqrt.d", 0x5a000053, 0xfff0007f, true,
    fun w => .fsqrtD (rdField w) (rs1Field w) (rmField w)⟩,
  ⟨"fsgnj.d", 0x22000053, 0xfe00707f, false,
    fun w => .fsgnjD (rdField w) (rs1Field w) (rs2Field w)⟩,
  ⟨"fsgnjn.d", 0x22001053, 0xfe00707f, false,
    fun w => .fsgnjnD (rdField w) (rs1Field w) (rs2Field w)⟩,
  ⟨"fsgnjx.d", 0x22002053, 0xfe00707f, false,
    fun w => .fsgnjxD (rdField w) (rs1Field w) (rs2Field w)⟩,
  ⟨"fmin.d", 0x2a000053, 0xfe00707f, false,
    fun w => .fminD (rdField w) (rs1Field w) (rs2Field w)⟩,
  ⟨"fmax.d", 0x2a001053, 0xfe00707f, false,
    fun w => .fmaxD (rdField w) (rs1Field w) (rs2Field w)⟩,
  ⟨"feq.d", 0xa2002053, 0xfe00707f, false,
    fun w => .feqD (rdField w) (rs1Field w) (rs2Field w)⟩,
  ⟨"flt.d", 0xa2001053, 0xfe00707f, false,
    fun w => .fltD (rdField w) (rs1Field w) (rs2Field w)⟩,
  ⟨"fle.d", 0xa2000053, 0xfe00707f, false,
    fun w => .fleD (rdField w) (rs1Field w) (rs2Field w)⟩,
  ⟨"fcvt.w.d", 0xc2000053, 0xfff0007f, true,
    fun w => .fcvtWD (rdField w) (rs1Field w) (rmField w)⟩,
  ⟨"fcvt.wu.d", 0xc2100053, 0xfff0007f, true,
    fun w => .fcvtWUD (rdField w) (rs1Field w) (rmField w)⟩,
  ⟨"fcvt.d.w", 0xd2000053, 0xfff0007f, true,
    fun w => .fcvtDW (rdField w) (rs1Field w) (rmField w)⟩,
  ⟨"fcvt.d.wu", 0xd2100053, 0xfff0007f, true,
    fun w => .fcvtDWU (rdField w) (rs1Field w) (rmField w)⟩,
  ⟨"fcvt.s.d", 0x40100053, 0xfff0007f, true,
    fun w => .fcvtSD (rdField w) (rs1Field w) (rmField w)⟩,
  ⟨"fcvt.d.s", 0x42000053, 0xfff0007f, true,
    fun w => .fcvtDS (rdField w) (rs1Field w) (rmField w)⟩]

/-- The CSR unit (44_zicsr.md): rows of R58, in the order of the opcode table. -/
def zicsrRows : List OpRow := [
  ⟨"csrrw", 0x00001073, 0x0000707f, false,
    fun w => .csrrw (rdField w) (immIField w) (rs1Field w)⟩,
  ⟨"csrrs", 0x00002073, 0x0000707f, false,
    fun w => .csrrs (rdField w) (immIField w) (rs1Field w)⟩,
  ⟨"csrrc", 0x00003073, 0x0000707f, false,
    fun w => .csrrc (rdField w) (immIField w) (rs1Field w)⟩]

/-- Vector configuration, loads and stores (45_vector_config_mem.md): rows of R58, in the order of the opcode table. -/
def vectorMemRows : List OpRow := [
  ⟨"vsetvli", 0x00007057, 0x8000707f, false,
    fun w => .vsetvli (rdField w) (rs1Field w) (zimmField w)⟩,
  ⟨"vle8.v", 0x02000007, 0xfff0707f, false,
    fun w => .vle8V (rdField w) (rs1Field w)⟩,
  ⟨"vlse8.v", 0x0a000007, 0xfe00707f, false,
    fun w => .vlse8V (rdField w) (rs1Field w) (rs2Field w)⟩,
  ⟨"vse8.v", 0x02000027, 0xfff0707f, false,
    fun w => .vse8V (rdField w) (rs1Field w)⟩,
  ⟨"vsse8.v", 0x0a000027, 0xfe00707f, false,
    fun w => .vsse8V (rdField w) (rs1Field w) (rs2Field w)⟩,
  ⟨"vle16.v", 0x02005007, 0xfff0707f, false,
    fun w => .vle16V (rdField w) (rs1Field w)⟩,
  ⟨"vlse16.v", 0x0a005007, 0xfe00707f, false,
    fun w => .vlse16V (rdField w) (rs1Field w) (rs2Field w)⟩,
  ⟨"vse16.v", 0x02005027, 0xfff0707f, false,
    fun w => .vse16V (rdField w) (rs1Field w)⟩,
  ⟨"vsse16.v", 0x0a005027, 0xfe00707f, false,
    fun w => .vsse16V (rdField w) (rs1Field w) (rs2Field w)⟩,
  ⟨"vle32.v", 0x02006007, 0xfff0707f, false,
    fun w => .vle32V (rdField w) (rs1Field w)⟩,
  ⟨"vlse32.v", 0x0a006007, 0xfe00707f, false,
    fun w => .vlse32V (rdField w) (rs1Field w) (rs2Field w)⟩,
  ⟨"vse32.v", 0x02006027, 0xfff0707f, false,
    fun w => .vse32V (rdField w) (rs1Field w)⟩,
  ⟨"vsse32.v", 0x0a006027, 0xfe00707f, false,
    fun w => .vsse32V (rdField w) (rs1Field w) (rs2Field w)⟩]

/-- Vector ALU, compares, moves and reductions (46_vector_alu.md): rows of R58, in the order of the opcode table. -/
def vectorAluRowsA : List OpRow := [
  ⟨"vadd.vv", 0x02000057, 0xfe00707f, false,
    fun w => .vaddVV (rdField w) (rs2Field w) (rs1Field w)⟩,
  ⟨"vadd.vx", 0x02004057, 0xfe00707f, false,
    fun w => .vaddVX (rdField w) (rs2Field w) (rs1Field w)⟩,
  ⟨"vadd.vi", 0x02003057, 0xfe00707f, false,
    fun w => .vaddVI (rdField w) (rs2Field w) (rs1Field w)⟩,
  ⟨"vsub.vv", 0x0a000057, 0xfe00707f, false,
    fun w => .vsubVV (rdField w) (rs2Field w) (rs1Field w)⟩,
  ⟨"vsub.vx", 0x0a004057, 0xfe00707f, false,
    fun w => .vsubVX (rdField w) (rs2Field w) (rs1Field w)⟩,
  ⟨"vminu.vv", 0x12000057, 0xfe00707f, false,
    fun w => .vminuVV (rdField w) (rs2Field w) (rs1Field w)⟩,
  ⟨"vminu.vx", 0x12004057, 0xfe00707f, false,
    fun w => .vminuVX (rdField w) (rs2Field w) (rs1Field w)⟩,
  ⟨"vmaxu.vv", 0x1a000057, 0xfe00707f, false,
    fun w => .vmaxuVV (rdField w) (rs2Field w) (rs1Field w)⟩,
  ⟨"vmaxu.vx", 0x1a004057, 0xfe00707f, false,
    fun w => .vmaxuVX (rdField w) (rs2Field w) (rs1Field w)⟩,
  ⟨"vand.vv", 0x26000057, 0xfe00707f, false,
    fun w => .vandVV (rdField w) (rs2Field w) (rs1Field w)⟩,
  ⟨"vand.vx", 0x26004057, 0xfe00707f, false,
    fun w => .vandVX (rdField w) (rs2Field w) (rs1Field w)⟩,
  ⟨"vand.vi", 0x26003057, 0xfe00707f, false,
    fun w => .vandVI (rdField w) (rs2Field w) (rs1Field w)⟩,
  ⟨"vor.vv", 0x2a000057, 0xfe00707f, false,
    fun w => .vorVV (rdField w) (rs2Field w) (rs1Field w)⟩,
  ⟨"vor.vx", 0x2a004057, 0xfe00707f, false,
    fun w => .vorVX (rdField w) (rs2Field w) (rs1Field w)⟩,
  ⟨"vor.vi", 0x2a003057, 0xfe00707f, false,
    fun w => .vorVI (rdField w) (rs2Field w) (rs1Field w)⟩,
  ⟨"vxor.vv", 0x2e000057, 0xfe00707f, false,
    fun w => .vxorVV (rdField w) (rs2Field w) (rs1Field w)⟩,
  ⟨"vxor.vx", 0x2e004057, 0xfe00707f, false,
    fun w => .vxorVX (rdField w) (rs2Field w) (rs1Field w)⟩,
  ⟨"vxor.vi", 0x2e003057, 0xfe00707f, false,
    fun w => .vxorVI (rdField w) (rs2Field w) (rs1Field w)⟩,
  ⟨"vmseq.vv", 0x62000057, 0xfe00707f, false,
    fun w => .vmseqVV (rdField w) (rs2Field w) (rs1Field w)⟩,
  ⟨"vmseq.vx", 0x62004057, 0xfe00707f, false,
    fun w => .vmseqVX (rdField w) (rs2Field w) (rs1Field w)⟩,
  ⟨"vmseq.vi", 0x62003057, 0xfe00707f, false,
    fun w => .vmseqVI (rdField w) (rs2Field w) (rs1Field w)⟩,
  ⟨"vmsne.vv", 0x66000057, 0xfe00707f, false,
    fun w => .vmsneVV (rdField w) (rs2Field w) (rs1Field w)⟩,
  ⟨"vmsne.vx", 0x66004057, 0xfe00707f, false,
    fun w => .vmsneVX (rdField w) (rs2Field w) (rs1Field w)⟩,
  ⟨"vmsne.vi", 0x66003057, 0xfe00707f, false,
    fun w => .vmsneVI (rdField w) (rs2Field w) (rs1Field w)⟩,
  ⟨"vmslt.vv", 0x6e000057, 0xfe00707f, false,
    fun w => .vmsltVV (rdField w) (rs2Field w) (rs1Field w)⟩]

/-- Vector ALU, compares, moves and reductions (46_vector_alu.md): rows of R58, in the order of the opcode table. -/
def vectorAluRowsB : List OpRow := [
  ⟨"vmslt.vx", 0x6e004057, 0xfe00707f, false,
    fun w => .vmsltVX (rdField w) (rs2Field w) (rs1Field w)⟩,
  ⟨"vmsle.vv", 0x76000057, 0xfe00707f, false,
    fun w => .vmsleVV (rdField w) (rs2Field w) (rs1Field w)⟩,
  ⟨"vmsle.vx", 0x76004057, 0xfe00707f, false,
    fun w => .vmsleVX (rdField w) (rs2Field w) (rs1Field w)⟩,
  ⟨"vmsle.vi", 0x76003057, 0xfe00707f, false,
    fun w => .vmsleVI (rdField w) (rs2Field w) (rs1Field w)⟩,
  ⟨"vmsgt.vx", 0x7e004057, 0xfe00707f, false,
    fun w => .vmsgtVX (rdField w) (rs2Field w) (rs1Field w)⟩,
  ⟨"vmsgt.vi", 0x7e003057, 0xfe00707f, false,
    fun w => .vmsgtVI (rdField w) (rs2Field w) (rs1Field w)⟩,
  ⟨"vsll.vv", 0x96000057, 0xfe00707f, false,
    fun w => .vsllVV (rdField w) (rs2Field w) (rs1Field w)⟩,
  ⟨"vsll.vx", 0x96004057, 0xfe00707f, false,
    fun w => .vsllVX (rdField w) (rs2Field w) (rs1Field w)⟩,
  ⟨"vsll.vi", 0x96003057, 0xfe00707f, false,
    fun w => .vsllVI (rdField w) (rs2Field w) (rs1Field w)⟩,
  ⟨"vsrl.vv", 0xa2000057, 0xfe00707f, false,
    fun w => .vsrlVV (rdField w) (rs2Field w) (rs1Field w)⟩,
  ⟨"vsrl.vx", 0xa2004057, 0xfe00707f, false,
    fun w => .vsrlVX (rdField w) (rs2Field w) (rs1Field w)⟩,
  ⟨"vsrl.vi", 0xa2003057, 0xfe00707f, false,
    fun w => .vsrlVI (rdField w) (rs2Field w) (rs1Field w)⟩,
  ⟨"vmul.vv", 0x96002057, 0xfe00707f, false,
    fun w => .vmulVV (rdField w) (rs2Field w) (rs1Field w)⟩,
  ⟨"vmul.vx", 0x96006057, 0xfe00707f, false,
    fun w => .vmulVX (rdField w) (rs2Field w) (rs1Field w)⟩,
  ⟨"vredsum.vs", 0x02002057, 0xfe00707f, false,
    fun w => .vredsumVS (rdField w) (rs2Field w) (rs1Field w)⟩,
  ⟨"vwredsumu.vs", 0xc2000057, 0xfe00707f, false,
    fun w => .vwredsumuVS (rdField w) (rs2Field w) (rs1Field w)⟩,
  ⟨"vmv.x.s", 0x42002057, 0xfe0ff07f, false,
    fun w => .vmvXS (rdField w) (rs2Field w)⟩,
  ⟨"vmv.s.x", 0x42006057, 0xfff0707f, false,
    fun w => .vmvSX (rdField w) (rs1Field w)⟩]

/-- The complete opcode map, 169 rows (R58). -/
def opcodeMap : List OpRow :=
  rv32iRowsA ++ rv32iRowsB ++ rv32mRows ++ rv32aRows ++ fpRowsA ++ fpRowsB ++ zicsrRows ++ vectorMemRows ++ vectorAluRowsA ++ vectorAluRowsB

/-! ## The decoder (R55) -/

/-- Why a word or a string of bytes is no instruction. -/
inductive DecodeError where
  /-- Bits 1:0 are not 11, or bits 4:2 are 111 (R50). -/
  | notStandardLength
  /-- No row of the opcode map matches (R55). -/
  | noRow
  /-- A row with an rm field matches and rm is 101 or 110 (R55). -/
  | reservedRm
  /-- Fewer than four bytes are left. -/
  | truncated
  deriving DecidableEq, Repr

/-- The instruction of a word, or the name of its rejection (R50, R55). -/
def decode (w : Word) : Except DecodeError Instr :=
  if w.extractLsb' 0 2 ≠ 3#2 ∨ w.extractLsb' 2 3 = 7#3 then .error .notStandardLength
  else match opcodeMap.find? (fun r => r.accepts w) with
    | none => .error .noRow
    | some r => if r.hasRm && reservedRm (rmField w) then .error .reservedRm else .ok (r.build w)

/-- Decoding from bytes: an instruction is one little-endian word (R50, R38). -/
def decodeBytes : List Byte → Except DecodeError (Instr × List Byte)
  | b0 :: b1 :: b2 :: b3 :: rest =>
    match decode (b3 ++ b2 ++ b1 ++ b0) with
    | .error e => .error e
    | .ok i => .ok (i, rest)
  | _ => .error .truncated

/-- The four bytes of a word as memory holds them, lowest address first (R38). -/
def wordBytes (w : Word) : List Byte :=
  [w.extractLsb' 0 8, w.extractLsb' 8 8, w.extractLsb' 16 8, w.extractLsb' 24 8]

/-- The word that an opcode-table row of `nbits` bits and the value `w` stand for: bits from `nbits` up are 0. -/
def tableWord (nbits w : Nat) : Word := BitVec.ofNat 32 (w % 2 ^ nbits)

/-- What the decoder reads from a word of the opcode table, laid out as the hardware stores it. -/
def decodeTableWord (nbits w : Nat) : Option Instr :=
  match decodeBytes (wordBytes (tableWord nbits w)) with
  | .ok (i, _) => some i
  | .error _ => none

/-! ## The encoder (R51, R52) -/

def encR (f7 : BitVec 7) (rs2 rs1 : BitVec 5) (f3 : BitVec 3) (rd : BitVec 5) (op : BitVec 7) : Word :=
  f7 ++ rs2 ++ rs1 ++ f3 ++ rd ++ op

def encI (imm : BitVec 12) (rs1 : BitVec 5) (f3 : BitVec 3) (rd : BitVec 5) (op : BitVec 7) : Word :=
  imm ++ rs1 ++ f3 ++ rd ++ op

def encS (imm : BitVec 12) (rs2 rs1 : BitVec 5) (f3 : BitVec 3) (op : BitVec 7) : Word :=
  imm.extractLsb' 5 7 ++ rs2 ++ rs1 ++ f3 ++ imm.extractLsb' 0 5 ++ op

def encB (off : BitVec 13) (rs2 rs1 : BitVec 5) (f3 : BitVec 3) (op : BitVec 7) : Word :=
  off.extractLsb' 12 1 ++ off.extractLsb' 5 6 ++ rs2 ++ rs1 ++ f3 ++ off.extractLsb' 1 4 ++ off.extractLsb' 11 1 ++ op

def encU (imm : BitVec 20) (rd : BitVec 5) (op : BitVec 7) : Word :=
  imm ++ rd ++ op

def encJ (off : BitVec 21) (rd : BitVec 5) (op : BitVec 7) : Word :=
  off.extractLsb' 20 1 ++ off.extractLsb' 1 10 ++ off.extractLsb' 11 1 ++ off.extractLsb' 12 8 ++ rd ++ op

def encR4 (rs3 : BitVec 5) (fmt : BitVec 2) (rs2 rs1 : BitVec 5) (rm : BitVec 3) (rd : BitVec 5) (op : BitVec 7) : Word :=
  rs3 ++ fmt ++ rs2 ++ rs1 ++ rm ++ rd ++ op

def encAmo (f5 : BitVec 5) (aq rl : Bool) (rs2 rs1 : BitVec 5) (f3 : BitVec 3) (rd : BitVec 5) (op : BitVec 7) : Word :=
  f5 ++ BitVec.ofBool aq ++ BitVec.ofBool rl ++ rs2 ++ rs1 ++ f3 ++ rd ++ op

/-- The word of an instruction, laid out by the formats of R51 and R52 with the fixed fields of R58. -/
def encode : Instr → Word
  | .lui rd immU => encU immU rd 0b0110111#7
  | .auipc rd immU => encU immU rd 0b0010111#7
  | .jal rd immJ => encJ immJ rd 0b1101111#7
  | .jalr rd rs1 imm12 => encI imm12 rs1 0b000#3 rd 0b1100111#7
  | .beq rs1 rs2 immB => encB immB rs2 rs1 0b000#3 0b1100011#7
  | .bne rs1 rs2 immB => encB immB rs2 rs1 0b001#3 0b1100011#7
  | .blt rs1 rs2 immB => encB immB rs2 rs1 0b100#3 0b1100011#7
  | .bge rs1 rs2 immB => encB immB rs2 rs1 0b101#3 0b1100011#7
  | .bltu rs1 rs2 immB => encB immB rs2 rs1 0b110#3 0b1100011#7
  | .bgeu rs1 rs2 immB => encB immB rs2 rs1 0b111#3 0b1100011#7
  | .lb rd rs1 imm12 => encI imm12 rs1 0b000#3 rd 0b0000011#7
  | .lh rd rs1 imm12 => encI imm12 rs1 0b001#3 rd 0b0000011#7
  | .lw rd rs1 imm12 => encI imm12 rs1 0b010#3 rd 0b0000011#7
  | .lbu rd rs1 imm12 => encI imm12 rs1 0b100#3 rd 0b0000011#7
  | .lhu rd rs1 imm12 => encI imm12 rs1 0b101#3 rd 0b0000011#7
  | .sb rs2 rs1 immS => encS immS rs2 rs1 0b000#3 0b0100011#7
  | .sh rs2 rs1 immS => encS immS rs2 rs1 0b001#3 0b0100011#7
  | .sw rs2 rs1 immS => encS immS rs2 rs1 0b010#3 0b0100011#7
  | .addi rd rs1 imm12 => encI imm12 rs1 0b000#3 rd 0b0010011#7
  | .slti rd rs1 imm12 => encI imm12 rs1 0b010#3 rd 0b0010011#7
  | .sltiu rd rs1 imm12 => encI imm12 rs1 0b011#3 rd 0b0010011#7
  | .xori rd rs1 imm12 => encI imm12 rs1 0b100#3 rd 0b0010011#7
  | .ori rd rs1 imm12 => encI imm12 rs1 0b110#3 rd 0b0010011#7
  | .andi rd rs1 imm12 => encI imm12 rs1 0b111#3 rd 0b0010011#7
  | .slli rd rs1 shamt => encR 0b0000000#7 shamt rs1 0b001#3 rd 0b0010011#7
  | .srli rd rs1 shamt => encR 0b0000000#7 shamt rs1 0b101#3 rd 0b0010011#7
  | .srai rd rs1 shamt => encR 0b0100000#7 shamt rs1 0b101#3 rd 0b0010011#7
  | .add rd rs1 rs2 => encR 0b0000000#7 rs2 rs1 0b000#3 rd 0b0110011#7
  | .sub rd rs1 rs2 => encR 0b0100000#7 rs2 rs1 0b000#3 rd 0b0110011#7
  | .sll rd rs1 rs2 => encR 0b0000000#7 rs2 rs1 0b001#3 rd 0b0110011#7
  | .slt rd rs1 rs2 => encR 0b0000000#7 rs2 rs1 0b010#3 rd 0b0110011#7
  | .sltu rd rs1 rs2 => encR 0b0000000#7 rs2 rs1 0b011#3 rd 0b0110011#7
  | .xor rd rs1 rs2 => encR 0b0000000#7 rs2 rs1 0b100#3 rd 0b0110011#7
  | .srl rd rs1 rs2 => encR 0b0000000#7 rs2 rs1 0b101#3 rd 0b0110011#7
  | .sra rd rs1 rs2 => encR 0b0100000#7 rs2 rs1 0b101#3 rd 0b0110011#7
  | .or rd rs1 rs2 => encR 0b0000000#7 rs2 rs1 0b110#3 rd 0b0110011#7
  | .and rd rs1 rs2 => encR 0b0000000#7 rs2 rs1 0b111#3 rd 0b0110011#7
  | .fence fm pred succ rs1 rd => encI (fm ++ pred ++ succ) rs1 0b000#3 rd 0b0001111#7
  | .fenceI imm12 rs1 rd => encI imm12 rs1 0b001#3 rd 0b0001111#7
  | .ecall => encI 0b000000000000#12 0b00000#5 0b000#3 0b00000#5 0b1110011#7
  | .ebreak => encI 0b000000000001#12 0b00000#5 0b000#3 0b00000#5 0b1110011#7
  | .mul rd rs1 rs2 => encR 0b0000001#7 rs2 rs1 0b000#3 rd 0b0110011#7
  | .mulh rd rs1 rs2 => encR 0b0000001#7 rs2 rs1 0b001#3 rd 0b0110011#7
  | .mulhsu rd rs1 rs2 => encR 0b0000001#7 rs2 rs1 0b010#3 rd 0b0110011#7
  | .mulhu rd rs1 rs2 => encR 0b0000001#7 rs2 rs1 0b011#3 rd 0b0110011#7
  | .div rd rs1 rs2 => encR 0b0000001#7 rs2 rs1 0b100#3 rd 0b0110011#7
  | .divu rd rs1 rs2 => encR 0b0000001#7 rs2 rs1 0b101#3 rd 0b0110011#7
  | .rem rd rs1 rs2 => encR 0b0000001#7 rs2 rs1 0b110#3 rd 0b0110011#7
  | .remu rd rs1 rs2 => encR 0b0000001#7 rs2 rs1 0b111#3 rd 0b0110011#7
  | .lrW rd rs1 aq rl => encAmo 0b00010#5 aq rl 0b00000#5 rs1 0b010#3 rd 0b0101111#7
  | .scW rd rs2 rs1 aq rl => encAmo 0b00011#5 aq rl rs2 rs1 0b010#3 rd 0b0101111#7
  | .amoswapW rd rs2 rs1 aq rl => encAmo 0b00001#5 aq rl rs2 rs1 0b010#3 rd 0b0101111#7
  | .amoaddW rd rs2 rs1 aq rl => encAmo 0b00000#5 aq rl rs2 rs1 0b010#3 rd 0b0101111#7
  | .amoxorW rd rs2 rs1 aq rl => encAmo 0b00100#5 aq rl rs2 rs1 0b010#3 rd 0b0101111#7
  | .amoandW rd rs2 rs1 aq rl => encAmo 0b01100#5 aq rl rs2 rs1 0b010#3 rd 0b0101111#7
  | .amoorW rd rs2 rs1 aq rl => encAmo 0b01000#5 aq rl rs2 rs1 0b010#3 rd 0b0101111#7
  | .amominW rd rs2 rs1 aq rl => encAmo 0b10000#5 aq rl rs2 rs1 0b010#3 rd 0b0101111#7
  | .amomaxW rd rs2 rs1 aq rl => encAmo 0b10100#5 aq rl rs2 rs1 0b010#3 rd 0b0101111#7
  | .amominuW rd rs2 rs1 aq rl => encAmo 0b11000#5 aq rl rs2 rs1 0b010#3 rd 0b0101111#7
  | .amomaxuW rd rs2 rs1 aq rl => encAmo 0b11100#5 aq rl rs2 rs1 0b010#3 rd 0b0101111#7
  | .flw rd rs1 imm12 => encI imm12 rs1 0b010#3 rd 0b0000111#7
  | .fsw rs2 rs1 immS => encS immS rs2 rs1 0b010#3 0b0100111#7
  | .fmaddS rd rs1 rs2 rs3 rm => encR4 rs3 0b00#2 rs2 rs1 rm rd 0b1000011#7
  | .fmsubS rd rs1 rs2 rs3 rm => encR4 rs3 0b00#2 rs2 rs1 rm rd 0b1000111#7
  | .fnmsubS rd rs1 rs2 rs3 rm => encR4 rs3 0b00#2 rs2 rs1 rm rd 0b1001011#7
  | .fnmaddS rd rs1 rs2 rs3 rm => encR4 rs3 0b00#2 rs2 rs1 rm rd 0b1001111#7
  | .faddS rd rs1 rs2 rm => encR 0b0000000#7 rs2 rs1 rm rd 0b1010011#7
  | .fsubS rd rs1 rs2 rm => encR 0b0000100#7 rs2 rs1 rm rd 0b1010011#7
  | .fmulS rd rs1 rs2 rm => encR 0b0001000#7 rs2 rs1 rm rd 0b1010011#7
  | .fdivS rd rs1 rs2 rm => encR 0b0001100#7 rs2 rs1 rm rd 0b1010011#7
  | .fsqrtS rd rs1 rm => encR 0b0101100#7 0b00000#5 rs1 rm rd 0b1010011#7
  | .fsgnjS rd rs1 rs2 => encR 0b0010000#7 rs2 rs1 0b000#3 rd 0b1010011#7
  | .fsgnjnS rd rs1 rs2 => encR 0b0010000#7 rs2 rs1 0b001#3 rd 0b1010011#7
  | .fsgnjxS rd rs1 rs2 => encR 0b0010000#7 rs2 rs1 0b010#3 rd 0b1010011#7
  | .fminS rd rs1 rs2 => encR 0b0010100#7 rs2 rs1 0b000#3 rd 0b1010011#7
  | .fmaxS rd rs1 rs2 => encR 0b0010100#7 rs2 rs1 0b001#3 rd 0b1010011#7
  | .feqS rd rs1 rs2 => encR 0b1010000#7 rs2 rs1 0b010#3 rd 0b1010011#7
  | .fltS rd rs1 rs2 => encR 0b1010000#7 rs2 rs1 0b001#3 rd 0b1010011#7
  | .fleS rd rs1 rs2 => encR 0b1010000#7 rs2 rs1 0b000#3 rd 0b1010011#7
  | .fcvtWS rd rs1 rm => encR 0b1100000#7 0b00000#5 rs1 rm rd 0b1010011#7
  | .fcvtWUS rd rs1 rm => encR 0b1100000#7 0b00001#5 rs1 rm rd 0b1010011#7
  | .fcvtSW rd rs1 rm => encR 0b1101000#7 0b00000#5 rs1 rm rd 0b1010011#7
  | .fcvtSWU rd rs1 rm => encR 0b1101000#7 0b00001#5 rs1 rm rd 0b1010011#7
  | .fmvXW rd rs1 => encR 0b1110000#7 0b00000#5 rs1 0b000#3 rd 0b1010011#7
  | .fmvWX rd rs1 => encR 0b1111000#7 0b00000#5 rs1 0b000#3 rd 0b1010011#7
  | .fld rd rs1 imm12 => encI imm12 rs1 0b011#3 rd 0b0000111#7
  | .fsd rs2 rs1 immS => encS immS rs2 rs1 0b011#3 0b0100111#7
  | .fmaddD rd rs1 rs2 rs3 rm => encR4 rs3 0b01#2 rs2 rs1 rm rd 0b1000011#7
  | .fmsubD rd rs1 rs2 rs3 rm => encR4 rs3 0b01#2 rs2 rs1 rm rd 0b1000111#7
  | .fnmsubD rd rs1 rs2 rs3 rm => encR4 rs3 0b01#2 rs2 rs1 rm rd 0b1001011#7
  | .fnmaddD rd rs1 rs2 rs3 rm => encR4 rs3 0b01#2 rs2 rs1 rm rd 0b1001111#7
  | .faddD rd rs1 rs2 rm => encR 0b0000001#7 rs2 rs1 rm rd 0b1010011#7
  | .fsubD rd rs1 rs2 rm => encR 0b0000101#7 rs2 rs1 rm rd 0b1010011#7
  | .fmulD rd rs1 rs2 rm => encR 0b0001001#7 rs2 rs1 rm rd 0b1010011#7
  | .fdivD rd rs1 rs2 rm => encR 0b0001101#7 rs2 rs1 rm rd 0b1010011#7
  | .fsqrtD rd rs1 rm => encR 0b0101101#7 0b00000#5 rs1 rm rd 0b1010011#7
  | .fsgnjD rd rs1 rs2 => encR 0b0010001#7 rs2 rs1 0b000#3 rd 0b1010011#7
  | .fsgnjnD rd rs1 rs2 => encR 0b0010001#7 rs2 rs1 0b001#3 rd 0b1010011#7
  | .fsgnjxD rd rs1 rs2 => encR 0b0010001#7 rs2 rs1 0b010#3 rd 0b1010011#7
  | .fminD rd rs1 rs2 => encR 0b0010101#7 rs2 rs1 0b000#3 rd 0b1010011#7
  | .fmaxD rd rs1 rs2 => encR 0b0010101#7 rs2 rs1 0b001#3 rd 0b1010011#7
  | .feqD rd rs1 rs2 => encR 0b1010001#7 rs2 rs1 0b010#3 rd 0b1010011#7
  | .fltD rd rs1 rs2 => encR 0b1010001#7 rs2 rs1 0b001#3 rd 0b1010011#7
  | .fleD rd rs1 rs2 => encR 0b1010001#7 rs2 rs1 0b000#3 rd 0b1010011#7
  | .fcvtWD rd rs1 rm => encR 0b1100001#7 0b00000#5 rs1 rm rd 0b1010011#7
  | .fcvtWUD rd rs1 rm => encR 0b1100001#7 0b00001#5 rs1 rm rd 0b1010011#7
  | .fcvtDW rd rs1 rm => encR 0b1101001#7 0b00000#5 rs1 rm rd 0b1010011#7
  | .fcvtDWU rd rs1 rm => encR 0b1101001#7 0b00001#5 rs1 rm rd 0b1010011#7
  | .fcvtSD rd rs1 rm => encR 0b0100000#7 0b00001#5 rs1 rm rd 0b1010011#7
  | .fcvtDS rd rs1 rm => encR 0b0100001#7 0b00000#5 rs1 rm rd 0b1010011#7
  | .csrrw rd csr rs1 => encI csr rs1 0b001#3 rd 0b1110011#7
  | .csrrs rd csr rs1 => encI csr rs1 0b010#3 rd 0b1110011#7
  | .csrrc rd csr rs1 => encI csr rs1 0b011#3 rd 0b1110011#7
  | .vsetvli rd rs1 zimm => encI (0#1 ++ zimm) rs1 0b111#3 rd 0b1010111#7
  | .vle8V vd rs1 => encR 0b0000001#7 0b00000#5 rs1 0b000#3 vd 0b0000111#7
  | .vlse8V vd rs1 rs2 => encR 0b0000101#7 rs2 rs1 0b000#3 vd 0b0000111#7
  | .vse8V vs3 rs1 => encR 0b0000001#7 0b00000#5 rs1 0b000#3 vs3 0b0100111#7
  | .vsse8V vs3 rs1 rs2 => encR 0b0000101#7 rs2 rs1 0b000#3 vs3 0b0100111#7
  | .vle16V vd rs1 => encR 0b0000001#7 0b00000#5 rs1 0b101#3 vd 0b0000111#7
  | .vlse16V vd rs1 rs2 => encR 0b0000101#7 rs2 rs1 0b101#3 vd 0b0000111#7
  | .vse16V vs3 rs1 => encR 0b0000001#7 0b00000#5 rs1 0b101#3 vs3 0b0100111#7
  | .vsse16V vs3 rs1 rs2 => encR 0b0000101#7 rs2 rs1 0b101#3 vs3 0b0100111#7
  | .vle32V vd rs1 => encR 0b0000001#7 0b00000#5 rs1 0b110#3 vd 0b0000111#7
  | .vlse32V vd rs1 rs2 => encR 0b0000101#7 rs2 rs1 0b110#3 vd 0b0000111#7
  | .vse32V vs3 rs1 => encR 0b0000001#7 0b00000#5 rs1 0b110#3 vs3 0b0100111#7
  | .vsse32V vs3 rs1 rs2 => encR 0b0000101#7 rs2 rs1 0b110#3 vs3 0b0100111#7
  | .vaddVV vd vs2 vs1 => encR 0b0000001#7 vs2 vs1 0b000#3 vd 0b1010111#7
  | .vaddVX vd vs2 rs1 => encR 0b0000001#7 vs2 rs1 0b100#3 vd 0b1010111#7
  | .vaddVI vd vs2 imm5 => encR 0b0000001#7 vs2 imm5 0b011#3 vd 0b1010111#7
  | .vsubVV vd vs2 vs1 => encR 0b0000101#7 vs2 vs1 0b000#3 vd 0b1010111#7
  | .vsubVX vd vs2 rs1 => encR 0b0000101#7 vs2 rs1 0b100#3 vd 0b1010111#7
  | .vminuVV vd vs2 vs1 => encR 0b0001001#7 vs2 vs1 0b000#3 vd 0b1010111#7
  | .vminuVX vd vs2 rs1 => encR 0b0001001#7 vs2 rs1 0b100#3 vd 0b1010111#7
  | .vmaxuVV vd vs2 vs1 => encR 0b0001101#7 vs2 vs1 0b000#3 vd 0b1010111#7
  | .vmaxuVX vd vs2 rs1 => encR 0b0001101#7 vs2 rs1 0b100#3 vd 0b1010111#7
  | .vandVV vd vs2 vs1 => encR 0b0010011#7 vs2 vs1 0b000#3 vd 0b1010111#7
  | .vandVX vd vs2 rs1 => encR 0b0010011#7 vs2 rs1 0b100#3 vd 0b1010111#7
  | .vandVI vd vs2 imm5 => encR 0b0010011#7 vs2 imm5 0b011#3 vd 0b1010111#7
  | .vorVV vd vs2 vs1 => encR 0b0010101#7 vs2 vs1 0b000#3 vd 0b1010111#7
  | .vorVX vd vs2 rs1 => encR 0b0010101#7 vs2 rs1 0b100#3 vd 0b1010111#7
  | .vorVI vd vs2 imm5 => encR 0b0010101#7 vs2 imm5 0b011#3 vd 0b1010111#7
  | .vxorVV vd vs2 vs1 => encR 0b0010111#7 vs2 vs1 0b000#3 vd 0b1010111#7
  | .vxorVX vd vs2 rs1 => encR 0b0010111#7 vs2 rs1 0b100#3 vd 0b1010111#7
  | .vxorVI vd vs2 imm5 => encR 0b0010111#7 vs2 imm5 0b011#3 vd 0b1010111#7
  | .vmseqVV vd vs2 vs1 => encR 0b0110001#7 vs2 vs1 0b000#3 vd 0b1010111#7
  | .vmseqVX vd vs2 rs1 => encR 0b0110001#7 vs2 rs1 0b100#3 vd 0b1010111#7
  | .vmseqVI vd vs2 imm5 => encR 0b0110001#7 vs2 imm5 0b011#3 vd 0b1010111#7
  | .vmsneVV vd vs2 vs1 => encR 0b0110011#7 vs2 vs1 0b000#3 vd 0b1010111#7
  | .vmsneVX vd vs2 rs1 => encR 0b0110011#7 vs2 rs1 0b100#3 vd 0b1010111#7
  | .vmsneVI vd vs2 imm5 => encR 0b0110011#7 vs2 imm5 0b011#3 vd 0b1010111#7
  | .vmsltVV vd vs2 vs1 => encR 0b0110111#7 vs2 vs1 0b000#3 vd 0b1010111#7
  | .vmsltVX vd vs2 rs1 => encR 0b0110111#7 vs2 rs1 0b100#3 vd 0b1010111#7
  | .vmsleVV vd vs2 vs1 => encR 0b0111011#7 vs2 vs1 0b000#3 vd 0b1010111#7
  | .vmsleVX vd vs2 rs1 => encR 0b0111011#7 vs2 rs1 0b100#3 vd 0b1010111#7
  | .vmsleVI vd vs2 imm5 => encR 0b0111011#7 vs2 imm5 0b011#3 vd 0b1010111#7
  | .vmsgtVX vd vs2 rs1 => encR 0b0111111#7 vs2 rs1 0b100#3 vd 0b1010111#7
  | .vmsgtVI vd vs2 imm5 => encR 0b0111111#7 vs2 imm5 0b011#3 vd 0b1010111#7
  | .vsllVV vd vs2 vs1 => encR 0b1001011#7 vs2 vs1 0b000#3 vd 0b1010111#7
  | .vsllVX vd vs2 rs1 => encR 0b1001011#7 vs2 rs1 0b100#3 vd 0b1010111#7
  | .vsllVI vd vs2 imm5 => encR 0b1001011#7 vs2 imm5 0b011#3 vd 0b1010111#7
  | .vsrlVV vd vs2 vs1 => encR 0b1010001#7 vs2 vs1 0b000#3 vd 0b1010111#7
  | .vsrlVX vd vs2 rs1 => encR 0b1010001#7 vs2 rs1 0b100#3 vd 0b1010111#7
  | .vsrlVI vd vs2 imm5 => encR 0b1010001#7 vs2 imm5 0b011#3 vd 0b1010111#7
  | .vmulVV vd vs2 vs1 => encR 0b1001011#7 vs2 vs1 0b010#3 vd 0b1010111#7
  | .vmulVX vd vs2 rs1 => encR 0b1001011#7 vs2 rs1 0b110#3 vd 0b1010111#7
  | .vredsumVS vd vs2 vs1 => encR 0b0000001#7 vs2 vs1 0b010#3 vd 0b1010111#7
  | .vwredsumuVS vd vs2 vs1 => encR 0b1100001#7 vs2 vs1 0b000#3 vd 0b1010111#7
  | .vmvXS rd vs2 => encR 0b0100001#7 vs2 0b00000#5 0b010#3 rd 0b1010111#7
  | .vmvSX vd rs1 => encR 0b0100001#7 0b00000#5 rs1 0b110#3 vd 0b1010111#7

end Sys2Proof
end

