-- ==== Sys2Proof/Config.lean ====
section
/-! DEFINITION. What the implementation fixes (00_scope.md R12), the values the model names for the open
parameters of R13 in `State.reset`, and the free value of `draw()` (43_fp.md R151). -/

namespace Sys2Proof

/-- VLENB = 16, the bytes of one vector register (R12, R31). -/
def Config.vlenb : Nat := 16

/-- The bytes of the vector register file, 32 registers of VLENB bytes (R24). -/
def Config.vrBytes : Nat := 512

/-- The size of the address space in bytes (R35). -/
def Config.memBytes : Nat := 2 ^ 32

/-- What a byte of memory that no cell lists reads as (R36: InitMem is open). DESIGN CHOICE, unsafe: log 2. -/
def Config.unlistedByte : Byte := 0

/-- EntryPC of `State.reset` (R13, R21). DESIGN CHOICE, unsafe: log 3; spec/95 starts every vector there. -/
def Config.entryPC : Word := 0x00001000

/-- The k-th value drawn by `draw()`: any 64-bit value (R151, R152). No body: nothing can be proved of it. Log 5, safe. -/
opaque Config.drawn : Nat → Dword

end Sys2Proof
end

