-- ==== Sys2Proof/Machine/State.lean ====
section
/-! DEFINITION. The state of the engine as plain data (10_state.md R18 to R34; 70_reset_and_hazards.md R291), the
stop reasons (60_exceptions.md R275), the reasons a step can fail, and reset. -/

namespace Sys2Proof.Machine

/-- The stop reasons of R275, each with its recorded value. -/
inductive Stop where
  /-- Code 0, halt: the host stops the run between instructions (R11). -/
  | hostStop
  /-- Code 1, halt: ECALL executed (R107). -/
  | ecall
  /-- Code 2, halt: EBREAK executed (R108). -/
  | ebreak
  /-- Code 3, halt: FSQRT of an operand below zero (R151, R157). -/
  | fsqrtNegative
  /-- Code 16, fault: no row matches, a reserved rm, or a write to a read-only CSR; records the word (R55, R201). -/
  | illegalInstruction (word : Word)
  /-- Code 17, fault: `pc[1:0] ≠ 0` at fetch; records ipc (R7). -/
  | misalignedFetch (ipc : Word)
  /-- Code 18, fault: a byte of the fetched word is in Dirty; records ipc (R7, R48). -/
  | staleFetch (ipc : Word)
  /-- Code 19, fault: MemAdmits refuses the access; records the address (R37). -/
  | accessFault (addr : Word)
  /-- Code 20, fault: a data access off its natural alignment; records the address (R39). -/
  | misalignedAccess (addr : Word)
  /-- Code 21, fault: vtypei outside the supported set; records zimm11 (R208). -/
  | vConfigUnsupported (zimm : BitVec 11)
  /-- Code 22, fault: vstart ≠ 0 at a vector instruction; records vstart (R210). -/
  | vStartNonZero (vstart : Word)
  /-- Code 23, fault: EEW ≠ SEW at a vector load or store; records EEW in bytes (R210; log 13). -/
  | vEewMismatch (eew : Nat)
  /-- Code 24, fault: an operand group runs past v31; records its base register (R210; log 9). -/
  | vRegOutOfRange (base : VReg)
  deriving DecidableEq, Repr

/-- One entry of MemAdmits as data: the accesses of the listed widths that lie in `[base, limit)` (R13, R37; log 1). -/
structure AdmitRange where
  base : Nat
  limit : Nat
  width1 : Bool
  width2 : Bool
  width4 : Bool
  deriving DecidableEq, Repr

/-- The mask operand of CSRRS and CSRRC (R13, R202). -/
inductive CsrSetClearOperand where
  | rs1
  | oldRd
  deriving DecidableEq, Repr

/-- The address that FSD records when its second word alone is refused: ea, as R146 has it, the rule that decides (log 8),
or that word's, as R275's general row and TX-18 read. -/
inductive FsdFaultAddress where
  | refusedWord
  | base
  deriving DecidableEq, Repr

/-- What stays fixed during a run: the open parameters of R13, and the reading of log 8. No step changes them. -/
structure Params where
  /-- MemAdmits: an access is admitted when some entry admits it (R37). -/
  memAdmits : List AdmitRange
  /-- CsrSetClearOperand, default rs1 (R202). -/
  csrSetClear : CsrSetClearOperand
  /-- What an AccessFault of FSD's second word records, where R146 and R275 differ (log 8). The model's own field. -/
  fsdFaultAddress : FsdFaultAddress
  deriving DecidableEq, Repr

/-- Memory as a list of cells in one canonical form (`Memory.wf`): what R36 calls Mem. -/
abbrev Memory := List Host.Cell

/-- The vector register file: 32 registers of 128 bits. Byte b of v[r] is `VR[16·r + b]` (R24). -/
abbrev VRegs := Vector (BitVec 128) 32

/-- The state of the engine (10_state.md). -/
structure State where
  /-- `x[0..31]` (R18). Reads and writes go through `State.readX` and `State.setX`. -/
  x : Vector Word 32
  /-- The program counter (R21). During an instruction's body it holds ipc + 4 (R7). -/
  pc : Word
  /-- `f[0..31]` (R22). -/
  f : Vector Dword 32
  /-- NX UF OF DZ NV in bits 0 to 4 and frm in bits 7:5 (R23). -/
  fcsr8 : BitVec 8
  /-- `v[0..31]`, seen as the flat bytes `VR[0..511]` by `VRegs.byte` (R24). -/
  vr : VRegs
  /-- vlmul in bits 2:0 and vsew in bits 4:3 (R27). -/
  vtype : BitVec 5
  /-- The active element count (R29). -/
  vl : Word
  /-- R30. -/
  vstart : Word
  /-- Mem (R36). -/
  mem : Memory
  /-- The byte addresses stored to since the last FENCE.I, rising and without repeats (R33, R48). -/
  dirty : List Nat
  /-- `halted` and its reason: none while the engine runs (R33, R275). -/
  stop : Option Stop
  /-- The host's stop signal, an input read between instructions (R11; log 7). The model's own field. -/
  hostStop : Bool
  /-- How many values `draw()` has given (R151; log 5). The model's own field. -/
  draws : Nat
  /-- The parameters of R13 (logs 1 and 4). -/
  params : Params
  deriving DecidableEq, Repr

/-- Why a step answers no state. -/
inductive Fault where
  /-- Raised by `step` alone: the engine is halted with this reason and no further step exists (R7, R274). Safe:
  the spec gives a halted engine no step. -/
  | halted (reason : Stop)
  deriving DecidableEq, Repr

/-- Why an instruction is not modelled. -/
inductive Refusal where
  /-- Raised by an arm of `exec` that has no meaning yet. Safe: nothing can be proved of such a step. -/
  | notModelled (mnemonic : String)
  deriving DecidableEq, Repr

/-- What an instruction's meaning answers. -/
abbrev Result := Host.Outcome State Fault Refusal

/-- MemAdmits true of every access of 1, 2 or 4 bytes. -/
def admitEverything : List AdmitRange :=
  [{ base := 0, limit := Config.memBytes, width1 := true, width2 := true, width4 := true }]

/-- The reset state of R291 for every choice of its open parameters. -/
def State.loaded (entryPC : Word) (initMem : Memory) (params : Params) : State where
  x := Vector.replicate 32 0
  pc := entryPC
  f := Vector.replicate 32 0
  fcsr8 := 0
  vr := Vector.replicate 32 0
  vtype := 0
  vl := 0
  vstart := 0
  mem := initMem
  dirty := []
  stop := none
  hostStop := false
  draws := 0
  params := params

/-- The machine right after reset (R291), with the values the model names for the open parameters: EntryPC
`Config.entryPC` (log 3), an InitMem that lists nothing (log 2), every access admitted (log 1), mask operand rs1 (R13), and
FSD's fault recorded as R146 records it (log 8). -/
def State.reset : State :=
  State.loaded Config.entryPC [] { memAdmits := admitEverything, csrSetClear := .rs1, fsdFaultAddress := .base }

end Sys2Proof.Machine
end

