-- ==== Sys2Proof/Machine/Memory.lean ====
section
/-! DEFINITION. Memory as a canonical list of cells, the Dirty set, and little-endian assembly (20_memory.md R36, R38, R48).
Nothing here checks alignment or admission: that is `State.memRead` and `State.memWrite` in Machine/Ops.lean. -/

namespace Sys2Proof.Machine

/-! ## Little-endian values (R36, R38) -/

/-- The unsigned value of bytes, the least significant first. -/
def leNat : List Byte → Nat
  | [] => 0
  | b :: bs => b.toNat + 256 * leNat bs

/-- The low `8·n` bits of a value as `n` bytes, the least significant first. -/
def leBytes : Nat → Nat → List Byte
  | 0, _ => []
  | n + 1, v => BitVec.ofNat 8 v :: leBytes n (v / 256)

/-! ## Memory -/

/-- The byte at an address: what a cell lists, or `Config.unlistedByte` (log 2). -/
def Memory.read : Memory → Nat → Byte
  | [], _ => Config.unlistedByte
  | c :: m, a => if c.1 = a then c.2 else Memory.read m a

/-- Every cell but those of one address. -/
def Memory.erase (m : Memory) (a : Nat) : Memory := m.filter fun c => c.1 != a

/-- A cell put in front of the first cell with a higher address. -/
def Memory.insert : Memory → Host.Cell → Memory
  | [], c => [c]
  | d :: m, c => if c.1 < d.1 then c :: d :: m else d :: Memory.insert m c

/-- One byte written (R36: `Mem[a] <- b`). Writing what an unlisted byte reads as leaves the address unlisted. -/
def Memory.write (m : Memory) (a : Nat) (b : Byte) : Memory :=
  if b = Config.unlistedByte then Memory.erase m a else Memory.insert (Memory.erase m a) (a, b)

/-- `n` bytes from an address up. -/
def Memory.readBytes (m : Memory) (a : Nat) : Nat → List Byte
  | 0 => []
  | n + 1 => Memory.read m a :: Memory.readBytes m (a + 1) n

/-- Bytes written from an address up, the lowest first. -/
def Memory.writeBytes (m : Memory) (a : Nat) : List Byte → Memory
  | [] => m
  | b :: bs => Memory.writeBytes (Memory.write m a b) (a + 1) bs

/-- The canonical form: addresses strictly rising and inside the address space, no cell equal to an unlisted byte. -/
def Memory.wf (m : Memory) : Bool :=
  decide (m.Pairwise fun c d => c.1 < d.1) && m.all fun c => decide (c.1 < Config.memBytes) && c.2 != Config.unlistedByte

/-! ## The Dirty set (R33, R48): a rising list of addresses -/

/-- An address added in its place. -/
def dirtyInsert : List Nat → Nat → List Nat
  | [], a => [a]
  | k :: d, a => if a < k then a :: k :: d else if a = k then k :: d else k :: dirtyInsert d a

/-- `Dirty ∪ {a, …, a + n − 1}` (R36). -/
def dirtyAdd (d : List Nat) (a : Nat) : Nat → List Nat
  | 0 => d
  | n + 1 => dirtyAdd (dirtyInsert d a) (a + 1) n

/-- Some byte of `[a, a + n)` is in Dirty (R7, R48). -/
def dirtyHits (d : List Nat) (a n : Nat) : Bool := d.any fun k => decide (a ≤ k) && decide (k < a + n)

/-- The canonical form of Dirty: strictly rising, inside the address space. -/
def dirtyWf (d : List Nat) : Bool :=
  decide (d.Pairwise (· < ·)) && d.all fun k => decide (k < Config.memBytes)

/-! ## MemAdmits (R13, R37) -/

/-- The widths an entry admits; no access of another width exists (R36). -/
def AdmitRange.allows (r : AdmitRange) : Nat → Bool
  | 1 => r.width1
  | 2 => r.width2
  | 4 => r.width4
  | _ => false

/-- `MemAdmits(a, n)` (R37; log 1). -/
def Params.admits (p : Params) (a n : Nat) : Bool :=
  p.memAdmits.any fun r => decide (r.base ≤ a) && decide (a + n ≤ r.limit) && r.allows n

end Sys2Proof.Machine
end

