-- ==== Sys2Proof/Machine/Operands.lean ====
section
/-! DEFINITION. The operand forms: registers of the three files, NaN-boxing, immediates, effective addresses, vector
elements and the vector operands VV, VX, VI (10_state.md R18 to R28; 30_encoding.md R53, R54; 43_fp.md R137;
46_vector_alu.md R226). -/

namespace Sys2Proof.Machine

/-! ## Integer registers (R18, R19) -/

/-- `x[r]` as a source: x0 reads 0 whatever is stored. -/
def State.readX (s : State) (r : XReg) : Word := if r = 0 then 0 else s.x[r.toNat]'(r.isLt)

/-- `x[rd] <- v`: discarded when rd is x0 (R19; log 11). -/
def State.setX (s : State) (rd : XReg) (v : Word) : State :=
  { s with x := if rd = 0 then s.x else s.x.set rd.toNat v rd.isLt }

/-- `x[0] <- 0`, the last action of a step that goes on (R7). -/
def State.clearX0 (s : State) : State := { s with x := s.x.set 0 0 }

/-! ## The program counter (R7, R21) -/

/-- During a body pc holds ipc + 4, so the instruction's own address is pc − 4 (R7, R67). -/
def State.ipc (s : State) : Word := s.pc - 4

/-- `pc <- t`. -/
def State.setPc (s : State) (t : Word) : State := { s with pc := t }

/-! ## Floating-point registers and NaN-boxing (R22, R137) -/

/-- `f[r]`, all 64 bits. -/
def State.readF (s : State) (r : FReg) : Dword := s.f[r.toNat]'(r.isLt)

/-- `f[rd] <- v`. -/
def State.setF (s : State) (rd : FReg) (v : Dword) : State := { s with f := s.f.set rd.toNat v rd.isLt }

/-- `box(b32) = 0xFFFFFFFF : b32` (R137). -/
def box (b : Word) : Dword := 0xFFFFFFFF#32 ++ b

/-- The single in a register: its low half when it is NaN-boxed, the canonical NaN otherwise (R137). -/
def unbox (b : Dword) : Word := if b.extractLsb' 32 32 = 0xFFFFFFFF#32 then b.extractLsb' 0 32 else 0x7FC00000#32

/-- A single-precision source: `unbox(f[r])`. -/
def State.readS (s : State) (r : FReg) : Word := unbox (s.readF r)

/-- A single-precision result: `f[rd] <- box(v)`. -/
def State.setS (s : State) (rd : FReg) (v : Word) : State := s.setF rd (box v)

/-! ## Immediates and addresses (R53, R77) -/

/-- immI and immS: 12 bits, sign-extended. -/
def imm12Value (imm : BitVec 12) : Word := imm.signExtend 32

/-- immB: the even 13-bit offset, sign-extended. -/
def immBValue (off : BitVec 13) : Word := off.signExtend 32

/-- immJ: the even 21-bit offset, sign-extended. -/
def immJValue (off : BitVec 21) : Word := off.signExtend 32

/-- immU: 20 bits placed in bits 31:12. -/
def immUValue (imm : BitVec 20) : Word := imm ++ 0#12

/-- The one addressing mode of scalar loads and stores: `x[rs1] + imm` modulo 2^32 (R77). -/
def State.ea (s : State) (rs1 : XReg) (imm : BitVec 12) : Word := s.readX rs1 + imm12Value imm

/-! ## Vector configuration (R27, R28) -/

/-- SEW in bytes: `1 << vtype[4:3]`. Only 1, 2 and 4 are ever stored (R209; log 16). -/
def sewOf (vtype : BitVec 5) : Nat := 2 ^ (vtype.extractLsb' 3 2).toNat

/-- LMUL: `1 << vtype[2:0]`. Only 1, 2, 4 and 8 are ever stored (R209; log 16). -/
def lmulOf (vtype : BitVec 5) : Nat := 2 ^ (vtype.extractLsb' 0 3).toNat

/-- VLMAX = LMUL·16/SEW (R28). -/
def vlmaxOf (vtype : BitVec 5) : Nat := lmulOf vtype * Config.vlenb / sewOf vtype

def State.sew (s : State) : Nat := sewOf s.vtype

/-! ## Vector elements (R24, R25) -/

/-- Byte b of the flat storage. A byte past VR[511] is never named, by the group check (R25, R210; log 16). -/
def VRegs.byte (v : VRegs) (b : Nat) : Byte := ((v[b / Config.vlenb]?).getD 0).extractLsb' (8 * (b % Config.vlenb)) 8

/-- A register with its byte k replaced. -/
def withByte (r : BitVec 128) (k : Nat) (b : Byte) : BitVec 128 :=
  r &&& ~~~(0xFF#128 <<< (8 * k)) ||| b.setWidth 128 <<< (8 * k)

/-- Byte b of the flat storage replaced (R24). -/
def VRegs.setByte (v : VRegs) (b : Nat) (x : Byte) : VRegs :=
  v.setIfInBounds (b / Config.vlenb) (withByte ((v[b / Config.vlenb]?).getD 0) (b % Config.vlenb) x)

/-- `n` bytes of the flat storage from byte `o` up. -/
def VRegs.bytes (v : VRegs) (o : Nat) : Nat → List Byte
  | 0 => []
  | n + 1 => VRegs.byte v o :: VRegs.bytes v (o + 1) n

/-- Bytes stored from byte `o` up. -/
def VRegs.setBytes (v : VRegs) (o : Nat) : List Byte → VRegs
  | [] => v
  | b :: bs => VRegs.setBytes (VRegs.setByte v o b) (o + 1) bs

/-- The vector register file replaced. -/
def State.setVr (s : State) (v : VRegs) : State := { s with vr := v }

/-- The first byte of element `el`, width `w` bytes, of the group based at register `r`: `16·r + el·w` (R25). -/
def elemOffset (r : VReg) (el w : Nat) : Nat := Config.vlenb * r.toNat + el * w

/-- `Elem(r, el, w)`, little-endian (R25). -/
def VRegs.elem (v : VRegs) (r : VReg) (el w : Nat) : BitVec (8 * w) :=
  BitVec.ofNat (8 * w) (leNat (VRegs.bytes v (elemOffset r el w) w))

/-- `SetElem(r, el, w, val)` (R25). -/
def VRegs.setElem (v : VRegs) (r : VReg) (el w : Nat) (val : BitVec (8 * w)) : VRegs :=
  VRegs.setBytes v (elemOffset r el w) (leBytes w val.toNat)

/-! ## The second operand of a vector ALU instruction, S bits wide (R226) -/

/-- VX: `trunc_S(x[rs1])`. -/
def State.scalarOperand (s : State) (rs1 : XReg) (S : Nat) : BitVec S := (s.readX rs1).setWidth S

/-- VI of an arithmetic, logic or compare instruction: `trunc_S(sext(simm5))`, the immediate sign-extended to S bits. -/
def simm5Operand (imm5 : BitVec 5) (S : Nat) : BitVec S := imm5.signExtend S

/-- VI of a shift: `zext(uimm5)`. -/
def uimm5Operand (imm5 : BitVec 5) (S : Nat) : BitVec S := imm5.setWidth S

end Sys2Proof.Machine
end

