-- ==== Sys2Proof/Machine/Ops.lean ====
section
/-! DEFINITION. The operations the meanings share: ending the run, the memory primitives, and the vector checks and
element loops (60_exceptions.md R274 to R280; 20_memory.md R36; 45_vector_config_mem.md R210 to R213; 46_vector_alu.md R227). -/

namespace Sys2Proof.Machine

/-! ## Ending the run: the engine's only exception mechanism (R274, R276, R277)

There is no handler, no saved register and no return (R280, R281): an event leaves pc at a stated address, sets
`halted` with its reason and recorded value, and the run is over. -/

/-- Take an event: pc at `at_`, `halted` with reason `r`, everything else as it stands. -/
def State.stopAt (s : State) (at_ : Word) (r : Stop) : State := { s with pc := at_, stop := some r }

/-- `raise K` inside a body: pc goes back to ipc (R276). -/
def State.raise (s : State) (r : Stop) : State := s.stopAt s.ipc r

/-- `halt(R)`: pc stays ipc + 4, or the next instruction's address for HostStop (R277). -/
def State.halt (s : State) (r : Stop) : State := s.stopAt s.pc r

/-- `halted` (R33). -/
def State.halted (s : State) : Bool := s.stop.isSome

/-- The code of a stop reason (R275). -/
def Stop.code : Stop → Nat
  | .hostStop => 0
  | .ecall => 1
  | .ebreak => 2
  | .fsqrtNegative => 3
  | .illegalInstruction _ => 16
  | .misalignedFetch _ => 17
  | .staleFetch _ => 18
  | .accessFault _ => 19
  | .misalignedAccess _ => 20
  | .vConfigUnsupported _ => 21
  | .vStartNonZero _ => 22
  | .vEewMismatch _ => 23
  | .vRegOutOfRange _ => 24

/-- The recorded value of a stop reason, where it has one (R275). -/
def Stop.value : Stop → Option Nat
  | .hostStop => none
  | .ecall => none
  | .ebreak => none
  | .fsqrtNegative => none
  | .illegalInstruction w => some w.toNat
  | .misalignedFetch a => some a.toNat
  | .staleFetch a => some a.toNat
  | .accessFault a => some a.toNat
  | .misalignedAccess a => some a.toNat
  | .vConfigUnsupported z => some z.toNat
  | .vStartNonZero v => some v.toNat
  | .vEewMismatch e => some e
  | .vRegOutOfRange b => some b.toNat

/-- A stop is a fault when its code is 16 or more, a halt otherwise (R274, R275). -/
def Stop.isFault (r : Stop) : Bool := decide (16 ≤ r.code)

/-! ## The memory primitives (R36) -/

/-- The checks of MemRead and MemWrite in their order: alignment, then admission (R36, R279). -/
def State.accessCheck (s : State) (a : Word) (n : Nat) : Option Stop :=
  if a.toNat % n ≠ 0 then some (.misalignedAccess a)
  else if !s.params.admits a.toNat n then some (.accessFault a)
  else none

/-- The bytes an admitted read returns, as a little-endian value. -/
def State.loadValue (s : State) (a : Word) (n : Nat) : BitVec (8 * n) :=
  BitVec.ofNat (8 * n) (leNat (s.mem.readBytes a.toNat n))

/-- The bytes an admitted write stores: the low 8·n bits of v, each byte added to Dirty. -/
def State.storeValue (s : State) (a : Word) (n : Nat) {m : Nat} (v : BitVec m) : State :=
  { s with mem := s.mem.writeBytes a.toNat (leBytes n v.toNat), dirty := dirtyAdd s.dirty a.toNat n }

/-- `MemRead(a, n)` (R36). -/
def State.memRead (s : State) (a : Word) (n : Nat) : Except Stop (BitVec (8 * n)) :=
  match s.accessCheck a n with
  | some k => .error k
  | none => .ok (s.loadValue a n)

/-- `MemWrite(a, n, v)` (R36). -/
def State.memWrite (s : State) (a : Word) (n : Nat) {m : Nat} (v : BitVec m) : Except Stop State :=
  match s.accessCheck a n with
  | some k => .error k
  | none => .ok (s.storeValue a n v)

/-! ## Vector checks (R210) -/

/-- The highest register a group touches: `b + ⌈vl·w/16⌉ − 1`, or b when vl = 0 (R210). -/
def groupTop (b : VReg) (w vl : Nat) : Nat :=
  if vl = 0 then b.toNat else b.toNat + (vl * w + 15) / Config.vlenb - 1

/-- Check 3 of R210 over the operand groups in order; each group is its base and its element width (log 9). -/
def groupCheck (vl : Nat) : List (VReg × Nat) → Option Stop
  | [] => none
  | g :: gs => if 31 < groupTop g.1 g.2 vl then some (.vRegOutOfRange g.1) else groupCheck vl gs

/-- The checks of R210 in their fixed order: vstart, EEW against SEW for a load or store, the register groups. -/
def State.vectorCheck (s : State) (eew : Option Nat) (groups : List (VReg × Nat)) : Option Stop :=
  if s.vstart ≠ 0 then some (.vStartNonZero s.vstart)
  else match eew with
    | none => groupCheck s.vl.toNat groups
    | some e => if e ≠ s.sew then some (.vEewMismatch e) else groupCheck s.vl.toNat groups

/-! ## Element loops (R211, R227) -/

/-- Elements `el, el + 1, …, el + n − 1` of the group at `vd`, one at a time in ascending order: each is computed from
the storage as the earlier ones left it, then written (R211, R227). -/
def elementLoop (vd : VReg) (w : Nat) (value : VRegs → Nat → BitVec (8 * w)) : Nat → Nat → VRegs → VRegs
  | 0, _, v => v
  | n + 1, el, v => elementLoop vd w value n (el + 1) (VRegs.setElem v vd el w (value v el))

/-- The running sum of a reduction over elements `el` to `el + n − 1` (R272, R273). -/
def reduceLoop {S : Nat} (value : Nat → BitVec S) : Nat → Nat → BitVec S → BitVec S
  | 0, _, acc => acc
  | n + 1, el, acc => reduceLoop value n (el + 1) (acc + value el)

/-- The address of element `el`: `base + el·stride` modulo 2^32 (R213). -/
def elementAddr (base stride : Word) (el : Nat) : Word := base + BitVec.ofNat 32 el * stride

/-- Loads elements `el` to `el + n − 1` in ascending order; a fault keeps those already loaded (R211, R212). -/
def loadLoop (vd : VReg) (w : Nat) (base stride : Word) : Nat → Nat → State → State
  | 0, _, s => s
  | n + 1, el, s =>
    match s.memRead (elementAddr base stride el) w with
    | .error k => s.raise k
    | .ok v => loadLoop vd w base stride n (el + 1) (s.setVr (s.vr.setElem vd el w v))

/-- Stores elements `el` to `el + n − 1` in ascending order; a fault keeps those already stored (R211, R212). -/
def storeLoop (vs3 : VReg) (w : Nat) (base stride : Word) : Nat → Nat → State → State
  | 0, _, s => s
  | n + 1, el, s =>
    match s.memWrite (elementAddr base stride el) w (s.vr.elem vs3 el w) with
    | .error k => s.raise k
    | .ok t => storeLoop vs3 w base stride n (el + 1) t

end Sys2Proof.Machine
end

