-- ==== Sys2Proof/Machine/Flags.lean ====
section
/-! DEFINITION. The one flag an FP instruction sets, and the CSR map with its aliases onto fcsr8 (10_state.md R23, R32;
43_fp.md R140; 44_zicsr.md R200 to R202). -/

namespace Sys2Proof.Machine

/-- `fcsr8[4] <- 1`: NV, sticky (R23, R140). -/
def State.setNV (s : State) : State := { s with fcsr8 := s.fcsr8 ||| 0x10#8 }

/-- `CsrRead(n)` (R200, R32). -/
def State.csrRead (s : State) (n : BitVec 12) : Word :=
  if n = 0x001 then (s.fcsr8.extractLsb' 0 5).setWidth 32
  else if n = 0x002 then (s.fcsr8.extractLsb' 5 3).setWidth 32
  else if n = 0x003 then s.fcsr8.setWidth 32
  else if n = 0x008 then s.vstart
  else if n = 0xC20 then s.vl
  else if n = 0xC21 then s.vtype.setWidth 32
  else if n = 0xC22 then BitVec.ofNat 32 Config.vlenb
  else 0

/-- `CsrWrite(n, v)`; an unrecognized number has no effect (R200, R32). -/
def State.csrWrite (s : State) (n : BitVec 12) (v : Word) : State :=
  if n = 0x001 then { s with fcsr8 := s.fcsr8.extractLsb' 5 3 ++ v.extractLsb' 0 5 }
  else if n = 0x002 then { s with fcsr8 := v.extractLsb' 0 3 ++ s.fcsr8.extractLsb' 0 5 }
  else if n = 0x003 then { s with fcsr8 := v.extractLsb' 0 8 }
  else if n = 0x008 then { s with vstart := v }
  else s

/-- The read-only CSRs vl, vtype and vlenb (R201). -/
def csrReadOnly (n : BitVec 12) : Bool := n == 0xC20 || n == 0xC21 || n == 0xC22

/-- The mask operand of CSRRS and CSRRC: x[rs1], or the old x[rd] under the optional parameter (R202; log 4). -/
def State.csrMask (s : State) (rd rs1 : XReg) : Word :=
  match s.params.csrSetClear with
  | .rs1 => s.readX rs1
  | .oldRd => s.readX rd

end Sys2Proof.Machine
end

