-- ==== Sys2Proof/Machine/Float.lean ====
section
/-! DEFINITION. IEEE-754 binary32 and binary64 arithmetic, computed exactly and rounded once, to nearest with ties to
even (43_fp.md R136 to R141, R158, R174, R179, R186; 00_scope.md R16).

Every finite number of a format is an integer multiple of the format's smallest subnormal, 2^-149 or 2^-1074. So a
finite value is held as a sign and a natural number of these units, a sum is a sum of naturals, and a product or a
quotient is a ratio of naturals. Nothing is rounded before `roundRNE`. -/

namespace Sys2Proof.Machine

/-- The two precisions (R136). -/
inductive Fmt where
  | single
  | double
  deriving DecidableEq, Repr

/-- Bits of the fraction field (R136). -/
def Fmt.fracBits : Fmt → Nat
  | .single => 23
  | .double => 52

/-- Bits of the exponent field (R136). -/
def Fmt.expBits : Fmt → Nat
  | .single => 8
  | .double => 11

/-- The unit is 2^-scale, the smallest subnormal: bias − 1 + fracBits. -/
def Fmt.scale : Fmt → Nat
  | .single => 149
  | .double => 1074

/-- The exponent field of infinities and NaNs: all ones. -/
def Fmt.expMax (fmt : Fmt) : Nat := 2 ^ fmt.expBits - 1

/-- The pattern of +∞, that is, of the magnitude of an infinity. -/
def Fmt.infPattern (fmt : Fmt) : Nat := fmt.expMax * 2 ^ fmt.fracBits

/-- CNaN32 = 0x7FC00000 and CNaN64 = 0x7FF8000000000000 (R16, R139). -/
def Fmt.canonicalNaN : Fmt → Nat
  | .single => 0x7FC00000
  | .double => 0x7FF8000000000000

/-! ## Reading a pattern (R16, R136) -/

def expField {n : Nat} (fmt : Fmt) (b : BitVec n) : Nat := b.toNat / 2 ^ fmt.fracBits % 2 ^ fmt.expBits

def fracField {n : Nat} (fmt : Fmt) (b : BitVec n) : Nat := b.toNat % 2 ^ fmt.fracBits

/-- A NaN: exponent all ones, fraction not zero (R16). -/
def isNaN {n : Nat} (fmt : Fmt) (b : BitVec n) : Bool :=
  expField fmt b == fmt.expMax && fracField fmt b != 0

/-- A signalling NaN: a NaN whose fraction MSB is 0 (R16). -/
def isSNaN {n : Nat} (fmt : Fmt) (b : BitVec n) : Bool :=
  isNaN fmt b && decide (fracField fmt b < 2 ^ (fmt.fracBits - 1))

/-- What a pattern stands for; `mag` counts units of 2^-scale. -/
inductive FpVal where
  | nan
  | inf (neg : Bool)
  | fin (neg : Bool) (mag : Nat)
  deriving DecidableEq, Repr

/-- F32(b) and F64(b) (R16): subnormals and zeros have exponent field 0, normals an implicit leading 1. -/
def unpack {n : Nat} (fmt : Fmt) (b : BitVec n) : FpVal :=
  if isNaN fmt b then .nan
  else if expField fmt b = fmt.expMax then .inf b.msb
  else if expField fmt b = 0 then .fin b.msb (fracField fmt b)
  else .fin b.msb ((2 ^ fmt.fracBits + fracField fmt b) * 2 ^ (expField fmt b - 1))

/-! ## Rounding (R16, R138) -/

/-- Round a real v ≥ 0 (in units) to the pattern of the nearest number of the format, ties to the even fraction, and to
∞ from the overflow threshold up (R138). v is given by its floor and by the comparison of 2·v with naturals.

With p = fracBits + 1 significant bits, a floor of p + k bits has its last kept bit worth 2^k units; below 2^p units the
numbers of the format are all the naturals, so k = 0 there and subnormals need no case of their own. `m` is v / 2^k
rounded down, and 2·v is compared with twice the midpoint (m + 1/2)·2^k. A pattern counts the numbers of the format
upwards from zero, so the result is `k·2^fracBits + m`, also when rounding up carries into the next exponent. -/
def roundRNE (fmt : Fmt) (floor : Nat) (compareTwice : Nat → Ordering) : Nat :=
  let k := Nat.log2 floor - fmt.fracBits
  let m := floor / 2 ^ k
  let m' := match compareTwice ((2 * m + 1) * 2 ^ k) with
    | .lt => m
    | .eq => m + m % 2
    | .gt => m + 1
  min (k * 2 ^ fmt.fracBits + m') fmt.infPattern

/-- Round num / den units. -/
def roundRatio (fmt : Fmt) (num den : Nat) : Nat :=
  roundRNE fmt (num / den) fun t => compare (2 * num) (t * den)

/-- The integer square root, by deciding the bits of the root from bit k − 1 down. -/
def isqrtFrom : Nat → Nat → Nat → Nat
  | 0, r, _ => r
  | k + 1, r, n => if (r + 2 ^ k) * (r + 2 ^ k) ≤ n then isqrtFrom k (r + 2 ^ k) n else isqrtFrom k r n

def isqrt (n : Nat) : Nat := isqrtFrom (Nat.log2 n / 2 + 1) 0 n

/-- Round √n units: 2·√n is compared with t through 4·n and t². -/
def roundSqrt (fmt : Fmt) (n : Nat) : Nat :=
  roundRNE fmt (isqrt n) fun t => compare (4 * n) (t * t)

/-! ## Exact results (R141) -/

/-- An exact result before rounding: num / den units with a sign, which a zero keeps. -/
inductive FpExact where
  | nan
  | inf (neg : Bool)
  | ratio (neg : Bool) (num den : Nat)
  deriving DecidableEq, Repr

/-- A sign and a magnitude pattern as a pattern of n bits. -/
def signed (n : Nat) (neg : Bool) (mag : Nat) : BitVec n :=
  BitVec.ofNat n ((if neg then 2 ^ (n - 1) else 0) + mag)

/-- bits32(RNE32(·)) and bits64(RNE64(·)), a NaN being the canonical NaN (R16, R139). The sign of a result that rounds
to zero or to ∞ is the exact result's (log 12). -/
def packRounded (fmt : Fmt) (n : Nat) : FpExact → BitVec n
  | .nan => BitVec.ofNat n fmt.canonicalNaN
  | .inf neg => signed n neg fmt.infPattern
  | .ratio neg num den => signed n neg (roundRatio fmt num den)

/-- The sum of two signed magnitudes; an exact zero from opposite signs is +0, −0 plus −0 is −0 (R141). -/
def signedSum (sa : Bool) (ma : Nat) (sb : Bool) (mb : Nat) : Bool × Nat :=
  if sa = sb then (sa, ma + mb)
  else if mb < ma then (sa, ma - mb)
  else if ma < mb then (sb, mb - ma)
  else (false, 0)

def FpVal.neg : FpVal → FpVal
  | .nan => .nan
  | .inf s => .inf (!s)
  | .fin s m => .fin (!s) m

/-- a + b (R141). -/
def addExact : FpVal → FpVal → FpExact
  | .nan, _ => .nan
  | _, .nan => .nan
  | .inf sa, .inf sb => if sa = sb then .inf sa else .nan
  | .inf sa, .fin _ _ => .inf sa
  | .fin _ _, .inf sb => .inf sb
  | .fin sa ma, .fin sb mb => .ratio (signedSum sa ma sb mb).1 (signedSum sa ma sb mb).2 1

/-- a · b: units times units, so the ratio's denominator is 2^scale (R141). -/
def mulExact (fmt : Fmt) : FpVal → FpVal → FpExact
  | .nan, _ => .nan
  | _, .nan => .nan
  | .inf sa, .inf sb => .inf (sa ^^ sb)
  | .inf sa, .fin sb mb => if mb = 0 then .nan else .inf (sa ^^ sb)
  | .fin sa ma, .inf sb => if ma = 0 then .nan else .inf (sa ^^ sb)
  | .fin sa ma, .fin sb mb => .ratio (sa ^^ sb) (ma * mb) (2 ^ fmt.scale)

/-- a / b; x / 0 is ∞ for x ≠ 0 (R141). -/
def divExact (fmt : Fmt) : FpVal → FpVal → FpExact
  | .nan, _ => .nan
  | _, .nan => .nan
  | .inf _, .inf _ => .nan
  | .inf sa, .fin sb _ => .inf (sa ^^ sb)
  | .fin sa _, .inf sb => .ratio (sa ^^ sb) 0 1
  | .fin sa ma, .fin sb mb =>
    if mb = 0 then (if ma = 0 then .nan else .inf (sa ^^ sb)) else .ratio (sa ^^ sb) (ma * 2 ^ fmt.scale) mb

/-- (±(a · b)) ± c with one exact value; the negation of the product comes before the addition (R158). -/
def fmaExact (fmt : Fmt) (negProduct negAddend : Bool) (a b c : FpVal) : FpExact :=
  match mulExact fmt a b, c with
  | .nan, _ => .nan
  | _, .nan => .nan
  | .inf sp, .inf sc => if (sp ^^ negProduct) = (sc ^^ negAddend) then .inf (sp ^^ negProduct) else .nan
  | .inf sp, .fin _ _ => .inf (sp ^^ negProduct)
  | .ratio _ _ _, .inf sc => .inf (sc ^^ negAddend)
  | .ratio sp num den, .fin sc mc =>
    let r := signedSum (sp ^^ negProduct) num (sc ^^ negAddend) (mc * den)
    .ratio r.1 r.2 den

/-! ## Operations on patterns -/

/-- FADD (R147, R153). -/
def fpAdd (fmt : Fmt) {n : Nat} (a b : BitVec n) : BitVec n :=
  packRounded fmt n (addExact (unpack fmt a) (unpack fmt b))

/-- FSUB (R148, R154). -/
def fpSub (fmt : Fmt) {n : Nat} (a b : BitVec n) : BitVec n :=
  packRounded fmt n (addExact (unpack fmt a) (unpack fmt b).neg)

/-- FMUL (R149, R155). -/
def fpMul (fmt : Fmt) {n : Nat} (a b : BitVec n) : BitVec n :=
  packRounded fmt n (mulExact fmt (unpack fmt a) (unpack fmt b))

/-- FDIV (R150, R156). -/
def fpDiv (fmt : Fmt) {n : Nat} (a b : BitVec n) : BitVec n :=
  packRounded fmt n (divExact fmt (unpack fmt a) (unpack fmt b))

/-- The fused operations, one rounding (R158 to R166). -/
def fpFma (fmt : Fmt) (negProduct negAddend : Bool) {n : Nat} (a b c : BitVec n) : BitVec n :=
  packRounded fmt n (fmaExact fmt negProduct negAddend (unpack fmt a) (unpack fmt b) (unpack fmt c))

/-- An operand below zero, −∞ included and −0 and NaN excluded (R151). -/
def fpNegative (fmt : Fmt) {n : Nat} (a : BitVec n) : Bool :=
  match unpack fmt a with
  | .nan => false
  | .inf neg => neg
  | .fin neg mag => neg && mag != 0

/-- FSQRT of an operand that is not below zero (R151, R157): √(m·2^-scale) is √(m·2^scale) units. -/
def fpSqrt (fmt : Fmt) {n : Nat} (a : BitVec n) : BitVec n :=
  match unpack fmt a with
  | .nan => BitVec.ofNat n fmt.canonicalNaN
  | .inf neg => signed n neg fmt.infPattern
  | .fin neg mag => signed n neg (roundSqrt fmt (mag * 2 ^ fmt.scale))

/-! ## Comparison (R174, R179) -/

/-- A signed magnitude as an integer; both zeros are 0. -/
def signedInt (neg : Bool) (mag : Nat) : Int := if neg then -(mag : Int) else mag

/-- Numeric ≤; false when an operand is a NaN. -/
def FpVal.le : FpVal → FpVal → Bool
  | .nan, _ => false
  | _, .nan => false
  | .inf true, _ => true
  | _, .inf false => true
  | .inf false, _ => false
  | _, .inf true => false
  | .fin sa ma, .fin sb mb => decide (signedInt sa ma ≤ signedInt sb mb)

/-- Numeric =, +0 and −0 being equal. -/
def FpVal.eq (a b : FpVal) : Bool := a.le b && b.le a

/-- Numeric <. -/
def FpVal.lt (a b : FpVal) : Bool := a.le b && !b.le a

/-- a comes before b when −0 is ordered below +0 (R174). -/
def fpBefore (fmt : Fmt) {n : Nat} (a b : BitVec n) : Bool :=
  (unpack fmt a).lt (unpack fmt b) || ((unpack fmt a).eq (unpack fmt b) && a.msb && !b.msb)

/-- The NaN cases of FMIN and FMAX, in the order of R174, around the choice between two numbers. -/
def minMaxWith (fmt : Fmt) {n : Nat} (a b : BitVec n) (chosen : BitVec n) : BitVec n :=
  if isSNaN fmt a || isSNaN fmt b then BitVec.ofNat n fmt.canonicalNaN
  else if isNaN fmt a && isNaN fmt b then BitVec.ofNat n fmt.canonicalNaN
  else if isNaN fmt a then b
  else if isNaN fmt b then a
  else chosen

/-- FMIN (R174, R175, R177). -/
def fpMin (fmt : Fmt) {n : Nat} (a b : BitVec n) : BitVec n :=
  minMaxWith fmt a b (if fpBefore fmt a b then a else b)

/-- FMAX (R174, R176, R178). -/
def fpMax (fmt : Fmt) {n : Nat} (a b : BitVec n) : BitVec n :=
  minMaxWith fmt a b (if fpBefore fmt a b then b else a)

/-! ## Sign injection (R167 to R173) -/

/-- The sign bit `sign` over the magnitude bits of `a`. -/
def withSign {n : Nat} (sign : Bool) (a : BitVec n) : BitVec n :=
  BitVec.ofNat n ((if sign then 2 ^ (n - 1) else 0) + a.toNat % 2 ^ (n - 1))

/-! ## Conversions (R186 to R196) -/

/-- num / den rounded to an integer, ties to even. -/
def roundNat (num den : Nat) : Nat :=
  match compare (2 * (num % den)) den with
  | .lt => num / den
  | .eq => num / den + num / den % 2
  | .gt => num / den + 1

/-- CvtW: to a signed word, to nearest with ties to even, saturating (R186). -/
def cvtW (fmt : Fmt) {n : Nat} (a : BitVec n) : Word :=
  match unpack fmt a with
  | .nan => 0x7FFFFFFF
  | .inf neg => if neg then 0x80000000 else 0x7FFFFFFF
  | .fin neg mag =>
    let r := signedInt neg (roundNat mag (2 ^ fmt.scale))
    if 2 ^ 31 ≤ r then 0x7FFFFFFF
    else if r < -2 ^ 31 then 0x80000000
    else BitVec.ofInt 32 r

/-- CvtWU: to an unsigned word, truncating, saturating (R186). -/
def cvtWU (fmt : Fmt) {n : Nat} (a : BitVec n) : Word :=
  match unpack fmt a with
  | .nan => 0xFFFFFFFF
  | .inf neg => if neg then 0 else 0xFFFFFFFF
  | .fin neg mag =>
    let t := signedInt neg (mag / 2 ^ fmt.scale)
    if 2 ^ 32 ≤ t then 0xFFFFFFFF
    else if t < 0 then 0
    else BitVec.ofInt 32 t

/-- A signed magnitude integer to the format; zero gives +0 when its sign is clear (R189, R190, R193, R194). -/
def cvtFromInt (fmt : Fmt) (n : Nat) (v : Int) : BitVec n :=
  packRounded fmt n (.ratio (decide (v < 0)) (v.natAbs * 2 ^ fmt.scale) 1)

/-- From one format to the other (R195, R196). -/
def cvtFormat (src dst : Fmt) {n : Nat} (m : Nat) (a : BitVec n) : BitVec m :=
  match unpack src a with
  | .nan => BitVec.ofNat m dst.canonicalNaN
  | .inf neg => signed m neg dst.infPattern
  | .fin neg mag => packRounded dst m (.ratio neg (mag * 2 ^ dst.scale) (2 ^ src.scale))

end Sys2Proof.Machine
end

