-- ==== Sys2Proof/Machine/Rv32i.lean ====
section
/-! DEFINITION. The integer unit, RV32I (40_rv32i.md R64 to R108). In every body pc already holds ipc + 4 (R64). -/

namespace Sys2Proof.Machine

/-! ## Shared shapes -/

/-- rd gets a function of one register and an operand: register-immediate forms (R64). -/
def aluImm (rd rs1 : XReg) (op : Word → Word) (s : State) : Result := .next (s.setX rd (op (s.readX rs1)))

/-- rd gets a function of two registers, both read before rd is written (R64). -/
def aluReg (rd rs1 rs2 : XReg) (op : Word → Word → Word) (s : State) : Result :=
  .next (s.setX rd (op (s.readX rs1) (s.readX rs2)))

/-- 0 or 1, the result of a comparison (R20). -/
def boolWord (b : Bool) : Word := if b then 1 else 0

/-- The low five bits of a register as a shift amount (R97). -/
def shiftAmount (v : Word) : Nat := (v.extractLsb' 0 5).toNat

/-- A branch: `pc <- ipc + immB` when the condition holds, else pc keeps ipc + 4 (R70). -/
def branch (rs1 rs2 : XReg) (immB : BitVec 13) (cond : Word → Word → Bool) (s : State) : Result :=
  .next (if cond (s.readX rs1) (s.readX rs2) then s.setPc (s.ipc + immBValue immB) else s)

/-- The link write of JAL and JALR and then the jump; `setX` discards the link when rd is x0 (R68, R69). -/
def jumpLink (rd : XReg) (target : Word) (s : State) : Result := .next ((s.setX rd (s.ipc + 4)).setPc target)

/-- A load of n bytes at `x[rs1] + imm`: a fault writes no register (R77). -/
def loadInt (rd rs1 : XReg) (imm : BitVec 12) (n : Nat) (extend : BitVec (8 * n) → Word) (s : State) : Result :=
  match s.memRead (s.ea rs1 imm) n with
  | .error k => .next (s.raise k)
  | .ok v => .next (s.setX rd (extend v))

/-- A store of the low n bytes of a value at `x[rs1] + imm`: a fault writes no byte (R77). -/
def storeAt (rs1 : XReg) (imm : BitVec 12) (n : Nat) {m : Nat} (v : BitVec m) (s : State) : Result :=
  match s.memWrite (s.ea rs1 imm) n v with
  | .error k => .next (s.raise k)
  | .ok t => .next t

/-! ## Upper immediates, jumps and branches -/

/-- R66. -/
def execLui (rd : XReg) (immU : BitVec 20) (s : State) : Result := .next (s.setX rd (immUValue immU))

/-- R67. -/
def execAuipc (rd : XReg) (immU : BitVec 20) (s : State) : Result := .next (s.setX rd (s.ipc + immUValue immU))

/-- R68. -/
def execJal (rd : XReg) (immJ : BitVec 21) (s : State) : Result := jumpLink rd (s.ipc + immJValue immJ) s

/-- R69: the target comes from the old x[rs1], with bit 0 cleared. -/
def execJalr (rd rs1 : XReg) (imm : BitVec 12) (s : State) : Result :=
  jumpLink rd ((s.readX rs1 + imm12Value imm) &&& 0xFFFFFFFE#32) s

/-- R71. -/
def execBeq (rs1 rs2 : XReg) (immB : BitVec 13) (s : State) : Result := branch rs1 rs2 immB (fun a b => a == b) s

/-- R72. -/
def execBne (rs1 rs2 : XReg) (immB : BitVec 13) (s : State) : Result := branch rs1 rs2 immB (fun a b => a != b) s

/-- R73. -/
def execBlt (rs1 rs2 : XReg) (immB : BitVec 13) (s : State) : Result := branch rs1 rs2 immB (fun a b => a.slt b) s

/-- R74. -/
def execBge (rs1 rs2 : XReg) (immB : BitVec 13) (s : State) : Result := branch rs1 rs2 immB (fun a b => !a.slt b) s

/-- R75. -/
def execBltu (rs1 rs2 : XReg) (immB : BitVec 13) (s : State) : Result := branch rs1 rs2 immB (fun a b => a.ult b) s

/-- R76. -/
def execBgeu (rs1 rs2 : XReg) (immB : BitVec 13) (s : State) : Result := branch rs1 rs2 immB (fun a b => !a.ult b) s

/-! ## Loads and stores -/

/-- R78. -/
def execLb (rd rs1 : XReg) (imm : BitVec 12) (s : State) : Result := loadInt rd rs1 imm 1 (fun v => v.signExtend 32) s

/-- R79. -/
def execLh (rd rs1 : XReg) (imm : BitVec 12) (s : State) : Result := loadInt rd rs1 imm 2 (fun v => v.signExtend 32) s

/-- R80. -/
def execLw (rd rs1 : XReg) (imm : BitVec 12) (s : State) : Result := loadInt rd rs1 imm 4 (fun v => v) s

/-- R81. -/
def execLbu (rd rs1 : XReg) (imm : BitVec 12) (s : State) : Result := loadInt rd rs1 imm 1 (fun v => v.setWidth 32) s

/-- R82. -/
def execLhu (rd rs1 : XReg) (imm : BitVec 12) (s : State) : Result := loadInt rd rs1 imm 2 (fun v => v.setWidth 32) s

/-- R83. -/
def execSb (rs2 rs1 : XReg) (imm : BitVec 12) (s : State) : Result := storeAt rs1 imm 1 (s.readX rs2) s

/-- R84. -/
def execSh (rs2 rs1 : XReg) (imm : BitVec 12) (s : State) : Result := storeAt rs1 imm 2 (s.readX rs2) s

/-- R85. -/
def execSw (rs2 rs1 : XReg) (imm : BitVec 12) (s : State) : Result := storeAt rs1 imm 4 (s.readX rs2) s

/-! ## Register-immediate ALU -/

/-- R86. -/
def execAddi (rd rs1 : XReg) (imm : BitVec 12) (s : State) : Result := aluImm rd rs1 (fun a => a + imm12Value imm) s

/-- R87. -/
def execSlti (rd rs1 : XReg) (imm : BitVec 12) (s : State) : Result :=
  aluImm rd rs1 (fun a => boolWord (a.slt (imm12Value imm))) s

/-- R88: the immediate is sign-extended, then compared unsigned. -/
def execSltiu (rd rs1 : XReg) (imm : BitVec 12) (s : State) : Result :=
  aluImm rd rs1 (fun a => boolWord (a.ult (imm12Value imm))) s

/-- R89. -/
def execXori (rd rs1 : XReg) (imm : BitVec 12) (s : State) : Result := aluImm rd rs1 (fun a => a ^^^ imm12Value imm) s

/-- R90. -/
def execOri (rd rs1 : XReg) (imm : BitVec 12) (s : State) : Result := aluImm rd rs1 (fun a => a ||| imm12Value imm) s

/-- R91. -/
def execAndi (rd rs1 : XReg) (imm : BitVec 12) (s : State) : Result := aluImm rd rs1 (fun a => a &&& imm12Value imm) s

/-- R92. -/
def execSlli (rd rs1 : XReg) (shamt : BitVec 5) (s : State) : Result := aluImm rd rs1 (fun a => a <<< shamt.toNat) s

/-- R93. -/
def execSrli (rd rs1 : XReg) (shamt : BitVec 5) (s : State) : Result := aluImm rd rs1 (fun a => a >>> shamt.toNat) s

/-- R94. -/
def execSrai (rd rs1 : XReg) (shamt : BitVec 5) (s : State) : Result :=
  aluImm rd rs1 (fun a => a.sshiftRight shamt.toNat) s

/-! ## Register-register ALU -/

/-- R95. -/
def execAdd (rd rs1 rs2 : XReg) (s : State) : Result := aluReg rd rs1 rs2 (fun a b => a + b) s

/-- R96. -/
def execSub (rd rs1 rs2 : XReg) (s : State) : Result := aluReg rd rs1 rs2 (fun a b => a - b) s

/-- R97. -/
def execSll (rd rs1 rs2 : XReg) (s : State) : Result := aluReg rd rs1 rs2 (fun a b => a <<< shiftAmount b) s

/-- R98. -/
def execSlt (rd rs1 rs2 : XReg) (s : State) : Result := aluReg rd rs1 rs2 (fun a b => boolWord (a.slt b)) s

/-- R99. -/
def execSltu (rd rs1 rs2 : XReg) (s : State) : Result := aluReg rd rs1 rs2 (fun a b => boolWord (a.ult b)) s

/-- R100. -/
def execXor (rd rs1 rs2 : XReg) (s : State) : Result := aluReg rd rs1 rs2 (fun a b => a ^^^ b) s

/-- R101. -/
def execSrl (rd rs1 rs2 : XReg) (s : State) : Result := aluReg rd rs1 rs2 (fun a b => a >>> shiftAmount b) s

/-- R102. -/
def execSra (rd rs1 rs2 : XReg) (s : State) : Result := aluReg rd rs1 rs2 (fun a b => a.sshiftRight (shiftAmount b)) s

/-- R103. -/
def execOr (rd rs1 rs2 : XReg) (s : State) : Result := aluReg rd rs1 rs2 (fun a b => a ||| b) s

/-- R104. -/
def execAnd (rd rs1 rs2 : XReg) (s : State) : Result := aluReg rd rs1 rs2 (fun a b => a &&& b) s

/-! ## Fences and environment instructions -/

/-- R105: no operation; every field is ignored. -/
def execFence (s : State) : Result := .next s

/-- R106, R48: Dirty becomes empty. -/
def execFenceI (s : State) : Result := .next { s with dirty := [] }

/-- R107: the run ends with reason Ecall and pc = ipc + 4. -/
def execEcall (s : State) : Result := .next (s.halt .ecall)

/-- R108: the run ends with reason Ebreak and pc = ipc + 4. -/
def execEbreak (s : State) : Result := .next (s.halt .ebreak)

end Sys2Proof.Machine
end

