-- ==== Sys2Proof/Machine/Fp.lean ====
section
/-! DEFINITION. The floating-point units, F and D (43_fp.md R136 to R198). Every rounding is to nearest, ties to even,
whatever rm and frm say (R138); no flag but NV is ever set here (R140). -/

namespace Sys2Proof.Machine

/-! ## Shared shapes -/

/-- A single-precision result of two operands, read through `unbox` and written boxed (R137). -/
def fpReg2S (rd rs1 rs2 : FReg) (op : Word → Word → Word) (s : State) : Result :=
  .next (s.setS rd (op (s.readS rs1) (s.readS rs2)))

/-- A double-precision result of two operands (R137). -/
def fpReg2D (rd rs1 rs2 : FReg) (op : Dword → Dword → Dword) (s : State) : Result :=
  .next (s.setF rd (op (s.readF rs1) (s.readF rs2)))

/-- A single-precision result of three operands. -/
def fpReg3S (rd rs1 rs2 rs3 : FReg) (op : Word → Word → Word → Word) (s : State) : Result :=
  .next (s.setS rd (op (s.readS rs1) (s.readS rs2) (s.readS rs3)))

/-- A double-precision result of three operands. -/
def fpReg3D (rd rs1 rs2 rs3 : FReg) (op : Dword → Dword → Dword → Dword) (s : State) : Result :=
  .next (s.setF rd (op (s.readF rs1) (s.readF rs2) (s.readF rs3)))

/-- A compare: a NaN operand gives 0 and sets NV, otherwise the numeric relation decides (R179, R180). -/
def fpCompare (fmt : Fmt) {n : Nat} (rd : XReg) (a b : BitVec n) (rel : FpVal → FpVal → Bool) (s : State) : Result :=
  if isNaN fmt a || isNaN fmt b then .next (s.setNV.setX rd 0)
  else .next (s.setX rd (boolWord (rel (unpack fmt a) (unpack fmt b))))

/-- FSQRT of an operand below zero: NV set, f[rd] a drawn value, and the run halts with pc = ipc + 4 (R151, R152; log 5). -/
def sqrtHalt (rd : FReg) (s : State) : State :=
  { (s.setNV.setF rd (Config.drawn s.draws)).halt .fsqrtNegative with draws := s.draws + 1 }

/-! ## Loads and stores -/

/-- R143. -/
def execFlw (rd : FReg) (rs1 : XReg) (imm : BitVec 12) (s : State) : Result :=
  match s.memRead (s.ea rs1 imm) 4 with
  | .error k => .next (s.raise k)
  | .ok v => .next (s.setS rd v)

/-- R144: the low word, with no unbox check. -/
def execFsw (rs2 : FReg) (rs1 : XReg) (imm : BitVec 12) (s : State) : Result := storeAt rs1 imm 4 (s.readF rs2) s

/-- R145: two word reads, the low word first; a fault of either leaves f[rd] unchanged. -/
def execFld (rd : FReg) (rs1 : XReg) (imm : BitVec 12) (s : State) : Result :=
  match s.memRead (s.ea rs1 imm) 4 with
  | .error k => .next (s.raise k)
  | .ok lo =>
    match s.memRead (s.ea rs1 imm + 4) 4 with
    | .error k => .next (s.raise k)
    | .ok hi => .next (s.setF rd (hi ++ lo))

/-- The address an FSD whose word at ea or at ea + 4 is refused records: ea, whichever word it is, as R146 has it; under the
other reading of log 8, R275's, ea + 4 when the second word alone is refused. -/
def State.fsdRefused (s : State) (ea : Word) : Word :=
  if s.params.admits ea.toNat 4 then
    match s.params.fsdFaultAddress with
    | .refusedWord => ea + 4
    | .base => ea
  else ea

/-- R146: both words are checked before either is written. -/
def execFsd (rs2 : FReg) (rs1 : XReg) (imm : BitVec 12) (s : State) : Result :=
  let ea := s.ea rs1 imm
  if ea.toNat % 4 ≠ 0 then .next (s.raise (.misalignedAccess ea))
  else if !(s.params.admits ea.toNat 4 && s.params.admits (ea + 4).toNat 4) then
    .next (s.raise (.accessFault (s.fsdRefused ea)))
  else
    .next ((s.storeValue ea 4 ((s.readF rs2).extractLsb' 0 32)).storeValue (ea + 4) 4 ((s.readF rs2).extractLsb' 32 32))

/-! ## Arithmetic -/

/-- R147. -/
def execFaddS (rd rs1 rs2 : FReg) (s : State) : Result := fpReg2S rd rs1 rs2 (fpAdd .single) s

/-- R153. -/
def execFaddD (rd rs1 rs2 : FReg) (s : State) : Result := fpReg2D rd rs1 rs2 (fpAdd .double) s

/-- R148. -/
def execFsubS (rd rs1 rs2 : FReg) (s : State) : Result := fpReg2S rd rs1 rs2 (fpSub .single) s

/-- R154. -/
def execFsubD (rd rs1 rs2 : FReg) (s : State) : Result := fpReg2D rd rs1 rs2 (fpSub .double) s

/-- R149. -/
def execFmulS (rd rs1 rs2 : FReg) (s : State) : Result := fpReg2S rd rs1 rs2 (fpMul .single) s

/-- R155. -/
def execFmulD (rd rs1 rs2 : FReg) (s : State) : Result := fpReg2D rd rs1 rs2 (fpMul .double) s

/-- R150. -/
def execFdivS (rd rs1 rs2 : FReg) (s : State) : Result := fpReg2S rd rs1 rs2 (fpDiv .single) s

/-- R156. -/
def execFdivD (rd rs1 rs2 : FReg) (s : State) : Result := fpReg2D rd rs1 rs2 (fpDiv .double) s

/-- R151, R152. -/
def execFsqrtS (rd rs1 : FReg) (s : State) : Result :=
  if fpNegative .single (s.readS rs1) then .next (sqrtHalt rd s) else .next (s.setS rd (fpSqrt .single (s.readS rs1)))

/-- R157, R152. -/
def execFsqrtD (rd rs1 : FReg) (s : State) : Result :=
  if fpNegative .double (s.readF rs1) then .next (sqrtHalt rd s) else .next (s.setF rd (fpSqrt .double (s.readF rs1)))

/-! ## Fused multiply-add (R158) -/

/-- R159. -/
def execFmaddS (rd rs1 rs2 rs3 : FReg) (s : State) : Result := fpReg3S rd rs1 rs2 rs3 (fpFma .single false false) s

/-- R163. -/
def execFmaddD (rd rs1 rs2 rs3 : FReg) (s : State) : Result := fpReg3D rd rs1 rs2 rs3 (fpFma .double false false) s

/-- R160. -/
def execFmsubS (rd rs1 rs2 rs3 : FReg) (s : State) : Result := fpReg3S rd rs1 rs2 rs3 (fpFma .single false true) s

/-- R164. -/
def execFmsubD (rd rs1 rs2 rs3 : FReg) (s : State) : Result := fpReg3D rd rs1 rs2 rs3 (fpFma .double false true) s

/-- R161. -/
def execFnmsubS (rd rs1 rs2 rs3 : FReg) (s : State) : Result := fpReg3S rd rs1 rs2 rs3 (fpFma .single true false) s

/-- R165. -/
def execFnmsubD (rd rs1 rs2 rs3 : FReg) (s : State) : Result := fpReg3D rd rs1 rs2 rs3 (fpFma .double true false) s

/-- R162. -/
def execFnmaddS (rd rs1 rs2 rs3 : FReg) (s : State) : Result := fpReg3S rd rs1 rs2 rs3 (fpFma .single true true) s

/-- R166. -/
def execFnmaddD (rd rs1 rs2 rs3 : FReg) (s : State) : Result := fpReg3D rd rs1 rs2 rs3 (fpFma .double true true) s

/-! ## Sign injection (R167) -/

/-- R168. -/
def execFsgnjS (rd rs1 rs2 : FReg) (s : State) : Result := fpReg2S rd rs1 rs2 (fun a b => withSign b.msb a) s

/-- R171. -/
def execFsgnjD (rd rs1 rs2 : FReg) (s : State) : Result := fpReg2D rd rs1 rs2 (fun a b => withSign b.msb a) s

/-- R169. -/
def execFsgnjnS (rd rs1 rs2 : FReg) (s : State) : Result := fpReg2S rd rs1 rs2 (fun a b => withSign (!b.msb) a) s

/-- R172. -/
def execFsgnjnD (rd rs1 rs2 : FReg) (s : State) : Result := fpReg2D rd rs1 rs2 (fun a b => withSign (!b.msb) a) s

/-- R170. -/
def execFsgnjxS (rd rs1 rs2 : FReg) (s : State) : Result := fpReg2S rd rs1 rs2 (fun a b => withSign (a.msb ^^ b.msb) a) s

/-- R173. -/
def execFsgnjxD (rd rs1 rs2 : FReg) (s : State) : Result := fpReg2D rd rs1 rs2 (fun a b => withSign (a.msb ^^ b.msb) a) s

/-! ## Minimum and maximum (R174) -/

/-- R175. -/
def execFminS (rd rs1 rs2 : FReg) (s : State) : Result := fpReg2S rd rs1 rs2 (fpMin .single) s

/-- R177. -/
def execFminD (rd rs1 rs2 : FReg) (s : State) : Result := fpReg2D rd rs1 rs2 (fpMin .double) s

/-- R176. -/
def execFmaxS (rd rs1 rs2 : FReg) (s : State) : Result := fpReg2S rd rs1 rs2 (fpMax .single) s

/-- R178. -/
def execFmaxD (rd rs1 rs2 : FReg) (s : State) : Result := fpReg2D rd rs1 rs2 (fpMax .double) s

/-! ## Compares (R179) -/

/-- R180. -/
def execFeqS (rd : XReg) (rs1 rs2 : FReg) (s : State) : Result :=
  fpCompare .single rd (s.readS rs1) (s.readS rs2) FpVal.eq s

/-- R183. -/
def execFeqD (rd : XReg) (rs1 rs2 : FReg) (s : State) : Result :=
  fpCompare .double rd (s.readF rs1) (s.readF rs2) FpVal.eq s

/-- R181. -/
def execFltS (rd : XReg) (rs1 rs2 : FReg) (s : State) : Result :=
  fpCompare .single rd (s.readS rs1) (s.readS rs2) FpVal.lt s

/-- R184. -/
def execFltD (rd : XReg) (rs1 rs2 : FReg) (s : State) : Result :=
  fpCompare .double rd (s.readF rs1) (s.readF rs2) FpVal.lt s

/-- R182. -/
def execFleS (rd : XReg) (rs1 rs2 : FReg) (s : State) : Result :=
  fpCompare .single rd (s.readS rs1) (s.readS rs2) FpVal.le s

/-- R185. -/
def execFleD (rd : XReg) (rs1 rs2 : FReg) (s : State) : Result :=
  fpCompare .double rd (s.readF rs1) (s.readF rs2) FpVal.le s

/-! ## Conversions (R186) -/

/-- R187. -/
def execFcvtWS (rd : XReg) (rs1 : FReg) (s : State) : Result := .next (s.setX rd (cvtW .single (s.readS rs1)))

/-- R188. -/
def execFcvtWUS (rd : XReg) (rs1 : FReg) (s : State) : Result := .next (s.setX rd (cvtWU .single (s.readS rs1)))

/-- R189. -/
def execFcvtSW (rd : FReg) (rs1 : XReg) (s : State) : Result := .next (s.setS rd (cvtFromInt .single 32 (s.readX rs1).toInt))

/-- R190. -/
def execFcvtSWU (rd : FReg) (rs1 : XReg) (s : State) : Result := .next (s.setS rd (cvtFromInt .single 32 (s.readX rs1).toNat))

/-- R191. -/
def execFcvtWD (rd : XReg) (rs1 : FReg) (s : State) : Result := .next (s.setX rd (cvtW .double (s.readF rs1)))

/-- R192. -/
def execFcvtWUD (rd : XReg) (rs1 : FReg) (s : State) : Result := .next (s.setX rd (cvtWU .double (s.readF rs1)))

/-- R193. -/
def execFcvtDW (rd : FReg) (rs1 : XReg) (s : State) : Result := .next (s.setF rd (cvtFromInt .double 64 (s.readX rs1).toInt))

/-- R194. -/
def execFcvtDWU (rd : FReg) (rs1 : XReg) (s : State) : Result := .next (s.setF rd (cvtFromInt .double 64 (s.readX rs1).toNat))

/-- R195. -/
def execFcvtSD (rd rs1 : FReg) (s : State) : Result := .next (s.setS rd (cvtFormat .double .single 32 (s.readF rs1)))

/-- R196. -/
def execFcvtDS (rd rs1 : FReg) (s : State) : Result := .next (s.setF rd (cvtFormat .single .double 64 (s.readS rs1)))

/-! ## Moves between register files -/

/-- R197: the low word, raw. -/
def execFmvXW (rd : XReg) (rs1 : FReg) (s : State) : Result := .next (s.setX rd ((s.readF rs1).extractLsb' 0 32))

/-- R198. -/
def execFmvWX (rd : FReg) (rs1 : XReg) (s : State) : Result := .next (s.setS rd (s.readX rs1))

end Sys2Proof.Machine
end

