-- ==== Sys2Proof/Machine/Rv32a.lean ====
section
/-! DEFINITION. The atomic unit (42_rv32a.md R122 to R135). There is no reservation; aq and rl order nothing (R122, R124). -/

namespace Sys2Proof.Machine

/-- The common pseudocode of the AMOs: read the word, store op(old, x[rs2]), then rd gets the old word. The store cannot
fault, the same access having just been admitted (R123, R135). -/
def amo (rd rs2 rs1 : XReg) (op : Word → Word → Word) (s : State) : Result :=
  match s.memRead (s.readX rs1) 4 with
  | .error k => .next (s.raise k)
  | .ok old => .next ((s.storeValue (s.readX rs1) 4 (op old (s.readX rs2))).setX rd old)

/-- R124: a plain load of the word at x[rs1]. -/
def execLrW (rd rs1 : XReg) (s : State) : Result :=
  match s.memRead (s.readX rs1) 4 with
  | .error k => .next (s.raise k)
  | .ok v => .next (s.setX rd v)

/-- R125: the store always happens and rd gets 0. -/
def execScW (rd rs2 rs1 : XReg) (s : State) : Result :=
  match s.memWrite (s.readX rs1) 4 (s.readX rs2) with
  | .error k => .next (s.raise k)
  | .ok t => .next (t.setX rd 0)

/-- R126. -/
def execAmoswapW (rd rs2 rs1 : XReg) (s : State) : Result := amo rd rs2 rs1 (fun _ src => src) s

/-- R127. -/
def execAmoaddW (rd rs2 rs1 : XReg) (s : State) : Result := amo rd rs2 rs1 (fun old src => old + src) s

/-- R128. -/
def execAmoxorW (rd rs2 rs1 : XReg) (s : State) : Result := amo rd rs2 rs1 (fun old src => old ^^^ src) s

/-- R129. -/
def execAmoandW (rd rs2 rs1 : XReg) (s : State) : Result := amo rd rs2 rs1 (fun old src => old &&& src) s

/-- R130. -/
def execAmoorW (rd rs2 rs1 : XReg) (s : State) : Result := amo rd rs2 rs1 (fun old src => old ||| src) s

/-- R131. -/
def execAmominW (rd rs2 rs1 : XReg) (s : State) : Result :=
  amo rd rs2 rs1 (fun old src => if old.toInt ≤ src.toInt then old else src) s

/-- R132. -/
def execAmomaxW (rd rs2 rs1 : XReg) (s : State) : Result :=
  amo rd rs2 rs1 (fun old src => if src.toInt ≤ old.toInt then old else src) s

/-- R133. -/
def execAmominuW (rd rs2 rs1 : XReg) (s : State) : Result :=
  amo rd rs2 rs1 (fun old src => if old.toNat ≤ src.toNat then old else src) s

/-- R134. -/
def execAmomaxuW (rd rs2 rs1 : XReg) (s : State) : Result :=
  amo rd rs2 rs1 (fun old src => if src.toNat ≤ old.toNat then old else src) s

end Sys2Proof.Machine
end

