-- ==== Sys2Proof/Machine/Rv32m.lean ====
section
/-! DEFINITION. The multiply/divide unit (41_rv32m.md R110 to R121). Products are exact in ℤ and the named half is kept;
quotients truncate toward zero. -/

namespace Sys2Proof.Machine

/-- Bits 63:32 of an exact product, as 64-bit two's complement (R115). -/
def highWord (p : Int) : Word := (BitVec.ofInt 64 p).extractLsb' 32 32

/-- INT32_MIN, the dividend of the overflow case (R111). -/
def intMin : Word := 0x80000000#32

/-- R118, with the corner cases of R112. -/
def divSigned (s t : Word) : Word :=
  if t = 0 then 0xFFFFFFFF#32
  else if s = intMin ∧ t = 0xFFFFFFFF#32 then intMin
  else BitVec.ofInt 32 (s.toInt.tdiv t.toInt)

/-- R119. -/
def divUnsigned (s t : Word) : Word := if t = 0 then 0xFFFFFFFF#32 else BitVec.ofNat 32 (s.toNat / t.toNat)

/-- R120, with the corner cases of R112. -/
def remSigned (s t : Word) : Word :=
  if t = 0 then s
  else if s = intMin ∧ t = 0xFFFFFFFF#32 then 0
  else BitVec.ofInt 32 (s.toInt - t.toInt * s.toInt.tdiv t.toInt)

/-- R121. -/
def remUnsigned (s t : Word) : Word := if t = 0 then s else BitVec.ofNat 32 (s.toNat % t.toNat)

/-- R114. -/
def execMul (rd rs1 rs2 : XReg) (s : State) : Result :=
  aluReg rd rs1 rs2 (fun a b => BitVec.ofInt 32 (a.toInt * b.toInt)) s

/-- R115. -/
def execMulh (rd rs1 rs2 : XReg) (s : State) : Result := aluReg rd rs1 rs2 (fun a b => highWord (a.toInt * b.toInt)) s

/-- R116. -/
def execMulhsu (rd rs1 rs2 : XReg) (s : State) : Result := aluReg rd rs1 rs2 (fun a b => highWord (a.toInt * b.toNat)) s

/-- R117. -/
def execMulhu (rd rs1 rs2 : XReg) (s : State) : Result := aluReg rd rs1 rs2 (fun a b => highWord (a.toNat * b.toNat)) s

/-- R118. -/
def execDiv (rd rs1 rs2 : XReg) (s : State) : Result := aluReg rd rs1 rs2 divSigned s

/-- R119. -/
def execDivu (rd rs1 rs2 : XReg) (s : State) : Result := aluReg rd rs1 rs2 divUnsigned s

/-- R120. -/
def execRem (rd rs1 rs2 : XReg) (s : State) : Result := aluReg rd rs1 rs2 remSigned s

/-- R121. -/
def execRemu (rd rs1 rs2 : XReg) (s : State) : Result := aluReg rd rs1 rs2 remUnsigned s

end Sys2Proof.Machine
end

