-- ==== Sys2Proof/Machine/VectorAlu.lean ====
section
/-! DEFINITION. Vector ALU, compares, moves and reductions (46_vector_alu.md R226 to R273). Element functions are
written once for every element width S = 8·SEW. -/

namespace Sys2Proof.Machine

/-! ## Shared shapes -/

/-- A vector-vector instruction: the checks, then op(vs2[el], vs1[el]) element by element (R226, R227). -/
def vectorVV (vd vs2 vs1 : VReg) (op : (S : Nat) → BitVec S → BitVec S → BitVec S) (s : State) : Result :=
  match s.vectorCheck none [(vd, s.sew), (vs2, s.sew), (vs1, s.sew)] with
  | some k => .next (s.raise k)
  | none => .next (s.setVr (elementLoop vd s.sew
      (fun v el => op (8 * s.sew) (v.elem vs2 el s.sew) (v.elem vs1 el s.sew)) s.vl.toNat 0 s.vr))

/-- A vector-scalar or vector-immediate instruction: the second operand is one value of S bits (R226, R227). -/
def vectorScalar (vd vs2 : VReg) (operand : (S : Nat) → BitVec S) (op : (S : Nat) → BitVec S → BitVec S → BitVec S)
    (s : State) : Result :=
  match s.vectorCheck none [(vd, s.sew), (vs2, s.sew)] with
  | some k => .next (s.raise k)
  | none => .next (s.setVr (elementLoop vd s.sew
      (fun v el => op (8 * s.sew) (v.elem vs2 el s.sew) (operand (8 * s.sew))) s.vl.toNat 0 s.vr))

/-- The shift count `b & (S − 1)`: the low log2(S) bits (R250). -/
def vectorShift {S : Nat} (b : BitVec S) : Nat := b.toNat % S

/-- A compare's element, 1 or 0, S bits wide (R228). -/
def boolElem {S : Nat} (b : Bool) : BitVec S := if b then BitVec.ofNat S 1 else BitVec.ofNat S 0

/-! ## Integer arithmetic -/

/-- R230. -/
def execVaddVV (vd vs2 vs1 : VReg) (s : State) : Result := vectorVV vd vs2 vs1 (fun _ a b => a + b) s

/-- R231. -/
def execVaddVX (vd vs2 : VReg) (rs1 : XReg) (s : State) : Result :=
  vectorScalar vd vs2 (s.scalarOperand rs1) (fun _ a b => a + b) s

/-- R232. -/
def execVaddVI (vd vs2 : VReg) (imm5 : BitVec 5) (s : State) : Result :=
  vectorScalar vd vs2 (simm5Operand imm5) (fun _ a b => a + b) s

/-- R233. -/
def execVsubVV (vd vs2 vs1 : VReg) (s : State) : Result := vectorVV vd vs2 vs1 (fun _ a b => a - b) s

/-- R234. -/
def execVsubVX (vd vs2 : VReg) (rs1 : XReg) (s : State) : Result :=
  vectorScalar vd vs2 (s.scalarOperand rs1) (fun _ a b => a - b) s

/-- R235. -/
def execVmulVV (vd vs2 vs1 : VReg) (s : State) : Result := vectorVV vd vs2 vs1 (fun _ a b => a * b) s

/-- R236. -/
def execVmulVX (vd vs2 : VReg) (rs1 : XReg) (s : State) : Result :=
  vectorScalar vd vs2 (s.scalarOperand rs1) (fun _ a b => a * b) s

/-! ## Unsigned minimum and maximum -/

/-- R237. -/
def execVminuVV (vd vs2 vs1 : VReg) (s : State) : Result := vectorVV vd vs2 vs1 (fun _ a b => if a.ult b then a else b) s

/-- R238. -/
def execVminuVX (vd vs2 : VReg) (rs1 : XReg) (s : State) : Result :=
  vectorScalar vd vs2 (s.scalarOperand rs1) (fun _ a b => if a.ult b then a else b) s

/-- R239. -/
def execVmaxuVV (vd vs2 vs1 : VReg) (s : State) : Result := vectorVV vd vs2 vs1 (fun _ a b => if a.ult b then b else a) s

/-- R240. -/
def execVmaxuVX (vd vs2 : VReg) (rs1 : XReg) (s : State) : Result :=
  vectorScalar vd vs2 (s.scalarOperand rs1) (fun _ a b => if a.ult b then b else a) s

/-! ## Bitwise logic -/

/-- R241. -/
def execVandVV (vd vs2 vs1 : VReg) (s : State) : Result := vectorVV vd vs2 vs1 (fun _ a b => a &&& b) s

/-- R242. -/
def execVandVX (vd vs2 : VReg) (rs1 : XReg) (s : State) : Result :=
  vectorScalar vd vs2 (s.scalarOperand rs1) (fun _ a b => a &&& b) s

/-- R243. -/
def execVandVI (vd vs2 : VReg) (imm5 : BitVec 5) (s : State) : Result :=
  vectorScalar vd vs2 (simm5Operand imm5) (fun _ a b => a &&& b) s

/-- R244. -/
def execVorVV (vd vs2 vs1 : VReg) (s : State) : Result := vectorVV vd vs2 vs1 (fun _ a b => a ||| b) s

/-- R245. -/
def execVorVX (vd vs2 : VReg) (rs1 : XReg) (s : State) : Result :=
  vectorScalar vd vs2 (s.scalarOperand rs1) (fun _ a b => a ||| b) s

/-- R246. -/
def execVorVI (vd vs2 : VReg) (imm5 : BitVec 5) (s : State) : Result :=
  vectorScalar vd vs2 (simm5Operand imm5) (fun _ a b => a ||| b) s

/-- R247. -/
def execVxorVV (vd vs2 vs1 : VReg) (s : State) : Result := vectorVV vd vs2 vs1 (fun _ a b => a ^^^ b) s

/-- R248. -/
def execVxorVX (vd vs2 : VReg) (rs1 : XReg) (s : State) : Result :=
  vectorScalar vd vs2 (s.scalarOperand rs1) (fun _ a b => a ^^^ b) s

/-- R249. -/
def execVxorVI (vd vs2 : VReg) (imm5 : BitVec 5) (s : State) : Result :=
  vectorScalar vd vs2 (simm5Operand imm5) (fun _ a b => a ^^^ b) s

/-! ## Shifts (R250) -/

/-- R251. -/
def execVsllVV (vd vs2 vs1 : VReg) (s : State) : Result := vectorVV vd vs2 vs1 (fun _ a b => a <<< vectorShift b) s

/-- R252. -/
def execVsllVX (vd vs2 : VReg) (rs1 : XReg) (s : State) : Result :=
  vectorScalar vd vs2 (s.scalarOperand rs1) (fun _ a b => a <<< vectorShift b) s

/-- R253. -/
def execVsllVI (vd vs2 : VReg) (imm5 : BitVec 5) (s : State) : Result :=
  vectorScalar vd vs2 (uimm5Operand imm5) (fun _ a b => a <<< vectorShift b) s

/-- R254. -/
def execVsrlVV (vd vs2 vs1 : VReg) (s : State) : Result := vectorVV vd vs2 vs1 (fun _ a b => a >>> vectorShift b) s

/-- R255. -/
def execVsrlVX (vd vs2 : VReg) (rs1 : XReg) (s : State) : Result :=
  vectorScalar vd vs2 (s.scalarOperand rs1) (fun _ a b => a >>> vectorShift b) s

/-- R256. -/
def execVsrlVI (vd vs2 : VReg) (imm5 : BitVec 5) (s : State) : Result :=
  vectorScalar vd vs2 (uimm5Operand imm5) (fun _ a b => a >>> vectorShift b) s

/-! ## Compares: a full element of value 1 or 0 (R228) -/

/-- R257. -/
def execVmseqVV (vd vs2 vs1 : VReg) (s : State) : Result := vectorVV vd vs2 vs1 (fun _ a b => boolElem (a == b)) s

/-- R258. -/
def execVmseqVX (vd vs2 : VReg) (rs1 : XReg) (s : State) : Result :=
  vectorScalar vd vs2 (s.scalarOperand rs1) (fun _ a b => boolElem (a == b)) s

/-- R259. -/
def execVmseqVI (vd vs2 : VReg) (imm5 : BitVec 5) (s : State) : Result :=
  vectorScalar vd vs2 (simm5Operand imm5) (fun _ a b => boolElem (a == b)) s

/-- R260. -/
def execVmsneVV (vd vs2 vs1 : VReg) (s : State) : Result := vectorVV vd vs2 vs1 (fun _ a b => boolElem (a != b)) s

/-- R261. -/
def execVmsneVX (vd vs2 : VReg) (rs1 : XReg) (s : State) : Result :=
  vectorScalar vd vs2 (s.scalarOperand rs1) (fun _ a b => boolElem (a != b)) s

/-- R262. -/
def execVmsneVI (vd vs2 : VReg) (imm5 : BitVec 5) (s : State) : Result :=
  vectorScalar vd vs2 (simm5Operand imm5) (fun _ a b => boolElem (a != b)) s

/-- R263. -/
def execVmsltVV (vd vs2 vs1 : VReg) (s : State) : Result := vectorVV vd vs2 vs1 (fun _ a b => boolElem (a.slt b)) s

/-- R264. -/
def execVmsltVX (vd vs2 : VReg) (rs1 : XReg) (s : State) : Result :=
  vectorScalar vd vs2 (s.scalarOperand rs1) (fun _ a b => boolElem (a.slt b)) s

/-- R265. -/
def execVmsleVV (vd vs2 vs1 : VReg) (s : State) : Result := vectorVV vd vs2 vs1 (fun _ a b => boolElem (a.sle b)) s

/-- R266. -/
def execVmsleVX (vd vs2 : VReg) (rs1 : XReg) (s : State) : Result :=
  vectorScalar vd vs2 (s.scalarOperand rs1) (fun _ a b => boolElem (a.sle b)) s

/-- R267. -/
def execVmsleVI (vd vs2 : VReg) (imm5 : BitVec 5) (s : State) : Result :=
  vectorScalar vd vs2 (simm5Operand imm5) (fun _ a b => boolElem (a.sle b)) s

/-- R268. -/
def execVmsgtVX (vd vs2 : VReg) (rs1 : XReg) (s : State) : Result :=
  vectorScalar vd vs2 (s.scalarOperand rs1) (fun _ a b => boolElem (b.slt a)) s

/-- R269. -/
def execVmsgtVI (vd vs2 : VReg) (imm5 : BitVec 5) (s : State) : Result :=
  vectorScalar vd vs2 (simm5Operand imm5) (fun _ a b => boolElem (b.slt a)) s

/-! ## Scalar and vector moves -/

/-- R270: element 0 sign-extended, whatever vl is. -/
def execVmvXS (rd : XReg) (vs2 : VReg) (s : State) : Result :=
  match s.vectorCheck none [] with
  | some k => .next (s.raise k)
  | none => .next (s.setX rd ((s.vr.elem vs2 0 s.sew).signExtend 32))

/-- R271: element 0 gets x[rs1] truncated, whatever vl is. -/
def execVmvSX (vd : VReg) (rs1 : XReg) (s : State) : Result :=
  match s.vectorCheck none [] with
  | some k => .next (s.raise k)
  | none => .next (s.setVr (s.vr.setElem vd 0 s.sew (s.scalarOperand rs1 (8 * s.sew))))

/-! ## Reductions -/

/-- R272: vd and vs1 are single registers, so only the vs2 group is checked. -/
def execVredsumVS (vd vs2 vs1 : VReg) (s : State) : Result :=
  match s.vectorCheck none [(vs2, s.sew)] with
  | some k => .next (s.raise k)
  | none => .next (s.setVr (s.vr.setElem vd 0 s.sew
      (reduceLoop (fun el => s.vr.elem vs2 el s.sew) s.vl.toNat 0 (s.vr.elem vs1 0 s.sew))))

/-- R273: the sum runs at width 2·SEW from the wider vs1[0]; the elements of vs2 are zero-extended. -/
def execVwredsumuVS (vd vs2 vs1 : VReg) (s : State) : Result :=
  match s.vectorCheck none [(vs2, s.sew)] with
  | some k => .next (s.raise k)
  | none => .next (s.setVr (s.vr.setElem vd 0 (2 * s.sew)
      (reduceLoop (fun el => (s.vr.elem vs2 el s.sew).setWidth (8 * (2 * s.sew))) s.vl.toNat 0
        (s.vr.elem vs1 0 (2 * s.sew)))))

end Sys2Proof.Machine
end

