-- ==== Sys2Proof/Machine/VectorMem.lean ====
section
/-! DEFINITION. Vector configuration, loads and stores (45_vector_config_mem.md R208 to R225). -/

namespace Sys2Proof.Machine

/-- A vtypei value vsetvli refuses: vlmul ≥ 4, vsew = 3, bit 5 set, or bits 10:8 not 0 (R208, R209). -/
def vtypeiUnsupported (z : BitVec 11) : Bool :=
  decide (4 ≤ (z.extractLsb' 0 3).toNat) || z.extractLsb' 3 2 == 3#2 || z.getLsbD 5 || z.extractLsb' 8 3 != 0#3

/-- R208: vl = min(AVL, VLMAX), AVL being VLMAX itself when rs1 is x0. -/
def execVsetvli (rd rs1 : XReg) (zimm : BitVec 11) (s : State) : Result :=
  if vtypeiUnsupported zimm then .next (s.raise (.vConfigUnsupported zimm))
  else
    let vt := zimm.extractLsb' 0 5
    let avl := if rs1 = 0 then vlmaxOf vt else (s.readX rs1).toNat
    let n := BitVec.ofNat 32 (min avl (vlmaxOf vt))
    .next ({ s with vtype := vt, vl := n }.setX rd n)

/-- A vector load of EEW bytes an element: the checks of R210, then the elements in order (R211 to R213). -/
def vectorLoad (vd : VReg) (eew : Nat) (base stride : Word) (s : State) : Result :=
  match s.vectorCheck (some eew) [(vd, eew)] with
  | some k => .next (s.raise k)
  | none => .next (loadLoop vd eew base stride s.vl.toNat 0 s)

/-- A vector store of EEW bytes an element (R210 to R213). -/
def vectorStore (vs3 : VReg) (eew : Nat) (base stride : Word) (s : State) : Result :=
  match s.vectorCheck (some eew) [(vs3, eew)] with
  | some k => .next (s.raise k)
  | none => .next (storeLoop vs3 eew base stride s.vl.toNat 0 s)

/-- R214. -/
def execVle8V (vd : VReg) (rs1 : XReg) (s : State) : Result := vectorLoad vd 1 (s.readX rs1) 1 s

/-- R215. -/
def execVle16V (vd : VReg) (rs1 : XReg) (s : State) : Result := vectorLoad vd 2 (s.readX rs1) 2 s

/-- R216. -/
def execVle32V (vd : VReg) (rs1 : XReg) (s : State) : Result := vectorLoad vd 4 (s.readX rs1) 4 s

/-- R217. -/
def execVlse8V (vd : VReg) (rs1 rs2 : XReg) (s : State) : Result := vectorLoad vd 1 (s.readX rs1) (s.readX rs2) s

/-- R218. -/
def execVlse16V (vd : VReg) (rs1 rs2 : XReg) (s : State) : Result := vectorLoad vd 2 (s.readX rs1) (s.readX rs2) s

/-- R219. -/
def execVlse32V (vd : VReg) (rs1 rs2 : XReg) (s : State) : Result := vectorLoad vd 4 (s.readX rs1) (s.readX rs2) s

/-- R220. -/
def execVse8V (vs3 : VReg) (rs1 : XReg) (s : State) : Result := vectorStore vs3 1 (s.readX rs1) 1 s

/-- R221. -/
def execVse16V (vs3 : VReg) (rs1 : XReg) (s : State) : Result := vectorStore vs3 2 (s.readX rs1) 2 s

/-- R222. -/
def execVse32V (vs3 : VReg) (rs1 : XReg) (s : State) : Result := vectorStore vs3 4 (s.readX rs1) 4 s

/-- R223. -/
def execVsse8V (vs3 : VReg) (rs1 rs2 : XReg) (s : State) : Result := vectorStore vs3 1 (s.readX rs1) (s.readX rs2) s

/-- R224. -/
def execVsse16V (vs3 : VReg) (rs1 rs2 : XReg) (s : State) : Result := vectorStore vs3 2 (s.readX rs1) (s.readX rs2) s

/-- R225. -/
def execVsse32V (vs3 : VReg) (rs1 rs2 : XReg) (s : State) : Result := vectorStore vs3 4 (s.readX rs1) (s.readX rs2) s

end Sys2Proof.Machine
end

