-- ==== Sys2Proof/Machine/Zicsr.lean ====
section
/-! DEFINITION. The CSR unit (44_zicsr.md R200 to R207). -/

namespace Sys2Proof.Machine

/-- An attempted write to a read-only CSR: IllegalInstruction with the instruction's own word (R201, R275; log 10). -/
def csrIllegal (i : Instr) (s : State) : Result := .next (s.raise (.illegalInstruction (encode i)))

/-- The common shape of CSRRS and CSRRC: rs1 = x0 writes nothing; all sources are read first (R202, R204, R205). -/
def csrUpdate (rd : XReg) (csr : BitVec 12) (rs1 : XReg) (op : Word → Word → Word) (s : State) : State :=
  (if rs1 = 0 then s else s.csrWrite csr (op (s.csrRead csr) (s.csrMask rd rs1))).setX rd (s.csrRead csr)

/-- R203. -/
def execCsrrw (rd : XReg) (csr : BitVec 12) (rs1 : XReg) (s : State) : Result :=
  if csrReadOnly csr then csrIllegal (.csrrw rd csr rs1) s
  else .next ((s.csrWrite csr (s.readX rs1)).setX rd (s.csrRead csr))

/-- R204. -/
def execCsrrs (rd : XReg) (csr : BitVec 12) (rs1 : XReg) (s : State) : Result :=
  if rs1 ≠ 0 ∧ csrReadOnly csr then csrIllegal (.csrrs rd csr rs1) s
  else .next (csrUpdate rd csr rs1 (fun old m => old ||| m) s)

/-- R205. -/
def execCsrrc (rd : XReg) (csr : BitVec 12) (rs1 : XReg) (s : State) : Result :=
  if rs1 ≠ 0 ∧ csrReadOnly csr then csrIllegal (.csrrc rd csr rs1) s
  else .next (csrUpdate rd csr rs1 (fun old m => old &&& ~~~m) s)

end Sys2Proof.Machine
end

