-- ==== Sys2Proof/Machine/Dispatch.lean ====
section
/-! DEFINITION. One arm per instruction, each a direct call of its meaning. -/

namespace Sys2Proof.Machine

def exec (i : Instr) (s : State) : Host.Outcome State Fault Refusal :=
  match i with
  -- The integer unit, RV32I (40_rv32i.md)
  | .lui rd immU => Sys2Proof.Machine.execLui rd immU s
  | .auipc rd immU => Sys2Proof.Machine.execAuipc rd immU s
  | .jal rd immJ => Sys2Proof.Machine.execJal rd immJ s
  | .jalr rd rs1 imm12 => Sys2Proof.Machine.execJalr rd rs1 imm12 s
  | .beq rs1 rs2 immB => Sys2Proof.Machine.execBeq rs1 rs2 immB s
  | .bne rs1 rs2 immB => Sys2Proof.Machine.execBne rs1 rs2 immB s
  | .blt rs1 rs2 immB => Sys2Proof.Machine.execBlt rs1 rs2 immB s
  | .bge rs1 rs2 immB => Sys2Proof.Machine.execBge rs1 rs2 immB s
  | .bltu rs1 rs2 immB => Sys2Proof.Machine.execBltu rs1 rs2 immB s
  | .bgeu rs1 rs2 immB => Sys2Proof.Machine.execBgeu rs1 rs2 immB s
  | .lb rd rs1 imm12 => Sys2Proof.Machine.execLb rd rs1 imm12 s
  | .lh rd rs1 imm12 => Sys2Proof.Machine.execLh rd rs1 imm12 s
  | .lw rd rs1 imm12 => Sys2Proof.Machine.execLw rd rs1 imm12 s
  | .lbu rd rs1 imm12 => Sys2Proof.Machine.execLbu rd rs1 imm12 s
  | .lhu rd rs1 imm12 => Sys2Proof.Machine.execLhu rd rs1 imm12 s
  | .sb rs2 rs1 immS => Sys2Proof.Machine.execSb rs2 rs1 immS s
  | .sh rs2 rs1 immS => Sys2Proof.Machine.execSh rs2 rs1 immS s
  | .sw rs2 rs1 immS => Sys2Proof.Machine.execSw rs2 rs1 immS s
  | .addi rd rs1 imm12 => Sys2Proof.Machine.execAddi rd rs1 imm12 s
  | .slti rd rs1 imm12 => Sys2Proof.Machine.execSlti rd rs1 imm12 s
  | .sltiu rd rs1 imm12 => Sys2Proof.Machine.execSltiu rd rs1 imm12 s
  | .xori rd rs1 imm12 => Sys2Proof.Machine.execXori rd rs1 imm12 s
  | .ori rd rs1 imm12 => Sys2Proof.Machine.execOri rd rs1 imm12 s
  | .andi rd rs1 imm12 => Sys2Proof.Machine.execAndi rd rs1 imm12 s
  | .slli rd rs1 shamt => Sys2Proof.Machine.execSlli rd rs1 shamt s
  | .srli rd rs1 shamt => Sys2Proof.Machine.execSrli rd rs1 shamt s
  | .srai rd rs1 shamt => Sys2Proof.Machine.execSrai rd rs1 shamt s
  | .add rd rs1 rs2 => Sys2Proof.Machine.execAdd rd rs1 rs2 s
  | .sub rd rs1 rs2 => Sys2Proof.Machine.execSub rd rs1 rs2 s
  | .sll rd rs1 rs2 => Sys2Proof.Machine.execSll rd rs1 rs2 s
  | .slt rd rs1 rs2 => Sys2Proof.Machine.execSlt rd rs1 rs2 s
  | .sltu rd rs1 rs2 => Sys2Proof.Machine.execSltu rd rs1 rs2 s
  | .xor rd rs1 rs2 => Sys2Proof.Machine.execXor rd rs1 rs2 s
  | .srl rd rs1 rs2 => Sys2Proof.Machine.execSrl rd rs1 rs2 s
  | .sra rd rs1 rs2 => Sys2Proof.Machine.execSra rd rs1 rs2 s
  | .or rd rs1 rs2 => Sys2Proof.Machine.execOr rd rs1 rs2 s
  | .and rd rs1 rs2 => Sys2Proof.Machine.execAnd rd rs1 rs2 s
  | .fence _ _ _ _ _ => Sys2Proof.Machine.execFence s
  | .fenceI _ _ _ => Sys2Proof.Machine.execFenceI s
  | .ecall => Sys2Proof.Machine.execEcall s
  | .ebreak => Sys2Proof.Machine.execEbreak s
  -- The multiply/divide unit (41_rv32m.md)
  | .mul rd rs1 rs2 => Sys2Proof.Machine.execMul rd rs1 rs2 s
  | .mulh rd rs1 rs2 => Sys2Proof.Machine.execMulh rd rs1 rs2 s
  | .mulhsu rd rs1 rs2 => Sys2Proof.Machine.execMulhsu rd rs1 rs2 s
  | .mulhu rd rs1 rs2 => Sys2Proof.Machine.execMulhu rd rs1 rs2 s
  | .div rd rs1 rs2 => Sys2Proof.Machine.execDiv rd rs1 rs2 s
  | .divu rd rs1 rs2 => Sys2Proof.Machine.execDivu rd rs1 rs2 s
  | .rem rd rs1 rs2 => Sys2Proof.Machine.execRem rd rs1 rs2 s
  | .remu rd rs1 rs2 => Sys2Proof.Machine.execRemu rd rs1 rs2 s
  -- The atomic unit (42_rv32a.md)
  | .lrW rd rs1 _ _ => Sys2Proof.Machine.execLrW rd rs1 s
  | .scW rd rs2 rs1 _ _ => Sys2Proof.Machine.execScW rd rs2 rs1 s
  | .amoswapW rd rs2 rs1 _ _ => Sys2Proof.Machine.execAmoswapW rd rs2 rs1 s
  | .amoaddW rd rs2 rs1 _ _ => Sys2Proof.Machine.execAmoaddW rd rs2 rs1 s
  | .amoxorW rd rs2 rs1 _ _ => Sys2Proof.Machine.execAmoxorW rd rs2 rs1 s
  | .amoandW rd rs2 rs1 _ _ => Sys2Proof.Machine.execAmoandW rd rs2 rs1 s
  | .amoorW rd rs2 rs1 _ _ => Sys2Proof.Machine.execAmoorW rd rs2 rs1 s
  | .amominW rd rs2 rs1 _ _ => Sys2Proof.Machine.execAmominW rd rs2 rs1 s
  | .amomaxW rd rs2 rs1 _ _ => Sys2Proof.Machine.execAmomaxW rd rs2 rs1 s
  | .amominuW rd rs2 rs1 _ _ => Sys2Proof.Machine.execAmominuW rd rs2 rs1 s
  | .amomaxuW rd rs2 rs1 _ _ => Sys2Proof.Machine.execAmomaxuW rd rs2 rs1 s
  -- The floating-point units (43_fp.md)
  | .flw rd rs1 imm12 => Sys2Proof.Machine.execFlw rd rs1 imm12 s
  | .fsw rs2 rs1 immS => Sys2Proof.Machine.execFsw rs2 rs1 immS s
  | .fmaddS rd rs1 rs2 rs3 _ => Sys2Proof.Machine.execFmaddS rd rs1 rs2 rs3 s
  | .fmsubS rd rs1 rs2 rs3 _ => Sys2Proof.Machine.execFmsubS rd rs1 rs2 rs3 s
  | .fnmsubS rd rs1 rs2 rs3 _ => Sys2Proof.Machine.execFnmsubS rd rs1 rs2 rs3 s
  | .fnmaddS rd rs1 rs2 rs3 _ => Sys2Proof.Machine.execFnmaddS rd rs1 rs2 rs3 s
  | .faddS rd rs1 rs2 _ => Sys2Proof.Machine.execFaddS rd rs1 rs2 s
  | .fsubS rd rs1 rs2 _ => Sys2Proof.Machine.execFsubS rd rs1 rs2 s
  | .fmulS rd rs1 rs2 _ => Sys2Proof.Machine.execFmulS rd rs1 rs2 s
  | .fdivS rd rs1 rs2 _ => Sys2Proof.Machine.execFdivS rd rs1 rs2 s
  | .fsqrtS rd rs1 _ => Sys2Proof.Machine.execFsqrtS rd rs1 s
  | .fsgnjS rd rs1 rs2 => Sys2Proof.Machine.execFsgnjS rd rs1 rs2 s
  | .fsgnjnS rd rs1 rs2 => Sys2Proof.Machine.execFsgnjnS rd rs1 rs2 s
  | .fsgnjxS rd rs1 rs2 => Sys2Proof.Machine.execFsgnjxS rd rs1 rs2 s
  | .fminS rd rs1 rs2 => Sys2Proof.Machine.execFminS rd rs1 rs2 s
  | .fmaxS rd rs1 rs2 => Sys2Proof.Machine.execFmaxS rd rs1 rs2 s
  | .feqS rd rs1 rs2 => Sys2Proof.Machine.execFeqS rd rs1 rs2 s
  | .fltS rd rs1 rs2 => Sys2Proof.Machine.execFltS rd rs1 rs2 s
  | .fleS rd rs1 rs2 => Sys2Proof.Machine.execFleS rd rs1 rs2 s
  | .fcvtWS rd rs1 _ => Sys2Proof.Machine.execFcvtWS rd rs1 s
  | .fcvtWUS rd rs1 _ => Sys2Proof.Machine.execFcvtWUS rd rs1 s
  | .fcvtSW rd rs1 _ => Sys2Proof.Machine.execFcvtSW rd rs1 s
  | .fcvtSWU rd rs1 _ => Sys2Proof.Machine.execFcvtSWU rd rs1 s
  | .fmvXW rd rs1 => Sys2Proof.Machine.execFmvXW rd rs1 s
  | .fmvWX rd rs1 => Sys2Proof.Machine.execFmvWX rd rs1 s
  | .fld rd rs1 imm12 => Sys2Proof.Machine.execFld rd rs1 imm12 s
  | .fsd rs2 rs1 immS => Sys2Proof.Machine.execFsd rs2 rs1 immS s
  | .fmaddD rd rs1 rs2 rs3 _ => Sys2Proof.Machine.execFmaddD rd rs1 rs2 rs3 s
  | .fmsubD rd rs1 rs2 rs3 _ => Sys2Proof.Machine.execFmsubD rd rs1 rs2 rs3 s
  | .fnmsubD rd rs1 rs2 rs3 _ => Sys2Proof.Machine.execFnmsubD rd rs1 rs2 rs3 s
  | .fnmaddD rd rs1 rs2 rs3 _ => Sys2Proof.Machine.execFnmaddD rd rs1 rs2 rs3 s
  | .faddD rd rs1 rs2 _ => Sys2Proof.Machine.execFaddD rd rs1 rs2 s
  | .fsubD rd rs1 rs2 _ => Sys2Proof.Machine.execFsubD rd rs1 rs2 s
  | .fmulD rd rs1 rs2 _ => Sys2Proof.Machine.execFmulD rd rs1 rs2 s
  | .fdivD rd rs1 rs2 _ => Sys2Proof.Machine.execFdivD rd rs1 rs2 s
  | .fsqrtD rd rs1 _ => Sys2Proof.Machine.execFsqrtD rd rs1 s
  | .fsgnjD rd rs1 rs2 => Sys2Proof.Machine.execFsgnjD rd rs1 rs2 s
  | .fsgnjnD rd rs1 rs2 => Sys2Proof.Machine.execFsgnjnD rd rs1 rs2 s
  | .fsgnjxD rd rs1 rs2 => Sys2Proof.Machine.execFsgnjxD rd rs1 rs2 s
  | .fminD rd rs1 rs2 => Sys2Proof.Machine.execFminD rd rs1 rs2 s
  | .fmaxD rd rs1 rs2 => Sys2Proof.Machine.execFmaxD rd rs1 rs2 s
  | .feqD rd rs1 rs2 => Sys2Proof.Machine.execFeqD rd rs1 rs2 s
  | .fltD rd rs1 rs2 => Sys2Proof.Machine.execFltD rd rs1 rs2 s
  | .fleD rd rs1 rs2 => Sys2Proof.Machine.execFleD rd rs1 rs2 s
  | .fcvtWD rd rs1 _ => Sys2Proof.Machine.execFcvtWD rd rs1 s
  | .fcvtWUD rd rs1 _ => Sys2Proof.Machine.execFcvtWUD rd rs1 s
  | .fcvtDW rd rs1 _ => Sys2Proof.Machine.execFcvtDW rd rs1 s
  | .fcvtDWU rd rs1 _ => Sys2Proof.Machine.execFcvtDWU rd rs1 s
  | .fcvtSD rd rs1 _ => Sys2Proof.Machine.execFcvtSD rd rs1 s
  | .fcvtDS rd rs1 _ => Sys2Proof.Machine.execFcvtDS rd rs1 s
  -- The CSR unit (44_zicsr.md)
  | .csrrw rd csr rs1 => Sys2Proof.Machine.execCsrrw rd csr rs1 s
  | .csrrs rd csr rs1 => Sys2Proof.Machine.execCsrrs rd csr rs1 s
  | .csrrc rd csr rs1 => Sys2Proof.Machine.execCsrrc rd csr rs1 s
  -- Vector configuration, loads and stores (45_vector_config_mem.md)
  | .vsetvli rd rs1 zimm => Sys2Proof.Machine.execVsetvli rd rs1 zimm s
  | .vle8V vd rs1 => Sys2Proof.Machine.execVle8V vd rs1 s
  | .vlse8V vd rs1 rs2 => Sys2Proof.Machine.execVlse8V vd rs1 rs2 s
  | .vse8V vs3 rs1 => Sys2Proof.Machine.execVse8V vs3 rs1 s
  | .vsse8V vs3 rs1 rs2 => Sys2Proof.Machine.execVsse8V vs3 rs1 rs2 s
  | .vle16V vd rs1 => Sys2Proof.Machine.execVle16V vd rs1 s
  | .vlse16V vd rs1 rs2 => Sys2Proof.Machine.execVlse16V vd rs1 rs2 s
  | .vse16V vs3 rs1 => Sys2Proof.Machine.execVse16V vs3 rs1 s
  | .vsse16V vs3 rs1 rs2 => Sys2Proof.Machine.execVsse16V vs3 rs1 rs2 s
  | .vle32V vd rs1 => Sys2Proof.Machine.execVle32V vd rs1 s
  | .vlse32V vd rs1 rs2 => Sys2Proof.Machine.execVlse32V vd rs1 rs2 s
  | .vse32V vs3 rs1 => Sys2Proof.Machine.execVse32V vs3 rs1 s
  | .vsse32V vs3 rs1 rs2 => Sys2Proof.Machine.execVsse32V vs3 rs1 rs2 s
  -- Vector ALU, compares, moves and reductions (46_vector_alu.md)
  | .vaddVV vd vs2 vs1 => Sys2Proof.Machine.execVaddVV vd vs2 vs1 s
  | .vaddVX vd vs2 rs1 => Sys2Proof.Machine.execVaddVX vd vs2 rs1 s
  | .vaddVI vd vs2 imm5 => Sys2Proof.Machine.execVaddVI vd vs2 imm5 s
  | .vsubVV vd vs2 vs1 => Sys2Proof.Machine.execVsubVV vd vs2 vs1 s
  | .vsubVX vd vs2 rs1 => Sys2Proof.Machine.execVsubVX vd vs2 rs1 s
  | .vminuVV vd vs2 vs1 => Sys2Proof.Machine.execVminuVV vd vs2 vs1 s
  | .vminuVX vd vs2 rs1 => Sys2Proof.Machine.execVminuVX vd vs2 rs1 s
  | .vmaxuVV vd vs2 vs1 => Sys2Proof.Machine.execVmaxuVV vd vs2 vs1 s
  | .vmaxuVX vd vs2 rs1 => Sys2Proof.Machine.execVmaxuVX vd vs2 rs1 s
  | .vandVV vd vs2 vs1 => Sys2Proof.Machine.execVandVV vd vs2 vs1 s
  | .vandVX vd vs2 rs1 => Sys2Proof.Machine.execVandVX vd vs2 rs1 s
  | .vandVI vd vs2 imm5 => Sys2Proof.Machine.execVandVI vd vs2 imm5 s
  | .vorVV vd vs2 vs1 => Sys2Proof.Machine.execVorVV vd vs2 vs1 s
  | .vorVX vd vs2 rs1 => Sys2Proof.Machine.execVorVX vd vs2 rs1 s
  | .vorVI vd vs2 imm5 => Sys2Proof.Machine.execVorVI vd vs2 imm5 s
  | .vxorVV vd vs2 vs1 => Sys2Proof.Machine.execVxorVV vd vs2 vs1 s
  | .vxorVX vd vs2 rs1 => Sys2Proof.Machine.execVxorVX vd vs2 rs1 s
  | .vxorVI vd vs2 imm5 => Sys2Proof.Machine.execVxorVI vd vs2 imm5 s
  | .vmseqVV vd vs2 vs1 => Sys2Proof.Machine.execVmseqVV vd vs2 vs1 s
  | .vmseqVX vd vs2 rs1 => Sys2Proof.Machine.execVmseqVX vd vs2 rs1 s
  | .vmseqVI vd vs2 imm5 => Sys2Proof.Machine.execVmseqVI vd vs2 imm5 s
  | .vmsneVV vd vs2 vs1 => Sys2Proof.Machine.execVmsneVV vd vs2 vs1 s
  | .vmsneVX vd vs2 rs1 => Sys2Proof.Machine.execVmsneVX vd vs2 rs1 s
  | .vmsneVI vd vs2 imm5 => Sys2Proof.Machine.execVmsneVI vd vs2 imm5 s
  | .vmsltVV vd vs2 vs1 => Sys2Proof.Machine.execVmsltVV vd vs2 vs1 s
  | .vmsltVX vd vs2 rs1 => Sys2Proof.Machine.execVmsltVX vd vs2 rs1 s
  | .vmsleVV vd vs2 vs1 => Sys2Proof.Machine.execVmsleVV vd vs2 vs1 s
  | .vmsleVX vd vs2 rs1 => Sys2Proof.Machine.execVmsleVX vd vs2 rs1 s
  | .vmsleVI vd vs2 imm5 => Sys2Proof.Machine.execVmsleVI vd vs2 imm5 s
  | .vmsgtVX vd vs2 rs1 => Sys2Proof.Machine.execVmsgtVX vd vs2 rs1 s
  | .vmsgtVI vd vs2 imm5 => Sys2Proof.Machine.execVmsgtVI vd vs2 imm5 s
  | .vsllVV vd vs2 vs1 => Sys2Proof.Machine.execVsllVV vd vs2 vs1 s
  | .vsllVX vd vs2 rs1 => Sys2Proof.Machine.execVsllVX vd vs2 rs1 s
  | .vsllVI vd vs2 imm5 => Sys2Proof.Machine.execVsllVI vd vs2 imm5 s
  | .vsrlVV vd vs2 vs1 => Sys2Proof.Machine.execVsrlVV vd vs2 vs1 s
  | .vsrlVX vd vs2 rs1 => Sys2Proof.Machine.execVsrlVX vd vs2 rs1 s
  | .vsrlVI vd vs2 imm5 => Sys2Proof.Machine.execVsrlVI vd vs2 imm5 s
  | .vmulVV vd vs2 vs1 => Sys2Proof.Machine.execVmulVV vd vs2 vs1 s
  | .vmulVX vd vs2 rs1 => Sys2Proof.Machine.execVmulVX vd vs2 rs1 s
  | .vredsumVS vd vs2 vs1 => Sys2Proof.Machine.execVredsumVS vd vs2 vs1 s
  | .vwredsumuVS vd vs2 vs1 => Sys2Proof.Machine.execVwredsumuVS vd vs2 vs1 s
  | .vmvXS rd vs2 => Sys2Proof.Machine.execVmvXS rd vs2 s
  | .vmvSX vd rs1 => Sys2Proof.Machine.execVmvSX vd rs1 s

end Sys2Proof.Machine
end

