-- ==== Sys2Proof/Machine/Fetch.lean ====
section
/-! DEFINITION. Fetching an instruction, the start and the end of a step around `exec`, and the placing of a word where
the next step fetches (00_scope.md R7; 20_memory.md R48; 60_exceptions.md R279). -/

namespace Sys2Proof.Machine

/-- The fetch and decode of R7, with its events in the order of R279: MisalignedFetch, StaleFetch, AccessFault on the
fetch, IllegalInstruction. -/
def State.fetch (s : State) : Except Stop Instr :=
  if s.pc.extractLsb' 0 2 ≠ 0#2 then .error (.misalignedFetch s.pc)
  else if dirtyHits s.dirty s.pc.toNat 4 then .error (.staleFetch s.pc)
  else match s.memRead s.pc 4 with
    | .error k => .error k
    | .ok w =>
      match decode w with
      | .error _ => .error (.illegalInstruction w)
      | .ok i => .ok i

/-- `pc <- ipc + 4`, the dispatcher's default advance before the body (R7). -/
def State.advance (s : State) : State := s.setPc (s.pc + 4)

/-- `x[0] <- 0` after a body that goes on; an event has already ended the step (R7, R276, R277; log 11). -/
def State.retire (s : State) : State := if s.halted then s else s.clearX0

/-- The bytes of a word placed at an address from outside the machine: memory holds them and Dirty does not (log 14). -/
def State.placeWord (s : State) (a w : Word) : State :=
  { s with
    mem := s.mem.writeBytes a.toNat (wordBytes w)
    dirty := s.dirty.filter fun k => decide (k < a.toNat) || decide (a.toNat + 4 ≤ k) }

/-- The word at an address admitted as a 4-byte access, when it is not already. -/
def State.admitWord (s : State) (a : Word) : State :=
  if s.params.admits a.toNat 4 then s
  else { s with params := { s.params with
    memAdmits := { base := a.toNat, limit := a.toNat + 4, width1 := false, width2 := false, width4 := true } :: s.params.memAdmits } }

/-- The engine made ready to fetch at its aligned pc: not halted, no stop signal pending. -/
def State.readyToFetch (s : State) : State := { s with pc := s.pc &&& 0xFFFFFFFC#32, stop := none, hostStop := false }

end Sys2Proof.Machine
end

