-- ==== Sys2Proof/Machine/Step.lean ====
section
/-! DEFINITION. One step of the engine (00_scope.md R7, R11). -/

namespace Sys2Proof.Machine

/-- One step. A halted engine has none: the fault `halted`. A pending stop signal halts between instructions (R11; log 7).
Otherwise an instruction is fetched at pc, which a fault leaves at ipc, and run with pc = ipc + 4 (R7). -/
def step (s : State) : Host.Outcome State Fault Refusal :=
  match s.stop with
  | some r => .fault (.halted r)
  | none =>
    if s.hostStop then .next (s.halt .hostStop)
    else match s.fetch with
      | .error k => .next (s.stopAt s.pc k)
      | .ok i =>
        match exec i s.advance with
        | .next t => .next t.retire
        | .fault r => .fault r
        | .refused r => .refused r

/-- s with the word of an opcode-table row placed where the next step fetches, so that this step runs it (log 14). -/
def State.withFetchWord (s : State) (nbits w : Nat) : State :=
  (s.readyToFetch.placeWord s.readyToFetch.pc (tableWord nbits w)).admitWord s.readyToFetch.pc

end Sys2Proof.Machine
end

