-- ==== Sys2Proof/Safety.lean ====
section
/-! DEFINITION. The terms the statements use: safe runs and the invariant, what an instruction changed, the real values
of floating-point patterns and what it is to be rounded, and the classes of instructions that access memory or name
vector register groups. -/

namespace Sys2Proof.Machine

/-! ## Runs and the invariant -/

/-- The run ended with an event that is a fault (R274). -/
def State.faulted (s : State) : Prop := ∃ r, s.stop = some r ∧ r.isFault = true

/-- A state `t` that some number of steps reaches from `s`. -/
inductive Reaches : State → State → Prop where
  | refl (s : State) : Reaches s s
  | tail {s t u : State} (h : Reaches s t) (hstep : step t = .next u) : Reaches s u

/-- A safe run: no reachable state is a fault. -/
def SafeFrom (s : State) : Prop := ∀ t, Reaches s t → ¬ t.faulted

/-- The vtype values vsetvli stores, reset's 0 among them: vlmul 0 to 3 and vsew 0 to 2 (R209). -/
def legalVtype (v : BitVec 5) : Prop := (v.extractLsb' 0 3).toNat < 4 ∧ v.extractLsb' 3 2 ≠ 3#2

/-- What every step keeps: x0 holds 0 (R19), pc is even, vtype is legal (R209), vl does not exceed VLMAX (R28), the
memory and Dirty keep their canonical form. -/
structure State.Inv (s : State) : Prop where
  x0 : s.x[0] = 0
  pcEven : s.pc.getLsbD 0 = false
  vtypeLegal : legalVtype s.vtype
  vlBound : s.vl.toNat ≤ vlmaxOf s.vtype
  memWf : s.mem.wf = true
  dirtyWf : dirtyWf s.dirty = true

/-! ## What an instruction changed

Each of these says that `exec` answers a next state, what that state holds, and that every other field is as before.
`exec` runs with pc = ipc + 4 (R7), so a field pc that is as before holds ipc + 4. -/

/-- The integer registers of t are those of s, but rd holds v when it is not x0 (R19). -/
def xWritten (s t : State) (rd : XReg) (v : Word) : Prop :=
  ∀ r, t.readX r = if r = rd ∧ rd ≠ 0 then v else s.readX r

/-- The instruction writes v to x[rd] and changes nothing else. -/
def WritesX (i : Instr) (s : State) (rd : XReg) (v : Word) : Prop :=
  ∃ t, exec i s = .next t ∧ xWritten s t rd v ∧ { t with x := s.x } = s

/-- The instruction writes v to f[rd] and changes nothing else. -/
def WritesF (i : Instr) (s : State) (rd : FReg) (v : Dword) : Prop :=
  ∃ t, exec i s = .next t ∧ (∀ r, t.readF r = if r = rd then v else s.readF r) ∧ { t with f := s.f } = s

/-- The instruction leaves v as the vector register file and changes nothing else. -/
def WritesV (i : Instr) (s : State) (v : VRegs) : Prop :=
  ∃ t, exec i s = .next t ∧ t.vr = v ∧ { t with vr := s.vr } = s

/-- A run of bytes was stored at an address: they read back, every other byte of memory reads as before, and Dirty
holds them beside what it held (R36). -/
def Stored (s t : State) (a : Word) (bytes : List Byte) : Prop :=
  (∀ k (h : k < bytes.length), t.mem.read (a.toNat + k) = bytes[k]) ∧
  (∀ c, c < a.toNat ∨ a.toNat + bytes.length ≤ c → t.mem.read c = s.mem.read c) ∧
  (∀ c, c ∈ t.dirty ↔ (a.toNat ≤ c ∧ c < a.toNat + bytes.length) ∨ c ∈ s.dirty)

/-- The instruction stores bytes at an address and changes nothing else. -/
def Stores (i : Instr) (s : State) (a : Word) (bytes : List Byte) : Prop :=
  ∃ t, exec i s = .next t ∧ Stored s t a bytes ∧ { t with mem := s.mem, dirty := s.dirty } = s

/-- The instruction stores bytes at an address, writes v to x[rd], and changes nothing else. -/
def StoresAndWritesX (i : Instr) (s : State) (a : Word) (bytes : List Byte) (rd : XReg) (v : Word) : Prop :=
  ∃ t, exec i s = .next t ∧ Stored s t a bytes ∧ xWritten s t rd v ∧
    { t with x := s.x, mem := s.mem, dirty := s.dirty } = s

/-- The instruction ends the run with a fault: pc = ipc, the reason recorded, nothing else changed (R276). -/
def Raises (i : Instr) (s : State) (r : Stop) : Prop :=
  exec i s = .next { s with pc := s.pc - 4, stop := some r }

/-! ## Addresses and memory -/

/-- `x[rs1] + imm` with the immediate as a signed number, modulo 2^32 (R77). -/
def State.address (s : State) (rs1 : XReg) (imm : BitVec 12) : Word := s.readX rs1 + BitVec.ofInt 32 imm.toInt

/-- An access that is aligned and admitted (R36). -/
def State.Accessible (s : State) (a : Word) (n : Nat) : Prop := a.toNat % n = 0 ∧ s.params.admits a.toNat n = true

/-- The byte k places above an address. -/
def State.byteAt (s : State) (a : Word) (k : Nat) : Byte := s.mem.read (a.toNat + k)

/-- The instruction's access of n bytes at an address is refused: misaligned first, then not admitted; each is an event that
records the address and changes nothing else (R36, R37, R39, R279). -/
def RefusesAccess (i : Instr) (s : State) (a : Word) (n : Nat) : Prop :=
  (a.toNat % n ≠ 0 → Raises i s (.misalignedAccess a)) ∧
  (a.toNat % n = 0 → s.params.admits a.toNat n = false → Raises i s (.accessFault a))

/-- An AMO: the new word stored and the old one in rd when the access is accepted, the event otherwise (R123). -/
def Combines (i : Instr) (s : State) (a : Word) (rd : XReg) (old new : Word) : Prop :=
  (s.Accessible a 4 → StoresAndWritesX i s a (wordBytes new) rd old) ∧ RefusesAccess i s a 4

/-- The little-endian half-word at an address (R38). -/
def State.halfAt (s : State) (a : Word) : BitVec 16 := s.byteAt a 1 ++ s.byteAt a 0

/-- The little-endian word at an address (R38). -/
def State.wordAt (s : State) (a : Word) : Word := s.byteAt a 3 ++ s.byteAt a 2 ++ s.byteAt a 1 ++ s.byteAt a 0

/-- The instructions that write memory. -/
def storesMemory : Instr → Bool
  | .sb .. | .sh .. | .sw .. | .fsw .. | .fsd .. | .scW .. | .amoswapW .. | .amoaddW .. | .amoxorW .. | .amoandW ..
  | .amoorW .. | .amominW .. | .amomaxW .. | .amominuW .. | .amomaxuW .. | .vse8V .. | .vse16V .. | .vse32V ..
  | .vsse8V .. | .vsse16V .. | .vsse32V .. => true
  | _ => false

/-! ## Vector operands -/

/-- The EEW of a vector load or store in bytes, and the register groups that R210 checks, in order, each with its
element width. Other instructions than the vector ones that make these checks have none. -/
def vectorOperands (w : Nat) : Instr → Option (Option Nat × List (VReg × Nat))
  | .vle8V vd _ => some (some 1, [(vd, 1)])
  | .vlse8V vd _ _ => some (some 1, [(vd, 1)])
  | .vse8V vs3 _ => some (some 1, [(vs3, 1)])
  | .vsse8V vs3 _ _ => some (some 1, [(vs3, 1)])
  | .vle16V vd _ => some (some 2, [(vd, 2)])
  | .vlse16V vd _ _ => some (some 2, [(vd, 2)])
  | .vse16V vs3 _ => some (some 2, [(vs3, 2)])
  | .vsse16V vs3 _ _ => some (some 2, [(vs3, 2)])
  | .vle32V vd _ => some (some 4, [(vd, 4)])
  | .vlse32V vd _ _ => some (some 4, [(vd, 4)])
  | .vse32V vs3 _ => some (some 4, [(vs3, 4)])
  | .vsse32V vs3 _ _ => some (some 4, [(vs3, 4)])
  | .vaddVV vd vs2 vs1 | .vsubVV vd vs2 vs1 | .vminuVV vd vs2 vs1 | .vmaxuVV vd vs2 vs1 | .vandVV vd vs2 vs1
  | .vorVV vd vs2 vs1 | .vxorVV vd vs2 vs1 | .vmseqVV vd vs2 vs1 | .vmsneVV vd vs2 vs1 | .vmsltVV vd vs2 vs1
  | .vmsleVV vd vs2 vs1 | .vsllVV vd vs2 vs1 | .vsrlVV vd vs2 vs1 | .vmulVV vd vs2 vs1 =>
    some (none, [(vd, w), (vs2, w), (vs1, w)])
  | .vaddVX vd vs2 _ | .vsubVX vd vs2 _ | .vminuVX vd vs2 _ | .vmaxuVX vd vs2 _ | .vandVX vd vs2 _ | .vorVX vd vs2 _
  | .vxorVX vd vs2 _ | .vmseqVX vd vs2 _ | .vmsneVX vd vs2 _ | .vmsltVX vd vs2 _ | .vmsleVX vd vs2 _
  | .vmsgtVX vd vs2 _ | .vsllVX vd vs2 _ | .vsrlVX vd vs2 _ | .vmulVX vd vs2 _ => some (none, [(vd, w), (vs2, w)])
  | .vaddVI vd vs2 _ | .vandVI vd vs2 _ | .vorVI vd vs2 _ | .vxorVI vd vs2 _ | .vmseqVI vd vs2 _ | .vmsneVI vd vs2 _
  | .vmsleVI vd vs2 _ | .vmsgtVI vd vs2 _ | .vsllVI vd vs2 _ | .vsrlVI vd vs2 _ => some (none, [(vd, w), (vs2, w)])
  | .vredsumVS _ vs2 _ | .vwredsumuVS _ vs2 _ => some (none, [(vs2, w)])
  | .vmvXS _ _ | .vmvSX _ _ => some (none, [])
  | _ => none

/-- A group of vl elements of w bytes based at b ends at or below v31 (R210: ⌈vl·w/16⌉ registers from b). -/
def groupFits (vl w : Nat) (b : VReg) : Prop := vl = 0 ∨ b.toNat + (vl * w + 15) / 16 ≤ 32

/-- The instructions that access memory element by element. -/
def accessesElements (w : Nat) (i : Instr) : Prop := ∃ e gs, vectorOperands w i = some (some e, gs)

/-- A vector instruction whose checks pass, with the element width SEW (R210). -/
def State.VectorReady (s : State) (groups : List VReg) : Prop :=
  s.vstart = 0 ∧ ∀ b ∈ groups, groupFits s.vl.toNat s.sew b

/-- The loop of R227: elements in ascending order, each read from the storage V el that the earlier ones left. The
instruction leaves the storage after vl elements and changes nothing else. -/
def RunsLoop (i : Instr) (s : State) (vd : VReg) (value : VRegs → Nat → BitVec (8 * s.sew)) : Prop :=
  ∃ V : Nat → VRegs, V 0 = s.vr ∧
    (∀ el, el < s.vl.toNat → V (el + 1) = VRegs.setElem (V el) vd el s.sew (value (V el) el)) ∧
    WritesV i s (V s.vl.toNat)

/-- The immediate of a vector arithmetic, logic or compare instruction as a signed number in S bits (R226). -/
def signedImm (S : Nat) (imm5 : BitVec 5) : BitVec S := BitVec.ofInt S imm5.toInt

/-- The immediate of a vector shift as an unsigned number in S bits (R226). -/
def unsignedImm (S : Nat) (imm5 : BitVec 5) : BitVec S := BitVec.ofNat S imm5.toNat

/-- The low S bits of an integer register (R226). -/
def State.scalarBits (s : State) (S : Nat) (rs1 : XReg) : BitVec S := BitVec.ofNat S (s.readX rs1).toNat

/-! ## CSR writes and vector memory access, as the statements say them -/

/-- The state t is s after the value v was written to CSR n and the old value old to x[rd] (R200). -/
def CsrWritten (s t : State) (rd : XReg) (n : BitVec 12) (old v : Word) : Prop :=
  xWritten s t rd old ∧
  t.fcsr8 = (if n = 0x001 then BitVec.ofNat 8 (s.fcsr8.toNat / 32 * 32 + v.toNat % 32)
    else if n = 0x002 then BitVec.ofNat 8 (v.toNat % 8 * 32 + s.fcsr8.toNat % 32)
    else if n = 0x003 then BitVec.ofNat 8 (v.toNat % 256) else s.fcsr8) ∧
  t.vstart = (if n = 0x008 then v else s.vstart) ∧
  { t with x := s.x, fcsr8 := s.fcsr8, vstart := s.vstart } = s

/-- A vector load i from base with a stride, whose vl accesses of w bytes are aligned and admitted: element el of vd is the
value in memory at base + el·stride modulo 2^32, every other vector byte is as before, and nothing else changes (R211, R213). -/
def LoadsElements (i : Instr) (s : State) (vd : VReg) (w : Nat) (base stride : Word) : Prop :=
  (∀ el, el < s.vl.toNat → s.Accessible (base + BitVec.ofNat 32 el * stride) w) →
  s.sew = w → s.VectorReady [vd] →
  ∃ v : VRegs, WritesV i s v ∧
    (∀ el k, el < s.vl.toNat → k < w → v.byte (16 * vd.toNat + el * w + k) =
      s.byteAt (base + BitVec.ofNat 32 el * stride) k) ∧
    (∀ c, c < 16 * vd.toNat ∨ 16 * vd.toNat + s.vl.toNat * w ≤ c → v.byte c = s.vr.byte c)

/-- A vector store i to base with a stride, whose vl accesses of w bytes are aligned and admitted: the elements of vs3 are
stored one after the other at base + el·stride modulo 2^32, and nothing else changes (R211, R213). M el is the state after
the first el elements. -/
def StoresElements (i : Instr) (s : State) (vs3 : VReg) (w : Nat) (base stride : Word) : Prop :=
  (∀ el, el < s.vl.toNat → s.Accessible (base + BitVec.ofNat 32 el * stride) w) →
  s.sew = w → s.VectorReady [vs3] →
  ∃ M : Nat → State, M 0 = s ∧ exec i s = .next (M s.vl.toNat) ∧
    { M s.vl.toNat with mem := s.mem, dirty := s.dirty } = s ∧
    ∀ el, el < s.vl.toNat → Stored (M el) (M (el + 1)) (base + BitVec.ofNat 32 el * stride)
      ((List.range w).map fun k => s.vr.byte (16 * vs3.toNat + el * w + k))

/-- The base and stride of a vector load or store. -/
def elementAddresses (s : State) : Instr → Option (Word × Word)
  | .vle8V _ rs1 | .vse8V _ rs1 => some (s.readX rs1, 1)
  | .vle16V _ rs1 | .vse16V _ rs1 => some (s.readX rs1, 2)
  | .vle32V _ rs1 | .vse32V _ rs1 => some (s.readX rs1, 4)
  | .vlse8V _ rs1 rs2 | .vlse16V _ rs1 rs2 | .vlse32V _ rs1 rs2
  | .vsse8V _ rs1 rs2 | .vsse16V _ rs1 rs2 | .vsse32V _ rs1 rs2 => some (s.readX rs1, s.readX rs2)
  | _ => none

/-- Two groups of vl elements of w bytes are one group or share no byte. -/
def SameOrApart (vl w : Nat) (a b : VReg) : Prop :=
  a = b ∨ 16 * a.toNat + vl * w ≤ 16 * b.toNat ∨ 16 * b.toNat + vl * w ≤ 16 * a.toNat

/-! ## The values of floating-point patterns (R16, R136) -/

/-- The exponent bias of IEEE-754. -/
def Fmt.bias : Fmt → Int
  | .single => 127
  | .double => 1023

/-- The width of a pattern. -/
def Fmt.width : Fmt → Nat
  | .single => 32
  | .double => 64

/-- The threshold from which RNE gives an infinity (R138). -/
def Fmt.overflow : Fmt → ℚ
  | .single => 2 ^ 128 - 2 ^ 103
  | .double => 2 ^ 1024 - 2 ^ 970

/-- A finite pattern: its exponent field is not all ones. -/
def fpFinite (fmt : Fmt) {n : Nat} (b : BitVec n) : Prop := expField fmt b ≠ 2 ^ fmt.expBits - 1

/-- An infinity: exponent all ones, fraction 0. -/
def fpInf (fmt : Fmt) {n : Nat} (b : BitVec n) : Prop := expField fmt b = 2 ^ fmt.expBits - 1 ∧ fracField fmt b = 0

/-- A NaN: exponent all ones, fraction not 0 (R16). -/
def fpNaN (fmt : Fmt) {n : Nat} (b : BitVec n) : Prop := expField fmt b = 2 ^ fmt.expBits - 1 ∧ fracField fmt b ≠ 0

/-- A signalling NaN: a NaN whose fraction MSB is 0 (R16). -/
def fpSNaN (fmt : Fmt) {n : Nat} (b : BitVec n) : Prop := fpNaN fmt b ∧ fracField fmt b < 2 ^ (fmt.fracBits - 1)

/-- F32(b) and F64(b) of a finite pattern: (-1)^s · 1.f · 2^(e - bias), or (-1)^s · 0.f · 2^(1 - bias) when e = 0 (R16). -/
def fpReal (fmt : Fmt) {n : Nat} (b : BitVec n) : ℚ :=
  (if b.msb then -1 else 1) *
  (if expField fmt b = 0 then (fracField fmt b : ℚ) / 2 ^ fmt.fracBits * 2 ^ (1 - fmt.bias)
    else (1 + (fracField fmt b : ℚ) / 2 ^ fmt.fracBits) * 2 ^ ((expField fmt b : Int) - fmt.bias))

/-- CNaN32 and CNaN64 (R16, R139). -/
def fpCanonicalNaN (n : Nat) : BitVec n := if n = 32 then BitVec.ofNat n 0x7FC00000 else BitVec.ofNat n 0x7FF8000000000000

/-- A zero with a sign. -/
def fpZero (n : Nat) (neg : Bool) : BitVec n := BitVec.ofNat n (if neg then 2 ^ (n - 1) else 0)

/-- An infinity with a sign. -/
def IsInf (fmt : Fmt) {n : Nat} (neg : Bool) (v : BitVec n) : Prop := fpInf fmt v ∧ v.msb = neg

/-- RNE of a real r that is not zero (R138): the nearest finite value, a tie going to the pattern whose fraction LSB is
0, or an infinity from the overflow threshold up. DEDUCED (log 12): a positive real that rounds to zero gives +0, as in R149's
one corner 2^-149 · 0.5. The sign of a negative one that rounds to zero is log 12's and is left open here. -/
def RoundsTo (fmt : Fmt) {n : Nat} (r : ℚ) (v : BitVec n) : Prop :=
  (|r| < fmt.overflow → fpFinite fmt v ∧ ∀ c : BitVec n, fpFinite fmt c →
    |r - fpReal fmt v| ≤ |r - fpReal fmt c| ∧
    (|r - fpReal fmt v| = |r - fpReal fmt c| → fpReal fmt c ≠ fpReal fmt v → v.getLsbD 0 = false)) ∧
  (fmt.overflow ≤ |r| → IsInf fmt (decide (r < 0)) v) ∧
  (0 < r → v.msb = false)

/-- The pattern with its sign bit flipped. -/
def flipSign {n : Nat} (b : BitVec n) : BitVec n := b ^^^ fpZero n true

/-- v is a + b (R138, R139, R141). ∞ + ∞ of one sign is IEEE-754's (R136; log 12). -/
def IsSum (fmt : Fmt) {n : Nat} (a b v : BitVec n) : Prop :=
  (fpNaN fmt a ∨ fpNaN fmt b → v = fpCanonicalNaN n) ∧
  (fpInf fmt a → fpInf fmt b → a.msb ≠ b.msb → v = fpCanonicalNaN n) ∧
  (fpInf fmt a → fpInf fmt b → a.msb = b.msb → v = a) ∧
  (fpInf fmt a → fpFinite fmt b → v = a) ∧
  (fpFinite fmt a → fpInf fmt b → v = b) ∧
  (fpFinite fmt a → fpFinite fmt b → fpReal fmt a + fpReal fmt b ≠ 0 → RoundsTo fmt (fpReal fmt a + fpReal fmt b) v) ∧
  (fpFinite fmt a → fpFinite fmt b → fpReal fmt a + fpReal fmt b = 0 → v = fpZero n (a.msb && b.msb))

/-- v is a · b (R138, R139, R141). ∞ · ∞ is IEEE-754's (R136; log 12). -/
def IsProduct (fmt : Fmt) {n : Nat} (a b v : BitVec n) : Prop :=
  (fpNaN fmt a ∨ fpNaN fmt b → v = fpCanonicalNaN n) ∧
  (fpInf fmt a → fpFinite fmt b → fpReal fmt b = 0 → v = fpCanonicalNaN n) ∧
  (fpFinite fmt a → fpReal fmt a = 0 → fpInf fmt b → v = fpCanonicalNaN n) ∧
  (fpInf fmt a → (fpInf fmt b ∨ (fpFinite fmt b ∧ fpReal fmt b ≠ 0)) → IsInf fmt (a.msb ^^ b.msb) v) ∧
  (fpFinite fmt a → fpReal fmt a ≠ 0 → fpInf fmt b → IsInf fmt (a.msb ^^ b.msb) v) ∧
  (fpFinite fmt a → fpFinite fmt b → fpReal fmt a * fpReal fmt b ≠ 0 → RoundsTo fmt (fpReal fmt a * fpReal fmt b) v) ∧
  (fpFinite fmt a → fpFinite fmt b → fpReal fmt a * fpReal fmt b = 0 → v = fpZero n (a.msb ^^ b.msb))

/-- v is a / b (R138, R139, R141). A finite value over an infinity is left to log 12 and not stated here. -/
def IsQuotient (fmt : Fmt) {n : Nat} (a b v : BitVec n) : Prop :=
  (fpNaN fmt a ∨ fpNaN fmt b → v = fpCanonicalNaN n) ∧
  (fpInf fmt a → fpInf fmt b → v = fpCanonicalNaN n) ∧
  (fpFinite fmt a → fpFinite fmt b → fpReal fmt a = 0 → fpReal fmt b = 0 → v = fpCanonicalNaN n) ∧
  (fpInf fmt a → fpFinite fmt b → IsInf fmt (a.msb ^^ b.msb) v) ∧
  (fpFinite fmt a → fpFinite fmt b → fpReal fmt a ≠ 0 → fpReal fmt b = 0 → IsInf fmt (a.msb ^^ b.msb) v) ∧
  (fpFinite fmt a → fpFinite fmt b → fpReal fmt a = 0 → fpReal fmt b ≠ 0 → v = fpZero n (a.msb ^^ b.msb)) ∧
  (fpFinite fmt a → fpFinite fmt b → fpReal fmt a ≠ 0 → fpReal fmt b ≠ 0 → RoundsTo fmt (fpReal fmt a / fpReal fmt b) v)

/-- v is ±(a · b) ± c, rounded once (R158, R138, R139, R141): `np` negates the product and `nc` the addend. ∞ · ∞ and
∞ + ∞ of one sign are IEEE-754's (R136; log 12). -/
def IsFused (fmt : Fmt) {n : Nat} (np nc : Bool) (a b c v : BitVec n) : Prop :=
  let sp := (a.msb ^^ b.msb) ^^ np
  let sc := c.msb ^^ nc
  let p : ℚ := (if np then -1 else 1) * (fpReal fmt a * fpReal fmt b)
  let q : ℚ := (if nc then -1 else 1) * fpReal fmt c
  let productInf : Prop := (fpInf fmt a ∧ (fpInf fmt b ∨ (fpFinite fmt b ∧ fpReal fmt b ≠ 0))) ∨
    (fpFinite fmt a ∧ fpReal fmt a ≠ 0 ∧ fpInf fmt b)
  (fpNaN fmt a ∨ fpNaN fmt b ∨ fpNaN fmt c → v = fpCanonicalNaN n) ∧
  ((fpInf fmt a ∧ fpFinite fmt b ∧ fpReal fmt b = 0) ∨ (fpFinite fmt a ∧ fpReal fmt a = 0 ∧ fpInf fmt b) →
    v = fpCanonicalNaN n) ∧
  (productInf → fpInf fmt c → sp ≠ sc → v = fpCanonicalNaN n) ∧
  (productInf → fpFinite fmt c ∨ (fpInf fmt c ∧ sp = sc) → IsInf fmt sp v) ∧
  (fpFinite fmt a → fpFinite fmt b → fpInf fmt c → IsInf fmt sc v) ∧
  (fpFinite fmt a → fpFinite fmt b → fpFinite fmt c → p + q ≠ 0 → RoundsTo fmt (p + q) v) ∧
  (fpFinite fmt a → fpFinite fmt b → fpFinite fmt c → p + q = 0 → v = fpZero n (sp && sc))

/-- v is the square root of an operand that is not below zero (R141, R151): the finite value y nearest to √x, said
through squares, since √x ≤ (y + z)/2 exactly when 4x ≤ (y + z)². -/
def IsSquareRoot (fmt : Fmt) {n : Nat} (a v : BitVec n) : Prop :=
  (fpNaN fmt a → v = fpCanonicalNaN n) ∧
  (fpInf fmt a → v = a) ∧
  (fpFinite fmt a → fpReal fmt a = 0 → v = a) ∧
  (fpFinite fmt a → fpReal fmt a ≠ 0 → fpFinite fmt v ∧ v.msb = false ∧ ∀ c : BitVec n, fpFinite fmt c →
    (fpReal fmt v < fpReal fmt c → 4 * fpReal fmt a ≤ (fpReal fmt v + fpReal fmt c) ^ 2 ∧
      (4 * fpReal fmt a = (fpReal fmt v + fpReal fmt c) ^ 2 → v.getLsbD 0 = false)) ∧
    (fpReal fmt c < fpReal fmt v → 0 ≤ fpReal fmt v + fpReal fmt c →
      (fpReal fmt v + fpReal fmt c) ^ 2 ≤ 4 * fpReal fmt a ∧
      ((fpReal fmt v + fpReal fmt c) ^ 2 = 4 * fpReal fmt a → v.getLsbD 0 = false)))

/-- An operand below zero, −∞ included (R151). -/
def fpBelowZero (fmt : Fmt) {n : Nat} (a : BitVec n) : Prop :=
  IsInf fmt true a ∨ (fpFinite fmt a ∧ fpReal fmt a < 0)

/-- FSQRT of an operand below zero: the halt, NV set, nothing said of f[rd], everything else as before (R152). -/
def HaltsOnRoot (i : Instr) (s : State) (rd : FReg) : Prop :=
  ∃ t, exec i s = .next t ∧ t.stop = some .fsqrtNegative ∧ t.fcsr8 = s.fcsr8 ||| 0x10#8 ∧
    (∀ r, r ≠ rd → t.readF r = s.readF r) ∧
    { t with f := s.f, fcsr8 := s.fcsr8, stop := s.stop, draws := s.draws } = s

/-- The CSR instructions. -/
def IsCsrInstruction (i : Instr) : Prop := ∃ rd csr rs1, i = .csrrw rd csr rs1 ∨ i = .csrrs rd csr rs1 ∨ i = .csrrc rd csr rs1

/-- The two cases in which an instruction sets NV: a compare with a NaN operand, quiet or signalling, and a square root
of an operand below zero (R140). -/
def SetsNV (s : State) (i : Instr) : Prop :=
  (∃ rd rs1 rs2, (i = .feqS rd rs1 rs2 ∨ i = .fltS rd rs1 rs2 ∨ i = .fleS rd rs1 rs2) ∧
    (fpNaN .single (s.readS rs1) ∨ fpNaN .single (s.readS rs2))) ∨
  (∃ rd rs1 rs2, (i = .feqD rd rs1 rs2 ∨ i = .fltD rd rs1 rs2 ∨ i = .fleD rd rs1 rs2) ∧
    (fpNaN .double (s.readF rs1) ∨ fpNaN .double (s.readF rs2))) ∨
  (∃ rd rs1 rm, i = .fsqrtS rd rs1 rm ∧ fpBelowZero .single (s.readS rs1)) ∨
  (∃ rd rs1 rm, i = .fsqrtD rd rs1 rm ∧ fpBelowZero .double (s.readF rs1))

/-- A pattern that is not a NaN on the extended number line, both zeros being one point. -/
def fpExt (fmt : Fmt) {n : Nat} (b : BitVec n) : WithBot (WithTop ℚ) :=
  if expField fmt b = 2 ^ fmt.expBits - 1 then (if b.msb then ⊥ else ((⊤ : WithTop ℚ) : WithBot (WithTop ℚ)))
  else ((fpReal fmt b : WithTop ℚ) : WithBot (WithTop ℚ))

/-- a comes before b numerically, −0 being ordered below +0 (R174). -/
def fpSmaller (fmt : Fmt) {n : Nat} (a b : BitVec n) : Prop :=
  fpExt fmt a < fpExt fmt b ∨ (fpExt fmt a = fpExt fmt b ∧ a.msb = true ∧ b.msb = false)

/-- v is what FMIN (`less` = true) or FMAX (`less` = false) gives (R174). -/
def IsMinMax (fmt : Fmt) {n : Nat} (less : Bool) (a b v : BitVec n) : Prop :=
  (fpSNaN fmt a ∨ fpSNaN fmt b ∨ (fpNaN fmt a ∧ fpNaN fmt b) → v = fpCanonicalNaN n) ∧
  (fpNaN fmt a → ¬ fpSNaN fmt a → ¬ fpNaN fmt b → v = b) ∧
  (fpNaN fmt b → ¬ fpSNaN fmt b → ¬ fpNaN fmt a → v = a) ∧
  (¬ fpNaN fmt a → ¬ fpNaN fmt b → fpSmaller fmt a b → v = if less then a else b) ∧
  (¬ fpNaN fmt a → ¬ fpNaN fmt b → ¬ fpSmaller fmt a b → v = if less then b else a)

/-- z is x rounded to an integer, ties to even. -/
def RoundsToInt (x : ℚ) (z : Int) : Prop := |x - z| < 1 / 2 ∨ (|x - z| = 1 / 2 ∧ z % 2 = 0)

/-- x truncated toward zero. -/
def truncated (x : ℚ) : Int := if 0 ≤ x then ⌊x⌋ else ⌈x⌉

/-- An integer moved into a range. -/
def clampInt (lo hi z : Int) : Int := max lo (min hi z)

/-- v is the signed word of a floating-point value (CvtW, R186). -/
def IsSignedWord (fmt : Fmt) {n : Nat} (a : BitVec n) (v : Word) : Prop :=
  (fpNaN fmt a → v = 0x7FFFFFFF#32) ∧
  (IsInf fmt false a → v = 0x7FFFFFFF#32) ∧ (IsInf fmt true a → v = 0x80000000#32) ∧
  (fpFinite fmt a → ∀ z, RoundsToInt (fpReal fmt a) z → v = BitVec.ofInt 32 (clampInt (-2 ^ 31) (2 ^ 31 - 1) z))

/-- v is the unsigned word of a floating-point value, truncated (CvtWU, R186). -/
def IsUnsignedWord (fmt : Fmt) {n : Nat} (a : BitVec n) (v : Word) : Prop :=
  (fpNaN fmt a → v = 0xFFFFFFFF#32) ∧
  (IsInf fmt false a → v = 0xFFFFFFFF#32) ∧ (IsInf fmt true a → v = 0#32) ∧
  (fpFinite fmt a → v = BitVec.ofInt 32 (clampInt 0 (2 ^ 32 - 1) (truncated (fpReal fmt a))))

/-- v is an integer as a floating-point value: rounded, or +0 (R189, R190, R193, R194). -/
def IsFromInt (fmt : Fmt) {n : Nat} (z : Int) (v : BitVec n) : Prop :=
  (z = 0 → v = 0) ∧ (z ≠ 0 → RoundsTo fmt (z : ℚ) v)

end Sys2Proof.Machine
end

