-- ==== Sys2Proof/Certificates/Slice0/Obligations.lean ====
section
/-! DEFINITION. The statements for the provers, each from the spec's numbered rules or from the words its entry in
OBLIGATIONS.json cites. `exec` is called with pc = ipc + 4, so `s.pc - 4` is the instruction's own address (R7; log 18). -/

open Sys2Proof Sys2Proof.Machine

/-! ## Encoding -/

/-- Words written out from the spec's encodings, one or more of every family. -/
def Obligations.SpecWordsDecode : Prop :=
  decode 0x002081B3 = .ok (.add 3 1 2) ∧
  decode 0xFFD00113 = .ok (.addi 2 0 0xFFD) ∧
  decode 0x02208063 = .ok (.beq 1 2 0x020) ∧
  decode 0x00000073 = .ok .ecall ∧
  decode 0x0200C1B3 = .ok (.div 3 1 0) ∧
  decode 0x1820A1AF = .ok (.scW 3 2 1 false false) ∧
  decode 0x0020F1D3 = .ok (.faddS 3 1 2 7) ∧
  decode 0x0030B027 = .ok (.fsd 3 1 0) ∧
  decode 0x003312F3 = .ok (.csrrw 5 0x003 6) ∧
  decode 0x010072D7 = .ok (.vsetvli 5 0 0x010) ∧
  decode 0x0AB56087 = .ok (.vlse32V 1 10 11) ∧
  decode 0x022FB1D7 = .ok (.vaddVI 3 2 0x1F) ∧
  decode 0x0220A1D7 = .ok (.vredsumVS 3 2 1)

/-- Decoding the encoding of a well-formed instruction gives the instruction back, with every operand. -/
def Obligations.EncodedInstructionsDecodeBack : Prop :=
  ∀ i : Instr, wellFormed i = true → decode (encode i) = .ok i

/-- A word that decodes is the encoding of the instruction it decodes to, and that instruction is well formed. -/
def Obligations.DecodedWordsReencode : Prop :=
  ∀ (w : Word) (i : Instr), decode w = .ok i → wellFormed i = true ∧ encode i = w

/-! ## The step -/

/-- When the four bytes at an aligned pc are admitted, not Dirty, and decode to i, a running engine's step is exec of i
with pc = ipc + 4, followed by the clearing of x0 when the run goes on (R7; logs 7 and 11). -/
def Obligations.StepRunsTheDecodedInstruction : Prop :=
  ∀ (s t : State) (i : Instr), s.stop = none → s.hostStop = false → s.pc.toNat % 4 = 0 →
    (∀ k ∈ s.dirty, k < s.pc.toNat ∨ s.pc.toNat + 4 ≤ k) → s.params.admits s.pc.toNat 4 = true →
    decode (s.wordAt s.pc) = .ok i → exec i { s with pc := s.pc + 4 } = .next t →
    step s = .next (if t.stop = none then { t with x := t.x.set 0 0 } else t)

/-- The events of the fetch in their order: a misaligned pc, a Dirty byte, a refused access. Each leaves pc at ipc and
changes nothing but `halted` (R7, R276, R279). -/
def Obligations.FetchEventsStopTheRun : Prop :=
  ∀ s : State, s.stop = none → s.hostStop = false →
    (s.pc.toNat % 4 ≠ 0 → step s = .next { s with stop := some (.misalignedFetch s.pc) }) ∧
    (s.pc.toNat % 4 = 0 → (∃ k ∈ s.dirty, s.pc.toNat ≤ k ∧ k < s.pc.toNat + 4) →
      step s = .next { s with stop := some (.staleFetch s.pc) }) ∧
    (s.pc.toNat % 4 = 0 → (∀ k ∈ s.dirty, k < s.pc.toNat ∨ s.pc.toNat + 4 ≤ k) → s.params.admits s.pc.toNat 4 = false →
      step s = .next { s with stop := some (.accessFault s.pc) })

/-- A fetched word that is the encoding of no well-formed instruction ends the run with IllegalInstruction, recording the
word (R55). -/
def Obligations.UnknownWordsStopTheRun : Prop :=
  ∀ s : State, s.stop = none → s.hostStop = false → s.pc.toNat % 4 = 0 →
    (∀ k ∈ s.dirty, k < s.pc.toNat ∨ s.pc.toNat + 4 ≤ k) → s.params.admits s.pc.toNat 4 = true →
    (∀ i : Instr, wellFormed i = true → encode i ≠ s.wordAt s.pc) →
    step s = .next { s with stop := some (.illegalInstruction (s.wordAt s.pc)) }

/-- A halted engine takes no step, and an engine that is not halted always has one (R7, R274). -/
def Obligations.OnlyHaltedEnginesDoNotStep : Prop :=
  ∀ s : State, (∀ r, s.stop = some r → step s = .fault (.halted r)) ∧ (s.stop = none → ∃ t, step s = .next t)

/-- A pending stop signal halts a running engine between instructions and changes nothing else (R11). The field that
holds the signal is the model's own choice: log 7. -/
def Obligations.HostStopHaltsBetweenInstructions : Prop :=
  ∀ s : State, s.stop = none → s.hostStop = true → step s = .next { s with stop := some .hostStop }

/-- The reset state for every entry, image and parameters (R291). -/
def Obligations.ResetLeavesTheListedState : Prop :=
  ∀ (entry : Word) (image : Memory) (p : Params),
    let s := State.loaded entry image p
    (∀ r, s.readX r = 0) ∧ s.x[0] = 0 ∧ s.pc = entry ∧ (∀ r, s.readF r = 0) ∧
    (∀ r, s.readS r = 0x7FC00000#32) ∧ s.fcsr8 = 0 ∧ (∀ b, b < 512 → s.vr.byte b = 0) ∧ s.vtype = 0 ∧ s.vl = 0 ∧
    s.vstart = 0 ∧ s.mem = image ∧ s.dirty = [] ∧ s.stop = none ∧ s.sew = 1 ∧ vlmaxOf s.vtype = 16 ∧ s.csrRead 0xC22 = 16 ∧
    ∀ n : BitVec 12, n ∉ [0x001#12, 0x002#12, 0x003#12, 0x008#12, 0xC20#12, 0xC21#12, 0xC22#12] → s.csrRead n = 0

/-- Every reset state with an even entry and an image in canonical form meets the invariant (R292). -/
def Obligations.ResetMeetsTheInvariant : Prop :=
  State.Inv State.reset ∧
  ∀ (entry : Word) (image : Memory) (p : Params), entry.getLsbD 0 = false → image.wf = true →
    State.Inv (State.loaded entry image p)

/-- Every step keeps the invariant. -/
def Obligations.StepKeepsTheInvariant : Prop :=
  ∀ s t : State, State.Inv s → step s = .next t → State.Inv t

/-- After every instruction that retires x0 holds 0, and a source x0 always reads 0 (R19). -/
def Obligations.ZeroRegisterHoldsZero : Prop :=
  (∀ s t : State, step s = .next t → t.stop = none → t.x[0] = 0) ∧ ∀ s : State, s.readX 0 = 0

/-! ## The integer unit -/

/-- The ten register-register operations (R95 to R104). -/
def Obligations.IntegerRegisterResults : Prop :=
  ∀ (s : State) (rd rs1 rs2 : XReg),
    let a := s.readX rs1
    let b := s.readX rs2
    WritesX (.add rd rs1 rs2) s rd (a + b) ∧
    WritesX (.sub rd rs1 rs2) s rd (a - b) ∧
    WritesX (.sll rd rs1 rs2) s rd (a <<< (b.toNat % 32)) ∧
    WritesX (.slt rd rs1 rs2) s rd (if a.toInt < b.toInt then 1 else 0) ∧
    WritesX (.sltu rd rs1 rs2) s rd (if a.toNat < b.toNat then 1 else 0) ∧
    WritesX (.xor rd rs1 rs2) s rd (a ^^^ b) ∧
    WritesX (.srl rd rs1 rs2) s rd (a >>> (b.toNat % 32)) ∧
    WritesX (.sra rd rs1 rs2) s rd (BitVec.ofInt 32 (a.toInt / 2 ^ (b.toNat % 32))) ∧
    WritesX (.or rd rs1 rs2) s rd (a ||| b) ∧
    WritesX (.and rd rs1 rs2) s rd (a &&& b)

/-- The upper immediates and the nine register-immediate operations (R66, R67, R86 to R94). -/
def Obligations.IntegerImmediateResults : Prop :=
  ∀ (s : State) (rd rs1 : XReg) (imm : BitVec 12) (upper : BitVec 20) (shamt : BitVec 5),
    let a := s.readX rs1
    let c := BitVec.ofInt 32 imm.toInt
    WritesX (.lui rd upper) s rd (BitVec.ofNat 32 (upper.toNat * 4096)) ∧
    WritesX (.auipc rd upper) s rd (s.pc - 4 + BitVec.ofNat 32 (upper.toNat * 4096)) ∧
    WritesX (.addi rd rs1 imm) s rd (a + c) ∧
    WritesX (.slti rd rs1 imm) s rd (if a.toInt < imm.toInt then 1 else 0) ∧
    WritesX (.sltiu rd rs1 imm) s rd (if a.toNat < c.toNat then 1 else 0) ∧
    WritesX (.xori rd rs1 imm) s rd (a ^^^ c) ∧
    WritesX (.ori rd rs1 imm) s rd (a ||| c) ∧
    WritesX (.andi rd rs1 imm) s rd (a &&& c) ∧
    WritesX (.slli rd rs1 shamt) s rd (BitVec.ofNat 32 (a.toNat * 2 ^ shamt.toNat)) ∧
    WritesX (.srli rd rs1 shamt) s rd (BitVec.ofNat 32 (a.toNat / 2 ^ shamt.toNat)) ∧
    WritesX (.srai rd rs1 shamt) s rd (BitVec.ofInt 32 (a.toInt / 2 ^ shamt.toNat))

/-- The six branches: pc becomes ipc + immB when the condition holds and keeps ipc + 4 otherwise; nothing else changes
(R70 to R76). -/
def Obligations.BranchResults : Prop :=
  ∀ (s : State) (rs1 rs2 : XReg) (off : BitVec 13),
    let a := s.readX rs1
    let b := s.readX rs2
    let target := s.pc - 4 + BitVec.ofInt 32 off.toInt
    exec (.beq rs1 rs2 off) s = .next { s with pc := if a = b then target else s.pc } ∧
    exec (.bne rs1 rs2 off) s = .next { s with pc := if a = b then s.pc else target } ∧
    exec (.blt rs1 rs2 off) s = .next { s with pc := if a.toInt < b.toInt then target else s.pc } ∧
    exec (.bge rs1 rs2 off) s = .next { s with pc := if a.toInt < b.toInt then s.pc else target } ∧
    exec (.bltu rs1 rs2 off) s = .next { s with pc := if a.toNat < b.toNat then target else s.pc } ∧
    exec (.bgeu rs1 rs2 off) s = .next { s with pc := if a.toNat < b.toNat then s.pc else target }

/-- JAL and JALR link ipc + 4, which pc holds, unless rd is x0, and jump; JALR clears bit 0 of a target computed from
the old x[rs1]. The fetch after a jump to a target with bit 1 set is MisalignedFetch (R68, R69). -/
def Obligations.JumpResults : Prop :=
  ∀ (s : State) (rd rs1 : XReg) (off : BitVec 21) (imm : BitVec 12),
    (∃ t, exec (.jal rd off) s = .next t ∧ t.pc = s.pc - 4 + BitVec.ofInt 32 off.toInt ∧ xWritten s t rd s.pc ∧
      { t with x := s.x, pc := s.pc } = s) ∧
    (∃ t, exec (.jalr rd rs1 imm) s = .next t ∧ t.pc = BitVec.ofNat 32 ((s.address rs1 imm).toNat / 2 * 2) ∧
      xWritten s t rd s.pc ∧ { t with x := s.x, pc := s.pc } = s) ∧
    (∀ i t, (i = .jal rd off ∨ i = .jalr rd rs1 imm) → exec i s = .next t → s.stop = none → s.hostStop = false →
      t.pc.toNat / 2 % 2 = 1 → step t = .next { t with stop := some (.misalignedFetch t.pc) })

/-- The five integer loads: the extended value when the access is aligned and admitted, and the event otherwise (R77 to R82). -/
def Obligations.IntegerLoadResults : Prop :=
  ∀ (s : State) (rd rs1 : XReg) (imm : BitVec 12),
    let ea := s.address rs1 imm
    (s.Accessible ea 1 → WritesX (.lb rd rs1 imm) s rd (BitVec.ofInt 32 (s.byteAt ea 0).toInt)) ∧
    (s.Accessible ea 1 → WritesX (.lbu rd rs1 imm) s rd (BitVec.ofNat 32 (s.byteAt ea 0).toNat)) ∧
    (s.Accessible ea 2 → WritesX (.lh rd rs1 imm) s rd (BitVec.ofInt 32 (s.halfAt ea).toInt)) ∧
    (s.Accessible ea 2 → WritesX (.lhu rd rs1 imm) s rd (BitVec.ofNat 32 (s.halfAt ea).toNat)) ∧
    (s.Accessible ea 4 → WritesX (.lw rd rs1 imm) s rd (s.wordAt ea)) ∧
    (s.params.admits ea.toNat 1 = false →
      Raises (.lb rd rs1 imm) s (.accessFault ea) ∧ Raises (.lbu rd rs1 imm) s (.accessFault ea)) ∧
    RefusesAccess (.lh rd rs1 imm) s ea 2 ∧ RefusesAccess (.lhu rd rs1 imm) s ea 2 ∧ RefusesAccess (.lw rd rs1 imm) s ea 4

/-- The three integer stores: the bytes stored when the access is aligned and admitted, and the event otherwise (R83 to R85). -/
def Obligations.IntegerStoreResults : Prop :=
  ∀ (s : State) (rs2 rs1 : XReg) (imm : BitVec 12),
    let ea := s.address rs1 imm
    let v := s.readX rs2
    (s.Accessible ea 1 → Stores (.sb rs2 rs1 imm) s ea [v.extractLsb' 0 8]) ∧
    (s.Accessible ea 2 → Stores (.sh rs2 rs1 imm) s ea [v.extractLsb' 0 8, v.extractLsb' 8 8]) ∧
    (s.Accessible ea 4 → Stores (.sw rs2 rs1 imm) s ea
      [v.extractLsb' 0 8, v.extractLsb' 8 8, v.extractLsb' 16 8, v.extractLsb' 24 8]) ∧
    (s.params.admits ea.toNat 1 = false → Raises (.sb rs2 rs1 imm) s (.accessFault ea)) ∧
    RefusesAccess (.sh rs2 rs1 imm) s ea 2 ∧ RefusesAccess (.sw rs2 rs1 imm) s ea 4

/-- FENCE changes nothing, FENCE.I empties Dirty alone, ECALL and EBREAK halt with pc = ipc + 4 and change nothing else
(R105 to R108). -/
def Obligations.FenceAndEnvironmentResults : Prop :=
  ∀ (s : State) (fm pred succ : BitVec 4) (imm : BitVec 12) (rs1 rd : XReg),
    exec (.fence fm pred succ rs1 rd) s = .next s ∧
    exec (.fenceI imm rs1 rd) s = .next { s with dirty := [] } ∧
    exec .ecall s = .next { s with stop := some .ecall } ∧
    exec .ebreak s = .next { s with stop := some .ebreak }

/-! ## The multiply/divide unit -/

/-- The eight operations, the division corners among them (R112, R114 to R121). -/
def Obligations.MultiplyDivideResults : Prop :=
  ∀ (s : State) (rd rs1 rs2 : XReg),
    let a := s.readX rs1
    let b := s.readX rs2
    WritesX (.mul rd rs1 rs2) s rd (a * b) ∧
    WritesX (.mulh rd rs1 rs2) s rd (BitVec.ofInt 32 (a.toInt * b.toInt / 2 ^ 32)) ∧
    WritesX (.mulhsu rd rs1 rs2) s rd (BitVec.ofInt 32 (a.toInt * b.toNat / 2 ^ 32)) ∧
    WritesX (.mulhu rd rs1 rs2) s rd (BitVec.ofNat 32 (a.toNat * b.toNat / 2 ^ 32)) ∧
    WritesX (.div rd rs1 rs2) s rd (if b = 0 then 0xFFFFFFFF#32 else if a.toInt = -2 ^ 31 ∧ b.toInt = -1 then 0x80000000#32
      else BitVec.ofInt 32 (a.toInt.tdiv b.toInt)) ∧
    WritesX (.divu rd rs1 rs2) s rd (if b = 0 then 0xFFFFFFFF#32 else BitVec.ofNat 32 (a.toNat / b.toNat)) ∧
    WritesX (.rem rd rs1 rs2) s rd (if b = 0 then a else if a.toInt = -2 ^ 31 ∧ b.toInt = -1 then 0#32
      else BitVec.ofInt 32 (a.toInt.tmod b.toInt)) ∧
    WritesX (.remu rd rs1 rs2) s rd (if b = 0 then a else BitVec.ofNat 32 (a.toNat % b.toNat))

/-- The identities of R113, on the values the instructions leave in rd: quotient and remainder, also modulo 2^32 in the
overflow case, the bound of the remainder, and the 64-bit products. -/
def Obligations.MultiplyDivideIdentities : Prop :=
  ∀ (s : State) (rd rs1 rs2 : XReg), rd ≠ 0 →
    let a := s.readX rs1
    let b := s.readX rs2
    (b ≠ 0 → ∀ q m, exec (.div rd rs1 rs2) s = .next q → exec (.rem rd rs1 rs2) s = .next m →
      q.readX rd * b + m.readX rd = a ∧ |(m.readX rd).toInt| < |b.toInt| ∧
      (¬ (a.toInt = -2 ^ 31 ∧ b.toInt = -1) → (q.readX rd).toInt * b.toInt + (m.readX rd).toInt = a.toInt)) ∧
    (b ≠ 0 → ∀ q m, exec (.divu rd rs1 rs2) s = .next q → exec (.remu rd rs1 rs2) s = .next m →
      (q.readX rd).toNat * b.toNat + (m.readX rd).toNat = a.toNat) ∧
    (∀ l h, exec (.mul rd rs1 rs2) s = .next l →
      (exec (.mulh rd rs1 rs2) s = .next h → (h.readX rd ++ l.readX rd).toInt = a.toInt * b.toInt) ∧
      (exec (.mulhsu rd rs1 rs2) s = .next h → (h.readX rd ++ l.readX rd).toInt = a.toInt * b.toNat) ∧
      (exec (.mulhu rd rs1 rs2) s = .next h → (h.readX rd ++ l.readX rd).toNat = a.toNat * b.toNat))

/-! ## The atomic unit -/

/-- LR.W loads the word; SC.W always stores and gives 0; both are refused as a word access is (R124, R125). -/
def Obligations.LoadReservedStoreConditionalResults : Prop :=
  ∀ (s : State) (rd rs2 rs1 : XReg) (aq rl : Bool),
    let a := s.readX rs1
    (s.Accessible a 4 → WritesX (.lrW rd rs1 aq rl) s rd (s.wordAt a) ∧
      StoresAndWritesX (.scW rd rs2 rs1 aq rl) s a (wordBytes (s.readX rs2)) rd 0) ∧
    RefusesAccess (.lrW rd rs1 aq rl) s a 4 ∧ RefusesAccess (.scW rd rs2 rs1 aq rl) s a 4

/-- The nine AMOs: rd gets the old word and memory the combined word, or the access is refused (R126 to R134). -/
def Obligations.AtomicMemoryResults : Prop :=
  ∀ (s : State) (rd rs2 rs1 : XReg) (aq rl : Bool),
    let a := s.readX rs1
    let old := s.wordAt a
    let src := s.readX rs2
    Combines (.amoswapW rd rs2 rs1 aq rl) s a rd old src ∧
    Combines (.amoaddW rd rs2 rs1 aq rl) s a rd old (old + src) ∧
    Combines (.amoxorW rd rs2 rs1 aq rl) s a rd old (old ^^^ src) ∧
    Combines (.amoandW rd rs2 rs1 aq rl) s a rd old (old &&& src) ∧
    Combines (.amoorW rd rs2 rs1 aq rl) s a rd old (old ||| src) ∧
    Combines (.amominW rd rs2 rs1 aq rl) s a rd old (BitVec.ofInt 32 (min old.toInt src.toInt)) ∧
    Combines (.amomaxW rd rs2 rs1 aq rl) s a rd old (BitVec.ofInt 32 (max old.toInt src.toInt)) ∧
    Combines (.amominuW rd rs2 rs1 aq rl) s a rd old (BitVec.ofNat 32 (min old.toNat src.toNat)) ∧
    Combines (.amomaxuW rd rs2 rs1 aq rl) s a rd old (BitVec.ofNat 32 (max old.toNat src.toNat))

/-! ## The floating-point units -/

/-- FLW boxes the loaded word; FLD puts the word at ea in the low half and the word at ea + 4 in the high half. A refused
access is an event and loads nothing; FLD checks its first word before its second (R143, R145). -/
def Obligations.FpLoadResults : Prop :=
  ∀ (s : State) (rd : FReg) (rs1 : XReg) (imm : BitVec 12),
    let ea := s.address rs1 imm
    (s.Accessible ea 4 → WritesF (.flw rd rs1 imm) s rd (0xFFFFFFFF#32 ++ s.wordAt ea)) ∧
    (s.Accessible ea 4 → s.Accessible (ea + 4) 4 → WritesF (.fld rd rs1 imm) s rd (s.wordAt (ea + 4) ++ s.wordAt ea)) ∧
    RefusesAccess (.flw rd rs1 imm) s ea 4 ∧ RefusesAccess (.fld rd rs1 imm) s ea 4 ∧
    (s.Accessible ea 4 → RefusesAccess (.fld rd rs1 imm) s (ea + 4) 4)

/-- FSW stores the low word of f[rs2], boxed or not; FSD stores the low word at ea and the high word at ea + 4, modulo
2^32. A refused access is an event and stores nothing; FSD checks both words first. For a refused second word it records
ea, as R146 has it and State.reset's parameter says, or that word's address, as R275's general row reads: the parameter of
log 8, the model's choice of form (R144, R146). -/
def Obligations.FpStoreResults : Prop :=
  ∀ (s : State) (rs2 : FReg) (rs1 : XReg) (imm : BitVec 12),
    let ea := s.address rs1 imm
    let v := s.readF rs2
    (s.Accessible ea 4 → Stores (.fsw rs2 rs1 imm) s ea (wordBytes (v.extractLsb' 0 32))) ∧
    (s.Accessible ea 4 → s.Accessible (ea + 4) 4 → ∃ m t, exec (.fsd rs2 rs1 imm) s = .next t ∧
      Stored s m ea (wordBytes (v.extractLsb' 0 32)) ∧ Stored m t (ea + 4) (wordBytes (v.extractLsb' 32 32)) ∧
      { t with mem := s.mem, dirty := s.dirty } = s) ∧
    RefusesAccess (.fsw rs2 rs1 imm) s ea 4 ∧ RefusesAccess (.fsd rs2 rs1 imm) s ea 4 ∧
    (s.Accessible ea 4 → s.params.admits (ea + 4).toNat 4 = false →
      Raises (.fsd rs2 rs1 imm) s (.accessFault (if s.params.fsdFaultAddress = .base then ea else ea + 4)))

/-- FSGNJ.S of a register with itself: a single that is not NaN-boxed reads as the canonical NaN, a boxed one as its low
half, and the result is boxed (R137). -/
def Obligations.SinglesAreNaNBoxed : Prop :=
  ∀ (s : State) (rd rs1 : FReg) (v : Word),
    ((s.readF rs1).toNat / 2 ^ 32 ≠ 0xFFFFFFFF →
      WritesF (.fsgnjS rd rs1 rs1) s rd 0xFFFFFFFF7FC00000#64) ∧
    (s.readF rs1 = 0xFFFFFFFF#32 ++ v → WritesF (.fsgnjS rd rs1 rs1) s rd (0xFFFFFFFF#32 ++ v))

/-- FADD, FSUB, FMUL and FDIV of singles, for every operand and rm (R147 to R150, R138, R141). Two clauses rest on log 12:
that a positive result that rounds to zero is +0 is the model's deduction from R149's one corner, and ∞ + ∞ of one sign
and ∞ · ∞, which R141's table does not list, are IEEE-754's, which R136 names. The sign of a negative result that rounds to
zero, and a finite value over an infinity, are log 12's too and not stated. -/
def Obligations.SingleArithmeticResults : Prop :=
  ∀ (s : State) (rd rs1 rs2 : FReg) (rm : BitVec 3),
    let a := s.readS rs1
    let b := s.readS rs2
    (∃ v : Word, IsSum .single a b v ∧ WritesF (.faddS rd rs1 rs2 rm) s rd (0xFFFFFFFF#32 ++ v)) ∧
    (∃ v : Word, IsSum .single a (flipSign b) v ∧ WritesF (.fsubS rd rs1 rs2 rm) s rd (0xFFFFFFFF#32 ++ v)) ∧
    (∃ v : Word, IsProduct .single a b v ∧ WritesF (.fmulS rd rs1 rs2 rm) s rd (0xFFFFFFFF#32 ++ v)) ∧
    (∃ v : Word, IsQuotient .single a b v ∧ WritesF (.fdivS rd rs1 rs2 rm) s rd (0xFFFFFFFF#32 ++ v))

/-- FADD, FSUB, FMUL and FDIV of doubles, for every operand and rm (R153 to R156, R138, R141). Two clauses rest on log 12, as
for singles: +0 for a positive result that rounds to zero, the model's deduction from R149's one corner, and ∞ + ∞ of one
sign and ∞ · ∞, from IEEE-754 (R136). The sign of a negative result that rounds to zero, and a finite value over an infinity,
are log 12's too and not stated. -/
def Obligations.DoubleArithmeticResults : Prop :=
  ∀ (s : State) (rd rs1 rs2 : FReg) (rm : BitVec 3),
    let a := s.readF rs1
    let b := s.readF rs2
    (∃ v : Dword, IsSum .double a b v ∧ WritesF (.faddD rd rs1 rs2 rm) s rd v) ∧
    (∃ v : Dword, IsSum .double a (flipSign b) v ∧ WritesF (.fsubD rd rs1 rs2 rm) s rd v) ∧
    (∃ v : Dword, IsProduct .double a b v ∧ WritesF (.fmulD rd rs1 rs2 rm) s rd v) ∧
    (∃ v : Dword, IsQuotient .double a b v ∧ WritesF (.fdivD rd rs1 rs2 rm) s rd v)

/-- The eight fused operations, each rounded once (R158 to R166). Two clauses rest on log 12: +0 for a positive value that
rounds to zero, the model's deduction from R149's one corner, and ∞ · ∞ and ∞ + ∞ of one sign, from IEEE-754 (R136). The
sign of a negative value that rounds to zero is log 12's too and not stated. -/
def Obligations.FusedResults : Prop :=
  ∀ (s : State) (rd rs1 rs2 rs3 : FReg) (rm : BitVec 3),
    let a := s.readS rs1
    let b := s.readS rs2
    let c := s.readS rs3
    let d := s.readF rs1
    let e := s.readF rs2
    let f := s.readF rs3
    (∃ v : Word, IsFused .single false false a b c v ∧ WritesF (.fmaddS rd rs1 rs2 rs3 rm) s rd (0xFFFFFFFF#32 ++ v)) ∧
    (∃ v : Word, IsFused .single false true a b c v ∧ WritesF (.fmsubS rd rs1 rs2 rs3 rm) s rd (0xFFFFFFFF#32 ++ v)) ∧
    (∃ v : Word, IsFused .single true false a b c v ∧ WritesF (.fnmsubS rd rs1 rs2 rs3 rm) s rd (0xFFFFFFFF#32 ++ v)) ∧
    (∃ v : Word, IsFused .single true true a b c v ∧ WritesF (.fnmaddS rd rs1 rs2 rs3 rm) s rd (0xFFFFFFFF#32 ++ v)) ∧
    (∃ v : Dword, IsFused .double false false d e f v ∧ WritesF (.fmaddD rd rs1 rs2 rs3 rm) s rd v) ∧
    (∃ v : Dword, IsFused .double false true d e f v ∧ WritesF (.fmsubD rd rs1 rs2 rs3 rm) s rd v) ∧
    (∃ v : Dword, IsFused .double true false d e f v ∧ WritesF (.fnmsubD rd rs1 rs2 rs3 rm) s rd v) ∧
    (∃ v : Dword, IsFused .double true true d e f v ∧ WritesF (.fnmaddD rd rs1 rs2 rs3 rm) s rd v)

/-- FSQRT: the rounded root of an operand that is not below zero. An operand below zero halts with FsqrtNegative and
pc = ipc + 4; NV is set, f[rd] may hold anything, and everything else is as before (R151, R152, R157). -/
def Obligations.SquareRootResults : Prop :=
  ∀ (s : State) (rd rs1 : FReg) (rm : BitVec 3),
    (¬ fpBelowZero .single (s.readS rs1) →
      ∃ v : Word, IsSquareRoot .single (s.readS rs1) v ∧ WritesF (.fsqrtS rd rs1 rm) s rd (0xFFFFFFFF#32 ++ v)) ∧
    (¬ fpBelowZero .double (s.readF rs1) →
      ∃ v : Dword, IsSquareRoot .double (s.readF rs1) v ∧ WritesF (.fsqrtD rd rs1 rm) s rd v) ∧
    (fpBelowZero .single (s.readS rs1) → HaltsOnRoot (.fsqrtS rd rs1 rm) s rd) ∧
    (fpBelowZero .double (s.readF rs1) → HaltsOnRoot (.fsqrtD rd rs1 rm) s rd)

/-- The six sign injections: the magnitude bits of the first operand under a sign bit (R168 to R173). -/
def Obligations.SignInjectionResults : Prop :=
  ∀ (s : State) (rd rs1 rs2 : FReg),
    let a := s.readS rs1
    let b := s.readS rs2
    let d := s.readF rs1
    let e := s.readF rs2
    WritesF (.fsgnjS rd rs1 rs2) s rd (0xFFFFFFFF#32 ++ (b &&& 0x80000000#32 ||| a &&& 0x7FFFFFFF#32)) ∧
    WritesF (.fsgnjnS rd rs1 rs2) s rd (0xFFFFFFFF#32 ++ (~~~b &&& 0x80000000#32 ||| a &&& 0x7FFFFFFF#32)) ∧
    WritesF (.fsgnjxS rd rs1 rs2) s rd (0xFFFFFFFF#32 ++ (a ^^^ (b &&& 0x80000000#32))) ∧
    WritesF (.fsgnjD rd rs1 rs2) s rd (e &&& 0x8000000000000000#64 ||| d &&& 0x7FFFFFFFFFFFFFFF#64) ∧
    WritesF (.fsgnjnD rd rs1 rs2) s rd (~~~e &&& 0x8000000000000000#64 ||| d &&& 0x7FFFFFFFFFFFFFFF#64) ∧
    WritesF (.fsgnjxD rd rs1 rs2) s rd (d ^^^ (e &&& 0x8000000000000000#64))

/-- FMIN and FMAX with their NaN cases and −0 below +0 (R174 to R178). -/
def Obligations.MinMaxResults : Prop :=
  ∀ (s : State) (rd rs1 rs2 : FReg),
    let a := s.readS rs1
    let b := s.readS rs2
    let d := s.readF rs1
    let e := s.readF rs2
    (∃ v : Word, IsMinMax .single true a b v ∧ WritesF (.fminS rd rs1 rs2) s rd (0xFFFFFFFF#32 ++ v)) ∧
    (∃ v : Word, IsMinMax .single false a b v ∧ WritesF (.fmaxS rd rs1 rs2) s rd (0xFFFFFFFF#32 ++ v)) ∧
    (∃ v : Dword, IsMinMax .double true d e v ∧ WritesF (.fminD rd rs1 rs2) s rd v) ∧
    (∃ v : Dword, IsMinMax .double false d e v ∧ WritesF (.fmaxD rd rs1 rs2) s rd v)

/-- The six compares: the numeric relation as 0 or 1 when neither operand is a NaN; with a NaN, 0 and NV set (R179 to R185). -/
def Obligations.FpCompareResults : Prop :=
  ∀ (s : State) (rd : XReg) (rs1 rs2 : FReg),
    let a := s.readS rs1
    let b := s.readS rs2
    let d := s.readF rs1
    let e := s.readF rs2
    (¬ fpNaN .single a → ¬ fpNaN .single b →
      (∃ v : Word, (v = 1#32 ↔ fpExt .single a = fpExt .single b) ∧ (v = 0 ∨ v = 1) ∧ WritesX (.feqS rd rs1 rs2) s rd v) ∧
      (∃ v : Word, (v = 1#32 ↔ fpExt .single a < fpExt .single b) ∧ (v = 0 ∨ v = 1) ∧ WritesX (.fltS rd rs1 rs2) s rd v) ∧
      (∃ v : Word, (v = 1#32 ↔ fpExt .single a ≤ fpExt .single b) ∧ (v = 0 ∨ v = 1) ∧ WritesX (.fleS rd rs1 rs2) s rd v)) ∧
    (¬ fpNaN .double d → ¬ fpNaN .double e →
      (∃ v : Word, (v = 1#32 ↔ fpExt .double d = fpExt .double e) ∧ (v = 0 ∨ v = 1) ∧ WritesX (.feqD rd rs1 rs2) s rd v) ∧
      (∃ v : Word, (v = 1#32 ↔ fpExt .double d < fpExt .double e) ∧ (v = 0 ∨ v = 1) ∧ WritesX (.fltD rd rs1 rs2) s rd v) ∧
      (∃ v : Word, (v = 1#32 ↔ fpExt .double d ≤ fpExt .double e) ∧ (v = 0 ∨ v = 1) ∧ WritesX (.fleD rd rs1 rs2) s rd v)) ∧
    ∀ i : Instr,
      ((i = .feqS rd rs1 rs2 ∨ i = .fltS rd rs1 rs2 ∨ i = .fleS rd rs1 rs2) ∧ (fpNaN .single a ∨ fpNaN .single b)) ∨
      ((i = .feqD rd rs1 rs2 ∨ i = .fltD rd rs1 rs2 ∨ i = .fleD rd rs1 rs2) ∧ (fpNaN .double d ∨ fpNaN .double e)) →
      ∃ t, exec i s = .next t ∧ xWritten s t rd 0 ∧ t.fcsr8 = s.fcsr8 ||| 0x10#8 ∧
        { t with x := s.x, fcsr8 := s.fcsr8 } = s

/-- The conversions to integers: to nearest with ties to even for signed words, truncated for unsigned words, both
saturating, whatever rm says (R186 to R188, R191, R192). -/
def Obligations.FpToIntegerResults : Prop :=
  ∀ (s : State) (rd : XReg) (rs1 : FReg) (rm : BitVec 3),
    (∃ v : Word, IsSignedWord .single (s.readS rs1) v ∧ WritesX (.fcvtWS rd rs1 rm) s rd v) ∧
    (∃ v : Word, IsUnsignedWord .single (s.readS rs1) v ∧ WritesX (.fcvtWUS rd rs1 rm) s rd v) ∧
    (∃ v : Word, IsSignedWord .double (s.readF rs1) v ∧ WritesX (.fcvtWD rd rs1 rm) s rd v) ∧
    (∃ v : Word, IsUnsignedWord .double (s.readF rs1) v ∧ WritesX (.fcvtWUD rd rs1 rm) s rd v)

/-- The conversions from integers, rounded once (R189, R190, R193, R194). No integer but 0 rounds to zero, so nothing here
rests on log 12. -/
def Obligations.IntegerToFpResults : Prop :=
  ∀ (s : State) (rd : FReg) (rs1 : XReg) (rm : BitVec 3),
    (∃ v : Word, IsFromInt .single (s.readX rs1).toInt v ∧ WritesF (.fcvtSW rd rs1 rm) s rd (0xFFFFFFFF#32 ++ v)) ∧
    (∃ v : Word, IsFromInt .single (s.readX rs1).toNat v ∧ WritesF (.fcvtSWU rd rs1 rm) s rd (0xFFFFFFFF#32 ++ v)) ∧
    (∃ v : Dword, IsFromInt .double (s.readX rs1).toInt v ∧ WritesF (.fcvtDW rd rs1 rm) s rd v) ∧
    (∃ v : Dword, IsFromInt .double (s.readX rs1).toNat v ∧ WritesF (.fcvtDWU rd rs1 rm) s rd v)

/-- The conversions between the formats: narrowing rounds, widening is exact, NaNs become canonical, infinities and zeros
keep their signs (R195, R196). That a positive value that rounds to zero gives +0 is the model's deduction from R149's one
corner (log 12); the sign of a negative one is log 12's too and not stated. -/
def Obligations.FpToFpResults : Prop :=
  ∀ (s : State) (rd rs1 : FReg) (rm : BitVec 3),
    let a := s.readF rs1
    let b := s.readS rs1
    (∃ v : Word, (fpNaN .double a → v = 0x7FC00000#32) ∧ (∀ neg, IsInf .double neg a → IsInf .single neg v) ∧
      (fpFinite .double a → fpReal .double a = 0 → v = fpZero 32 a.msb) ∧
      (fpFinite .double a → fpReal .double a ≠ 0 → RoundsTo .single (fpReal .double a) v) ∧
      WritesF (.fcvtSD rd rs1 rm) s rd (0xFFFFFFFF#32 ++ v)) ∧
    (∃ v : Dword, (fpNaN .single b → v = 0x7FF8000000000000#64) ∧ (∀ neg, IsInf .single neg b → IsInf .double neg v) ∧
      (fpFinite .single b → fpFinite .double v ∧ v.msb = b.msb ∧ fpReal .double v = fpReal .single b) ∧
      WritesF (.fcvtDS rd rs1 rm) s rd v)

/-- The raw moves between the register files: FMV.X.W takes the low half, boxed or not, FMV.W.X boxes (R197, R198). -/
def Obligations.FpMoveResults : Prop :=
  ∀ (s : State) (x : XReg) (f : FReg),
    WritesX (.fmvXW x f) s x (BitVec.ofNat 32 ((s.readF f).toNat % 2 ^ 32)) ∧
    WritesF (.fmvWX f x) s f (0xFFFFFFFF#32 ++ s.readX x)

/-- The flags: NV is set exactly by a compare with a NaN operand and by a square root of an operand below zero, and nothing
else changes fcsr8 but the CSR instructions (R140). -/
def Obligations.OnlyComparesAndSquareRootsSetNV : Prop :=
  ∀ (s t : State) (i : Instr), exec i s = .next t →
    (SetsNV s i → t.fcsr8 = s.fcsr8 ||| 0x10#8) ∧ (¬ SetsNV s i → ¬ IsCsrInstruction i → t.fcsr8 = s.fcsr8)

/-! ## The CSR unit -/

/-- What every CSR number reads as, by CSRRS with rs1 = x0, which changes nothing but rd (R200, R204). -/
def Obligations.CsrReadsFollowTheMap : Prop :=
  ∀ (s : State) (rd : XReg) (n : BitVec 12),
    WritesX (.csrrs rd 0x001 0) s rd (BitVec.ofNat 32 (s.fcsr8.toNat % 32)) ∧
    WritesX (.csrrs rd 0x002 0) s rd (BitVec.ofNat 32 (s.fcsr8.toNat / 32)) ∧
    WritesX (.csrrs rd 0x003 0) s rd (BitVec.ofNat 32 s.fcsr8.toNat) ∧
    WritesX (.csrrs rd 0x008 0) s rd s.vstart ∧
    WritesX (.csrrs rd 0xC20 0) s rd s.vl ∧
    WritesX (.csrrs rd 0xC21 0) s rd (BitVec.ofNat 32 s.vtype.toNat) ∧
    WritesX (.csrrs rd 0xC22 0) s rd 16 ∧
    (n ∉ [0x001#12, 0x002#12, 0x003#12, 0x008#12, 0xC20#12, 0xC21#12, 0xC22#12] → WritesX (.csrrs rd n 0) s rd 0)

/-- CSRRW, CSRRS and CSRRC: rd gets the old value, and the CSR the new one, the set or the cleared bits, when the
instruction writes. A write to vl, vtype or vlenb ends the run with IllegalInstruction and changes nothing. The old value
and the mask are read before anything is written; the mask is x[rs1], or x[rd] under the optional parameter (R201 to R205;
logs 4 and 10). -/
def Obligations.CsrInstructionResults : Prop :=
  ∀ (s : State) (rd rs1 : XReg) (n : BitVec 12),
    let old := s.csrRead n
    let m := if s.params.csrSetClear = .rs1 then s.readX rs1 else s.readX rd
    (n ∉ [0xC20#12, 0xC21#12, 0xC22#12] →
      (∃ t, exec (.csrrw rd n rs1) s = .next t ∧ CsrWritten s t rd n old (s.readX rs1)) ∧
      (rs1 ≠ 0 → ∃ t, exec (.csrrs rd n rs1) s = .next t ∧ CsrWritten s t rd n old (old ||| m)) ∧
      (rs1 ≠ 0 → ∃ t, exec (.csrrc rd n rs1) s = .next t ∧ CsrWritten s t rd n old (old &&& ~~~m))) ∧
    (n ∈ [0xC20#12, 0xC21#12, 0xC22#12] →
      Raises (.csrrw rd n rs1) s (.illegalInstruction (encode (.csrrw rd n rs1))) ∧
      (rs1 ≠ 0 → Raises (.csrrs rd n rs1) s (.illegalInstruction (encode (.csrrs rd n rs1))) ∧
        Raises (.csrrc rd n rs1) s (.illegalInstruction (encode (.csrrc rd n rs1))))) ∧
    WritesX (.csrrs rd n 0) s rd old ∧ WritesX (.csrrc rd n 0) s rd old

/-! ## Vector configuration, loads and stores -/

/-- VSETVLI: with a supported vtypei it writes vtype, vl = min(AVL, VLMAX) and rd, and nothing else; with any other it
ends the run with VConfigUnsupported, recording it (R208). -/
def Obligations.VsetvliResults : Prop :=
  ∀ (s : State) (rd rs1 : XReg) (z : BitVec 11),
    let vlmul := z.toNat % 8
    let vsew := z.toNat / 8 % 4
    let vlmax := 2 ^ vlmul * 16 / 2 ^ vsew
    let n := min (if rs1 = 0 then vlmax else (s.readX rs1).toNat) vlmax
    (vlmul < 4 ∧ vsew ≠ 3 ∧ z.toNat / 32 % 2 = 0 ∧ z.toNat / 256 = 0 →
      ∃ t, exec (.vsetvli rd rs1 z) s = .next t ∧ t.vtype = BitVec.ofNat 5 (z.toNat % 32) ∧ t.vl = BitVec.ofNat 32 n ∧
        xWritten s t rd (BitVec.ofNat 32 n) ∧ { t with x := s.x, vtype := s.vtype, vl := s.vl } = s) ∧
    (4 ≤ vlmul ∨ vsew = 3 ∨ z.toNat / 32 % 2 = 1 ∨ z.toNat / 256 ≠ 0 →
      Raises (.vsetvli rd rs1 z) s (.vConfigUnsupported z))

/-- The checks every vector instruction but VSETVLI makes before it touches an element, in their order (R210). The order of
the groups and the unit of the recorded EEW are the model's readings: logs 9 and 13. -/
def Obligations.VectorChecksInOrder : Prop :=
  ∀ (s : State) (i : Instr) (eew : Option Nat) (groups : List (VReg × Nat)),
    vectorOperands s.sew i = some (eew, groups) →
    (s.vstart ≠ 0 → Raises i s (.vStartNonZero s.vstart)) ∧
    (∀ e, s.vstart = 0 → eew = some e → e ≠ s.sew → Raises i s (.vEewMismatch e)) ∧
    (∀ before g after, s.vstart = 0 → (∀ e, eew = some e → e = s.sew) → groups = before ++ g :: after →
      (∀ b ∈ before, groupFits s.vl.toNat b.2 b.1) → ¬ groupFits s.vl.toNat g.2 g.1 →
      Raises i s (.vRegOutOfRange g.1))

/-- The six vector loads (R214 to R219). -/
def Obligations.VectorLoadResults : Prop :=
  ∀ (s : State) (vd : VReg) (rs1 rs2 : XReg),
    LoadsElements (.vle8V vd rs1) s vd 1 (s.readX rs1) 1 ∧
    LoadsElements (.vle16V vd rs1) s vd 2 (s.readX rs1) 2 ∧
    LoadsElements (.vle32V vd rs1) s vd 4 (s.readX rs1) 4 ∧
    LoadsElements (.vlse8V vd rs1 rs2) s vd 1 (s.readX rs1) (s.readX rs2) ∧
    LoadsElements (.vlse16V vd rs1 rs2) s vd 2 (s.readX rs1) (s.readX rs2) ∧
    LoadsElements (.vlse32V vd rs1 rs2) s vd 4 (s.readX rs1) (s.readX rs2)

/-- The six vector stores (R220 to R225). -/
def Obligations.VectorStoreResults : Prop :=
  ∀ (s : State) (vs3 : VReg) (rs1 rs2 : XReg),
    StoresElements (.vse8V vs3 rs1) s vs3 1 (s.readX rs1) 1 ∧
    StoresElements (.vse16V vs3 rs1) s vs3 2 (s.readX rs1) 2 ∧
    StoresElements (.vse32V vs3 rs1) s vs3 4 (s.readX rs1) 4 ∧
    StoresElements (.vsse8V vs3 rs1 rs2) s vs3 1 (s.readX rs1) (s.readX rs2) ∧
    StoresElements (.vsse16V vs3 rs1 rs2) s vs3 2 (s.readX rs1) (s.readX rs2) ∧
    StoresElements (.vsse32V vs3 rs1 rs2) s vs3 4 (s.readX rs1) (s.readX rs2)

/-- A vector load or store whose access for element k is the first that is refused ends the run there: it leaves what the
same instruction leaves with vl = k, but for vl itself, pc = ipc and the event with the address of element k (R212). -/
def Obligations.VectorFaultsKeepEarlierElements : Prop :=
  ∀ (s t : State) (i : Instr) (w : Nat) (groups : List (VReg × Nat)) (base stride : Word) (k : Nat),
    vectorOperands s.sew i = some (some w, groups) → elementAddresses s i = some (base, stride) →
    w = s.sew → s.vstart = 0 → (∀ g ∈ groups, groupFits s.vl.toNat g.2 g.1) → k < s.vl.toNat →
    (∀ el, el < k → s.Accessible (base + BitVec.ofNat 32 el * stride) w) →
    exec i { s with vl := BitVec.ofNat 32 k } = .next t →
    let a := base + BitVec.ofNat 32 k * stride
    (a.toNat % w ≠ 0 → exec i s = .next { t with vl := s.vl, pc := s.pc - 4, stop := some (.misalignedAccess a) }) ∧
    (a.toNat % w = 0 → s.params.admits a.toNat w = false →
      exec i s = .next { t with vl := s.vl, pc := s.pc - 4, stop := some (.accessFault a) })

/-! ## Vector ALU -/

/-- Vector-vector arithmetic and logic (R230, R233, R235, R237, R239, R241, R244, R247). -/
def Obligations.VectorVectorArithmetic : Prop :=
  ∀ (s : State) (vd vs2 vs1 : VReg), s.VectorReady [vd, vs2, vs1] →
    let a := fun (v : VRegs) (el : Nat) => v.elem vs2 el s.sew
    let b := fun (v : VRegs) (el : Nat) => v.elem vs1 el s.sew
    RunsLoop (.vaddVV vd vs2 vs1) s vd (fun v el => a v el + b v el) ∧
    RunsLoop (.vsubVV vd vs2 vs1) s vd (fun v el => a v el - b v el) ∧
    RunsLoop (.vmulVV vd vs2 vs1) s vd (fun v el => a v el * b v el) ∧
    RunsLoop (.vminuVV vd vs2 vs1) s vd (fun v el => BitVec.ofNat _ (min (a v el).toNat (b v el).toNat)) ∧
    RunsLoop (.vmaxuVV vd vs2 vs1) s vd (fun v el => BitVec.ofNat _ (max (a v el).toNat (b v el).toNat)) ∧
    RunsLoop (.vandVV vd vs2 vs1) s vd (fun v el => a v el &&& b v el) ∧
    RunsLoop (.vorVV vd vs2 vs1) s vd (fun v el => a v el ||| b v el) ∧
    RunsLoop (.vxorVV vd vs2 vs1) s vd (fun v el => a v el ^^^ b v el)

/-- Vector-vector compares, whole elements of 1 or 0, and shifts by the low log2(S) bits (R251, R254, R257, R260, R263, R265). -/
def Obligations.VectorVectorComparesAndShifts : Prop :=
  ∀ (s : State) (vd vs2 vs1 : VReg), s.VectorReady [vd, vs2, vs1] →
    let a := fun (v : VRegs) (el : Nat) => v.elem vs2 el s.sew
    let b := fun (v : VRegs) (el : Nat) => v.elem vs1 el s.sew
    RunsLoop (.vmseqVV vd vs2 vs1) s vd (fun v el => if a v el = b v el then 1 else 0) ∧
    RunsLoop (.vmsneVV vd vs2 vs1) s vd (fun v el => if a v el = b v el then 0 else 1) ∧
    RunsLoop (.vmsltVV vd vs2 vs1) s vd (fun v el => if (a v el).toInt < (b v el).toInt then 1 else 0) ∧
    RunsLoop (.vmsleVV vd vs2 vs1) s vd (fun v el => if (a v el).toInt ≤ (b v el).toInt then 1 else 0) ∧
    RunsLoop (.vsllVV vd vs2 vs1) s vd (fun v el => a v el <<< ((b v el).toNat % (8 * s.sew))) ∧
    RunsLoop (.vsrlVV vd vs2 vs1) s vd (fun v el => a v el >>> ((b v el).toNat % (8 * s.sew)))

/-- Vector-scalar arithmetic and logic (R231, R234, R236, R238, R240, R242, R245, R248). -/
def Obligations.VectorScalarArithmetic : Prop :=
  ∀ (s : State) (vd vs2 : VReg) (rs1 : XReg), s.VectorReady [vd, vs2] →
    let a := fun (v : VRegs) (el : Nat) => v.elem vs2 el s.sew
    let b := s.scalarBits (8 * s.sew) rs1
    RunsLoop (.vaddVX vd vs2 rs1) s vd (fun v el => a v el + b) ∧
    RunsLoop (.vsubVX vd vs2 rs1) s vd (fun v el => a v el - b) ∧
    RunsLoop (.vmulVX vd vs2 rs1) s vd (fun v el => a v el * b) ∧
    RunsLoop (.vminuVX vd vs2 rs1) s vd (fun v el => BitVec.ofNat _ (min (a v el).toNat b.toNat)) ∧
    RunsLoop (.vmaxuVX vd vs2 rs1) s vd (fun v el => BitVec.ofNat _ (max (a v el).toNat b.toNat)) ∧
    RunsLoop (.vandVX vd vs2 rs1) s vd (fun v el => a v el &&& b) ∧
    RunsLoop (.vorVX vd vs2 rs1) s vd (fun v el => a v el ||| b) ∧
    RunsLoop (.vxorVX vd vs2 rs1) s vd (fun v el => a v el ^^^ b)

/-- Vector-scalar compares and shifts (R252, R255, R258, R261, R264, R266, R268). -/
def Obligations.VectorScalarComparesAndShifts : Prop :=
  ∀ (s : State) (vd vs2 : VReg) (rs1 : XReg), s.VectorReady [vd, vs2] →
    let a := fun (v : VRegs) (el : Nat) => v.elem vs2 el s.sew
    let b := s.scalarBits (8 * s.sew) rs1
    RunsLoop (.vmseqVX vd vs2 rs1) s vd (fun v el => if a v el = b then 1 else 0) ∧
    RunsLoop (.vmsneVX vd vs2 rs1) s vd (fun v el => if a v el = b then 0 else 1) ∧
    RunsLoop (.vmsltVX vd vs2 rs1) s vd (fun v el => if (a v el).toInt < b.toInt then 1 else 0) ∧
    RunsLoop (.vmsleVX vd vs2 rs1) s vd (fun v el => if (a v el).toInt ≤ b.toInt then 1 else 0) ∧
    RunsLoop (.vmsgtVX vd vs2 rs1) s vd (fun v el => if b.toInt < (a v el).toInt then 1 else 0) ∧
    RunsLoop (.vsllVX vd vs2 rs1) s vd (fun v el => a v el <<< (b.toNat % (8 * s.sew))) ∧
    RunsLoop (.vsrlVX vd vs2 rs1) s vd (fun v el => a v el >>> (b.toNat % (8 * s.sew)))

/-- Vector-immediate instructions: the immediate is sign-extended to SEW, and zero-extended for the shifts, at every vtype,
those that no run reaches included (R232, R243, R246, R249, R253, R256, R259, R262, R267, R269). -/
def Obligations.VectorImmediateResults : Prop :=
  ∀ (s : State) (vd vs2 : VReg) (imm : BitVec 5), s.VectorReady [vd, vs2] →
    let a := fun (v : VRegs) (el : Nat) => v.elem vs2 el s.sew
    let b := signedImm (8 * s.sew) imm
    RunsLoop (.vaddVI vd vs2 imm) s vd (fun v el => a v el + b) ∧
    RunsLoop (.vandVI vd vs2 imm) s vd (fun v el => a v el &&& b) ∧
    RunsLoop (.vorVI vd vs2 imm) s vd (fun v el => a v el ||| b) ∧
    RunsLoop (.vxorVI vd vs2 imm) s vd (fun v el => a v el ^^^ b) ∧
    RunsLoop (.vmseqVI vd vs2 imm) s vd (fun v el => if a v el = b then 1 else 0) ∧
    RunsLoop (.vmsneVI vd vs2 imm) s vd (fun v el => if a v el = b then 0 else 1) ∧
    RunsLoop (.vmsleVI vd vs2 imm) s vd (fun v el => if (a v el).toInt ≤ b.toInt then 1 else 0) ∧
    RunsLoop (.vmsgtVI vd vs2 imm) s vd (fun v el => if b.toInt < (a v el).toInt then 1 else 0) ∧
    RunsLoop (.vsllVI vd vs2 imm) s vd (fun v el => a v el <<< (imm.toNat % (8 * s.sew))) ∧
    RunsLoop (.vsrlVI vd vs2 imm) s vd (fun v el => a v el >>> (imm.toNat % (8 * s.sew)))

/-- The source's element-wise property, for the fourteen VV instructions on groups that do not partly overlap vd: the
instruction answers a next state, each of the vl lanes is the operation on the operands' old lanes, the bytes past them
are undisturbed, and nothing else changes (R227). -/
def Obligations.ElementwiseLanes : Prop :=
  ∀ (s : State) (vd vs2 vs1 : VReg) (i : Instr) (op : BitVec (8 * s.sew) → BitVec (8 * s.sew) → BitVec (8 * s.sew)),
    s.VectorReady [vd, vs2, vs1] → SameOrApart s.vl.toNat s.sew vd vs2 →
    SameOrApart s.vl.toNat s.sew vd vs1 →
    (i = .vaddVV vd vs2 vs1 ∧ op = fun a b => a + b) ∨ (i = .vsubVV vd vs2 vs1 ∧ op = fun a b => a - b) ∨
    (i = .vmulVV vd vs2 vs1 ∧ op = fun a b => a * b) ∨ (i = .vandVV vd vs2 vs1 ∧ op = fun a b => a &&& b) ∨
    (i = .vorVV vd vs2 vs1 ∧ op = fun a b => a ||| b) ∨ (i = .vxorVV vd vs2 vs1 ∧ op = fun a b => a ^^^ b) ∨
    (i = .vminuVV vd vs2 vs1 ∧ op = fun a b => BitVec.ofNat _ (min a.toNat b.toNat)) ∨
    (i = .vmaxuVV vd vs2 vs1 ∧ op = fun a b => BitVec.ofNat _ (max a.toNat b.toNat)) ∨
    (i = .vmseqVV vd vs2 vs1 ∧ op = fun a b => if a = b then 1 else 0) ∨
    (i = .vmsneVV vd vs2 vs1 ∧ op = fun a b => if a = b then 0 else 1) ∨
    (i = .vmsltVV vd vs2 vs1 ∧ op = fun a b => if a.toInt < b.toInt then 1 else 0) ∨
    (i = .vmsleVV vd vs2 vs1 ∧ op = fun a b => if a.toInt ≤ b.toInt then 1 else 0) ∨
    (i = .vsllVV vd vs2 vs1 ∧ op = fun (a b : BitVec (8 * s.sew)) => a <<< (b.toNat % (8 * s.sew))) ∨
    (i = .vsrlVV vd vs2 vs1 ∧ op = fun (a b : BitVec (8 * s.sew)) => a >>> (b.toNat % (8 * s.sew))) →
    ∃ v, WritesV i s v ∧
      (∀ el, el < s.vl.toNat → v.elem vd el s.sew = op (s.vr.elem vs2 el s.sew) (s.vr.elem vs1 el s.sew)) ∧
      (∀ c, c < 16 * vd.toNat ∨ 16 * vd.toNat + s.vl.toNat * s.sew ≤ c → v.byte c = s.vr.byte c)

/-- The moves and the reductions, which act on element 0 whatever vl is (R270 to R273). The sums run over the vl elements
of vs2, at width SEW, or zero-extended at width 2·SEW. -/
def Obligations.VectorMoveAndReductionResults : Prop :=
  ∀ (s : State) (rd rs1 : XReg) (vd vs2 vs1 : VReg), s.vstart = 0 →
    let w := s.sew
    WritesX (.vmvXS rd vs2) s rd (BitVec.ofInt 32 (s.vr.elem vs2 0 w).toInt) ∧
    WritesV (.vmvSX vd rs1) s (s.vr.setElem vd 0 w (BitVec.ofNat _ (s.readX rs1).toNat)) ∧
    (groupFits s.vl.toNat w vs2 →
      WritesV (.vredsumVS vd vs2 vs1) s (s.vr.setElem vd 0 w (BitVec.ofNat _ ((s.vr.elem vs1 0 w).toNat +
        ((List.range s.vl.toNat).map fun el => (s.vr.elem vs2 el w).toNat).sum))) ∧
      WritesV (.vwredsumuVS vd vs2 vs1) s (s.vr.setElem vd 0 (2 * w) (BitVec.ofNat _ ((s.vr.elem vs1 0 (2 * w)).toNat +
        ((List.range s.vl.toNat).map fun el => (s.vr.elem vs2 el w).toNat).sum))))

/-! ## Whole-machine rules -/

/-- vl and vtype change only by VSETVLI, and vstart only by a CSR instruction that names it; the parameters and the host's
signal never change (R29, R30, R13). That the host's signal is a field, and that no instruction changes it, is the
model's choice: log 7; the parameter of log 8 is another. -/
def Obligations.ConfigurationChangesOnlyByItsInstructions : Prop :=
  ∀ (s t : State) (i : Instr), exec i s = .next t →
    (t.vl ≠ s.vl ∨ t.vtype ≠ s.vtype → ∃ rd rs1 z, i = .vsetvli rd rs1 z) ∧
    (t.vstart ≠ s.vstart → ∃ rd rs1, i = .csrrw rd 0x008 rs1 ∨ i = .csrrs rd 0x008 rs1 ∨ i = .csrrc rd 0x008 rs1) ∧
    t.params = s.params ∧ t.hostStop = s.hostStop

/-- Memory changes only by the instructions that store, and no byte that no admitted access covers ever changes. Every byte
that changes is Dirty afterwards; only FENCE.I removes a byte from Dirty (R37, R42, R48). -/
def Obligations.MemoryChangesOnlyWhereAdmitted : Prop :=
  ∀ (s t : State) (i : Instr), exec i s = .next t →
    (t.mem ≠ s.mem → storesMemory i = true) ∧
    (∀ c, t.mem.read c ≠ s.mem.read c →
      c ∈ t.dirty ∧ ∃ a n, s.params.admits a n = true ∧ a ≤ c ∧ c < a + n) ∧
    ((∃ c ∈ s.dirty, c ∉ t.dirty) → ∃ imm rs1 rd, i = .fenceI imm rs1 rd)

/-- A fault leaves pc = ipc and `halted` with its reason, and changes nothing else, but for the k elements a vector load or
store performed before it: their bytes of vd for a load, their bytes of memory and Dirty for a store. Their accesses
are all accessible, and the access of element k is not, unless k is 0 (R276, R212). -/
def Obligations.FaultsChangeNothing : Prop :=
  ∀ (s t : State) (i : Instr) (r : Stop), s.stop = none → exec i s = .next t → t.stop = some r → r.isFault = true →
    t.pc = s.pc - 4 ∧ (¬ accessesElements s.sew i → t = { s with pc := s.pc - 4, stop := some r }) ∧
    ∀ w b base stride, vectorOperands s.sew i = some (some w, [(b, w)]) → elementAddresses s i = some (base, stride) →
      { t with pc := s.pc, stop := s.stop, vr := s.vr, mem := s.mem, dirty := s.dirty } = s ∧
      ∃ k, k ≤ s.vl.toNat ∧ (∀ el, el < k → s.Accessible (base + BitVec.ofNat 32 el * stride) w) ∧
        (k = 0 ∨ (k < s.vl.toNat ∧ ¬ s.Accessible (base + BitVec.ofNat 32 k * stride) w)) ∧
        (if storesMemory i then t.vr = s.vr ∧ (∀ c ∈ s.dirty, c ∈ t.dirty) ∧
            ∀ c, t.mem.read c ≠ s.mem.read c ∨ (c ∈ t.dirty ∧ c ∉ s.dirty) →
              ∃ el, el < k ∧ (base + BitVec.ofNat 32 el * stride).toNat ≤ c ∧
                c < (base + BitVec.ofNat 32 el * stride).toNat + w
          else t.mem = s.mem ∧ t.dirty = s.dirty ∧
            ∀ c, t.vr.byte c ≠ s.vr.byte c → 16 * b.toNat ≤ c ∧ c < 16 * b.toNat + k * w)

/-- A halt that an instruction makes leaves pc = ipc + 4, and only ECALL, EBREAK and FSQRT make one; no instruction's body
raises HostStop, MisalignedFetch or StaleFetch (R275, R277). -/
def Obligations.HaltsComeFromThreeInstructions : Prop :=
  ∀ (s t : State) (i : Instr) (r : Stop), s.stop = none → exec i s = .next t → t.stop = some r →
    (r.isFault = false → t.pc = s.pc ∧ ((i = .ecall ∧ r = .ecall) ∨ (i = .ebreak ∧ r = .ebreak) ∨
      (r = .fsqrtNegative ∧ ∃ rd rs1 rm, i = .fsqrtS rd rs1 rm ∨ i = .fsqrtD rd rs1 rm))) ∧
    r ≠ .hostStop ∧ ∀ a, r ≠ .misalignedFetch a ∧ r ≠ .staleFetch a

/-- A run ends once: no state but itself is reachable from a halted state (R281). -/
def Obligations.HaltedRunsStayHalted : Prop :=
  ∀ s t : State, s.stop ≠ none → Reaches s t → t = s

/-- A load reads the most recent store: after SW, LW of the same address gives the stored word, whatever rd is (R45). -/
def Obligations.LoadsReadTheLatestStore : Prop :=
  ∀ (s t : State) (rs2 rs1 rd : XReg) (imm : BitVec 12), s.Accessible (s.address rs1 imm) 4 →
    exec (.sw rs2 rs1 imm) s = .next t → WritesX (.lw rd rs1 imm) t rd (s.readX rs2)
end

