-- ==== Sys2Proof/Laws/Decode.lean ====
section
/-! SUPPORT. The fields of an encoded word, the bits a row's mask keeps of it, and that no word fits two rows. -/

namespace Sys2Proof

/-! ## The split immediates -/

theorem getLsbD_immSField (w : Word) (k : Nat) : (immSField w).getLsbD k =
    if k < 5 then (w.extractLsb' 7 5).getLsbD k else (w.extractLsb' 25 7).getLsbD (k - 5) := by
  show (w.extractLsb' 25 7 ++ w.extractLsb' 7 5 : BitVec (7 + 5)).getLsbD k = _
  simp only [BitVec.getLsbD_append]

theorem getLsbD_immBField (w : Word) (k : Nat) : (immBField w).getLsbD k =
    if k < 1 then (0#1).getLsbD k else if k < 5 then (w.extractLsb' 8 4).getLsbD (k - 1) else
    if k < 11 then (w.extractLsb' 25 6).getLsbD (k - 5) else if k < 12 then (w.extractLsb' 7 1).getLsbD (k - 11) else
    (w.extractLsb' 31 1).getLsbD (k - 12) := by
  show (w.extractLsb' 31 1 ++ w.extractLsb' 7 1 ++ w.extractLsb' 25 6 ++ w.extractLsb' 8 4 ++ 0#1
    : BitVec (1 + 1 + 6 + 4 + 1)).getLsbD k = _
  simp only [BitVec.getLsbD_append, Nat.sub_sub]
  split_ifs <;> first | rfl | omega

theorem getLsbD_immJField (w : Word) (k : Nat) : (immJField w).getLsbD k =
    if k < 1 then (0#1).getLsbD k else if k < 11 then (w.extractLsb' 21 10).getLsbD (k - 1) else
    if k < 12 then (w.extractLsb' 20 1).getLsbD (k - 11) else if k < 20 then (w.extractLsb' 12 8).getLsbD (k - 12) else
    (w.extractLsb' 31 1).getLsbD (k - 20) := by
  show (w.extractLsb' 31 1 ++ w.extractLsb' 12 8 ++ w.extractLsb' 20 1 ++ w.extractLsb' 21 10 ++ 0#1
    : BitVec (1 + 8 + 1 + 10 + 1)).getLsbD k = _
  simp only [BitVec.getLsbD_append, Nat.sub_sub]
  split_ifs <;> first | rfl | omega

/-! ## encR -/

theorem getLsbD_encR (f7 : BitVec 7) (rs2 rs1 : BitVec 5) (f3 : BitVec 3) (rd : BitVec 5) (op : BitVec 7) (k : Nat) : (encR f7 rs2 rs1 f3 rd op).getLsbD k =
    if k < 7 then op.getLsbD k else if k < 12 then rd.getLsbD (k - 7) else if k < 15 then f3.getLsbD (k - 12) else if k < 20 then rs1.getLsbD (k - 15) else if k < 25 then rs2.getLsbD (k - 20) else f7.getLsbD (k - 25) := by
  show (f7 ++ rs2 ++ rs1 ++ f3 ++ rd ++ op : BitVec (7 + 5 + 5 + 3 + 5 + 7)).getLsbD k = _
  simp only [BitVec.getLsbD_append, Nat.sub_sub]
  split_ifs <;> first | rfl | omega

@[simp] theorem rdField_encR (f7 : BitVec 7) (rs2 rs1 : BitVec 5) (f3 : BitVec 3) (rd : BitVec 5) (op : BitVec 7) : rdField (encR f7 rs2 rs1 f3 rd op) = rd := by
  ext i hi
  simp only [rdField, BitVec.getElem_extractLsb', getLsbD_encR]
  interval_cases i <;> rfl

@[simp] theorem rs1Field_encR (f7 : BitVec 7) (rs2 rs1 : BitVec 5) (f3 : BitVec 3) (rd : BitVec 5) (op : BitVec 7) : rs1Field (encR f7 rs2 rs1 f3 rd op) = rs1 := by
  ext i hi
  simp only [rs1Field, BitVec.getElem_extractLsb', getLsbD_encR]
  interval_cases i <;> rfl

@[simp] theorem rs2Field_encR (f7 : BitVec 7) (rs2 rs1 : BitVec 5) (f3 : BitVec 3) (rd : BitVec 5) (op : BitVec 7) : rs2Field (encR f7 rs2 rs1 f3 rd op) = rs2 := by
  ext i hi
  simp only [rs2Field, BitVec.getElem_extractLsb', getLsbD_encR]
  interval_cases i <;> rfl

@[simp] theorem rmField_encR (f7 : BitVec 7) (rs2 rs1 : BitVec 5) (f3 : BitVec 3) (rd : BitVec 5) (op : BitVec 7) : rmField (encR f7 rs2 rs1 f3 rd op) = f3 := by
  ext i hi
  simp only [rmField, BitVec.getElem_extractLsb', getLsbD_encR]
  interval_cases i <;> rfl

theorem encR_and_0xfe00707f (f7 : BitVec 7) (rs2 rs1 : BitVec 5) (f3 : BitVec 3) (rd : BitVec 5) (op : BitVec 7) :
    encR f7 rs2 rs1 f3 rd op &&& 0xfe00707f#32 = encR f7 0 0 f3 0 op := by
  ext i hi
  simp only [← BitVec.getLsbD_eq_getElem, BitVec.getLsbD_and, getLsbD_encR]
  interval_cases i <;> simp

theorem encR_and_0xfe00007f (f7 : BitVec 7) (rs2 rs1 : BitVec 5) (f3 : BitVec 3) (rd : BitVec 5) (op : BitVec 7) :
    encR f7 rs2 rs1 f3 rd op &&& 0xfe00007f#32 = encR f7 0 0 0 0 op := by
  ext i hi
  simp only [← BitVec.getLsbD_eq_getElem, BitVec.getLsbD_and, getLsbD_encR]
  interval_cases i <;> simp

theorem encR_and_0xfff0007f (f7 : BitVec 7) (rs2 rs1 : BitVec 5) (f3 : BitVec 3) (rd : BitVec 5) (op : BitVec 7) :
    encR f7 rs2 rs1 f3 rd op &&& 0xfff0007f#32 = encR f7 rs2 0 0 0 op := by
  ext i hi
  simp only [← BitVec.getLsbD_eq_getElem, BitVec.getLsbD_and, getLsbD_encR]
  interval_cases i <;> simp

theorem encR_and_0xfff0707f (f7 : BitVec 7) (rs2 rs1 : BitVec 5) (f3 : BitVec 3) (rd : BitVec 5) (op : BitVec 7) :
    encR f7 rs2 rs1 f3 rd op &&& 0xfff0707f#32 = encR f7 rs2 0 f3 0 op := by
  ext i hi
  simp only [← BitVec.getLsbD_eq_getElem, BitVec.getLsbD_and, getLsbD_encR]
  interval_cases i <;> simp

theorem encR_and_0xfe0ff07f (f7 : BitVec 7) (rs2 rs1 : BitVec 5) (f3 : BitVec 3) (rd : BitVec 5) (op : BitVec 7) :
    encR f7 rs2 rs1 f3 rd op &&& 0xfe0ff07f#32 = encR f7 0 rs1 f3 0 op := by
  ext i hi
  simp only [← BitVec.getLsbD_eq_getElem, BitVec.getLsbD_and, getLsbD_encR]
  interval_cases i <;> simp

theorem encR_low0 (f7 : BitVec 7) (rs2 rs1 : BitVec 5) (f3 : BitVec 3) (rd : BitVec 5) (op : BitVec 7) : (encR f7 rs2 rs1 f3 rd op).extractLsb' 0 2 = op.extractLsb' 0 2 := by
  ext i hi
  simp only [BitVec.getElem_extractLsb', getLsbD_encR]
  interval_cases i <;> rfl

theorem encR_low2 (f7 : BitVec 7) (rs2 rs1 : BitVec 5) (f3 : BitVec 3) (rd : BitVec 5) (op : BitVec 7) : (encR f7 rs2 rs1 f3 rd op).extractLsb' 2 3 = op.extractLsb' 2 3 := by
  ext i hi
  simp only [BitVec.getElem_extractLsb', getLsbD_encR]
  interval_cases i <;> rfl

/-! ## encI -/

theorem getLsbD_encI (imm : BitVec 12) (rs1 : BitVec 5) (f3 : BitVec 3) (rd : BitVec 5) (op : BitVec 7) (k : Nat) : (encI imm rs1 f3 rd op).getLsbD k =
    if k < 7 then op.getLsbD k else if k < 12 then rd.getLsbD (k - 7) else if k < 15 then f3.getLsbD (k - 12) else if k < 20 then rs1.getLsbD (k - 15) else imm.getLsbD (k - 20) := by
  show (imm ++ rs1 ++ f3 ++ rd ++ op : BitVec (12 + 5 + 3 + 5 + 7)).getLsbD k = _
  simp only [BitVec.getLsbD_append, Nat.sub_sub]
  split_ifs <;> first | rfl | omega

@[simp] theorem rdField_encI (imm : BitVec 12) (rs1 : BitVec 5) (f3 : BitVec 3) (rd : BitVec 5) (op : BitVec 7) : rdField (encI imm rs1 f3 rd op) = rd := by
  ext i hi
  simp only [rdField, BitVec.getElem_extractLsb', getLsbD_encI]
  interval_cases i <;> rfl

@[simp] theorem rs1Field_encI (imm : BitVec 12) (rs1 : BitVec 5) (f3 : BitVec 3) (rd : BitVec 5) (op : BitVec 7) : rs1Field (encI imm rs1 f3 rd op) = rs1 := by
  ext i hi
  simp only [rs1Field, BitVec.getElem_extractLsb', getLsbD_encI]
  interval_cases i <;> rfl

@[simp] theorem immIField_encI (imm : BitVec 12) (rs1 : BitVec 5) (f3 : BitVec 3) (rd : BitVec 5) (op : BitVec 7) : immIField (encI imm rs1 f3 rd op) = imm := by
  ext i hi
  simp only [immIField, BitVec.getElem_extractLsb', getLsbD_encI]
  interval_cases i <;> rfl

@[simp] theorem rmField_encI (imm : BitVec 12) (rs1 : BitVec 5) (f3 : BitVec 3) (rd : BitVec 5) (op : BitVec 7) : rmField (encI imm rs1 f3 rd op) = f3 := by
  ext i hi
  simp only [rmField, BitVec.getElem_extractLsb', getLsbD_encI]
  interval_cases i <;> rfl

@[simp] theorem zimmField_encI (z : BitVec 11) (rs1 : BitVec 5) (f3 : BitVec 3) (rd : BitVec 5) (op : BitVec 7) :
    zimmField (encI (0#1 ++ z) rs1 f3 rd op) = z := by
  ext i hi
  simp only [zimmField, BitVec.getElem_extractLsb', getLsbD_encI, BitVec.getLsbD_append]
  interval_cases i <;> rfl

@[simp] theorem fmField_encI (fm pred succ : BitVec 4) (rs1 : BitVec 5) (f3 : BitVec 3) (rd : BitVec 5) (op : BitVec 7) :
    fmField (encI (fm ++ pred ++ succ) rs1 f3 rd op) = fm := by
  ext i hi
  simp only [fmField, BitVec.getElem_extractLsb', getLsbD_encI, BitVec.getLsbD_append]
  interval_cases i <;> rfl

@[simp] theorem predField_encI (fm pred succ : BitVec 4) (rs1 : BitVec 5) (f3 : BitVec 3) (rd : BitVec 5) (op : BitVec 7) :
    predField (encI (fm ++ pred ++ succ) rs1 f3 rd op) = pred := by
  ext i hi
  simp only [predField, BitVec.getElem_extractLsb', getLsbD_encI, BitVec.getLsbD_append]
  interval_cases i <;> rfl

@[simp] theorem succField_encI (fm pred succ : BitVec 4) (rs1 : BitVec 5) (f3 : BitVec 3) (rd : BitVec 5) (op : BitVec 7) :
    succField (encI (fm ++ pred ++ succ) rs1 f3 rd op) = succ := by
  ext i hi
  simp only [succField, BitVec.getElem_extractLsb', getLsbD_encI, BitVec.getLsbD_append]
  interval_cases i <;> rfl

theorem encI_and_0x0000707f (imm : BitVec 12) (rs1 : BitVec 5) (f3 : BitVec 3) (rd : BitVec 5) (op : BitVec 7) :
    encI imm rs1 f3 rd op &&& 0x0000707f#32 = encI 0 0 f3 0 op := by
  ext i hi
  simp only [← BitVec.getLsbD_eq_getElem, BitVec.getLsbD_and, getLsbD_encI]
  interval_cases i <;> simp

theorem encI_and_0x8000707f (z : BitVec 11) (rs1 : BitVec 5) (f3 : BitVec 3) (rd : BitVec 5) (op : BitVec 7) :
    encI (0#1 ++ z) rs1 f3 rd op &&& 0x8000707f#32 = encI 0 0 f3 0 op := by
  ext i hi
  simp only [← BitVec.getLsbD_eq_getElem, BitVec.getLsbD_and, getLsbD_encI, BitVec.getLsbD_append]
  interval_cases i <;> simp

theorem encI_low0 (imm : BitVec 12) (rs1 : BitVec 5) (f3 : BitVec 3) (rd : BitVec 5) (op : BitVec 7) : (encI imm rs1 f3 rd op).extractLsb' 0 2 = op.extractLsb' 0 2 := by
  ext i hi
  simp only [BitVec.getElem_extractLsb', getLsbD_encI]
  interval_cases i <;> rfl

theorem encI_low2 (imm : BitVec 12) (rs1 : BitVec 5) (f3 : BitVec 3) (rd : BitVec 5) (op : BitVec 7) : (encI imm rs1 f3 rd op).extractLsb' 2 3 = op.extractLsb' 2 3 := by
  ext i hi
  simp only [BitVec.getElem_extractLsb', getLsbD_encI]
  interval_cases i <;> rfl

/-! ## encS -/

theorem getLsbD_encS (imm : BitVec 12) (rs2 rs1 : BitVec 5) (f3 : BitVec 3) (op : BitVec 7) (k : Nat) : (encS imm rs2 rs1 f3 op).getLsbD k =
    if k < 7 then op.getLsbD k else if k < 12 then (imm.extractLsb' 0 5).getLsbD (k - 7) else if k < 15 then f3.getLsbD (k - 12) else if k < 20 then rs1.getLsbD (k - 15) else if k < 25 then rs2.getLsbD (k - 20) else (imm.extractLsb' 5 7).getLsbD (k - 25) := by
  show (imm.extractLsb' 5 7 ++ rs2 ++ rs1 ++ f3 ++ imm.extractLsb' 0 5 ++ op : BitVec (7 + 5 + 5 + 3 + 5 + 7)).getLsbD k = _
  simp only [BitVec.getLsbD_append, Nat.sub_sub]
  split_ifs <;> first | rfl | omega

@[simp] theorem rs1Field_encS (imm : BitVec 12) (rs2 rs1 : BitVec 5) (f3 : BitVec 3) (op : BitVec 7) : rs1Field (encS imm rs2 rs1 f3 op) = rs1 := by
  ext i hi
  simp only [rs1Field, BitVec.getElem_extractLsb', getLsbD_encS]
  interval_cases i <;> rfl

@[simp] theorem rs2Field_encS (imm : BitVec 12) (rs2 rs1 : BitVec 5) (f3 : BitVec 3) (op : BitVec 7) : rs2Field (encS imm rs2 rs1 f3 op) = rs2 := by
  ext i hi
  simp only [rs2Field, BitVec.getElem_extractLsb', getLsbD_encS]
  interval_cases i <;> rfl

@[simp] theorem immSField_encS (imm : BitVec 12) (rs2 rs1 : BitVec 5) (f3 : BitVec 3) (op : BitVec 7) : immSField (encS imm rs2 rs1 f3 op) = imm := by
  ext i hi
  simp only [← BitVec.getLsbD_eq_getElem, getLsbD_immSField, getLsbD_encS, BitVec.getLsbD_extractLsb']
  interval_cases i <;> simp

@[simp] theorem rmField_encS (imm : BitVec 12) (rs2 rs1 : BitVec 5) (f3 : BitVec 3) (op : BitVec 7) : rmField (encS imm rs2 rs1 f3 op) = f3 := by
  ext i hi
  simp only [rmField, BitVec.getElem_extractLsb', getLsbD_encS]
  interval_cases i <;> rfl

theorem encS_and_0x0000707f (imm : BitVec 12) (rs2 rs1 : BitVec 5) (f3 : BitVec 3) (op : BitVec 7) :
    encS imm rs2 rs1 f3 op &&& 0x0000707f#32 = encS 0 0 0 f3 op := by
  ext i hi
  simp only [← BitVec.getLsbD_eq_getElem, BitVec.getLsbD_and, getLsbD_encS]
  interval_cases i <;> simp

theorem encS_low0 (imm : BitVec 12) (rs2 rs1 : BitVec 5) (f3 : BitVec 3) (op : BitVec 7) : (encS imm rs2 rs1 f3 op).extractLsb' 0 2 = op.extractLsb' 0 2 := by
  ext i hi
  simp only [BitVec.getElem_extractLsb', getLsbD_encS]
  interval_cases i <;> rfl

theorem encS_low2 (imm : BitVec 12) (rs2 rs1 : BitVec 5) (f3 : BitVec 3) (op : BitVec 7) : (encS imm rs2 rs1 f3 op).extractLsb' 2 3 = op.extractLsb' 2 3 := by
  ext i hi
  simp only [BitVec.getElem_extractLsb', getLsbD_encS]
  interval_cases i <;> rfl

/-! ## encB -/

theorem getLsbD_encB (off : BitVec 13) (rs2 rs1 : BitVec 5) (f3 : BitVec 3) (op : BitVec 7) (k : Nat) : (encB off rs2 rs1 f3 op).getLsbD k =
    if k < 7 then op.getLsbD k else if k < 8 then (off.extractLsb' 11 1).getLsbD (k - 7) else if k < 12 then (off.extractLsb' 1 4).getLsbD (k - 8) else if k < 15 then f3.getLsbD (k - 12) else if k < 20 then rs1.getLsbD (k - 15) else if k < 25 then rs2.getLsbD (k - 20) else if k < 31 then (off.extractLsb' 5 6).getLsbD (k - 25) else (off.extractLsb' 12 1).getLsbD (k - 31) := by
  show (off.extractLsb' 12 1 ++ off.extractLsb' 5 6 ++ rs2 ++ rs1 ++ f3 ++ off.extractLsb' 1 4 ++ off.extractLsb' 11 1 ++ op : BitVec (1 + 6 + 5 + 5 + 3 + 4 + 1 + 7)).getLsbD k = _
  simp only [BitVec.getLsbD_append, Nat.sub_sub]
  split_ifs <;> first | rfl | omega

@[simp] theorem rs1Field_encB (off : BitVec 13) (rs2 rs1 : BitVec 5) (f3 : BitVec 3) (op : BitVec 7) : rs1Field (encB off rs2 rs1 f3 op) = rs1 := by
  ext i hi
  simp only [rs1Field, BitVec.getElem_extractLsb', getLsbD_encB]
  interval_cases i <;> rfl

@[simp] theorem rs2Field_encB (off : BitVec 13) (rs2 rs1 : BitVec 5) (f3 : BitVec 3) (op : BitVec 7) : rs2Field (encB off rs2 rs1 f3 op) = rs2 := by
  ext i hi
  simp only [rs2Field, BitVec.getElem_extractLsb', getLsbD_encB]
  interval_cases i <;> rfl

@[simp] theorem rmField_encB (off : BitVec 13) (rs2 rs1 : BitVec 5) (f3 : BitVec 3) (op : BitVec 7) : rmField (encB off rs2 rs1 f3 op) = f3 := by
  ext i hi
  simp only [rmField, BitVec.getElem_extractLsb', getLsbD_encB]
  interval_cases i <;> rfl

theorem immBField_encB (off : BitVec 13) (rs2 rs1 : BitVec 5) (f3 : BitVec 3) (op : BitVec 7) (he : evenBranchOffset off = true) : immBField (encB off rs2 rs1 f3 op) = off := by
  have h0 : off[0] = false := by simpa [evenBranchOffset] using he
  ext i hi
  simp only [← BitVec.getLsbD_eq_getElem, getLsbD_immBField, getLsbD_encB, BitVec.getLsbD_extractLsb']
  interval_cases i <;> simp [h0]

theorem encB_and_0x0000707f (off : BitVec 13) (rs2 rs1 : BitVec 5) (f3 : BitVec 3) (op : BitVec 7) :
    encB off rs2 rs1 f3 op &&& 0x0000707f#32 = encB 0 0 0 f3 op := by
  ext i hi
  simp only [← BitVec.getLsbD_eq_getElem, BitVec.getLsbD_and, getLsbD_encB]
  interval_cases i <;> simp

theorem encB_low0 (off : BitVec 13) (rs2 rs1 : BitVec 5) (f3 : BitVec 3) (op : BitVec 7) : (encB off rs2 rs1 f3 op).extractLsb' 0 2 = op.extractLsb' 0 2 := by
  ext i hi
  simp only [BitVec.getElem_extractLsb', getLsbD_encB]
  interval_cases i <;> rfl

theorem encB_low2 (off : BitVec 13) (rs2 rs1 : BitVec 5) (f3 : BitVec 3) (op : BitVec 7) : (encB off rs2 rs1 f3 op).extractLsb' 2 3 = op.extractLsb' 2 3 := by
  ext i hi
  simp only [BitVec.getElem_extractLsb', getLsbD_encB]
  interval_cases i <;> rfl

/-! ## encU -/

theorem getLsbD_encU (imm : BitVec 20) (rd : BitVec 5) (op : BitVec 7) (k : Nat) : (encU imm rd op).getLsbD k =
    if k < 7 then op.getLsbD k else if k < 12 then rd.getLsbD (k - 7) else imm.getLsbD (k - 12) := by
  show (imm ++ rd ++ op : BitVec (20 + 5 + 7)).getLsbD k = _
  simp only [BitVec.getLsbD_append, Nat.sub_sub]
  split_ifs <;> first | rfl | omega

@[simp] theorem rdField_encU (imm : BitVec 20) (rd : BitVec 5) (op : BitVec 7) : rdField (encU imm rd op) = rd := by
  ext i hi
  simp only [rdField, BitVec.getElem_extractLsb', getLsbD_encU]
  interval_cases i <;> rfl

@[simp] theorem immUField_encU (imm : BitVec 20) (rd : BitVec 5) (op : BitVec 7) : immUField (encU imm rd op) = imm := by
  ext i hi
  simp only [immUField, BitVec.getElem_extractLsb', getLsbD_encU]
  interval_cases i <;> rfl

theorem encU_and_0x0000007f (imm : BitVec 20) (rd : BitVec 5) (op : BitVec 7) :
    encU imm rd op &&& 0x0000007f#32 = encU 0 0 op := by
  ext i hi
  simp only [← BitVec.getLsbD_eq_getElem, BitVec.getLsbD_and, getLsbD_encU]
  interval_cases i <;> simp

theorem encU_low0 (imm : BitVec 20) (rd : BitVec 5) (op : BitVec 7) : (encU imm rd op).extractLsb' 0 2 = op.extractLsb' 0 2 := by
  ext i hi
  simp only [BitVec.getElem_extractLsb', getLsbD_encU]
  interval_cases i <;> rfl

theorem encU_low2 (imm : BitVec 20) (rd : BitVec 5) (op : BitVec 7) : (encU imm rd op).extractLsb' 2 3 = op.extractLsb' 2 3 := by
  ext i hi
  simp only [BitVec.getElem_extractLsb', getLsbD_encU]
  interval_cases i <;> rfl

/-! ## encJ -/

theorem getLsbD_encJ (off : BitVec 21) (rd : BitVec 5) (op : BitVec 7) (k : Nat) : (encJ off rd op).getLsbD k =
    if k < 7 then op.getLsbD k else if k < 12 then rd.getLsbD (k - 7) else if k < 20 then (off.extractLsb' 12 8).getLsbD (k - 12) else if k < 21 then (off.extractLsb' 11 1).getLsbD (k - 20) else if k < 31 then (off.extractLsb' 1 10).getLsbD (k - 21) else (off.extractLsb' 20 1).getLsbD (k - 31) := by
  show (off.extractLsb' 20 1 ++ off.extractLsb' 1 10 ++ off.extractLsb' 11 1 ++ off.extractLsb' 12 8 ++ rd ++ op : BitVec (1 + 10 + 1 + 8 + 5 + 7)).getLsbD k = _
  simp only [BitVec.getLsbD_append, Nat.sub_sub]
  split_ifs <;> first | rfl | omega

@[simp] theorem rdField_encJ (off : BitVec 21) (rd : BitVec 5) (op : BitVec 7) : rdField (encJ off rd op) = rd := by
  ext i hi
  simp only [rdField, BitVec.getElem_extractLsb', getLsbD_encJ]
  interval_cases i <;> rfl

theorem immJField_encJ (off : BitVec 21) (rd : BitVec 5) (op : BitVec 7) (he : evenJumpOffset off = true) : immJField (encJ off rd op) = off := by
  have h0 : off[0] = false := by simpa [evenJumpOffset] using he
  ext i hi
  simp only [← BitVec.getLsbD_eq_getElem, getLsbD_immJField, getLsbD_encJ, BitVec.getLsbD_extractLsb']
  interval_cases i <;> simp [h0]

theorem encJ_and_0x0000007f (off : BitVec 21) (rd : BitVec 5) (op : BitVec 7) :
    encJ off rd op &&& 0x0000007f#32 = encJ 0 0 op := by
  ext i hi
  simp only [← BitVec.getLsbD_eq_getElem, BitVec.getLsbD_and, getLsbD_encJ]
  interval_cases i <;> simp

theorem encJ_low0 (off : BitVec 21) (rd : BitVec 5) (op : BitVec 7) : (encJ off rd op).extractLsb' 0 2 = op.extractLsb' 0 2 := by
  ext i hi
  simp only [BitVec.getElem_extractLsb', getLsbD_encJ]
  interval_cases i <;> rfl

theorem encJ_low2 (off : BitVec 21) (rd : BitVec 5) (op : BitVec 7) : (encJ off rd op).extractLsb' 2 3 = op.extractLsb' 2 3 := by
  ext i hi
  simp only [BitVec.getElem_extractLsb', getLsbD_encJ]
  interval_cases i <;> rfl

/-! ## encR4 -/

theorem getLsbD_encR4 (rs3 : BitVec 5) (fmt : BitVec 2) (rs2 rs1 : BitVec 5) (rm : BitVec 3) (rd : BitVec 5) (op : BitVec 7) (k : Nat) : (encR4 rs3 fmt rs2 rs1 rm rd op).getLsbD k =
    if k < 7 then op.getLsbD k else if k < 12 then rd.getLsbD (k - 7) else if k < 15 then rm.getLsbD (k - 12) else if k < 20 then rs1.getLsbD (k - 15) else if k < 25 then rs2.getLsbD (k - 20) else if k < 27 then fmt.getLsbD (k - 25) else rs3.getLsbD (k - 27) := by
  show (rs3 ++ fmt ++ rs2 ++ rs1 ++ rm ++ rd ++ op : BitVec (5 + 2 + 5 + 5 + 3 + 5 + 7)).getLsbD k = _
  simp only [BitVec.getLsbD_append, Nat.sub_sub]
  split_ifs <;> first | rfl | omega

@[simp] theorem rdField_encR4 (rs3 : BitVec 5) (fmt : BitVec 2) (rs2 rs1 : BitVec 5) (rm : BitVec 3) (rd : BitVec 5) (op : BitVec 7) : rdField (encR4 rs3 fmt rs2 rs1 rm rd op) = rd := by
  ext i hi
  simp only [rdField, BitVec.getElem_extractLsb', getLsbD_encR4]
  interval_cases i <;> rfl

@[simp] theorem rs1Field_encR4 (rs3 : BitVec 5) (fmt : BitVec 2) (rs2 rs1 : BitVec 5) (rm : BitVec 3) (rd : BitVec 5) (op : BitVec 7) : rs1Field (encR4 rs3 fmt rs2 rs1 rm rd op) = rs1 := by
  ext i hi
  simp only [rs1Field, BitVec.getElem_extractLsb', getLsbD_encR4]
  interval_cases i <;> rfl

@[simp] theorem rs2Field_encR4 (rs3 : BitVec 5) (fmt : BitVec 2) (rs2 rs1 : BitVec 5) (rm : BitVec 3) (rd : BitVec 5) (op : BitVec 7) : rs2Field (encR4 rs3 fmt rs2 rs1 rm rd op) = rs2 := by
  ext i hi
  simp only [rs2Field, BitVec.getElem_extractLsb', getLsbD_encR4]
  interval_cases i <;> rfl

@[simp] theorem rs3Field_encR4 (rs3 : BitVec 5) (fmt : BitVec 2) (rs2 rs1 : BitVec 5) (rm : BitVec 3) (rd : BitVec 5) (op : BitVec 7) : rs3Field (encR4 rs3 fmt rs2 rs1 rm rd op) = rs3 := by
  ext i hi
  simp only [rs3Field, BitVec.getElem_extractLsb', getLsbD_encR4]
  interval_cases i <;> rfl

@[simp] theorem rmField_encR4 (rs3 : BitVec 5) (fmt : BitVec 2) (rs2 rs1 : BitVec 5) (rm : BitVec 3) (rd : BitVec 5) (op : BitVec 7) : rmField (encR4 rs3 fmt rs2 rs1 rm rd op) = rm := by
  ext i hi
  simp only [rmField, BitVec.getElem_extractLsb', getLsbD_encR4]
  interval_cases i <;> rfl

theorem encR4_and_0x0600007f (rs3 : BitVec 5) (fmt : BitVec 2) (rs2 rs1 : BitVec 5) (rm : BitVec 3) (rd : BitVec 5) (op : BitVec 7) :
    encR4 rs3 fmt rs2 rs1 rm rd op &&& 0x0600007f#32 = encR4 0 fmt 0 0 0 0 op := by
  ext i hi
  simp only [← BitVec.getLsbD_eq_getElem, BitVec.getLsbD_and, getLsbD_encR4]
  interval_cases i <;> simp

theorem encR4_low0 (rs3 : BitVec 5) (fmt : BitVec 2) (rs2 rs1 : BitVec 5) (rm : BitVec 3) (rd : BitVec 5) (op : BitVec 7) : (encR4 rs3 fmt rs2 rs1 rm rd op).extractLsb' 0 2 = op.extractLsb' 0 2 := by
  ext i hi
  simp only [BitVec.getElem_extractLsb', getLsbD_encR4]
  interval_cases i <;> rfl

theorem encR4_low2 (rs3 : BitVec 5) (fmt : BitVec 2) (rs2 rs1 : BitVec 5) (rm : BitVec 3) (rd : BitVec 5) (op : BitVec 7) : (encR4 rs3 fmt rs2 rs1 rm rd op).extractLsb' 2 3 = op.extractLsb' 2 3 := by
  ext i hi
  simp only [BitVec.getElem_extractLsb', getLsbD_encR4]
  interval_cases i <;> rfl

/-! ## encAmo -/

theorem getLsbD_encAmo (f5 : BitVec 5) (aq rl : Bool) (rs2 rs1 : BitVec 5) (f3 : BitVec 3) (rd : BitVec 5) (op : BitVec 7) (k : Nat) : (encAmo f5 aq rl rs2 rs1 f3 rd op).getLsbD k =
    if k < 7 then op.getLsbD k else if k < 12 then rd.getLsbD (k - 7) else if k < 15 then f3.getLsbD (k - 12) else if k < 20 then rs1.getLsbD (k - 15) else if k < 25 then rs2.getLsbD (k - 20) else if k < 26 then (BitVec.ofBool rl).getLsbD (k - 25) else if k < 27 then (BitVec.ofBool aq).getLsbD (k - 26) else f5.getLsbD (k - 27) := by
  show (f5 ++ BitVec.ofBool aq ++ BitVec.ofBool rl ++ rs2 ++ rs1 ++ f3 ++ rd ++ op : BitVec (5 + 1 + 1 + 5 + 5 + 3 + 5 + 7)).getLsbD k = _
  simp only [BitVec.getLsbD_append, Nat.sub_sub]
  split_ifs <;> first | rfl | omega

@[simp] theorem rdField_encAmo (f5 : BitVec 5) (aq rl : Bool) (rs2 rs1 : BitVec 5) (f3 : BitVec 3) (rd : BitVec 5) (op : BitVec 7) : rdField (encAmo f5 aq rl rs2 rs1 f3 rd op) = rd := by
  ext i hi
  simp only [rdField, BitVec.getElem_extractLsb', getLsbD_encAmo]
  interval_cases i <;> rfl

@[simp] theorem rs1Field_encAmo (f5 : BitVec 5) (aq rl : Bool) (rs2 rs1 : BitVec 5) (f3 : BitVec 3) (rd : BitVec 5) (op : BitVec 7) : rs1Field (encAmo f5 aq rl rs2 rs1 f3 rd op) = rs1 := by
  ext i hi
  simp only [rs1Field, BitVec.getElem_extractLsb', getLsbD_encAmo]
  interval_cases i <;> rfl

@[simp] theorem rs2Field_encAmo (f5 : BitVec 5) (aq rl : Bool) (rs2 rs1 : BitVec 5) (f3 : BitVec 3) (rd : BitVec 5) (op : BitVec 7) : rs2Field (encAmo f5 aq rl rs2 rs1 f3 rd op) = rs2 := by
  ext i hi
  simp only [rs2Field, BitVec.getElem_extractLsb', getLsbD_encAmo]
  interval_cases i <;> rfl

@[simp] theorem aqField_encAmo (f5 : BitVec 5) (aq rl : Bool) (rs2 rs1 : BitVec 5) (f3 : BitVec 3) (rd : BitVec 5) (op : BitVec 7) : aqField (encAmo f5 aq rl rs2 rs1 f3 rd op) = aq := by
  simp only [aqField, getLsbD_encAmo]
  cases aq <;> rfl

@[simp] theorem rlField_encAmo (f5 : BitVec 5) (aq rl : Bool) (rs2 rs1 : BitVec 5) (f3 : BitVec 3) (rd : BitVec 5) (op : BitVec 7) : rlField (encAmo f5 aq rl rs2 rs1 f3 rd op) = rl := by
  simp only [rlField, getLsbD_encAmo]
  cases rl <;> rfl

theorem encAmo_and_0xf800707f (f5 : BitVec 5) (aq rl : Bool) (rs2 rs1 : BitVec 5) (f3 : BitVec 3) (rd : BitVec 5) (op : BitVec 7) :
    encAmo f5 aq rl rs2 rs1 f3 rd op &&& 0xf800707f#32 = encAmo f5 false false 0 0 f3 0 op := by
  ext i hi
  simp only [← BitVec.getLsbD_eq_getElem, BitVec.getLsbD_and, getLsbD_encAmo]
  interval_cases i <;> simp

theorem encAmo_and_0xf9f0707f (f5 : BitVec 5) (aq rl : Bool) (rs2 rs1 : BitVec 5) (f3 : BitVec 3) (rd : BitVec 5) (op : BitVec 7) :
    encAmo f5 aq rl rs2 rs1 f3 rd op &&& 0xf9f0707f#32 = encAmo f5 false false rs2 0 f3 0 op := by
  ext i hi
  simp only [← BitVec.getLsbD_eq_getElem, BitVec.getLsbD_and, getLsbD_encAmo]
  interval_cases i <;> simp

theorem encAmo_low0 (f5 : BitVec 5) (aq rl : Bool) (rs2 rs1 : BitVec 5) (f3 : BitVec 3) (rd : BitVec 5) (op : BitVec 7) : (encAmo f5 aq rl rs2 rs1 f3 rd op).extractLsb' 0 2 = op.extractLsb' 0 2 := by
  ext i hi
  simp only [BitVec.getElem_extractLsb', getLsbD_encAmo]
  interval_cases i <;> rfl

theorem encAmo_low2 (f5 : BitVec 5) (aq rl : Bool) (rs2 rs1 : BitVec 5) (f3 : BitVec 3) (rd : BitVec 5) (op : BitVec 7) : (encAmo f5 aq rl rs2 rs1 f3 rd op).extractLsb' 2 3 = op.extractLsb' 2 3 := by
  ext i hi
  simp only [BitVec.getElem_extractLsb', getLsbD_encAmo]
  interval_cases i <;> rfl

/-! ## The rows of the opcode map -/

/-- Two rows clash when some word is an instance of both. -/
def OpRow.clash (r t : OpRow) : Bool := (r.pattern ^^^ t.pattern) &&& r.mask &&& t.mask == 0

/-- No two rows clash. -/
theorem opcodeMap_disjoint : opcodeMap.Pairwise fun r t => r.clash t = false := by decide +kernel

theorem OpRow.clash_of_accepts {r t : OpRow} {w : Word} (hr : r.accepts w = true) (ht : t.accepts w = true) : r.clash t = true := by
  simp only [OpRow.accepts, beq_iff_eq] at hr ht
  simp only [OpRow.clash, beq_iff_eq, ← hr, ← ht]
  ext i hi
  simp only [BitVec.getElem_and, BitVec.getElem_xor]
  rw [show (0 : Word)[i] = false by simp]
  cases w[i] <;> cases r.mask[i] <;> cases t.mask[i] <;> rfl

/-- A word is an instance of at most one row, so the first match is the only one (R55). -/
theorem find_of_accepts {l : List OpRow} (hl : l.Pairwise fun r t => r.clash t = false) {r : OpRow} (hm : r ∈ l) {w : Word}
    (hw : r.accepts w = true) : l.find? (fun t => t.accepts w) = some r := by
  induction l with
  | nil => simp at hm
  | cons t l ih =>
    rw [List.pairwise_cons] at hl
    rcases List.mem_cons.1 hm with rfl | hm
    · simp [hw]
    · have ht : t.accepts w = false := by
        by_contra h
        have := OpRow.clash_of_accepts (by simpa using h) hw
        simp [hl.1 r hm] at this
      rw [List.find?_cons_of_neg (by simp [ht])]
      exact ih hl.2 hm

/-- What the decoder does with an instance of a row (R50, R55). -/
theorem decode_of_row {r : OpRow} (hm : r ∈ opcodeMap) {w : Word} (hw : r.accepts w = true) (h0 : w.extractLsb' 0 2 = 3#2)
    (h2 : w.extractLsb' 2 3 ≠ 7#3) (hrm : (r.hasRm && reservedRm (rmField w)) = false) : decode w = .ok (r.build w) := by
  simp [decode, h0, h2, find_of_accepts opcodeMap_disjoint hm hw, hrm]

/-- A decoded word is an instance of the row that built the instruction, and its rm field is not reserved. -/
theorem row_of_decode {w : Word} {i : Instr} (h : decode w = .ok i) : ∃ r ∈ opcodeMap, r.accepts w = true ∧
    w.extractLsb' 0 2 = 3#2 ∧ w.extractLsb' 2 3 ≠ 7#3 ∧ (r.hasRm && reservedRm (rmField w)) = false ∧ i = r.build w := by
  unfold decode at h
  split at h
  · cases h
  · next hl =>
    simp only [not_or, not_not] at hl
    split at h
    · cases h
    · next r hf =>
      split at h
      · cases h
      · next hrm =>
        cases h
        exact ⟨r, List.mem_of_find?_eq_some hf, List.find?_some (p := fun t : OpRow => t.accepts w) hf, hl.1, hl.2, by simpa using hrm, rfl⟩

end Sys2Proof
end

