-- ==== Sys2Proof/Laws/Memory.lean ====
section
/-! SUPPORT. Memory: read after write, and that every memory operation keeps the canonical form. The same for Dirty. -/

namespace Sys2Proof.Machine

/-! ## Little-endian values -/

@[simp] theorem leBytes_length (n v : Nat) : (leBytes n v).length = n := by
  induction n generalizing v with
  | zero => rfl
  | succ n ih => simp [leBytes, ih]

theorem leNat_lt (l : List Byte) : leNat l < 256 ^ l.length := by
  induction l with
  | nil => simp [leNat]
  | cons b l ih =>
    have hb : b.toNat < 256 := b.isLt
    simp only [leNat, List.length_cons, Nat.pow_succ]
    omega

/-- Assembling the bytes of a value gives its low 8·n bits. -/
theorem leNat_leBytes (n v : Nat) : leNat (leBytes n v) = v % 256 ^ n := by
  induction n generalizing v with
  | zero => simp [leBytes, leNat, Nat.mod_one]
  | succ n ih =>
    simp only [leBytes, leNat, ih, BitVec.toNat_ofNat]
    rw [show (256 : Nat) ^ (n + 1) = 256 * 256 ^ n from Nat.pow_succ', Nat.mod_mul]

/-- A value of exactly n bytes survives being split and assembled. -/
@[simp] theorem ofNat_leNat_leBytes (n : Nat) (v : BitVec (8 * n)) : BitVec.ofNat (8 * n) (leNat (leBytes n v.toNat)) = v := by
  rw [leNat_leBytes]
  apply BitVec.eq_of_toNat_eq
  have h : v.toNat < 256 ^ n := by
    have := v.isLt
    rwa [Nat.pow_mul] at this
  simp [Nat.mod_eq_of_lt h]

/-! ## One byte -/

theorem Memory.read_insert (m : Memory) (a c : Nat) (b : Byte) (hm : ∀ d ∈ m, d.1 ≠ a) :
    Memory.read (Memory.insert m (a, b)) c = if c = a then b else Memory.read m c := by
  induction m with
  | nil => simp [Memory.insert, Memory.read, eq_comm]
  | cons d m ih =>
    have hd : d.1 ≠ a := hm d (by simp)
    have ih := ih fun e he => hm e (by simp [he])
    by_cases h : a < d.1
    · simp [Memory.insert, h, Memory.read, eq_comm]
    · by_cases hc : d.1 = c
      · subst hc; simp [Memory.insert, h, Memory.read, hd]
      · simp [Memory.insert, h, Memory.read, hc, ih]

theorem Memory.read_erase (m : Memory) (a c : Nat) :
    Memory.read (Memory.erase m a) c = if c = a then Config.unlistedByte else Memory.read m c := by
  induction m with
  | nil => simp [Memory.erase, Memory.read]
  | cons d m ih =>
    by_cases hd : d.1 = a
    · have : Memory.erase (d :: m) a = Memory.erase m a := by simp [Memory.erase, hd]
      rw [this, ih]
      by_cases hc : c = a
      · simp [hc]
      · simp [hc, Memory.read, hd, Ne.symm hc]
    · have : Memory.erase (d :: m) a = d :: Memory.erase m a := by simp [Memory.erase, hd]
      rw [this]
      by_cases hc : d.1 = c
      · subst hc; simp [Memory.read, hd]
      · simp [Memory.read, hc, ih]

theorem Memory.mem_erase (m : Memory) (a : Nat) (d : Host.Cell) : d ∈ Memory.erase m a ↔ d ∈ m ∧ d.1 ≠ a := by
  simp [Memory.erase]

/-- All that a write of one byte does to what memory reads as. -/
theorem Memory.read_write (m : Memory) (a c : Nat) (b : Byte) :
    Memory.read (Memory.write m a b) c = if c = a then b else Memory.read m c := by
  unfold Memory.write
  split
  · next h => rw [Memory.read_erase, h]
  · rw [Memory.read_insert _ _ _ _ (fun d hd => ((Memory.mem_erase m a d).1 hd).2), Memory.read_erase]
    by_cases h : c = a <;> simp [h]

/-! ## Runs of bytes -/

@[simp] theorem Memory.readBytes_length (m : Memory) (a n : Nat) : (Memory.readBytes m a n).length = n := by
  induction n generalizing a with
  | zero => rfl
  | succ n ih => simp [Memory.readBytes, ih]

theorem Memory.readBytes_congr {m m' : Memory} {a n : Nat}
    (h : ∀ c, a ≤ c → c < a + n → Memory.read m c = Memory.read m' c) : Memory.readBytes m a n = Memory.readBytes m' a n := by
  induction n generalizing a with
  | zero => rfl
  | succ n ih =>
    simp only [Memory.readBytes]
    rw [h a (by omega) (by omega), ih fun c h1 h2 => h c (by omega) (by omega)]

/-- Every byte outside the written run reads as before. -/
theorem Memory.read_writeBytes_outside (m : Memory) (a c : Nat) (bs : List Byte) (h : c < a ∨ a + bs.length ≤ c) :
    Memory.read (Memory.writeBytes m a bs) c = Memory.read m c := by
  induction bs generalizing m a with
  | nil => rfl
  | cons b bs ih =>
    simp only [List.length_cons] at h
    simp only [Memory.writeBytes]
    rw [ih _ _ (by omega), Memory.read_write, if_neg (by omega)]

/-- Every byte of the written run reads as written. -/
theorem Memory.read_writeBytes_inside (m : Memory) (a i : Nat) (bs : List Byte) (h : i < bs.length) :
    Memory.read (Memory.writeBytes m a bs) (a + i) = bs[i] := by
  induction bs generalizing m a i with
  | nil => simp at h
  | cons b bs ih =>
    simp only [Memory.writeBytes]
    cases i with
    | zero => rw [Memory.read_writeBytes_outside _ _ _ _ (by omega)]; simp [Memory.read_write]
    | succ i =>
      have := ih (Memory.write m a b) (a + 1) i (by simpa using h)
      rw [show a + (i + 1) = a + 1 + i by omega, this]
      rfl

/-- Reading a run just written gives the bytes written. -/
theorem Memory.readBytes_writeBytes (m : Memory) (a : Nat) (bs : List Byte) :
    Memory.readBytes (Memory.writeBytes m a bs) a bs.length = bs := by
  induction bs generalizing m a with
  | nil => rfl
  | cons b bs ih =>
    have h0 := Memory.read_writeBytes_inside m a 0 (b :: bs) (by simp)
    exact congr (congrArg List.cons h0) (ih (Memory.write m a b) (a + 1))

/-! ## The canonical form -/

theorem Memory.wf_iff (m : Memory) : Memory.wf m = true ↔
    m.Pairwise (fun c d => c.1 < d.1) ∧ ∀ c ∈ m, c.1 < Config.memBytes ∧ c.2 ≠ Config.unlistedByte := by
  simp [Memory.wf]

@[simp] theorem Memory.wf_nil : Memory.wf [] = true := by decide

theorem Memory.wf_erase {m : Memory} (a : Nat) (h : Memory.wf m = true) : Memory.wf (Memory.erase m a) = true := by
  rw [Memory.wf_iff] at h ⊢
  exact ⟨h.1.filter _, fun c hc => h.2 c ((Memory.mem_erase m a c).1 hc).1⟩

theorem Memory.mem_insert (m : Memory) (c d : Host.Cell) : d ∈ Memory.insert m c ↔ d = c ∨ d ∈ m := by
  induction m with
  | nil => simp [Memory.insert]
  | cons e m ih =>
    by_cases h : c.1 < e.1
    · simp [Memory.insert, h]
    · simp only [Memory.insert, if_neg h, List.mem_cons, ih]; tauto

theorem Memory.pairwise_insert {m : Memory} (c : Host.Cell) (h : m.Pairwise fun c d => c.1 < d.1) (hc : ∀ d ∈ m, d.1 ≠ c.1) :
    (Memory.insert m c).Pairwise fun c d => c.1 < d.1 := by
  induction m with
  | nil => simp [Memory.insert]
  | cons e m ih =>
    rw [List.pairwise_cons] at h
    by_cases hlt : c.1 < e.1
    · simp only [Memory.insert, if_pos hlt, List.pairwise_cons, List.mem_cons, forall_eq_or_imp]
      exact ⟨⟨hlt, fun d hd => Nat.lt_trans hlt (h.1 d hd)⟩, h⟩
    · simp only [Memory.insert, if_neg hlt, List.pairwise_cons]
      refine ⟨fun d hd => ?_, ih h.2 fun d hd => hc d (by simp [hd])⟩
      have he := hc e (by simp)
      rcases (Memory.mem_insert m c d).1 hd with rfl | hd
      · omega
      · exact h.1 d hd

/-- A write inside the address space keeps the canonical form. -/
theorem Memory.wf_write {m : Memory} {a : Nat} (b : Byte) (ha : a < Config.memBytes) (h : Memory.wf m = true) :
    Memory.wf (Memory.write m a b) = true := by
  have he := Memory.wf_erase a h
  unfold Memory.write
  split
  · exact he
  · next hb =>
    rw [Memory.wf_iff] at he ⊢
    refine ⟨Memory.pairwise_insert _ he.1 fun d hd => ((Memory.mem_erase m a d).1 hd).2, fun c hc => ?_⟩
    rcases (Memory.mem_insert _ _ c).1 hc with rfl | hc
    · exact ⟨ha, hb⟩
    · exact he.2 c hc

theorem Memory.wf_writeBytes {m : Memory} {a : Nat} (bs : List Byte) (ha : a + bs.length ≤ Config.memBytes)
    (h : Memory.wf m = true) : Memory.wf (Memory.writeBytes m a bs) = true := by
  induction bs generalizing m a with
  | nil => exact h
  | cons b bs ih =>
    simp only [List.length_cons] at ha
    exact ih (by omega) (Memory.wf_write b (by omega) h)

theorem Memory.read_of_mem {m : Memory} (h : m.Pairwise fun c d => c.1 < d.1) {c : Host.Cell} (hc : c ∈ m) :
    Memory.read m c.1 = c.2 := by
  induction m with
  | nil => simp at hc
  | cons e m ih =>
    rw [List.pairwise_cons] at h
    rcases List.mem_cons.1 hc with rfl | hc
    · simp [Memory.read]
    · have := h.1 c hc
      simp [Memory.read, Nat.ne_of_lt this, ih h.2 hc]

theorem Memory.mem_of_read {m : Memory} {a : Nat} (h : Memory.read m a ≠ Config.unlistedByte) : (a, Memory.read m a) ∈ m := by
  induction m with
  | nil => exact absurd rfl h
  | cons e m ih =>
    by_cases he : e.1 = a
    · subst he; simp [Memory.read]
    · simp only [Memory.read, if_neg he] at h ⊢
      exact List.mem_cons_of_mem _ (ih h)

theorem Memory.mem_iff {m : Memory} (h : Memory.wf m = true) (c : Host.Cell) :
    c ∈ m ↔ Memory.read m c.1 = c.2 ∧ c.2 ≠ Config.unlistedByte := by
  rw [Memory.wf_iff] at h
  refine ⟨fun hc => ⟨Memory.read_of_mem h.1 hc, (h.2 c hc).2⟩, fun ⟨h1, h2⟩ => ?_⟩
  have := Memory.mem_of_read (m := m) (a := c.1) (by rwa [h1])
  rwa [h1] at this

/-- Two memories in canonical form that read alike are the same data. -/
theorem Memory.ext_read {m m' : Memory} (h : Memory.wf m = true) (h' : Memory.wf m' = true)
    (hr : ∀ a, Memory.read m a = Memory.read m' a) : m = m' := by
  have hp := ((Memory.wf_iff m).1 h).1
  have hp' := ((Memory.wf_iff m').1 h').1
  have hn {l : Memory} (hl : l.Pairwise fun c d => c.1 < d.1) : l.Nodup :=
    hl.imp fun {c d} hlt he => absurd hlt (by simp [he])
  have hperm : m.Perm m' := (List.perm_ext_iff_of_nodup (hn hp) (hn hp')).2 fun c => by
    rw [Memory.mem_iff h, Memory.mem_iff h', hr]
  exact hperm.eq_of_pairwise (fun _ _ _ _ h1 h2 => absurd h1 (Nat.lt_asymm h2)) hp hp'

/-! ## Dirty -/

@[simp] theorem mem_dirtyInsert (d : List Nat) (a k : Nat) : k ∈ dirtyInsert d a ↔ k = a ∨ k ∈ d := by
  induction d with
  | nil => simp [dirtyInsert]
  | cons e d ih =>
    by_cases h1 : a < e
    · simp [dirtyInsert, h1]
    · by_cases h2 : a = e
      · simp [dirtyInsert, h2]
      · simp only [dirtyInsert, if_neg h1, if_neg h2, List.mem_cons, ih]; tauto

/-- All that a store adds to Dirty: the bytes it stored (R36). -/
theorem mem_dirtyAdd (d : List Nat) (a n k : Nat) : k ∈ dirtyAdd d a n ↔ (a ≤ k ∧ k < a + n) ∨ k ∈ d := by
  induction n generalizing d a with
  | zero => simp only [dirtyAdd]; constructor
            · exact Or.inr
            · rintro (⟨h1, h2⟩ | h)
              · omega
              · exact h
  | succ n ih =>
    simp only [dirtyAdd, ih, mem_dirtyInsert]
    constructor
    · rintro (⟨h1, h2⟩ | h | h)
      · exact .inl (by omega)
      · exact .inl (by omega)
      · exact .inr h
    · rintro (h | h)
      · by_cases hk : k = a
        · exact .inr (.inl hk)
        · exact .inl (by omega)
      · exact .inr (.inr h)

theorem dirtyWf_iff (d : List Nat) : dirtyWf d = true ↔ d.Pairwise (· < ·) ∧ ∀ k ∈ d, k < Config.memBytes := by
  simp [dirtyWf]

theorem dirtyInsert_wf {d : List Nat} {a : Nat} (ha : a < Config.memBytes) (h : dirtyWf d = true) : dirtyWf (dirtyInsert d a) = true := by
  rw [dirtyWf_iff] at h ⊢
  refine ⟨?_, fun k hk => by rcases (mem_dirtyInsert d a k).1 hk with rfl | hk; exacts [ha, h.2 k hk]⟩
  replace h := h.1
  induction d with
  | nil => simp [dirtyInsert]
  | cons e d ih =>
    rw [List.pairwise_cons] at h
    by_cases h1 : a < e
    · simp only [dirtyInsert, if_pos h1, List.pairwise_cons, List.mem_cons, forall_eq_or_imp]
      exact ⟨⟨h1, fun k hk => Nat.lt_trans h1 (h.1 k hk)⟩, h⟩
    · by_cases h2 : a = e
      · simpa [dirtyInsert, h2] using h
      · simp only [dirtyInsert, if_neg h1, if_neg h2, List.pairwise_cons]
        refine ⟨fun k hk => ?_, ih h.2⟩
        rcases (mem_dirtyInsert d a k).1 hk with rfl | hk
        · omega
        · exact h.1 k hk

theorem dirtyAdd_wf {d : List Nat} {a n : Nat} (ha : a + n ≤ Config.memBytes) (h : dirtyWf d = true) : dirtyWf (dirtyAdd d a n) = true := by
  induction n generalizing d a with
  | zero => exact h
  | succ n ih => exact ih (by omega) (dirtyInsert_wf (by omega) h)

theorem dirtyHits_iff (d : List Nat) (a n : Nat) : dirtyHits d a n = true ↔ ∃ k ∈ d, a ≤ k ∧ k < a + n := by
  simp [dirtyHits]

end Sys2Proof.Machine
end

