-- ==== Sys2Proof/Laws/State.lean ====
section
/-! SUPPORT. What every field of State holds after every update of it, so that no proof unfolds a record update. -/

namespace Sys2Proof.Machine

/-! ## setX -/

@[simp] theorem State.setX_pc (s : State) (rd : XReg) (v : Word) : (s.setX rd v).pc = s.pc := rfl
@[simp] theorem State.setX_f (s : State) (rd : XReg) (v : Word) : (s.setX rd v).f = s.f := rfl
@[simp] theorem State.setX_fcsr8 (s : State) (rd : XReg) (v : Word) : (s.setX rd v).fcsr8 = s.fcsr8 := rfl
@[simp] theorem State.setX_vr (s : State) (rd : XReg) (v : Word) : (s.setX rd v).vr = s.vr := rfl
@[simp] theorem State.setX_vtype (s : State) (rd : XReg) (v : Word) : (s.setX rd v).vtype = s.vtype := rfl
@[simp] theorem State.setX_vl (s : State) (rd : XReg) (v : Word) : (s.setX rd v).vl = s.vl := rfl
@[simp] theorem State.setX_vstart (s : State) (rd : XReg) (v : Word) : (s.setX rd v).vstart = s.vstart := rfl
@[simp] theorem State.setX_mem (s : State) (rd : XReg) (v : Word) : (s.setX rd v).mem = s.mem := rfl
@[simp] theorem State.setX_dirty (s : State) (rd : XReg) (v : Word) : (s.setX rd v).dirty = s.dirty := rfl
@[simp] theorem State.setX_stop (s : State) (rd : XReg) (v : Word) : (s.setX rd v).stop = s.stop := rfl
@[simp] theorem State.setX_hostStop (s : State) (rd : XReg) (v : Word) : (s.setX rd v).hostStop = s.hostStop := rfl
@[simp] theorem State.setX_draws (s : State) (rd : XReg) (v : Word) : (s.setX rd v).draws = s.draws := rfl
@[simp] theorem State.setX_params (s : State) (rd : XReg) (v : Word) : (s.setX rd v).params = s.params := rfl
@[simp] theorem State.setX_readF (s : State) (rd : XReg) (v : Word) (q : FReg) : (s.setX rd v).readF q = s.readF q := rfl
@[simp] theorem State.setX_readS (s : State) (rd : XReg) (v : Word) (q : FReg) : (s.setX rd v).readS q = s.readS q := rfl
@[simp] theorem State.setX_ipc (s : State) (rd : XReg) (v : Word) : (s.setX rd v).ipc = s.ipc := rfl
@[simp] theorem State.setX_sew (s : State) (rd : XReg) (v : Word) : (s.setX rd v).sew = s.sew := rfl
@[simp] theorem State.setX_accessCheck (s : State) (rd : XReg) (v : Word) (c : Word) (k : Nat) : (s.setX rd v).accessCheck c k = s.accessCheck c k := rfl
@[simp] theorem State.setX_halted (s : State) (rd : XReg) (v : Word) : (s.setX rd v).halted = s.halted := rfl

/-! ## clearX0 -/

@[simp] theorem State.clearX0_x (s : State) : (s.clearX0).x = s.x.set 0 0 := rfl
@[simp] theorem State.clearX0_pc (s : State) : (s.clearX0).pc = s.pc := rfl
@[simp] theorem State.clearX0_f (s : State) : (s.clearX0).f = s.f := rfl
@[simp] theorem State.clearX0_fcsr8 (s : State) : (s.clearX0).fcsr8 = s.fcsr8 := rfl
@[simp] theorem State.clearX0_vr (s : State) : (s.clearX0).vr = s.vr := rfl
@[simp] theorem State.clearX0_vtype (s : State) : (s.clearX0).vtype = s.vtype := rfl
@[simp] theorem State.clearX0_vl (s : State) : (s.clearX0).vl = s.vl := rfl
@[simp] theorem State.clearX0_vstart (s : State) : (s.clearX0).vstart = s.vstart := rfl
@[simp] theorem State.clearX0_mem (s : State) : (s.clearX0).mem = s.mem := rfl
@[simp] theorem State.clearX0_dirty (s : State) : (s.clearX0).dirty = s.dirty := rfl
@[simp] theorem State.clearX0_stop (s : State) : (s.clearX0).stop = s.stop := rfl
@[simp] theorem State.clearX0_hostStop (s : State) : (s.clearX0).hostStop = s.hostStop := rfl
@[simp] theorem State.clearX0_draws (s : State) : (s.clearX0).draws = s.draws := rfl
@[simp] theorem State.clearX0_params (s : State) : (s.clearX0).params = s.params := rfl
@[simp] theorem State.clearX0_readF (s : State) (q : FReg) : (s.clearX0).readF q = s.readF q := rfl
@[simp] theorem State.clearX0_readS (s : State) (q : FReg) : (s.clearX0).readS q = s.readS q := rfl
@[simp] theorem State.clearX0_ipc (s : State) : (s.clearX0).ipc = s.ipc := rfl
@[simp] theorem State.clearX0_sew (s : State) : (s.clearX0).sew = s.sew := rfl
@[simp] theorem State.clearX0_accessCheck (s : State) (c : Word) (k : Nat) : (s.clearX0).accessCheck c k = s.accessCheck c k := rfl
@[simp] theorem State.clearX0_halted (s : State) : (s.clearX0).halted = s.halted := rfl

/-! ## setPc -/

@[simp] theorem State.setPc_x (s : State) (t : Word) : (s.setPc t).x = s.x := rfl
@[simp] theorem State.setPc_pc (s : State) (t : Word) : (s.setPc t).pc = t := rfl
@[simp] theorem State.setPc_f (s : State) (t : Word) : (s.setPc t).f = s.f := rfl
@[simp] theorem State.setPc_fcsr8 (s : State) (t : Word) : (s.setPc t).fcsr8 = s.fcsr8 := rfl
@[simp] theorem State.setPc_vr (s : State) (t : Word) : (s.setPc t).vr = s.vr := rfl
@[simp] theorem State.setPc_vtype (s : State) (t : Word) : (s.setPc t).vtype = s.vtype := rfl
@[simp] theorem State.setPc_vl (s : State) (t : Word) : (s.setPc t).vl = s.vl := rfl
@[simp] theorem State.setPc_vstart (s : State) (t : Word) : (s.setPc t).vstart = s.vstart := rfl
@[simp] theorem State.setPc_mem (s : State) (t : Word) : (s.setPc t).mem = s.mem := rfl
@[simp] theorem State.setPc_dirty (s : State) (t : Word) : (s.setPc t).dirty = s.dirty := rfl
@[simp] theorem State.setPc_stop (s : State) (t : Word) : (s.setPc t).stop = s.stop := rfl
@[simp] theorem State.setPc_hostStop (s : State) (t : Word) : (s.setPc t).hostStop = s.hostStop := rfl
@[simp] theorem State.setPc_draws (s : State) (t : Word) : (s.setPc t).draws = s.draws := rfl
@[simp] theorem State.setPc_params (s : State) (t : Word) : (s.setPc t).params = s.params := rfl
@[simp] theorem State.setPc_readX (s : State) (t : Word) (q : XReg) : (s.setPc t).readX q = s.readX q := rfl
@[simp] theorem State.setPc_ea (s : State) (t : Word) (q : XReg) (i : BitVec 12) : (s.setPc t).ea q i = s.ea q i := rfl
@[simp] theorem State.setPc_readF (s : State) (t : Word) (q : FReg) : (s.setPc t).readF q = s.readF q := rfl
@[simp] theorem State.setPc_readS (s : State) (t : Word) (q : FReg) : (s.setPc t).readS q = s.readS q := rfl
@[simp] theorem State.setPc_sew (s : State) (t : Word) : (s.setPc t).sew = s.sew := rfl
@[simp] theorem State.setPc_accessCheck (s : State) (t : Word) (c : Word) (k : Nat) : (s.setPc t).accessCheck c k = s.accessCheck c k := rfl
@[simp] theorem State.setPc_halted (s : State) (t : Word) : (s.setPc t).halted = s.halted := rfl

/-! ## setF -/

@[simp] theorem State.setF_x (s : State) (rd : FReg) (v : Dword) : (s.setF rd v).x = s.x := rfl
@[simp] theorem State.setF_pc (s : State) (rd : FReg) (v : Dword) : (s.setF rd v).pc = s.pc := rfl
@[simp] theorem State.setF_f (s : State) (rd : FReg) (v : Dword) : (s.setF rd v).f = s.f.set rd.toNat v rd.isLt := rfl
@[simp] theorem State.setF_fcsr8 (s : State) (rd : FReg) (v : Dword) : (s.setF rd v).fcsr8 = s.fcsr8 := rfl
@[simp] theorem State.setF_vr (s : State) (rd : FReg) (v : Dword) : (s.setF rd v).vr = s.vr := rfl
@[simp] theorem State.setF_vtype (s : State) (rd : FReg) (v : Dword) : (s.setF rd v).vtype = s.vtype := rfl
@[simp] theorem State.setF_vl (s : State) (rd : FReg) (v : Dword) : (s.setF rd v).vl = s.vl := rfl
@[simp] theorem State.setF_vstart (s : State) (rd : FReg) (v : Dword) : (s.setF rd v).vstart = s.vstart := rfl
@[simp] theorem State.setF_mem (s : State) (rd : FReg) (v : Dword) : (s.setF rd v).mem = s.mem := rfl
@[simp] theorem State.setF_dirty (s : State) (rd : FReg) (v : Dword) : (s.setF rd v).dirty = s.dirty := rfl
@[simp] theorem State.setF_stop (s : State) (rd : FReg) (v : Dword) : (s.setF rd v).stop = s.stop := rfl
@[simp] theorem State.setF_hostStop (s : State) (rd : FReg) (v : Dword) : (s.setF rd v).hostStop = s.hostStop := rfl
@[simp] theorem State.setF_draws (s : State) (rd : FReg) (v : Dword) : (s.setF rd v).draws = s.draws := rfl
@[simp] theorem State.setF_params (s : State) (rd : FReg) (v : Dword) : (s.setF rd v).params = s.params := rfl
@[simp] theorem State.setF_readX (s : State) (rd : FReg) (v : Dword) (q : XReg) : (s.setF rd v).readX q = s.readX q := rfl
@[simp] theorem State.setF_ea (s : State) (rd : FReg) (v : Dword) (q : XReg) (i : BitVec 12) : (s.setF rd v).ea q i = s.ea q i := rfl
@[simp] theorem State.setF_ipc (s : State) (rd : FReg) (v : Dword) : (s.setF rd v).ipc = s.ipc := rfl
@[simp] theorem State.setF_sew (s : State) (rd : FReg) (v : Dword) : (s.setF rd v).sew = s.sew := rfl
@[simp] theorem State.setF_accessCheck (s : State) (rd : FReg) (v : Dword) (c : Word) (k : Nat) : (s.setF rd v).accessCheck c k = s.accessCheck c k := rfl
@[simp] theorem State.setF_halted (s : State) (rd : FReg) (v : Dword) : (s.setF rd v).halted = s.halted := rfl

/-! ## setS -/

@[simp] theorem State.setS_x (s : State) (rd : FReg) (v : Word) : (s.setS rd v).x = s.x := rfl
@[simp] theorem State.setS_pc (s : State) (rd : FReg) (v : Word) : (s.setS rd v).pc = s.pc := rfl
@[simp] theorem State.setS_f (s : State) (rd : FReg) (v : Word) : (s.setS rd v).f = s.f.set rd.toNat (box v) rd.isLt := rfl
@[simp] theorem State.setS_fcsr8 (s : State) (rd : FReg) (v : Word) : (s.setS rd v).fcsr8 = s.fcsr8 := rfl
@[simp] theorem State.setS_vr (s : State) (rd : FReg) (v : Word) : (s.setS rd v).vr = s.vr := rfl
@[simp] theorem State.setS_vtype (s : State) (rd : FReg) (v : Word) : (s.setS rd v).vtype = s.vtype := rfl
@[simp] theorem State.setS_vl (s : State) (rd : FReg) (v : Word) : (s.setS rd v).vl = s.vl := rfl
@[simp] theorem State.setS_vstart (s : State) (rd : FReg) (v : Word) : (s.setS rd v).vstart = s.vstart := rfl
@[simp] theorem State.setS_mem (s : State) (rd : FReg) (v : Word) : (s.setS rd v).mem = s.mem := rfl
@[simp] theorem State.setS_dirty (s : State) (rd : FReg) (v : Word) : (s.setS rd v).dirty = s.dirty := rfl
@[simp] theorem State.setS_stop (s : State) (rd : FReg) (v : Word) : (s.setS rd v).stop = s.stop := rfl
@[simp] theorem State.setS_hostStop (s : State) (rd : FReg) (v : Word) : (s.setS rd v).hostStop = s.hostStop := rfl
@[simp] theorem State.setS_draws (s : State) (rd : FReg) (v : Word) : (s.setS rd v).draws = s.draws := rfl
@[simp] theorem State.setS_params (s : State) (rd : FReg) (v : Word) : (s.setS rd v).params = s.params := rfl
@[simp] theorem State.setS_readX (s : State) (rd : FReg) (v : Word) (q : XReg) : (s.setS rd v).readX q = s.readX q := rfl
@[simp] theorem State.setS_ea (s : State) (rd : FReg) (v : Word) (q : XReg) (i : BitVec 12) : (s.setS rd v).ea q i = s.ea q i := rfl
@[simp] theorem State.setS_ipc (s : State) (rd : FReg) (v : Word) : (s.setS rd v).ipc = s.ipc := rfl
@[simp] theorem State.setS_sew (s : State) (rd : FReg) (v : Word) : (s.setS rd v).sew = s.sew := rfl
@[simp] theorem State.setS_accessCheck (s : State) (rd : FReg) (v : Word) (c : Word) (k : Nat) : (s.setS rd v).accessCheck c k = s.accessCheck c k := rfl
@[simp] theorem State.setS_halted (s : State) (rd : FReg) (v : Word) : (s.setS rd v).halted = s.halted := rfl

/-! ## setVr -/

@[simp] theorem State.setVr_x (s : State) (v : VRegs) : (s.setVr v).x = s.x := rfl
@[simp] theorem State.setVr_pc (s : State) (v : VRegs) : (s.setVr v).pc = s.pc := rfl
@[simp] theorem State.setVr_f (s : State) (v : VRegs) : (s.setVr v).f = s.f := rfl
@[simp] theorem State.setVr_fcsr8 (s : State) (v : VRegs) : (s.setVr v).fcsr8 = s.fcsr8 := rfl
@[simp] theorem State.setVr_vr (s : State) (v : VRegs) : (s.setVr v).vr = v := rfl
@[simp] theorem State.setVr_vtype (s : State) (v : VRegs) : (s.setVr v).vtype = s.vtype := rfl
@[simp] theorem State.setVr_vl (s : State) (v : VRegs) : (s.setVr v).vl = s.vl := rfl
@[simp] theorem State.setVr_vstart (s : State) (v : VRegs) : (s.setVr v).vstart = s.vstart := rfl
@[simp] theorem State.setVr_mem (s : State) (v : VRegs) : (s.setVr v).mem = s.mem := rfl
@[simp] theorem State.setVr_dirty (s : State) (v : VRegs) : (s.setVr v).dirty = s.dirty := rfl
@[simp] theorem State.setVr_stop (s : State) (v : VRegs) : (s.setVr v).stop = s.stop := rfl
@[simp] theorem State.setVr_hostStop (s : State) (v : VRegs) : (s.setVr v).hostStop = s.hostStop := rfl
@[simp] theorem State.setVr_draws (s : State) (v : VRegs) : (s.setVr v).draws = s.draws := rfl
@[simp] theorem State.setVr_params (s : State) (v : VRegs) : (s.setVr v).params = s.params := rfl
@[simp] theorem State.setVr_readX (s : State) (v : VRegs) (q : XReg) : (s.setVr v).readX q = s.readX q := rfl
@[simp] theorem State.setVr_ea (s : State) (v : VRegs) (q : XReg) (i : BitVec 12) : (s.setVr v).ea q i = s.ea q i := rfl
@[simp] theorem State.setVr_readF (s : State) (v : VRegs) (q : FReg) : (s.setVr v).readF q = s.readF q := rfl
@[simp] theorem State.setVr_readS (s : State) (v : VRegs) (q : FReg) : (s.setVr v).readS q = s.readS q := rfl
@[simp] theorem State.setVr_ipc (s : State) (v : VRegs) : (s.setVr v).ipc = s.ipc := rfl
@[simp] theorem State.setVr_sew (s : State) (v : VRegs) : (s.setVr v).sew = s.sew := rfl
@[simp] theorem State.setVr_accessCheck (s : State) (v : VRegs) (c : Word) (k : Nat) : (s.setVr v).accessCheck c k = s.accessCheck c k := rfl
@[simp] theorem State.setVr_halted (s : State) (v : VRegs) : (s.setVr v).halted = s.halted := rfl

/-! ## setNV -/

@[simp] theorem State.setNV_x (s : State) : (s.setNV).x = s.x := rfl
@[simp] theorem State.setNV_pc (s : State) : (s.setNV).pc = s.pc := rfl
@[simp] theorem State.setNV_f (s : State) : (s.setNV).f = s.f := rfl
@[simp] theorem State.setNV_fcsr8 (s : State) : (s.setNV).fcsr8 = s.fcsr8 ||| 0x10#8 := rfl
@[simp] theorem State.setNV_vr (s : State) : (s.setNV).vr = s.vr := rfl
@[simp] theorem State.setNV_vtype (s : State) : (s.setNV).vtype = s.vtype := rfl
@[simp] theorem State.setNV_vl (s : State) : (s.setNV).vl = s.vl := rfl
@[simp] theorem State.setNV_vstart (s : State) : (s.setNV).vstart = s.vstart := rfl
@[simp] theorem State.setNV_mem (s : State) : (s.setNV).mem = s.mem := rfl
@[simp] theorem State.setNV_dirty (s : State) : (s.setNV).dirty = s.dirty := rfl
@[simp] theorem State.setNV_stop (s : State) : (s.setNV).stop = s.stop := rfl
@[simp] theorem State.setNV_hostStop (s : State) : (s.setNV).hostStop = s.hostStop := rfl
@[simp] theorem State.setNV_draws (s : State) : (s.setNV).draws = s.draws := rfl
@[simp] theorem State.setNV_params (s : State) : (s.setNV).params = s.params := rfl
@[simp] theorem State.setNV_readX (s : State) (q : XReg) : (s.setNV).readX q = s.readX q := rfl
@[simp] theorem State.setNV_ea (s : State) (q : XReg) (i : BitVec 12) : (s.setNV).ea q i = s.ea q i := rfl
@[simp] theorem State.setNV_readF (s : State) (q : FReg) : (s.setNV).readF q = s.readF q := rfl
@[simp] theorem State.setNV_readS (s : State) (q : FReg) : (s.setNV).readS q = s.readS q := rfl
@[simp] theorem State.setNV_ipc (s : State) : (s.setNV).ipc = s.ipc := rfl
@[simp] theorem State.setNV_sew (s : State) : (s.setNV).sew = s.sew := rfl
@[simp] theorem State.setNV_accessCheck (s : State) (c : Word) (k : Nat) : (s.setNV).accessCheck c k = s.accessCheck c k := rfl
@[simp] theorem State.setNV_halted (s : State) : (s.setNV).halted = s.halted := rfl

/-! ## storeValue -/

@[simp] theorem State.storeValue_x (s : State) (a : Word) (n : Nat) {m : Nat} (v : BitVec m) : (s.storeValue a n v).x = s.x := rfl
@[simp] theorem State.storeValue_pc (s : State) (a : Word) (n : Nat) {m : Nat} (v : BitVec m) : (s.storeValue a n v).pc = s.pc := rfl
@[simp] theorem State.storeValue_f (s : State) (a : Word) (n : Nat) {m : Nat} (v : BitVec m) : (s.storeValue a n v).f = s.f := rfl
@[simp] theorem State.storeValue_fcsr8 (s : State) (a : Word) (n : Nat) {m : Nat} (v : BitVec m) : (s.storeValue a n v).fcsr8 = s.fcsr8 := rfl
@[simp] theorem State.storeValue_vr (s : State) (a : Word) (n : Nat) {m : Nat} (v : BitVec m) : (s.storeValue a n v).vr = s.vr := rfl
@[simp] theorem State.storeValue_vtype (s : State) (a : Word) (n : Nat) {m : Nat} (v : BitVec m) : (s.storeValue a n v).vtype = s.vtype := rfl
@[simp] theorem State.storeValue_vl (s : State) (a : Word) (n : Nat) {m : Nat} (v : BitVec m) : (s.storeValue a n v).vl = s.vl := rfl
@[simp] theorem State.storeValue_vstart (s : State) (a : Word) (n : Nat) {m : Nat} (v : BitVec m) : (s.storeValue a n v).vstart = s.vstart := rfl
@[simp] theorem State.storeValue_mem (s : State) (a : Word) (n : Nat) {m : Nat} (v : BitVec m) : (s.storeValue a n v).mem = s.mem.writeBytes a.toNat (leBytes n v.toNat) := rfl
@[simp] theorem State.storeValue_dirty (s : State) (a : Word) (n : Nat) {m : Nat} (v : BitVec m) : (s.storeValue a n v).dirty = dirtyAdd s.dirty a.toNat n := rfl
@[simp] theorem State.storeValue_stop (s : State) (a : Word) (n : Nat) {m : Nat} (v : BitVec m) : (s.storeValue a n v).stop = s.stop := rfl
@[simp] theorem State.storeValue_hostStop (s : State) (a : Word) (n : Nat) {m : Nat} (v : BitVec m) : (s.storeValue a n v).hostStop = s.hostStop := rfl
@[simp] theorem State.storeValue_draws (s : State) (a : Word) (n : Nat) {m : Nat} (v : BitVec m) : (s.storeValue a n v).draws = s.draws := rfl
@[simp] theorem State.storeValue_params (s : State) (a : Word) (n : Nat) {m : Nat} (v : BitVec m) : (s.storeValue a n v).params = s.params := rfl
@[simp] theorem State.storeValue_readX (s : State) (a : Word) (n : Nat) {m : Nat} (v : BitVec m) (q : XReg) : (s.storeValue a n v).readX q = s.readX q := rfl
@[simp] theorem State.storeValue_ea (s : State) (a : Word) (n : Nat) {m : Nat} (v : BitVec m) (q : XReg) (i : BitVec 12) : (s.storeValue a n v).ea q i = s.ea q i := rfl
@[simp] theorem State.storeValue_readF (s : State) (a : Word) (n : Nat) {m : Nat} (v : BitVec m) (q : FReg) : (s.storeValue a n v).readF q = s.readF q := rfl
@[simp] theorem State.storeValue_readS (s : State) (a : Word) (n : Nat) {m : Nat} (v : BitVec m) (q : FReg) : (s.storeValue a n v).readS q = s.readS q := rfl
@[simp] theorem State.storeValue_ipc (s : State) (a : Word) (n : Nat) {m : Nat} (v : BitVec m) : (s.storeValue a n v).ipc = s.ipc := rfl
@[simp] theorem State.storeValue_sew (s : State) (a : Word) (n : Nat) {m : Nat} (v : BitVec m) : (s.storeValue a n v).sew = s.sew := rfl
@[simp] theorem State.storeValue_accessCheck (s : State) (a : Word) (n : Nat) {m : Nat} (v : BitVec m) (c : Word) (k : Nat) : (s.storeValue a n v).accessCheck c k = s.accessCheck c k := rfl
@[simp] theorem State.storeValue_halted (s : State) (a : Word) (n : Nat) {m : Nat} (v : BitVec m) : (s.storeValue a n v).halted = s.halted := rfl

/-! ## stopAt -/

@[simp] theorem State.stopAt_x (s : State) (a : Word) (r : Stop) : (s.stopAt a r).x = s.x := rfl
@[simp] theorem State.stopAt_pc (s : State) (a : Word) (r : Stop) : (s.stopAt a r).pc = a := rfl
@[simp] theorem State.stopAt_f (s : State) (a : Word) (r : Stop) : (s.stopAt a r).f = s.f := rfl
@[simp] theorem State.stopAt_fcsr8 (s : State) (a : Word) (r : Stop) : (s.stopAt a r).fcsr8 = s.fcsr8 := rfl
@[simp] theorem State.stopAt_vr (s : State) (a : Word) (r : Stop) : (s.stopAt a r).vr = s.vr := rfl
@[simp] theorem State.stopAt_vtype (s : State) (a : Word) (r : Stop) : (s.stopAt a r).vtype = s.vtype := rfl
@[simp] theorem State.stopAt_vl (s : State) (a : Word) (r : Stop) : (s.stopAt a r).vl = s.vl := rfl
@[simp] theorem State.stopAt_vstart (s : State) (a : Word) (r : Stop) : (s.stopAt a r).vstart = s.vstart := rfl
@[simp] theorem State.stopAt_mem (s : State) (a : Word) (r : Stop) : (s.stopAt a r).mem = s.mem := rfl
@[simp] theorem State.stopAt_dirty (s : State) (a : Word) (r : Stop) : (s.stopAt a r).dirty = s.dirty := rfl
@[simp] theorem State.stopAt_stop (s : State) (a : Word) (r : Stop) : (s.stopAt a r).stop = some r := rfl
@[simp] theorem State.stopAt_hostStop (s : State) (a : Word) (r : Stop) : (s.stopAt a r).hostStop = s.hostStop := rfl
@[simp] theorem State.stopAt_draws (s : State) (a : Word) (r : Stop) : (s.stopAt a r).draws = s.draws := rfl
@[simp] theorem State.stopAt_params (s : State) (a : Word) (r : Stop) : (s.stopAt a r).params = s.params := rfl
@[simp] theorem State.stopAt_readX (s : State) (a : Word) (r : Stop) (q : XReg) : (s.stopAt a r).readX q = s.readX q := rfl
@[simp] theorem State.stopAt_ea (s : State) (a : Word) (r : Stop) (q : XReg) (i : BitVec 12) : (s.stopAt a r).ea q i = s.ea q i := rfl
@[simp] theorem State.stopAt_readF (s : State) (a : Word) (r : Stop) (q : FReg) : (s.stopAt a r).readF q = s.readF q := rfl
@[simp] theorem State.stopAt_readS (s : State) (a : Word) (r : Stop) (q : FReg) : (s.stopAt a r).readS q = s.readS q := rfl
@[simp] theorem State.stopAt_sew (s : State) (a : Word) (r : Stop) : (s.stopAt a r).sew = s.sew := rfl
@[simp] theorem State.stopAt_accessCheck (s : State) (a : Word) (r : Stop) (c : Word) (k : Nat) : (s.stopAt a r).accessCheck c k = s.accessCheck c k := rfl

/-! ## raise -/

@[simp] theorem State.raise_x (s : State) (r : Stop) : (s.raise r).x = s.x := rfl
@[simp] theorem State.raise_pc (s : State) (r : Stop) : (s.raise r).pc = s.ipc := rfl
@[simp] theorem State.raise_f (s : State) (r : Stop) : (s.raise r).f = s.f := rfl
@[simp] theorem State.raise_fcsr8 (s : State) (r : Stop) : (s.raise r).fcsr8 = s.fcsr8 := rfl
@[simp] theorem State.raise_vr (s : State) (r : Stop) : (s.raise r).vr = s.vr := rfl
@[simp] theorem State.raise_vtype (s : State) (r : Stop) : (s.raise r).vtype = s.vtype := rfl
@[simp] theorem State.raise_vl (s : State) (r : Stop) : (s.raise r).vl = s.vl := rfl
@[simp] theorem State.raise_vstart (s : State) (r : Stop) : (s.raise r).vstart = s.vstart := rfl
@[simp] theorem State.raise_mem (s : State) (r : Stop) : (s.raise r).mem = s.mem := rfl
@[simp] theorem State.raise_dirty (s : State) (r : Stop) : (s.raise r).dirty = s.dirty := rfl
@[simp] theorem State.raise_stop (s : State) (r : Stop) : (s.raise r).stop = some r := rfl
@[simp] theorem State.raise_hostStop (s : State) (r : Stop) : (s.raise r).hostStop = s.hostStop := rfl
@[simp] theorem State.raise_draws (s : State) (r : Stop) : (s.raise r).draws = s.draws := rfl
@[simp] theorem State.raise_params (s : State) (r : Stop) : (s.raise r).params = s.params := rfl
@[simp] theorem State.raise_readX (s : State) (r : Stop) (q : XReg) : (s.raise r).readX q = s.readX q := rfl
@[simp] theorem State.raise_ea (s : State) (r : Stop) (q : XReg) (i : BitVec 12) : (s.raise r).ea q i = s.ea q i := rfl
@[simp] theorem State.raise_readF (s : State) (r : Stop) (q : FReg) : (s.raise r).readF q = s.readF q := rfl
@[simp] theorem State.raise_readS (s : State) (r : Stop) (q : FReg) : (s.raise r).readS q = s.readS q := rfl
@[simp] theorem State.raise_sew (s : State) (r : Stop) : (s.raise r).sew = s.sew := rfl
@[simp] theorem State.raise_accessCheck (s : State) (r : Stop) (c : Word) (k : Nat) : (s.raise r).accessCheck c k = s.accessCheck c k := rfl

/-! ## halt -/

@[simp] theorem State.halt_x (s : State) (r : Stop) : (s.halt r).x = s.x := rfl
@[simp] theorem State.halt_pc (s : State) (r : Stop) : (s.halt r).pc = s.pc := rfl
@[simp] theorem State.halt_f (s : State) (r : Stop) : (s.halt r).f = s.f := rfl
@[simp] theorem State.halt_fcsr8 (s : State) (r : Stop) : (s.halt r).fcsr8 = s.fcsr8 := rfl
@[simp] theorem State.halt_vr (s : State) (r : Stop) : (s.halt r).vr = s.vr := rfl
@[simp] theorem State.halt_vtype (s : State) (r : Stop) : (s.halt r).vtype = s.vtype := rfl
@[simp] theorem State.halt_vl (s : State) (r : Stop) : (s.halt r).vl = s.vl := rfl
@[simp] theorem State.halt_vstart (s : State) (r : Stop) : (s.halt r).vstart = s.vstart := rfl
@[simp] theorem State.halt_mem (s : State) (r : Stop) : (s.halt r).mem = s.mem := rfl
@[simp] theorem State.halt_dirty (s : State) (r : Stop) : (s.halt r).dirty = s.dirty := rfl
@[simp] theorem State.halt_stop (s : State) (r : Stop) : (s.halt r).stop = some r := rfl
@[simp] theorem State.halt_hostStop (s : State) (r : Stop) : (s.halt r).hostStop = s.hostStop := rfl
@[simp] theorem State.halt_draws (s : State) (r : Stop) : (s.halt r).draws = s.draws := rfl
@[simp] theorem State.halt_params (s : State) (r : Stop) : (s.halt r).params = s.params := rfl
@[simp] theorem State.halt_readX (s : State) (r : Stop) (q : XReg) : (s.halt r).readX q = s.readX q := rfl
@[simp] theorem State.halt_ea (s : State) (r : Stop) (q : XReg) (i : BitVec 12) : (s.halt r).ea q i = s.ea q i := rfl
@[simp] theorem State.halt_readF (s : State) (r : Stop) (q : FReg) : (s.halt r).readF q = s.readF q := rfl
@[simp] theorem State.halt_readS (s : State) (r : Stop) (q : FReg) : (s.halt r).readS q = s.readS q := rfl
@[simp] theorem State.halt_sew (s : State) (r : Stop) : (s.halt r).sew = s.sew := rfl
@[simp] theorem State.halt_accessCheck (s : State) (r : Stop) (c : Word) (k : Nat) : (s.halt r).accessCheck c k = s.accessCheck c k := rfl

/-! ## advance -/

@[simp] theorem State.advance_x (s : State) : (s.advance).x = s.x := rfl
@[simp] theorem State.advance_pc (s : State) : (s.advance).pc = s.pc + 4 := rfl
@[simp] theorem State.advance_f (s : State) : (s.advance).f = s.f := rfl
@[simp] theorem State.advance_fcsr8 (s : State) : (s.advance).fcsr8 = s.fcsr8 := rfl
@[simp] theorem State.advance_vr (s : State) : (s.advance).vr = s.vr := rfl
@[simp] theorem State.advance_vtype (s : State) : (s.advance).vtype = s.vtype := rfl
@[simp] theorem State.advance_vl (s : State) : (s.advance).vl = s.vl := rfl
@[simp] theorem State.advance_vstart (s : State) : (s.advance).vstart = s.vstart := rfl
@[simp] theorem State.advance_mem (s : State) : (s.advance).mem = s.mem := rfl
@[simp] theorem State.advance_dirty (s : State) : (s.advance).dirty = s.dirty := rfl
@[simp] theorem State.advance_stop (s : State) : (s.advance).stop = s.stop := rfl
@[simp] theorem State.advance_hostStop (s : State) : (s.advance).hostStop = s.hostStop := rfl
@[simp] theorem State.advance_draws (s : State) : (s.advance).draws = s.draws := rfl
@[simp] theorem State.advance_params (s : State) : (s.advance).params = s.params := rfl
@[simp] theorem State.advance_readX (s : State) (q : XReg) : (s.advance).readX q = s.readX q := rfl
@[simp] theorem State.advance_ea (s : State) (q : XReg) (i : BitVec 12) : (s.advance).ea q i = s.ea q i := rfl
@[simp] theorem State.advance_readF (s : State) (q : FReg) : (s.advance).readF q = s.readF q := rfl
@[simp] theorem State.advance_readS (s : State) (q : FReg) : (s.advance).readS q = s.readS q := rfl
@[simp] theorem State.advance_sew (s : State) : (s.advance).sew = s.sew := rfl
@[simp] theorem State.advance_accessCheck (s : State) (c : Word) (k : Nat) : (s.advance).accessCheck c k = s.accessCheck c k := rfl
@[simp] theorem State.advance_halted (s : State) : (s.advance).halted = s.halted := rfl

/-! ## csrWrite: only fcsr8 and vstart can change -/

@[simp] theorem State.csrWrite_x (s : State) (n : BitVec 12) (v : Word) : (s.csrWrite n v).x = s.x := by
  unfold State.csrWrite; repeat' split
  all_goals rfl
@[simp] theorem State.csrWrite_pc (s : State) (n : BitVec 12) (v : Word) : (s.csrWrite n v).pc = s.pc := by
  unfold State.csrWrite; repeat' split
  all_goals rfl
@[simp] theorem State.csrWrite_f (s : State) (n : BitVec 12) (v : Word) : (s.csrWrite n v).f = s.f := by
  unfold State.csrWrite; repeat' split
  all_goals rfl
@[simp] theorem State.csrWrite_vr (s : State) (n : BitVec 12) (v : Word) : (s.csrWrite n v).vr = s.vr := by
  unfold State.csrWrite; repeat' split
  all_goals rfl
@[simp] theorem State.csrWrite_vtype (s : State) (n : BitVec 12) (v : Word) : (s.csrWrite n v).vtype = s.vtype := by
  unfold State.csrWrite; repeat' split
  all_goals rfl
@[simp] theorem State.csrWrite_vl (s : State) (n : BitVec 12) (v : Word) : (s.csrWrite n v).vl = s.vl := by
  unfold State.csrWrite; repeat' split
  all_goals rfl
@[simp] theorem State.csrWrite_mem (s : State) (n : BitVec 12) (v : Word) : (s.csrWrite n v).mem = s.mem := by
  unfold State.csrWrite; repeat' split
  all_goals rfl
@[simp] theorem State.csrWrite_dirty (s : State) (n : BitVec 12) (v : Word) : (s.csrWrite n v).dirty = s.dirty := by
  unfold State.csrWrite; repeat' split
  all_goals rfl
@[simp] theorem State.csrWrite_stop (s : State) (n : BitVec 12) (v : Word) : (s.csrWrite n v).stop = s.stop := by
  unfold State.csrWrite; repeat' split
  all_goals rfl
@[simp] theorem State.csrWrite_hostStop (s : State) (n : BitVec 12) (v : Word) : (s.csrWrite n v).hostStop = s.hostStop := by
  unfold State.csrWrite; repeat' split
  all_goals rfl
@[simp] theorem State.csrWrite_draws (s : State) (n : BitVec 12) (v : Word) : (s.csrWrite n v).draws = s.draws := by
  unfold State.csrWrite; repeat' split
  all_goals rfl
@[simp] theorem State.csrWrite_params (s : State) (n : BitVec 12) (v : Word) : (s.csrWrite n v).params = s.params := by
  unfold State.csrWrite; repeat' split
  all_goals rfl

/-! ## The memory checks read params alone -/

theorem State.accessCheck_congr {s t : State} (h : t.params = s.params) (a : Word) (n : Nat) :
    t.accessCheck a n = s.accessCheck a n := by
  simp only [State.accessCheck, h]

end Sys2Proof.Machine
end

