-- ==== Sys2Proof/Laws/Registers.lean ====
section
/-! SUPPORT. Read after write for the two scalar register files, x0, and NaN-boxing. -/

namespace Sys2Proof.Machine

@[simp] theorem State.readX_zero (s : State) : s.readX 0#5 = 0#32 := rfl

@[simp] theorem State.setX_zero (s : State) (v : Word) : s.setX 0#5 v = s := rfl

theorem regIndex_ne {n : Nat} {a b : BitVec n} (h : a ≠ b) : a.toNat ≠ b.toNat :=
  fun e => h (BitVec.eq_of_toNat_eq e)

/-- All that a write of an integer register does to the integer registers (R18, R19). -/
theorem State.readX_setX (s : State) (rd r : XReg) (v : Word) :
    (s.setX rd v).readX r = if r = rd ∧ rd ≠ 0#5 then v else s.readX r := by
  by_cases h0 : rd = 0#5
  · subst h0; simp
  · by_cases hr : r = 0#5
    · subst hr; simp [eq_comm, h0]
    · by_cases he : r = rd
      · subst he; simp [State.readX, State.setX, h0]
      · simp [State.readX, State.setX, h0, hr, he, Ne.symm (regIndex_ne he)]

@[simp] theorem State.readX_setX_self (s : State) (rd : XReg) (v : Word) (h : rd ≠ 0#5) : (s.setX rd v).readX rd = v := by
  simp [State.readX_setX, h]

theorem State.readX_setX_ne (s : State) {rd r : XReg} (v : Word) (h : r ≠ rd) : (s.setX rd v).readX r = s.readX r := by
  simp [State.readX_setX, h]

/-- A register write leaves the storage of x0 alone. -/
@[simp] theorem State.setX_x0 (s : State) (rd : XReg) (v : Word) : (s.setX rd v).x[0] = s.x[0] := by
  by_cases h0 : rd = 0#5
  · subst h0; rfl
  · have : rd.toNat ≠ 0 := regIndex_ne (b := 0#5) h0
    simp [State.setX, h0, this]

@[simp] theorem State.clearX0_x0 (s : State) : s.clearX0.x[0] = 0 := by simp

@[simp] theorem State.clearX0_readX (s : State) (r : XReg) : s.clearX0.readX r = s.readX r := by
  by_cases hr : r = 0#5
  · simp [hr]
  · have : r.toNat ≠ 0 := regIndex_ne (b := 0#5) hr
    simp [State.readX, hr, Ne.symm this]

/-- A write that replaces the whole integer register file and nothing else. -/
theorem State.setX_frame (s : State) (rd : XReg) (v : Word) : { s.setX rd v with x := s.x } = s := rfl

/-- All that a write of a floating-point register does to the floating-point registers (R22). -/
theorem State.readF_setF (s : State) (rd r : FReg) (v : Dword) : (s.setF rd v).readF r = if r = rd then v else s.readF r := by
  by_cases he : r = rd
  · subst he; simp [State.readF]
  · simp [State.readF, he, Ne.symm (regIndex_ne he)]

theorem State.readF_setS (s : State) (rd r : FReg) (v : Word) :
    (s.setS rd v).readF r = if r = rd then box v else s.readF r := State.readF_setF s rd r (box v)

/-- A boxed single reads back as itself (R137). -/
@[simp] theorem unbox_box (b : Word) : unbox (box b) = b := by
  have h1 : (0xFFFFFFFF#32 ++ b).extractLsb' 32 32 = 0xFFFFFFFF#32 := BitVec.extractLsb'_append_eq_left
  have h2 : (0xFFFFFFFF#32 ++ b).extractLsb' 0 32 = b := BitVec.extractLsb'_append_eq_right
  simp only [unbox, box, h1, h2, if_true]

theorem State.readS_setS_self (s : State) (rd : FReg) (v : Word) : (s.setS rd v).readS rd = v := by
  simp [State.readS, State.readF_setS]

end Sys2Proof.Machine
end

