-- ==== Sys2Proof/Laws/Vector.lean ====
section
/-! SUPPORT. The vector register file: bytes and elements after a write, and what an element loop does. -/

namespace Sys2Proof.Machine

/-! ## Bytes -/

/-- The bytes of a register with one byte replaced. -/
theorem extract_withByte (r : BitVec 128) (k j : Nat) (b : Byte) (hj : j < 16) :
    (withByte r k b).extractLsb' (8 * j) 8 = if j = k then b else r.extractLsb' (8 * j) 8 := by
  have hm (i : Nat) (hi : i < 8) : (withByte r k b).getLsbD (8 * j + i) = if j = k then b.getLsbD i else r.getLsbD (8 * j + i) := by
    have hl : 8 * j + i < 128 := by omega
    have hff (n : Nat) : (0xFF#128).getLsbD n = decide (n < 8) := by
      rw [show (0xFF#128) = (BitVec.allOnes 8).setWidth 128 from rfl]
      simp only [BitVec.getLsbD_setWidth, BitVec.getLsbD_allOnes]
      by_cases hn : n < 8 <;> simp [hn]; omega
    simp only [withByte, BitVec.getLsbD_or, BitVec.getLsbD_and, BitVec.getLsbD_not, BitVec.getLsbD_shiftLeft, hff,
      BitVec.getLsbD_setWidth, hl]
    by_cases he : j = k
    · subst he
      simp [hi]
      omega
    · by_cases hlt : 8 * j + i < 8 * k
      · simp [he, hlt]
      · have h8 : ¬ 8 * j + i - 8 * k < 8 := by omega
        have hb : b.getLsbD (8 * j + i - 8 * k) = false := BitVec.getLsbD_of_ge _ _ (by omega)
        simp [he, hlt, h8, hb]
  apply BitVec.eq_of_getLsbD_eq
  intro i hi
  rw [BitVec.getLsbD_extractLsb', hm i hi]
  by_cases he : j = k <;> simp [he, hi]

theorem VRegs.byte_setByte (v : VRegs) (o c : Nat) (b : Byte) (h : o < Config.vrBytes) :
    VRegs.byte (VRegs.setByte v o b) c = if c = o then b else VRegs.byte v c := by
  simp only [Config.vrBytes] at h
  have ho : o / 16 < 32 := by omega
  simp only [VRegs.byte, VRegs.setByte, Config.vlenb, Vector.getElem?_setIfInBounds]
  by_cases hr : o / 16 = c / 16
  · rw [if_pos hr, if_pos ho, ← hr, Option.getD_some, extract_withByte _ _ _ _ (Nat.mod_lt _ (by decide))]
    by_cases he : c = o
    · simp [he]
    · rw [if_neg he, if_neg (by omega)]
  · rw [if_neg hr, if_neg (by rintro rfl; exact hr rfl)]

theorem VRegs.byte_setByte_ne (v : VRegs) {o c : Nat} (b : Byte) (h : c ≠ o) :
    VRegs.byte (VRegs.setByte v o b) c = VRegs.byte v c := by
  by_cases ho : o < Config.vrBytes
  · rw [VRegs.byte_setByte v o c b ho, if_neg h]
  · simp only [Config.vrBytes] at ho
    rw [VRegs.setByte, Vector.setIfInBounds_eq_of_size_le (by simp only [Config.vlenb]; omega)]

/-- Every byte outside a written run keeps its value. -/
theorem VRegs.byte_setBytes_outside (v : VRegs) (o c : Nat) (bs : List Byte) (h : c < o ∨ o + bs.length ≤ c) :
    VRegs.byte (VRegs.setBytes v o bs) c = VRegs.byte v c := by
  induction bs generalizing v o with
  | nil => rfl
  | cons b bs ih =>
    simp only [List.length_cons] at h
    simp only [VRegs.setBytes]
    rw [ih _ _ (by omega)]
    exact VRegs.byte_setByte_ne v b (by omega)

theorem VRegs.byte_setBytes_inside (v : VRegs) (o i : Nat) (bs : List Byte) (h : i < bs.length)
    (hb : o + bs.length ≤ Config.vrBytes) : VRegs.byte (VRegs.setBytes v o bs) (o + i) = bs[i] := by
  induction bs generalizing v o i with
  | nil => simp at h
  | cons b bs ih =>
    simp only [List.length_cons] at hb
    simp only [VRegs.setBytes]
    cases i with
    | zero =>
      rw [VRegs.byte_setBytes_outside _ _ _ _ (by omega)]
      rw [VRegs.byte_setByte _ _ _ _ (by omega)]; simp
    | succ i =>
      have := ih (VRegs.setByte v o b) (o + 1) i (by simpa using h) (by omega)
      rw [show o + (i + 1) = o + 1 + i by omega, this]
      rfl

theorem VRegs.bytes_congr {v v' : VRegs} {o n : Nat} (h : ∀ c, o ≤ c → c < o + n → VRegs.byte v c = VRegs.byte v' c) :
    VRegs.bytes v o n = VRegs.bytes v' o n := by
  induction n generalizing o with
  | zero => rfl
  | succ n ih =>
    simp only [VRegs.bytes]
    rw [h o (by omega) (by omega), ih fun c h1 h2 => h c (by omega) (by omega)]

theorem VRegs.bytes_setBytes (v : VRegs) (o : Nat) (bs : List Byte) (h : o + bs.length ≤ Config.vrBytes) :
    VRegs.bytes (VRegs.setBytes v o bs) o bs.length = bs := by
  induction bs generalizing v o with
  | nil => rfl
  | cons b bs ih =>
    have h0 := VRegs.byte_setBytes_inside v o 0 (b :: bs) (by simp) h
    simp only [List.length_cons] at h
    exact congr (congrArg List.cons h0) (ih (VRegs.setByte v o b) (o + 1) (by omega))

/-- Two register files with the same 512 bytes are the same. -/
theorem VRegs.ext_byte {v v' : VRegs} (h : ∀ c, c < Config.vrBytes → VRegs.byte v c = VRegs.byte v' c) : v = v' := by
  ext r hr i hi
  have hb := congrArg (fun x : Byte => x.getLsbD (i % 8)) (h (16 * r + i / 8) (by simp only [Config.vrBytes]; omega))
  simp only [VRegs.byte, Config.vlenb, show (16 * r + i / 8) / 16 = r by omega, show (16 * r + i / 8) % 16 = i / 8 by omega,
    BitVec.getLsbD_extractLsb', show 8 * (i / 8) + i % 8 = i by omega, Vector.getElem?_eq_getElem hr, Option.getD_some] at hb
  rw [← BitVec.getLsbD_eq_getElem, ← BitVec.getLsbD_eq_getElem]
  simpa [show i % 8 < 8 by omega] using hb

/-! ## Elements -/

/-- The bytes of an element of a group based at r that lie past the end of the file: none, by this bound. -/
def elemInside (r : VReg) (el w : Nat) : Prop := elemOffset r el w + w ≤ Config.vrBytes

theorem VRegs.elem_setElem (v : VRegs) (r : VReg) (el w : Nat) (val : BitVec (8 * w)) (h : elemInside r el w) :
    VRegs.elem (VRegs.setElem v r el w val) r el w = val := by
  have hb := VRegs.bytes_setBytes v (elemOffset r el w) (leBytes w val.toNat) (by simpa [elemInside] using h)
  rw [leBytes_length] at hb
  simp only [VRegs.elem, VRegs.setElem, hb, ofNat_leNat_leBytes]

/-- An element keeps its value when no byte of it is written. -/
theorem VRegs.elem_congr {v v' : VRegs} {r : VReg} {el w : Nat}
    (h : ∀ c, elemOffset r el w ≤ c → c < elemOffset r el w + w → VRegs.byte v c = VRegs.byte v' c) :
    VRegs.elem v r el w = VRegs.elem v' r el w := by
  simp only [VRegs.elem, VRegs.bytes_congr h]

theorem VRegs.byte_setElem_outside (v : VRegs) (r : VReg) (el w c : Nat) (val : BitVec (8 * w))
    (h : c < elemOffset r el w ∨ elemOffset r el w + w ≤ c) : VRegs.byte (VRegs.setElem v r el w val) c = VRegs.byte v c :=
  VRegs.byte_setBytes_outside v _ c _ (by simpa using h)

theorem elemOffset_succ (r : VReg) (el w : Nat) : elemOffset r (el + 1) w = elemOffset r el w + w := by
  simp only [elemOffset, Nat.add_mul, Nat.one_mul, Nat.add_assoc]

theorem elemOffset_add (r : VReg) (el n w : Nat) : elemOffset r (el + n) w = elemOffset r el w + n * w := by
  simp only [elemOffset, Nat.add_mul, Nat.add_assoc]

/-! ## Element loops -/

/-- A loop of n + 1 elements is the loop of n elements and then the element after them. -/
theorem elementLoop_last (vd : VReg) (w : Nat) (value : VRegs → Nat → BitVec (8 * w)) (n el : Nat) (v : VRegs) :
    elementLoop vd w value (n + 1) el v =
      let u := elementLoop vd w value n el v
      VRegs.setElem u vd (el + n) w (value u (el + n)) := by
  induction n generalizing el v with
  | zero => rfl
  | succ n ih =>
    rw [elementLoop, ih]
    simp only [elementLoop, show el + 1 + n = el + (n + 1) by omega]

/-- An element loop writes no byte outside its elements. -/
theorem elementLoop_byte_outside (vd : VReg) (w : Nat) (value : VRegs → Nat → BitVec (8 * w)) (n el c : Nat) (v : VRegs)
    (h : c < elemOffset vd el w ∨ elemOffset vd (el + n) w ≤ c) :
    VRegs.byte (elementLoop vd w value n el v) c = VRegs.byte v c := by
  induction n generalizing el v with
  | zero => rfl
  | succ n ih =>
    have e1 := elemOffset_succ vd el w
    have e2 := elemOffset_add vd el (n + 1) w
    have e3 := elemOffset_add vd (el + 1) n w
    have e4 : (n + 1) * w = n * w + w := by rw [Nat.add_mul, Nat.one_mul]
    simp only [elementLoop]
    rw [ih (el + 1) _ (by omega), VRegs.byte_setElem_outside _ _ _ _ _ _ (by omega)]

/-- Element j of the destination holds what `value` gives for it, when writing an earlier element does not change what
`value` gives for a later one below N: no source group overlaps the destination group, or one is the destination group. -/
theorem elementLoop_elem_below (vd : VReg) (w N : Nat) (value : VRegs → Nat → BitVec (8 * w))
    (hv : ∀ v e x j, e < j → j < N → value (VRegs.setElem v vd e w x) j = value v j) (n el j : Nat) (v : VRegs)
    (h1 : el ≤ j) (h2 : j < el + n) (hN : el + n ≤ N) (hin : elemOffset vd (el + n) w ≤ Config.vrBytes) :
    VRegs.elem (elementLoop vd w value n el v) vd j w = value v j := by
  induction n generalizing el v with
  | zero => omega
  | succ n ih =>
    simp only [elementLoop]
    by_cases he : j = el
    · subst he
      have e1 := elemOffset_succ vd j w
      have e2 := elemOffset_add vd j (n + 1) w
      have e4 : (n + 1) * w = n * w + w := by rw [Nat.add_mul, Nat.one_mul]
      rw [VRegs.elem_congr (v' := VRegs.setElem v vd j w (value v j)), VRegs.elem_setElem]
      · simp only [elemInside]; omega
      · intro c _ hc
        exact elementLoop_byte_outside _ _ _ _ _ _ _ (by omega)
    · rw [ih (el + 1) _ (by omega) (by omega) (by omega) (by rwa [show el + 1 + n = el + (n + 1) by omega]),
        hv _ _ _ _ (by omega) (by omega)]

/-- The same when no earlier element changes what `value` gives for any later one. -/
theorem elementLoop_elem (vd : VReg) (w : Nat) (value : VRegs → Nat → BitVec (8 * w))
    (hv : ∀ v el x j, el < j → value (VRegs.setElem v vd el w x) j = value v j)
    (n el j : Nat) (v : VRegs) (h1 : el ≤ j) (h2 : j < el + n) (hin : elemOffset vd (el + n) w ≤ Config.vrBytes) :
    VRegs.elem (elementLoop vd w value n el v) vd j w = value v j :=
  elementLoop_elem_below vd w (el + n) value (fun v e x j h _ => hv v e x j h) n el j v h1 h2 le_rfl hin

/-- The running sum of a reduction, as a sum of a list. -/
theorem reduceLoop_eq_sum {S : Nat} (value : Nat → BitVec S) (n el : Nat) (acc : BitVec S) :
    reduceLoop value n el acc = acc + ((List.range' el n).map value).sum := by
  induction n generalizing el acc with
  | zero => simp [reduceLoop]
  | succ n ih => simp [reduceLoop, ih, List.range'_succ, BitVec.add_assoc]

end Sys2Proof.Machine
end

