-- ==== Sys2Proof/Laws/Ops.lean ====
section
/-! SUPPORT. One lemma per shared operation that says all it can do: the memory primitives, the vector checks, the
element-wise instructions and the vector load and store loops. -/

namespace Sys2Proof.Machine

/-! ## The memory primitives -/

theorem State.accessCheck_eq_none (s : State) (a : Word) (n : Nat) :
    s.accessCheck a n = none ↔ a.toNat % n = 0 ∧ s.params.admits a.toNat n = true := by
  unfold State.accessCheck
  split
  · simp_all
  · split <;> simp_all

/-- The one event of a refused access: misaligned first, then not admitted (R36, R279). -/
theorem State.accessCheck_eq_some (s : State) (a : Word) (n : Nat) (k : Stop) :
    s.accessCheck a n = some k ↔
      (a.toNat % n ≠ 0 ∧ k = .misalignedAccess a) ∨
      (a.toNat % n = 0 ∧ s.params.admits a.toNat n = false ∧ k = .accessFault a) := by
  unfold State.accessCheck
  by_cases h1 : a.toNat % n = 0
  · by_cases h2 : s.params.admits a.toNat n = true
    · simp [h1, h2]
    · simp [h1, h2, @eq_comm _ k]
  · simp [h1, @eq_comm _ k]

theorem State.memRead_of_none {s : State} {a : Word} {n : Nat} (h : s.accessCheck a n = none) :
    s.memRead a n = .ok (s.loadValue a n) := by simp [State.memRead, h]

theorem State.memRead_of_some {s : State} {a : Word} {n : Nat} {k : Stop} (h : s.accessCheck a n = some k) :
    s.memRead a n = .error k := by simp [State.memRead, h]

theorem State.memWrite_of_none {s : State} {a : Word} {n m : Nat} {v : BitVec m} (h : s.accessCheck a n = none) :
    s.memWrite a n v = .ok (s.storeValue a n v) := by simp [State.memWrite, h]

theorem State.memWrite_of_some {s : State} {a : Word} {n m : Nat} {v : BitVec m} {k : Stop} (h : s.accessCheck a n = some k) :
    s.memWrite a n v = .error k := by simp [State.memWrite, h]

/-- A store leaves every byte outside its run as it was. -/
theorem State.storeValue_read_outside (s : State) (a : Word) (n : Nat) {m : Nat} (v : BitVec m) (c : Nat)
    (h : c < a.toNat ∨ a.toNat + n ≤ c) : (s.storeValue a n v).mem.read c = s.mem.read c :=
  Memory.read_writeBytes_outside _ _ _ _ (by simpa using h)

/-- A load of what was just stored gives it back. -/
theorem State.loadValue_storeValue (s : State) (a : Word) (n : Nat) (v : BitVec (8 * n)) :
    (s.storeValue a n v).loadValue a n = v := by
  have h := Memory.readBytes_writeBytes s.mem a.toNat (leBytes n v.toNat)
  rw [leBytes_length] at h
  simp only [State.loadValue, State.storeValue_mem, h, ofNat_leNat_leBytes]

/-- A load sees a store to other bytes as if it had not happened. -/
theorem State.loadValue_storeValue_outside (s : State) (a b : Word) (n k : Nat) {m : Nat} (v : BitVec m)
    (h : b.toNat + k ≤ a.toNat ∨ a.toNat + n ≤ b.toNat) : (s.storeValue a n v).loadValue b k = s.loadValue b k := by
  simp only [State.loadValue]
  rw [Memory.readBytes_congr fun c h1 h2 => s.storeValue_read_outside a n v c (by omega)]

theorem State.mem_dirty_storeValue (s : State) (a : Word) (n : Nat) {m : Nat} (v : BitVec m) (k : Nat) :
    k ∈ (s.storeValue a n v).dirty ↔ (a.toNat ≤ k ∧ k < a.toNat + n) ∨ k ∈ s.dirty :=
  mem_dirtyAdd s.dirty a.toNat n k

/-- An aligned access of 1, 2 or 4 bytes ends inside the address space. -/
theorem aligned_access_inside (a : Word) (n : Nat) (h : a.toNat % n = 0) (hn : n = 1 ∨ n = 2 ∨ n = 4) :
    a.toNat + n ≤ Config.memBytes := by
  have := a.isLt
  simp only [Config.memBytes]
  rcases hn with rfl | rfl | rfl <;> omega

theorem State.storeValue_wf {s : State} {a : Word} {n m : Nat} (v : BitVec m) (h : a.toNat + n ≤ Config.memBytes)
    (hm : s.mem.wf = true) : (s.storeValue a n v).mem.wf = true :=
  Memory.wf_writeBytes _ (by simpa using h) hm

theorem State.storeValue_dirtyWf {s : State} {a : Word} {n m : Nat} (v : BitVec m) (h : a.toNat + n ≤ Config.memBytes)
    (hd : dirtyWf s.dirty = true) : dirtyWf (s.storeValue a n v).dirty = true :=
  dirtyAdd_wf h hd

/-! ## The vector checks -/

theorem groupCheck_eq_none (vl : Nat) (gs : List (VReg × Nat)) :
    groupCheck vl gs = none ↔ ∀ g ∈ gs, groupTop g.1 g.2 vl ≤ 31 := by
  induction gs with
  | nil => simp [groupCheck]
  | cons g gs ih =>
    simp only [groupCheck, List.mem_cons, forall_eq_or_imp]
    split <;> simp_all

/-- The checks of R210 pass exactly when vstart is 0, EEW is SEW for a load or store, and no group runs past v31. -/
theorem State.vectorCheck_eq_none (s : State) (eew : Option Nat) (gs : List (VReg × Nat)) :
    s.vectorCheck eew gs = none ↔
      s.vstart = 0#32 ∧ (∀ e ∈ eew, e = s.sew) ∧ ∀ g ∈ gs, groupTop g.1 g.2 s.vl.toNat ≤ 31 := by
  unfold State.vectorCheck
  cases eew with
  | none => split <;> simp_all [groupCheck_eq_none]
  | some e =>
    split
    · simp_all
    · by_cases he : e = s.sew <;> simp_all [groupCheck_eq_none]

/-- A group that passes the check keeps its vl elements inside the register file (R25, R210). -/
theorem groupTop_inside {b : VReg} {w vl : Nat} (h : groupTop b w vl ≤ 31) (hv : vl ≠ 0) :
    elemOffset b vl w ≤ Config.vrBytes := by
  simp only [groupTop, if_neg hv, Config.vlenb] at h
  simp only [elemOffset, Config.vlenb, Config.vrBytes]
  have := Nat.div_add_mod (vl * w + 15) 16
  have := Nat.mod_lt (vl * w + 15) (show 16 > 0 by omega)
  omega

/-- The checks pass for the groups of a ready instruction. -/
theorem State.vectorCheck_of_ready {s : State} {bs : List VReg} (h : s.VectorReady bs) :
    s.vectorCheck none (bs.map fun b => (b, s.sew)) = none := by
  refine (s.vectorCheck_eq_none _ _).2 ⟨h.1, by simp, fun g hg => ?_⟩
  obtain ⟨b, hb, rfl⟩ := List.mem_map.1 hg
  have := b.isLt
  simp only [groupTop, Config.vlenb]
  rcases h.2 b hb with hv | hv
  · rw [if_pos hv]
    omega
  · split <;> omega

/-! ## Element-wise instructions -/

/-- An instruction that leaves an element loop in the vector registers runs the loop of R227. -/
theorem runsLoop_of_exec {i : Instr} {s : State} {vd : VReg} {f value : VRegs → Nat → BitVec (8 * s.sew)}
    (h : exec i s = .next (s.setVr (elementLoop vd s.sew f s.vl.toNat 0 s.vr))) (hv : ∀ v el, f v el = value v el) :
    RunsLoop i s vd value := by
  refine ⟨fun n => elementLoop vd s.sew f n 0 s.vr, rfl, fun el _ => ?_, _, h, rfl, rfl⟩
  simpa only [Nat.zero_add, hv] using elementLoop_last vd s.sew f el 0 s.vr

/-- An element of a group that is vd, or shares no byte with it, does not see the writes to earlier elements of vd. -/
theorem elem_setElem_of_sameOrApart {vl w : Nat} {vd r : VReg} (h : SameOrApart vl w vd r) (v : VRegs) {e j : Nat}
    (x : BitVec (8 * w)) (he : e < j) (hj : j < vl) :
    VRegs.elem (VRegs.setElem v vd e w x) r j w = VRegs.elem v r j w := by
  have a1 : e * w + w ≤ j * w := by rw [← Nat.succ_mul]; exact Nat.mul_le_mul_right _ he
  have a2 : j * w + w ≤ vl * w := by rw [← Nat.succ_mul]; exact Nat.mul_le_mul_right _ hj
  refine VRegs.elem_congr fun c c1 c2 => VRegs.byte_setElem_outside _ _ _ _ _ _ ?_
  simp only [elemOffset, Config.vlenb] at *
  rcases h with rfl | h | h <;> omega

/-- What a vector-vector instruction does when its checks pass (R227). -/
theorem runsLoop_of_vectorVV {i : Instr} {s : State} {vd vs2 vs1 : VReg} {op : (S : Nat) → BitVec S → BitVec S → BitVec S}
    {value : VRegs → Nat → BitVec (8 * s.sew)} (h : exec i s = vectorVV vd vs2 vs1 op s)
    (hr : s.VectorReady [vd, vs2, vs1])
    (hv : ∀ v el, op (8 * s.sew) (v.elem vs2 el s.sew) (v.elem vs1 el s.sew) = value v el) : RunsLoop i s vd value := by
  have hc := State.vectorCheck_of_ready hr
  simp only [List.map] at hc
  rw [vectorVV, hc] at h
  exact runsLoop_of_exec h hv

/-- What a vector-scalar or vector-immediate instruction does when its checks pass (R227). -/
theorem runsLoop_of_vectorScalar {i : Instr} {s : State} {vd vs2 : VReg} {operand : (S : Nat) → BitVec S}
    {op : (S : Nat) → BitVec S → BitVec S → BitVec S} {value : VRegs → Nat → BitVec (8 * s.sew)}
    (h : exec i s = vectorScalar vd vs2 operand op s) (hr : s.VectorReady [vd, vs2])
    (hv : ∀ v el, op (8 * s.sew) (v.elem vs2 el s.sew) (operand (8 * s.sew)) = value v el) : RunsLoop i s vd value := by
  have hc := State.vectorCheck_of_ready hr
  simp only [List.map] at hc
  rw [vectorScalar, hc] at h
  exact runsLoop_of_exec h hv

/-- The immediate operand of an arithmetic, logic or compare instruction, at every width (R226). -/
theorem simm5Operand_eq (imm5 : BitVec 5) (S : Nat) : simm5Operand imm5 S = signedImm S imm5 := rfl

/-! ## Vector loads and stores -/

/-- A vector load whose every access is admitted is an element loop over the values in memory, and nothing else. -/
theorem loadLoop_of_admitted (vd : VReg) (w : Nat) (base stride : Word) (n el : Nat) (s : State)
    (h : ∀ j, el ≤ j → j < el + n → s.accessCheck (elementAddr base stride j) w = none) :
    loadLoop vd w base stride n el s =
      s.setVr (elementLoop vd w (fun _ j => s.loadValue (elementAddr base stride j) w) n el s.vr) := by
  induction n generalizing el s with
  | zero => rfl
  | succ n ih =>
    simp only [loadLoop, State.memRead_of_none (h el (by omega) (by omega)), elementLoop]
    rw [ih _ _ fun j h1 h2 => by simpa using h j (by omega) (by omega)]
    rfl

/-- A vector load that is refused at its k-th access keeps the elements before it and ends the run there (R212). -/
theorem loadLoop_of_refused (vd : VReg) (w : Nat) (base stride : Word) (k n el : Nat) (s : State) (r : Stop)
    (h : ∀ j, el ≤ j → j < el + k → s.accessCheck (elementAddr base stride j) w = none)
    (hk : s.accessCheck (elementAddr base stride (el + k)) w = some r) (hn : k < n) :
    loadLoop vd w base stride n el s = (loadLoop vd w base stride k el s).raise r := by
  induction k generalizing n el s with
  | zero =>
    obtain ⟨n, rfl⟩ : ∃ m, n = m + 1 := ⟨n - 1, by omega⟩
    rw [Nat.add_zero] at hk
    simp only [loadLoop, State.memRead_of_some hk]
  | succ k ih =>
    obtain ⟨n, rfl⟩ : ∃ m, n = m + 1 := ⟨n - 1, by omega⟩
    simp only [loadLoop, State.memRead_of_none (h el (by omega) (by omega))]
    exact ih _ _ _ (fun j h1 h2 => by simpa using h j (by omega) (by omega))
      (by simpa [show el + 1 + k = el + (k + 1) by omega] using hk) (by omega)

/-- The store of one element of a vector store. -/
def storeElement (vs3 : VReg) (w : Nat) (base stride : Word) (s : State) (j : Nat) : State :=
  s.storeValue (elementAddr base stride j) w (s.vr.elem vs3 j w)

/-- A vector store whose every access is admitted makes its stores in ascending order, and nothing else. -/
theorem storeLoop_of_admitted (vs3 : VReg) (w : Nat) (base stride : Word) (n el : Nat) (s : State)
    (h : ∀ j, el ≤ j → j < el + n → s.accessCheck (elementAddr base stride j) w = none) :
    storeLoop vs3 w base stride n el s = (List.range' el n).foldl (storeElement vs3 w base stride) s := by
  induction n generalizing el s with
  | zero => rfl
  | succ n ih =>
    simp only [storeLoop, State.memWrite_of_none (h el (by omega) (by omega)), List.range'_succ, List.foldl_cons]
    exact ih _ _ fun j h1 h2 => by simpa using h j (by omega) (by omega)

/-- A vector store that is refused at its k-th access keeps the stores before it and ends the run there (R212). -/
theorem storeLoop_of_refused (vs3 : VReg) (w : Nat) (base stride : Word) (k n el : Nat) (s : State) (r : Stop)
    (h : ∀ j, el ≤ j → j < el + k → s.accessCheck (elementAddr base stride j) w = none)
    (hk : s.accessCheck (elementAddr base stride (el + k)) w = some r) (hn : k < n) :
    storeLoop vs3 w base stride n el s = (storeLoop vs3 w base stride k el s).raise r := by
  induction k generalizing n el s with
  | zero =>
    obtain ⟨n, rfl⟩ : ∃ m, n = m + 1 := ⟨n - 1, by omega⟩
    rw [Nat.add_zero] at hk
    simp only [storeLoop, State.memWrite_of_some hk]
  | succ k ih =>
    obtain ⟨n, rfl⟩ : ∃ m, n = m + 1 := ⟨n - 1, by omega⟩
    simp only [storeLoop, State.memWrite_of_none (h el (by omega) (by omega))]
    exact ih _ _ _ (fun j h1 h2 => by simpa using h j (by omega) (by omega))
      (by simpa [show el + 1 + k = el + (k + 1) by omega] using hk) (by omega)

/-- The accesses of a loop of n elements go through up to the first that is refused, if one is. -/
theorem accesses_until_refused (s : State) (w : Nat) (base stride : Word) (n : Nat) : ∃ k, k ≤ n ∧
    (∀ j, j < k → s.accessCheck (elementAddr base stride j) w = none) ∧
    (k = n ∨ k < n ∧ ∃ r, s.accessCheck (elementAddr base stride k) w = some r) := by
  induction n with
  | zero => exact ⟨0, le_rfl, fun _ h => absurd h (Nat.not_lt_zero _), .inl rfl⟩
  | succ n ih =>
    obtain ⟨k, hk, hok, rfl | hr⟩ := ih
    · cases hc : s.accessCheck (elementAddr base stride k) w with
      | some r => exact ⟨k, by omega, hok, .inr ⟨by omega, r, hc⟩⟩
      | none =>
        refine ⟨k + 1, le_rfl, fun j hj => ?_, .inl rfl⟩
        rcases Nat.lt_succ_iff_lt_or_eq.1 hj with h | rfl
        · exact hok j h
        · exact hc
    · exact ⟨k, by omega, hok, .inr ⟨by omega, hr.2⟩⟩

/-- A vector load is the element loop of its k admitted accesses, and the event of the first refused one (R211, R212). -/
theorem loadLoop_eq (vd : VReg) (w : Nat) (base stride : Word) (n : Nat) (s : State) : ∃ k, k ≤ n ∧
    (∀ j, j < k → s.accessCheck (elementAddr base stride j) w = none) ∧
    let u := s.setVr (elementLoop vd w (fun _ j => s.loadValue (elementAddr base stride j) w) k 0 s.vr)
    (k = n ∧ loadLoop vd w base stride n 0 s = u ∨
      k < n ∧ ∃ r, s.accessCheck (elementAddr base stride k) w = some r ∧ loadLoop vd w base stride n 0 s = u.raise r) := by
  obtain ⟨k, hk, hok, h⟩ := accesses_until_refused s w base stride n
  have e := loadLoop_of_admitted vd w base stride k 0 s fun j _ hj => hok j (by omega)
  refine ⟨k, hk, hok, ?_⟩
  rcases h with rfl | ⟨hn, r, hr⟩
  · exact .inl ⟨rfl, e⟩
  · refine .inr ⟨hn, r, hr, ?_⟩
    rw [loadLoop_of_refused vd w base stride k n 0 s r (fun j _ hj => hok j (by omega)) (by simpa using hr) hn, e]

/-- The same for a vector store (R211, R212). -/
theorem storeLoop_eq (vs3 : VReg) (w : Nat) (base stride : Word) (n : Nat) (s : State) : ∃ k, k ≤ n ∧
    (∀ j, j < k → s.accessCheck (elementAddr base stride j) w = none) ∧
    let u := (List.range' 0 k).foldl (storeElement vs3 w base stride) s
    (k = n ∧ storeLoop vs3 w base stride n 0 s = u ∨
      k < n ∧ ∃ r, s.accessCheck (elementAddr base stride k) w = some r ∧ storeLoop vs3 w base stride n 0 s = u.raise r) := by
  obtain ⟨k, hk, hok, h⟩ := accesses_until_refused s w base stride n
  have e := storeLoop_of_admitted vs3 w base stride k 0 s fun j _ hj => hok j (by omega)
  refine ⟨k, hk, hok, ?_⟩
  rcases h with rfl | ⟨hn, r, hr⟩
  · exact .inl ⟨rfl, e⟩
  · refine .inr ⟨hn, r, hr, ?_⟩
    rw [storeLoop_of_refused vs3 w base stride k n 0 s r (fun j _ hj => hok j (by omega)) (by simpa using hr) hn, e]

/-- The stores of n elements change memory and Dirty alone, and those in the bytes of the elements alone. -/
theorem storeElements_changes (vs3 : VReg) (w : Nat) (base stride : Word) (n el : Nat) (s : State) :
    let u := (List.range' el n).foldl (storeElement vs3 w base stride) s
    (∃ m d, u = { s with mem := m, dirty := d }) ∧
    (∀ c, c ∈ u.dirty ↔ (∃ j, el ≤ j ∧ j < el + n ∧ (elementAddr base stride j).toNat ≤ c ∧
      c < (elementAddr base stride j).toNat + w) ∨ c ∈ s.dirty) ∧
    ∀ c, (∀ j, el ≤ j → j < el + n → c < (elementAddr base stride j).toNat ∨ (elementAddr base stride j).toNat + w ≤ c) →
      u.mem.read c = s.mem.read c := by
  induction n generalizing el s with
  | zero => exact ⟨⟨s.mem, s.dirty, rfl⟩, fun c => ⟨.inr, fun h => h.resolve_left fun ⟨j, h1, h2, _⟩ => by omega⟩, fun _ _ => rfl⟩
  | succ n ih =>
    obtain ⟨⟨m, d, h⟩, hd, hm⟩ := ih (el + 1) (storeElement vs3 w base stride s el)
    simp only [List.range'_succ, List.foldl_cons]
    refine ⟨⟨m, d, h⟩, fun c => ?_, fun c hc => ?_⟩
    · rw [hd, storeElement, State.mem_dirty_storeValue]
      constructor
      · rintro (⟨j, h1, h2, h3⟩ | h3 | h3)
        · exact .inl ⟨j, by omega, by omega, h3⟩
        · exact .inl ⟨el, by omega, by omega, h3⟩
        · exact .inr h3
      · rintro (⟨j, h1, h2, h3⟩ | h3)
        · rcases Nat.eq_or_lt_of_le h1 with rfl | h1
          · exact .inr (.inl h3)
          · exact .inl ⟨j, by omega, by omega, h3⟩
        · exact .inr (.inr h3)
    · rw [hm c fun j h1 h2 => hc j (by omega) (by omega), storeElement,
        State.storeValue_read_outside _ _ _ _ _ (hc el (by omega) (by omega))]

/-- A property that the checks' admitted writes and the ending of the run keep is kept by a whole vector load. -/
theorem loadLoop_induction {P : State → Prop} (vd : VReg) (w : Nat) (base stride : Word)
    (hset : ∀ s v, P s → P (s.setVr v)) (hraise : ∀ s r, P s → P (s.raise r)) (n el : Nat) (s : State) (h : P s) :
    P (loadLoop vd w base stride n el s) := by
  induction n generalizing el s with
  | zero => exact h
  | succ n ih =>
    simp only [loadLoop, State.memRead]
    cases s.accessCheck (elementAddr base stride el) w with
    | none => exact ih _ _ (hset _ _ h)
    | some r => exact hraise _ _ h

/-- The same for a whole vector store. -/
theorem storeLoop_induction {P : State → Prop} (vs3 : VReg) (w : Nat) (base stride : Word)
    (hstore : ∀ s a (v : BitVec (8 * w)), s.accessCheck a w = none → P s → P (s.storeValue a w v))
    (hraise : ∀ s r, P s → P (s.raise r)) (n el : Nat) (s : State) (h : P s) : P (storeLoop vs3 w base stride n el s) := by
  induction n generalizing el s with
  | zero => exact h
  | succ n ih =>
    simp only [storeLoop, State.memWrite]
    cases hc : s.accessCheck (elementAddr base stride el) w with
    | none => exact ih _ _ (hstore _ _ _ hc h)
    | some r => exact hraise _ _ h

end Sys2Proof.Machine
end

