-- ==== Sys2Proof/Laws/Step.lean ====
section
/-! SUPPORT. What a step does, case by case, so that no proof unfolds `step` or `State.fetch`. -/

namespace Sys2Proof.Machine

/-! ## Fetch and retire -/

/-- Fetching gives an instruction exactly when pc is aligned, no byte of the word is Dirty, the access is admitted and
the word decodes (R7, R279). -/
theorem State.fetch_eq_ok (s : State) (i : Instr) : s.fetch = .ok i ↔
    s.pc.extractLsb' 0 2 = 0#2 ∧ dirtyHits s.dirty s.pc.toNat 4 = false ∧ s.accessCheck s.pc 4 = none ∧
    decode (s.loadValue s.pc 4) = .ok i := by
  unfold State.fetch
  split
  · simp_all
  · split
    · simp_all
    · cases hc : s.accessCheck s.pc 4 with
      | some k => simp [State.memRead_of_some hc]
      | none =>
        simp only [State.memRead_of_none hc]
        cases hd : decode (s.loadValue s.pc 4) <;> simp_all

/-- The event of a failed fetch, in the order of R279. -/
theorem State.fetch_eq_error {s : State} {k : Stop} (h : s.fetch = .error k) :
    k = .misalignedFetch s.pc ∨ k = .staleFetch s.pc ∨ s.accessCheck s.pc 4 = some k ∨
    k = .illegalInstruction (s.loadValue s.pc 4) := by
  unfold State.fetch at h
  split at h
  · cases h; exact .inl rfl
  · split at h
    · cases h; exact .inr (.inl rfl)
    · cases hc : s.accessCheck s.pc 4 with
      | some r => rw [State.memRead_of_some hc] at h; cases h; exact .inr (.inr (.inl rfl))
      | none =>
        simp only [State.memRead_of_none hc] at h
        cases hd : decode (s.loadValue s.pc 4) with
        | ok i => simp [hd] at h
        | error e => simp only [hd] at h; cases h; exact .inr (.inr (.inr rfl))

theorem State.retire_of_running {s : State} (h : s.stop = none) : s.retire = s.clearX0 := by
  simp [State.retire, State.halted, h]

theorem State.retire_of_stopped {s : State} {r : Stop} (h : s.stop = some r) : s.retire = s := by
  simp [State.retire, State.halted, h]

/-- Retiring changes the storage of x0 and nothing else. -/
theorem State.retire_eq (s : State) : s.retire = { s with x := s.retire.x } := by
  unfold State.retire
  split <;> rfl

@[simp] theorem State.retire_readX (s : State) (r : XReg) : s.retire.readX r = s.readX r := by
  unfold State.retire
  split <;> simp

/-! ## Step -/

theorem step_of_halted {s : State} {r : Stop} (h : s.stop = some r) : step s = .fault (.halted r) := by
  simp [step, h]

theorem step_of_hostStop {s : State} (h : s.stop = none) (hs : s.hostStop = true) : step s = .next (s.halt .hostStop) := by
  simp [step, h, hs]

theorem step_of_fetch_error {s : State} {k : Stop} (h : s.stop = none) (hs : s.hostStop = false) (hf : s.fetch = .error k) :
    step s = .next (s.stopAt s.pc k) := by
  simp [step, h, hs, hf]

theorem step_of_fetch_ok {s t : State} {i : Instr} (h : s.stop = none) (hs : s.hostStop = false) (hf : s.fetch = .ok i)
    (he : exec i s.advance = .next t) : step s = .next t.retire := by
  simp [step, h, hs, hf, he]

/-- All the ways a step answers a next state. -/
theorem step_cases {s t : State} (h : step s = .next t) : s.stop = none ∧
    ((s.hostStop = true ∧ t = s.halt .hostStop) ∨
     (s.hostStop = false ∧ ∃ k, s.fetch = .error k ∧ t = s.stopAt s.pc k) ∨
     (s.hostStop = false ∧ ∃ i u, s.fetch = .ok i ∧ exec i s.advance = .next u ∧ t = u.retire)) := by
  unfold step at h
  split at h
  · cases h
  · next hs =>
    refine ⟨hs, ?_⟩
    cases hh : s.hostStop with
    | true => simp only [hh, if_true] at h; cases h; exact .inl ⟨rfl, rfl⟩
    | false =>
      simp only [hh, Bool.false_eq_true, if_false] at h
      cases hf : s.fetch with
      | error k => simp only [hf] at h; cases h; exact .inr (.inl ⟨rfl, k, rfl, rfl⟩)
      | ok i =>
        simp only [hf] at h
        cases he : exec i s.advance with
        | next u => simp only [he] at h; cases h; exact .inr (.inr ⟨rfl, i, u, rfl, he, rfl⟩)
        | fault r => simp [he] at h
        | refused r => simp [he] at h

end Sys2Proof.Machine
end

