-- ==== Sys2Proof/Laws/Exec.lean ====
section
/-! SUPPORT. What any instruction can do, said once: every next state `exec` answers is one of the effects below, so a rule
about all instructions is a case analysis on them and not on 169 meanings. -/

namespace Sys2Proof.Machine

/-- The faults an instruction's body can raise: none of the fetch events (R275). -/
def bodyFault : Stop → Bool
  | .hostStop => false
  | .ecall => false
  | .ebreak => false
  | .fsqrtNegative => false
  | .illegalInstruction _ => true
  | .misalignedFetch _ => false
  | .staleFetch _ => false
  | .accessFault _ => true
  | .misalignedAccess _ => true
  | .vConfigUnsupported _ => true
  | .vStartNonZero _ => true
  | .vEewMismatch _ => true
  | .vRegOutOfRange _ => true

/-- A branch or jump of a well-formed instruction goes to an even address when pc is even. -/
def jumpsEven (i : Instr) (s : State) (a : Word) : Prop :=
  wellFormed i = true → s.pc.getLsbD 0 = false → a.getLsbD 0 = false

/-- The effects. -/
inductive Effect : Instr → State → State → Prop where
  | writeX {i s} (rd : XReg) (v : Word) : Effect i s (s.setX rd v)
  | writeF {i s} (rd : FReg) (v : Dword) : Effect i s (s.setF rd v)
  | writeV {i s} (v : VRegs) : Effect i s (s.setVr v)
  | noChange {i s} : Effect i s s
  | jump {i s} (a : Word) (h : jumpsEven i s a) : Effect i s (s.setPc a)
  | jumpLink {i s} (rd : XReg) (v a : Word) (h : jumpsEven i s a) : Effect i s ((s.setX rd v).setPc a)
  | fenceI {s} (imm : BitVec 12) (rs1 rd : XReg) : Effect (.fenceI imm rs1 rd) s { s with dirty := [] }
  | ecall {s} : Effect .ecall s (s.halt .ecall)
  | ebreak {s} : Effect .ebreak s (s.halt .ebreak)
  | raise {i s} (r : Stop) (h : bodyFault r = true) : Effect i s (s.raise r)
  | invalid {i s} (rd : XReg) (h : (∃ rs1 rs2, (i = .feqS rd rs1 rs2 ∨ i = .fltS rd rs1 rs2 ∨ i = .fleS rd rs1 rs2) ∧
        (isNaN .single (s.readS rs1) || isNaN .single (s.readS rs2)) = true) ∨
      (∃ rs1 rs2, (i = .feqD rd rs1 rs2 ∨ i = .fltD rd rs1 rs2 ∨ i = .fleD rd rs1 rs2) ∧
        (isNaN .double (s.readF rs1) || isNaN .double (s.readF rs2)) = true)) : Effect i s (s.setNV.setX rd 0)
  | root {i s} (rd : FReg) (h : (∃ rs1 rm, i = .fsqrtS rd rs1 rm ∧ fpNegative .single (s.readS rs1) = true) ∨
      (∃ rs1 rm, i = .fsqrtD rd rs1 rm ∧ fpNegative .double (s.readF rs1) = true)) : Effect i s (sqrtHalt rd s)
  | csr {i s} (rd rs1 : XReg) (n : BitVec 12) (v : Word) (h : i = .csrrw rd n rs1 ∨ i = .csrrs rd n rs1 ∨ i = .csrrc rd n rs1) :
      Effect i s ((s.csrWrite n v).setX rd (s.csrRead n))
  | vset {s} (rd rs1 : XReg) (z : BitVec 11) (n : Nat) (hz : vtypeiUnsupported z = false)
      (hn : n ≤ vlmaxOf (z.extractLsb' 0 5)) : Effect (.vsetvli rd rs1 z) s
        (State.setX { s with vtype := z.extractLsb' 0 5, vl := BitVec.ofNat 32 n } rd (BitVec.ofNat 32 n))
  | store {i s} (a : Word) (n : Nat) {m : Nat} (v : BitVec m) (hn : n = 1 ∨ n = 2 ∨ n = 4) (h : s.accessCheck a n = none)
      (hi : storesMemory i = true) : Effect i s (s.storeValue a n v)
  | storeX {i s} (a : Word) (v : Word) (rd : XReg) (w : Word) (h : s.accessCheck a 4 = none) (hi : storesMemory i = true) :
      Effect i s ((s.storeValue a 4 v).setX rd w)
  | storePair {i s} (a b : Word) (v w : Word) (ha : s.accessCheck a 4 = none) (hb : s.accessCheck b 4 = none)
      (hi : storesMemory i = true) : Effect i s ((s.storeValue a 4 v).storeValue b 4 w)
  | vload {i s} (vd : VReg) (w : Nat) (base stride : Word) (hi : vectorOperands s.sew i = some (some w, [(vd, w)]))
      (ha : elementAddresses s i = some (base, stride)) (hs : storesMemory i = false) :
      Effect i s (loadLoop vd w base stride s.vl.toNat 0 s)
  | vstore {i s} (vs3 : VReg) (w : Nat) (base stride : Word) (hi : vectorOperands s.sew i = some (some w, [(vs3, w)]))
      (ha : elementAddresses s i = some (base, stride)) (hs : storesMemory i = true) (hw : w = 1 ∨ w = 2 ∨ w = 4) :
      Effect i s (storeLoop vs3 w base stride s.vl.toNat 0 s)

/-! ## One lemma per shared shape -/

theorem effect_X {i : Instr} {s t : State} {rd : XReg} {v : Word} (h : Host.Outcome.next (s.setX rd v) = (.next t : Result)) :
    Effect i s t := by cases h; exact .writeX rd v

theorem effect_F {i : Instr} {s t : State} {rd : FReg} {v : Dword} (h : Host.Outcome.next (s.setF rd v) = (.next t : Result)) :
    Effect i s t := by cases h; exact .writeF rd v

theorem accessCheck_fault {s : State} {a : Word} {n : Nat} {k : Stop} (h : s.accessCheck a n = some k) : bodyFault k = true := by
  rcases (s.accessCheck_eq_some a n k).1 h with ⟨_, rfl⟩ | ⟨_, _, rfl⟩ <;> rfl

theorem groupCheck_fault {vl : Nat} {gs : List (VReg × Nat)} {k : Stop} (h : groupCheck vl gs = some k) : bodyFault k = true := by
  induction gs with
  | nil => cases h
  | cons g gs ih =>
    simp only [groupCheck] at h
    split at h
    · cases h; rfl
    · exact ih h

theorem vectorCheck_fault {s : State} {e : Option Nat} {gs : List (VReg × Nat)} {k : Stop} (h : s.vectorCheck e gs = some k) :
    bodyFault k = true := by
  unfold State.vectorCheck at h
  split at h
  · cases h; rfl
  · cases e with
    | none => exact groupCheck_fault h
    | some e =>
      dsimp only at h
      split at h
      · cases h; rfl
      · exact groupCheck_fault h

theorem effect_loadInt {i : Instr} {s t : State} {rd rs1 : XReg} {imm : BitVec 12} {n : Nat} {g : BitVec (8 * n) → Word}
    (h : loadInt rd rs1 imm n g s = .next t) : Effect i s t := by
  unfold loadInt at h
  cases hc : s.accessCheck (s.ea rs1 imm) n with
  | none => rw [State.memRead_of_none hc] at h; exact effect_X h
  | some k => rw [State.memRead_of_some hc] at h; cases h; exact .raise k (accessCheck_fault hc)

theorem effect_storeAt {i : Instr} {s t : State} {rs1 : XReg} {imm : BitVec 12} {n m : Nat} {v : BitVec m}
    (hn : n = 1 ∨ n = 2 ∨ n = 4) (hi : storesMemory i = true) (h : storeAt rs1 imm n v s = .next t) : Effect i s t := by
  unfold storeAt at h
  cases hc : s.accessCheck (s.ea rs1 imm) n with
  | none => rw [State.memWrite_of_none hc] at h; cases h; exact .store _ _ _ hn hc hi
  | some k => rw [State.memWrite_of_some hc] at h; cases h; exact .raise k (accessCheck_fault hc)

theorem effect_lr {i : Instr} {s t : State} {rd rs1 : XReg} (h : execLrW rd rs1 s = .next t) : Effect i s t := by
  unfold execLrW at h
  cases hc : s.accessCheck (s.readX rs1) 4 with
  | none => rw [State.memRead_of_none hc] at h; exact effect_X h
  | some k => rw [State.memRead_of_some hc] at h; cases h; exact .raise k (accessCheck_fault hc)

theorem effect_sc {i : Instr} {s t : State} {rd rs2 rs1 : XReg} (hi : storesMemory i = true)
    (h : execScW rd rs2 rs1 s = .next t) : Effect i s t := by
  unfold execScW at h
  cases hc : s.accessCheck (s.readX rs1) 4 with
  | none => rw [State.memWrite_of_none hc] at h; cases h; exact .storeX _ _ _ _ hc hi
  | some k => rw [State.memWrite_of_some hc] at h; cases h; exact .raise k (accessCheck_fault hc)

theorem effect_amo {i : Instr} {s t : State} {rd rs2 rs1 : XReg} {op : Word → Word → Word} (hi : storesMemory i = true)
    (h : amo rd rs2 rs1 op s = .next t) : Effect i s t := by
  unfold amo at h
  cases hc : s.accessCheck (s.readX rs1) 4 with
  | none => rw [State.memRead_of_none hc] at h; cases h; exact .storeX _ _ _ _ hc hi
  | some k => rw [State.memRead_of_some hc] at h; cases h; exact .raise k (accessCheck_fault hc)

theorem effect_flw {i : Instr} {s t : State} {rd : FReg} {rs1 : XReg} {imm : BitVec 12} (h : execFlw rd rs1 imm s = .next t) :
    Effect i s t := by
  unfold execFlw at h
  cases hc : s.accessCheck (s.ea rs1 imm) 4 with
  | none => rw [State.memRead_of_none hc] at h; exact effect_F h
  | some k => rw [State.memRead_of_some hc] at h; cases h; exact .raise k (accessCheck_fault hc)

theorem effect_fld {i : Instr} {s t : State} {rd : FReg} {rs1 : XReg} {imm : BitVec 12} (h : execFld rd rs1 imm s = .next t) :
    Effect i s t := by
  unfold execFld at h
  cases hc : s.accessCheck (s.ea rs1 imm) 4 with
  | some k => rw [State.memRead_of_some hc] at h; cases h; exact .raise k (accessCheck_fault hc)
  | none =>
    rw [State.memRead_of_none hc] at h
    cases hd : s.accessCheck (s.ea rs1 imm + 4) 4 with
    | none => simp only [State.memRead_of_none hd] at h; exact effect_F h
    | some k => simp only [State.memRead_of_some hd] at h; cases h; exact .raise k (accessCheck_fault hd)

theorem word_add_four_mod (a : Word) (h : a.toNat % 4 = 0) : (a + 4).toNat % 4 = 0 := by
  have h4 : (4 : Word).toNat = 4 := rfl
  rw [BitVec.toNat_add, h4]
  omega

/-- What FSD does, in terms of the two access checks. -/
theorem execFsd_cases {s t : State} {rs2 : FReg} {rs1 : XReg} {imm : BitVec 12} (h : execFsd rs2 rs1 imm s = .next t) :
    (s.accessCheck (s.ea rs1 imm) 4 = none ∧ s.accessCheck (s.ea rs1 imm + 4) 4 = none ∧
      t = (s.storeValue (s.ea rs1 imm) 4 ((s.readF rs2).extractLsb' 0 32)).storeValue (s.ea rs1 imm + 4) 4
        ((s.readF rs2).extractLsb' 32 32)) ∨
    t = s.raise (.misalignedAccess (s.ea rs1 imm)) ∨ t = s.raise (.accessFault (s.fsdRefused (s.ea rs1 imm))) := by
  unfold execFsd at h
  dsimp only at h
  split at h
  · cases h; exact .inr (.inl rfl)
  · next ha =>
    simp only [Decidable.not_not] at ha
    split at h
    · cases h; exact .inr (.inr rfl)
    · next hb =>
      simp only [Bool.not_eq_true', Bool.not_eq_false, Bool.and_eq_true] at hb
      cases h
      exact .inl ⟨(State.accessCheck_eq_none ..).2 ⟨ha, hb.1⟩,
        (State.accessCheck_eq_none ..).2 ⟨word_add_four_mod _ ha, hb.2⟩, rfl⟩

theorem effect_fsd {s t : State} {rs2 : FReg} {rs1 : XReg} {imm : BitVec 12} (h : execFsd rs2 rs1 imm s = .next t) :
    Effect (.fsd rs2 rs1 imm) s t := by
  rcases execFsd_cases h with ⟨ha, hb, rfl⟩ | rfl | rfl
  · exact .storePair _ _ _ _ ha hb rfl
  · exact .raise _ rfl
  · exact .raise _ rfl

theorem immB_even {off : BitVec 13} (h : evenBranchOffset off = true) : (immBValue off).getLsbD 0 = false := by
  have h0 : off.getLsbD 0 = false := by simpa [evenBranchOffset] using h
  rw [immBValue, BitVec.getLsbD_signExtend, h0]
  rfl

theorem immJ_even {off : BitVec 21} (h : evenJumpOffset off = true) : (immJValue off).getLsbD 0 = false := by
  have h0 : off.getLsbD 0 = false := by simpa [evenJumpOffset] using h
  rw [immJValue, BitVec.getLsbD_signExtend, h0]
  rfl

theorem even_iff (a : Word) : a.getLsbD 0 = false ↔ a.toNat % 2 = 0 := by
  rw [BitVec.getLsbD, Nat.testBit_zero]
  simp

theorem even_add {a b : Word} (ha : a.getLsbD 0 = false) (hb : b.getLsbD 0 = false) : (a + b).getLsbD 0 = false := by
  rw [even_iff] at *
  rw [BitVec.toNat_add]
  omega

theorem even_ipc {s : State} (h : s.pc.getLsbD 0 = false) : s.ipc.getLsbD 0 = false := by
  rw [even_iff] at *
  have h4 : (4 : Word).toNat = 4 := rfl
  rw [State.ipc, BitVec.toNat_sub, h4]
  omega

theorem effect_branch {i : Instr} {s t : State} {rs1 rs2 : XReg} {off : BitVec 13} {c : Word → Word → Bool}
    (hw : wellFormed i = evenBranchOffset off) (h : branch rs1 rs2 off c s = .next t) : Effect i s t := by
  unfold branch at h
  cases h
  split
  · exact .jump _ fun h1 h2 => even_add (even_ipc h2) (immB_even (hw ▸ h1))
  · exact .noChange

theorem effect_jal {s t : State} {rd : XReg} {off : BitVec 21} (h : execJal rd off s = .next t) : Effect (.jal rd off) s t := by
  cases h
  exact .jumpLink _ _ _ fun h1 h2 => even_add (even_ipc h2) (immJ_even h1)

theorem effect_jalr {s t : State} {rd rs1 : XReg} {imm : BitVec 12} (h : execJalr rd rs1 imm s = .next t) :
    Effect (.jalr rd rs1 imm) s t := by
  cases h
  exact .jumpLink _ _ _ fun _ _ => by simp

theorem effect_sqrtS {s t : State} {rd rs1 : FReg} {rm : BitVec 3} (h : execFsqrtS rd rs1 s = .next t) :
    Effect (.fsqrtS rd rs1 rm) s t := by
  unfold execFsqrtS at h
  split at h
  · next hn => cases h; exact .root rd (.inl ⟨rs1, rm, rfl, hn⟩)
  · exact effect_F h

theorem effect_sqrtD {s t : State} {rd rs1 : FReg} {rm : BitVec 3} (h : execFsqrtD rd rs1 s = .next t) :
    Effect (.fsqrtD rd rs1 rm) s t := by
  unfold execFsqrtD at h
  split at h
  · next hn => cases h; exact .root rd (.inr ⟨rs1, rm, rfl, hn⟩)
  · exact effect_F h

theorem effect_compareS {i : Instr} {s t : State} {rd : XReg} {rs1 rs2 : FReg} {rel : FpVal → FpVal → Bool}
    (hi : i = .feqS rd rs1 rs2 ∨ i = .fltS rd rs1 rs2 ∨ i = .fleS rd rs1 rs2)
    (h : fpCompare .single rd (s.readS rs1) (s.readS rs2) rel s = .next t) : Effect i s t := by
  unfold fpCompare at h
  split at h
  · next hn => cases h; exact .invalid rd (.inl ⟨rs1, rs2, hi, hn⟩)
  · exact effect_X h

theorem effect_compareD {i : Instr} {s t : State} {rd : XReg} {rs1 rs2 : FReg} {rel : FpVal → FpVal → Bool}
    (hi : i = .feqD rd rs1 rs2 ∨ i = .fltD rd rs1 rs2 ∨ i = .fleD rd rs1 rs2)
    (h : fpCompare .double rd (s.readF rs1) (s.readF rs2) rel s = .next t) : Effect i s t := by
  unfold fpCompare at h
  split at h
  · next hn => cases h; exact .invalid rd (.inr ⟨rs1, rs2, hi, hn⟩)
  · exact effect_X h

theorem effect_csrrw {s t : State} {rd rs1 : XReg} {n : BitVec 12} (h : execCsrrw rd n rs1 s = .next t) :
    Effect (.csrrw rd n rs1) s t := by
  unfold execCsrrw at h
  split at h
  · cases h; exact .raise _ rfl
  · cases h; exact .csr rd rs1 n _ (.inl rfl)

theorem effect_csrUpdate {i : Instr} {s t : State} {rd rs1 : XReg} {n : BitVec 12} {op : Word → Word → Word}
    (hi : i = .csrrs rd n rs1 ∨ i = .csrrc rd n rs1) (h : Host.Outcome.next (csrUpdate rd n rs1 op s) = (.next t : Result)) :
    Effect i s t := by
  unfold csrUpdate at h
  split at h
  · exact effect_X h
  · cases h; exact .csr rd rs1 n _ (.inr hi)

theorem effect_csrrs {s t : State} {rd rs1 : XReg} {n : BitVec 12} (h : execCsrrs rd n rs1 s = .next t) :
    Effect (.csrrs rd n rs1) s t := by
  unfold execCsrrs at h
  split at h
  · cases h; exact .raise _ rfl
  · exact effect_csrUpdate (.inl rfl) h

theorem effect_csrrc {s t : State} {rd rs1 : XReg} {n : BitVec 12} (h : execCsrrc rd n rs1 s = .next t) :
    Effect (.csrrc rd n rs1) s t := by
  unfold execCsrrc at h
  split at h
  · cases h; exact .raise _ rfl
  · exact effect_csrUpdate (.inr rfl) h

theorem effect_vsetvli {s t : State} {rd rs1 : XReg} {z : BitVec 11} (h : execVsetvli rd rs1 z s = .next t) :
    Effect (.vsetvli rd rs1 z) s t := by
  unfold execVsetvli at h
  split at h
  · cases h; exact .raise _ rfl
  · next hz => cases h; exact .vset rd rs1 z _ (by simpa using hz) (Nat.min_le_right _ _)

theorem effect_vectorLoad {i : Instr} {s t : State} {vd : VReg} {w : Nat} {base stride : Word}
    (hi : vectorOperands s.sew i = some (some w, [(vd, w)])) (ha : elementAddresses s i = some (base, stride))
    (hs : storesMemory i = false) (h : vectorLoad vd w base stride s = .next t) : Effect i s t := by
  unfold vectorLoad at h
  cases hc : s.vectorCheck (some w) [(vd, w)] with
  | some k => rw [hc] at h; cases h; exact .raise k (vectorCheck_fault hc)
  | none => rw [hc] at h; cases h; exact .vload _ _ _ _ hi ha hs

theorem effect_vectorStore {i : Instr} {s t : State} {vs3 : VReg} {w : Nat} {base stride : Word}
    (hi : vectorOperands s.sew i = some (some w, [(vs3, w)])) (ha : elementAddresses s i = some (base, stride))
    (hs : storesMemory i = true) (hw : w = 1 ∨ w = 2 ∨ w = 4) (h : vectorStore vs3 w base stride s = .next t) : Effect i s t := by
  unfold vectorStore at h
  cases hc : s.vectorCheck (some w) [(vs3, w)] with
  | some k => rw [hc] at h; cases h; exact .raise k (vectorCheck_fault hc)
  | none => rw [hc] at h; cases h; exact .vstore _ _ _ _ hi ha hs hw

theorem effect_check {i : Instr} {s t u : State} {e : Option Nat} {gs : List (VReg × Nat)} (hu : Effect i s u)
    (h : (match s.vectorCheck e gs with
      | some k => Host.Outcome.next (s.raise k)
      | none => Host.Outcome.next u) = (.next t : Result)) : Effect i s t := by
  cases hc : s.vectorCheck e gs with
  | some k => rw [hc] at h; cases h; exact .raise k (vectorCheck_fault hc)
  | none => rw [hc] at h; cases h; exact hu

/-! ## What the element loops of a load and a store can change -/

/-- A load loop changes vector bytes; it goes on with pc and `halted` as they were, or ends with pc = ipc and a fault. -/
theorem loadLoop_changes (vd : VReg) (w : Nat) (base stride : Word) (n el : Nat) (s : State) : ∃ v p r,
    loadLoop vd w base stride n el s = { s with vr := v, pc := p, stop := r } ∧
      (p = s.pc ∧ r = s.stop ∨ p = s.pc - 4 ∧ ∃ k, r = some k ∧ bodyFault k = true) := by
  induction n generalizing el s with
  | zero => exact ⟨s.vr, s.pc, s.stop, rfl, .inl ⟨rfl, rfl⟩⟩
  | succ n ih =>
    cases hc : s.accessCheck (elementAddr base stride el) w with
    | some k =>
      exact ⟨s.vr, s.pc - 4, some k, by simp [loadLoop, State.memRead_of_some hc, State.raise, State.stopAt, State.ipc],
        .inr ⟨rfl, k, rfl, accessCheck_fault hc⟩⟩
    | none =>
      obtain ⟨v, p, r, h, h2⟩ := ih (el + 1) (s.setVr (s.vr.setElem vd el w (s.loadValue (elementAddr base stride el) w)))
      refine ⟨v, p, r, ?_, h2⟩
      simp only [loadLoop, State.memRead_of_none hc, h]
      rfl

/-- A store loop changes memory and Dirty; it goes on with pc and `halted` as they were, or ends with pc = ipc and a fault. -/
theorem storeLoop_changes (vs3 : VReg) (w : Nat) (base stride : Word) (n el : Nat) (s : State) : ∃ m d p r,
    storeLoop vs3 w base stride n el s = { s with mem := m, dirty := d, pc := p, stop := r } ∧
      (p = s.pc ∧ r = s.stop ∨ p = s.pc - 4 ∧ ∃ k, r = some k ∧ bodyFault k = true) := by
  induction n generalizing el s with
  | zero => exact ⟨s.mem, s.dirty, s.pc, s.stop, rfl, .inl ⟨rfl, rfl⟩⟩
  | succ n ih =>
    cases hc : s.accessCheck (elementAddr base stride el) w with
    | some k =>
      exact ⟨s.mem, s.dirty, s.pc - 4, some k,
        by simp [storeLoop, State.memWrite_of_some hc, State.raise, State.stopAt, State.ipc],
        .inr ⟨rfl, k, rfl, accessCheck_fault hc⟩⟩
    | none =>
      obtain ⟨m, d, p, r, h, h2⟩ := ih (el + 1) (s.storeValue (elementAddr base stride el) w (s.vr.elem vs3 el w))
      refine ⟨m, d, p, r, ?_, h2⟩
      simp only [storeLoop, State.memWrite_of_none hc, h]
      rfl

/-- A fault that a body raises is a fault, and none of the events of the fetch. -/
theorem bodyFault_isFault {r : Stop} (h : bodyFault r = true) :
    r.isFault = true ∧ r ≠ .hostStop ∧ ∀ a, r ≠ .misalignedFetch a ∧ r ≠ .staleFetch a := by
  cases r <;> simp_all [bodyFault, Stop.isFault, Stop.code]

/-! ## Every instruction -/

/-- All that `exec` can do. -/
theorem exec_effect {i : Instr} {s t : State} (h : exec i s = .next t) : Effect i s t := by
  cases i with
  | lui rd immU => exact effect_X h
  | auipc rd immU => exact effect_X h
  | jal rd immJ => exact effect_jal h
  | jalr rd rs1 imm12 => exact effect_jalr h
  | beq rs1 rs2 immB => exact effect_branch rfl h
  | bne rs1 rs2 immB => exact effect_branch rfl h
  | blt rs1 rs2 immB => exact effect_branch rfl h
  | bge rs1 rs2 immB => exact effect_branch (c := fun a b => !a.slt b) rfl h
  | bltu rs1 rs2 immB => exact effect_branch rfl h
  | bgeu rs1 rs2 immB => exact effect_branch (c := fun a b => !a.ult b) rfl h
  | lb rd rs1 imm12 => exact effect_loadInt h
  | lh rd rs1 imm12 => exact effect_loadInt h
  | lw rd rs1 imm12 => exact effect_loadInt h
  | lbu rd rs1 imm12 => exact effect_loadInt h
  | lhu rd rs1 imm12 => exact effect_loadInt h
  | sb rs2 rs1 immS => exact effect_storeAt (by simp) rfl h
  | sh rs2 rs1 immS => exact effect_storeAt (by simp) rfl h
  | sw rs2 rs1 immS => exact effect_storeAt (by simp) rfl h
  | addi rd rs1 imm12 => exact effect_X h
  | slti rd rs1 imm12 => exact effect_X h
  | sltiu rd rs1 imm12 => exact effect_X h
  | xori rd rs1 imm12 => exact effect_X h
  | ori rd rs1 imm12 => exact effect_X h
  | andi rd rs1 imm12 => exact effect_X h
  | slli rd rs1 shamt => exact effect_X h
  | srli rd rs1 shamt => exact effect_X h
  | srai rd rs1 shamt => exact effect_X h
  | add rd rs1 rs2 => exact effect_X h
  | sub rd rs1 rs2 => exact effect_X h
  | sll rd rs1 rs2 => exact effect_X h
  | slt rd rs1 rs2 => exact effect_X h
  | sltu rd rs1 rs2 => exact effect_X h
  | xor rd rs1 rs2 => exact effect_X h
  | srl rd rs1 rs2 => exact effect_X h
  | sra rd rs1 rs2 => exact effect_X h
  | or rd rs1 rs2 => exact effect_X h
  | and rd rs1 rs2 => exact effect_X h
  | fence fm pred succ rs1 rd => exact by cases h; exact .noChange
  | fenceI imm12 rs1 rd => exact by cases h; exact .fenceI ..
  | ecall => exact by cases h; exact .ecall
  | ebreak => exact by cases h; exact .ebreak
  | mul rd rs1 rs2 => exact effect_X h
  | mulh rd rs1 rs2 => exact effect_X h
  | mulhsu rd rs1 rs2 => exact effect_X h
  | mulhu rd rs1 rs2 => exact effect_X h
  | div rd rs1 rs2 => exact effect_X h
  | divu rd rs1 rs2 => exact effect_X h
  | rem rd rs1 rs2 => exact effect_X h
  | remu rd rs1 rs2 => exact effect_X h
  | lrW rd rs1 aq rl => exact effect_lr h
  | scW rd rs2 rs1 aq rl => exact effect_sc rfl h
  | amoswapW rd rs2 rs1 aq rl => exact effect_amo (op := (fun _ src => src)) rfl h
  | amoaddW rd rs2 rs1 aq rl => exact effect_amo (op := (fun old src => old + src)) rfl h
  | amoxorW rd rs2 rs1 aq rl => exact effect_amo (op := (fun old src => old ^^^ src)) rfl h
  | amoandW rd rs2 rs1 aq rl => exact effect_amo (op := (fun old src => old &&& src)) rfl h
  | amoorW rd rs2 rs1 aq rl => exact effect_amo (op := (fun old src => old ||| src)) rfl h
  | amominW rd rs2 rs1 aq rl => exact effect_amo (op := (fun old src => if old.toInt ≤ src.toInt then old else src)) rfl h
  | amomaxW rd rs2 rs1 aq rl => exact effect_amo (op := (fun old src => if src.toInt ≤ old.toInt then old else src)) rfl h
  | amominuW rd rs2 rs1 aq rl => exact effect_amo (op := (fun old src => if old.toNat ≤ src.toNat then old else src)) rfl h
  | amomaxuW rd rs2 rs1 aq rl => exact effect_amo (op := (fun old src => if src.toNat ≤ old.toNat then old else src)) rfl h
  | flw rd rs1 imm12 => exact effect_flw h
  | fsw rs2 rs1 immS => exact effect_storeAt (by simp) rfl h
  | fmaddS rd rs1 rs2 rs3 rm => exact effect_F h
  | fmsubS rd rs1 rs2 rs3 rm => exact effect_F h
  | fnmsubS rd rs1 rs2 rs3 rm => exact effect_F h
  | fnmaddS rd rs1 rs2 rs3 rm => exact effect_F h
  | faddS rd rs1 rs2 rm => exact effect_F h
  | fsubS rd rs1 rs2 rm => exact effect_F h
  | fmulS rd rs1 rs2 rm => exact effect_F h
  | fdivS rd rs1 rs2 rm => exact effect_F h
  | fsqrtS rd rs1 rm => exact effect_sqrtS h
  | fsgnjS rd rs1 rs2 => exact effect_F h
  | fsgnjnS rd rs1 rs2 => exact effect_F h
  | fsgnjxS rd rs1 rs2 => exact effect_F h
  | fminS rd rs1 rs2 => exact effect_F h
  | fmaxS rd rs1 rs2 => exact effect_F h
  | feqS rd rs1 rs2 => exact effect_compareS (by simp) h
  | fltS rd rs1 rs2 => exact effect_compareS (by simp) h
  | fleS rd rs1 rs2 => exact effect_compareS (by simp) h
  | fcvtWS rd rs1 rm => exact effect_X h
  | fcvtWUS rd rs1 rm => exact effect_X h
  | fcvtSW rd rs1 rm => exact effect_F h
  | fcvtSWU rd rs1 rm => exact effect_F h
  | fmvXW rd rs1 => exact effect_X h
  | fmvWX rd rs1 => exact effect_F h
  | fld rd rs1 imm12 => exact effect_fld h
  | fsd rs2 rs1 immS => exact effect_fsd h
  | fmaddD rd rs1 rs2 rs3 rm => exact effect_F h
  | fmsubD rd rs1 rs2 rs3 rm => exact effect_F h
  | fnmsubD rd rs1 rs2 rs3 rm => exact effect_F h
  | fnmaddD rd rs1 rs2 rs3 rm => exact effect_F h
  | faddD rd rs1 rs2 rm => exact effect_F h
  | fsubD rd rs1 rs2 rm => exact effect_F h
  | fmulD rd rs1 rs2 rm => exact effect_F h
  | fdivD rd rs1 rs2 rm => exact effect_F h
  | fsqrtD rd rs1 rm => exact effect_sqrtD h
  | fsgnjD rd rs1 rs2 => exact effect_F h
  | fsgnjnD rd rs1 rs2 => exact effect_F h
  | fsgnjxD rd rs1 rs2 => exact effect_F h
  | fminD rd rs1 rs2 => exact effect_F h
  | fmaxD rd rs1 rs2 => exact effect_F h
  | feqD rd rs1 rs2 => exact effect_compareD (by simp) h
  | fltD rd rs1 rs2 => exact effect_compareD (by simp) h
  | fleD rd rs1 rs2 => exact effect_compareD (by simp) h
  | fcvtWD rd rs1 rm => exact effect_X h
  | fcvtWUD rd rs1 rm => exact effect_X h
  | fcvtDW rd rs1 rm => exact effect_F h
  | fcvtDWU rd rs1 rm => exact effect_F h
  | fcvtSD rd rs1 rm => exact effect_F h
  | fcvtDS rd rs1 rm => exact effect_F h
  | csrrw rd csr rs1 => exact effect_csrrw h
  | csrrs rd csr rs1 => exact effect_csrrs h
  | csrrc rd csr rs1 => exact effect_csrrc h
  | vsetvli rd rs1 zimm => exact effect_vsetvli h
  | vle8V vd rs1 => exact effect_vectorLoad rfl rfl rfl h
  | vlse8V vd rs1 rs2 => exact effect_vectorLoad rfl rfl rfl h
  | vse8V vs3 rs1 => exact effect_vectorStore rfl rfl rfl (by simp) h
  | vsse8V vs3 rs1 rs2 => exact effect_vectorStore rfl rfl rfl (by simp) h
  | vle16V vd rs1 => exact effect_vectorLoad rfl rfl rfl h
  | vlse16V vd rs1 rs2 => exact effect_vectorLoad rfl rfl rfl h
  | vse16V vs3 rs1 => exact effect_vectorStore rfl rfl rfl (by simp) h
  | vsse16V vs3 rs1 rs2 => exact effect_vectorStore rfl rfl rfl (by simp) h
  | vle32V vd rs1 => exact effect_vectorLoad rfl rfl rfl h
  | vlse32V vd rs1 rs2 => exact effect_vectorLoad rfl rfl rfl h
  | vse32V vs3 rs1 => exact effect_vectorStore rfl rfl rfl (by simp) h
  | vsse32V vs3 rs1 rs2 => exact effect_vectorStore rfl rfl rfl (by simp) h
  | vaddVV vd vs2 vs1 => exact effect_check (.writeV _) h
  | vaddVX vd vs2 rs1 => exact effect_check (.writeV _) h
  | vaddVI vd vs2 imm5 => exact effect_check (.writeV _) h
  | vsubVV vd vs2 vs1 => exact effect_check (.writeV _) h
  | vsubVX vd vs2 rs1 => exact effect_check (.writeV _) h
  | vminuVV vd vs2 vs1 => exact effect_check (.writeV _) h
  | vminuVX vd vs2 rs1 => exact effect_check (.writeV _) h
  | vmaxuVV vd vs2 vs1 => exact effect_check (.writeV _) h
  | vmaxuVX vd vs2 rs1 => exact effect_check (.writeV _) h
  | vandVV vd vs2 vs1 => exact effect_check (.writeV _) h
  | vandVX vd vs2 rs1 => exact effect_check (.writeV _) h
  | vandVI vd vs2 imm5 => exact effect_check (.writeV _) h
  | vorVV vd vs2 vs1 => exact effect_check (.writeV _) h
  | vorVX vd vs2 rs1 => exact effect_check (.writeV _) h
  | vorVI vd vs2 imm5 => exact effect_check (.writeV _) h
  | vxorVV vd vs2 vs1 => exact effect_check (.writeV _) h
  | vxorVX vd vs2 rs1 => exact effect_check (.writeV _) h
  | vxorVI vd vs2 imm5 => exact effect_check (.writeV _) h
  | vmseqVV vd vs2 vs1 => exact effect_check (.writeV _) h
  | vmseqVX vd vs2 rs1 => exact effect_check (.writeV _) h
  | vmseqVI vd vs2 imm5 => exact effect_check (.writeV _) h
  | vmsneVV vd vs2 vs1 => exact effect_check (.writeV _) h
  | vmsneVX vd vs2 rs1 => exact effect_check (.writeV _) h
  | vmsneVI vd vs2 imm5 => exact effect_check (.writeV _) h
  | vmsltVV vd vs2 vs1 => exact effect_check (.writeV _) h
  | vmsltVX vd vs2 rs1 => exact effect_check (.writeV _) h
  | vmsleVV vd vs2 vs1 => exact effect_check (.writeV _) h
  | vmsleVX vd vs2 rs1 => exact effect_check (.writeV _) h
  | vmsleVI vd vs2 imm5 => exact effect_check (.writeV _) h
  | vmsgtVX vd vs2 rs1 => exact effect_check (.writeV _) h
  | vmsgtVI vd vs2 imm5 => exact effect_check (.writeV _) h
  | vsllVV vd vs2 vs1 => exact effect_check (.writeV _) h
  | vsllVX vd vs2 rs1 => exact effect_check (.writeV _) h
  | vsllVI vd vs2 imm5 => exact effect_check (.writeV _) h
  | vsrlVV vd vs2 vs1 => exact effect_check (.writeV _) h
  | vsrlVX vd vs2 rs1 => exact effect_check (.writeV _) h
  | vsrlVI vd vs2 imm5 => exact effect_check (.writeV _) h
  | vmulVV vd vs2 vs1 => exact effect_check (.writeV _) h
  | vmulVX vd vs2 rs1 => exact effect_check (.writeV _) h
  | vredsumVS vd vs2 vs1 => exact effect_check (.writeV _) h
  | vwredsumuVS vd vs2 vs1 => exact effect_check (.writeV _) h
  | vmvXS rd vs2 => exact effect_check (.writeX ..) h
  | vmvSX vd rs1 => exact effect_check (.writeV _) h

end Sys2Proof.Machine
end

