-- ==== Sys2Proof/Laws/Rounding.lean ====
section
/-! SUPPORT. Rounding: what `roundRNE` gives is the nearest number of the format, ties to even, or infinity from the overflow
threshold up (R138). Magnitude patterns are counted upwards from zero, and `unitsOf` is the magnitude of a pattern in the
units of the format. -/

namespace Sys2Proof.Machine

/-- The magnitude of a pattern in units of the smallest subnormal, as `unpack` reads it. -/
def unitsOf (fmt : Fmt) (p : Nat) : Nat :=
  if p < 2 ^ fmt.fracBits then p else (2 ^ fmt.fracBits + p % 2 ^ fmt.fracBits) * 2 ^ (p / 2 ^ fmt.fracBits - 1)

theorem Fmt.two_pow_fracBits_even (fmt : Fmt) : 2 ^ fmt.fracBits % 2 = 0 := by cases fmt <;> decide

/-- A pattern k·2^fracBits + m, m significant bits at scale 2^k, stands for m·2^k units. -/
theorem unitsOf_scaled (fmt : Fmt) (k m : Nat) (h : k = 0 ∨ 2 ^ fmt.fracBits ≤ m) (hm : m ≤ 2 * 2 ^ fmt.fracBits) :
    unitsOf fmt (k * 2 ^ fmt.fracBits + m) = m * 2 ^ k := by
  have hF : 0 < 2 ^ fmt.fracBits := by positivity
  unfold unitsOf
  generalize 2 ^ fmt.fracBits = F at *
  by_cases hlt : m < F
  · rcases h with rfl | h
    · simp [hlt]
    · omega
  · have hk : ¬ k * F + m < F := by omega
    rw [if_neg hk]
    rcases Nat.lt_or_ge m (2 * F) with h2 | h2
    · have hd : (k * F + m) / F = k + 1 := by
        rw [Nat.div_eq_iff hF]
        have e : (k + 1) * F = k * F + F := by ring
        omega
      have hr : (k * F + m) % F = m - F := by
        have := Nat.div_add_mod (k * F + m) F
        rw [hd] at this
        have e : F * (k + 1) = k * F + F := by ring
        omega
      rw [hd, hr, Nat.add_sub_cancel, show F + (m - F) = m by omega]
    · have he : m = 2 * F := by omega
      subst he
      have e : k * F + 2 * F = (k + 2) * F := by ring
      rw [e, Nat.mul_mod_left, Nat.mul_div_cancel _ hF, show k + 2 - 1 = k + 1 by omega]
      ring

/-- Every pattern is of the form above, with room for the next one. -/
theorem pattern_scaled (fmt : Fmt) (p : Nat) : ∃ k m, p = k * 2 ^ fmt.fracBits + m ∧ (k = 0 ∨ 2 ^ fmt.fracBits ≤ m) ∧
    m < 2 * 2 ^ fmt.fracBits := by
  have hF : 0 < 2 ^ fmt.fracBits := by positivity
  generalize 2 ^ fmt.fracBits = F at *
  by_cases h : p < F
  · exact ⟨0, p, by simp, .inl rfl, by omega⟩
  · have hd := Nat.div_add_mod p F
    have hr := Nat.mod_lt p hF
    have h1 : 1 ≤ p / F := (Nat.one_le_div_iff hF).2 (by omega)
    refine ⟨p / F - 1, F + p % F, ?_, .inr (by omega), by omega⟩
    obtain ⟨q, hq⟩ : ∃ q, p / F = q + 1 := ⟨p / F - 1, by omega⟩
    rw [hq] at hd ⊢
    rw [Nat.add_sub_cancel]
    have e : F * (q + 1) = q * F + F := by ring
    omega

theorem unitsOf_strictMono (fmt : Fmt) : StrictMono (unitsOf fmt) := by
  refine strictMono_nat_of_lt_succ fun p => ?_
  obtain ⟨k, m, rfl, h, hm⟩ := pattern_scaled fmt p
  rw [unitsOf_scaled fmt k m h (by omega), Nat.add_assoc,
    unitsOf_scaled fmt k (m + 1) (h.imp id (by omega)) (by omega)]
  exact (Nat.mul_lt_mul_right (by positivity)).2 (by omega)

@[simp] theorem unitsOf_zero (fmt : Fmt) : unitsOf fmt 0 = 0 := by simp [unitsOf]

/-- The pattern chosen from the one below and the comparison of twice the value with twice the midpoint. -/
def chosen (p : Nat) : Ordering → Nat
  | .lt => p
  | .eq => p + p % 2
  | .gt => p + 1

/-- `roundRNE` chooses between the two neighbouring patterns around the floor. -/
theorem roundRNE_eq (fmt : Fmt) (floor : Nat) (cmp : Nat → Ordering) : ∃ p,
    unitsOf fmt p ≤ floor ∧ floor < unitsOf fmt (p + 1) ∧
    roundRNE fmt floor cmp = min (chosen p (cmp (unitsOf fmt p + unitsOf fmt (p + 1)))) fmt.infPattern := by
  have hlog : floor < 2 ^ (Nat.log2 floor + 1) := Nat.lt_log2_self
  have hF : 2 ^ fmt.fracBits % 2 = 0 := fmt.two_pow_fracBits_even
  have hk : floor / 2 ^ (Nat.log2 floor - fmt.fracBits) < 2 * 2 ^ fmt.fracBits := by
    rw [Nat.div_lt_iff_lt_mul (by positivity)]
    refine lt_of_lt_of_le hlog ?_
    rw [show 2 * 2 ^ fmt.fracBits * 2 ^ (Nat.log2 floor - fmt.fracBits) =
      2 ^ (1 + fmt.fracBits + (Nat.log2 floor - fmt.fracBits)) by rw [pow_add, pow_add, pow_one]]
    exact Nat.pow_le_pow_right (by decide) (by omega)
  have hm : Nat.log2 floor - fmt.fracBits = 0 ∨ 2 ^ fmt.fracBits ≤ floor / 2 ^ (Nat.log2 floor - fmt.fracBits) := by
    by_cases h0 : Nat.log2 floor - fmt.fracBits = 0
    · exact .inl h0
    · refine .inr ((Nat.le_div_iff_mul_le (by positivity)).2 ?_)
      rw [← pow_add]
      have hne : floor ≠ 0 := by rintro rfl; simp at h0
      exact le_trans (Nat.pow_le_pow_right (by decide) (by omega)) (Nat.log2_self_le hne)
  unfold roundRNE
  dsimp only
  generalize Nat.log2 floor - fmt.fracBits = k at *
  have hlo : floor / 2 ^ k * 2 ^ k ≤ floor := Nat.div_mul_le_self _ _
  have hhi : floor < (floor / 2 ^ k + 1) * 2 ^ k := by
    rw [← Nat.div_lt_iff_lt_mul (by positivity)]
    exact Nat.lt_succ_self _
  generalize floor / 2 ^ k = m at *
  have e1 := unitsOf_scaled fmt k m hm (by omega)
  have e2 := unitsOf_scaled fmt k (m + 1) (hm.imp id (by omega)) (by omega)
  refine ⟨k * 2 ^ fmt.fracBits + m, by rwa [e1], by rwa [Nat.add_assoc, e2], ?_⟩
  rw [Nat.add_assoc, e1, e2, show m * 2 ^ k + (m + 1) * 2 ^ k = (2 * m + 1) * 2 ^ k by ring]
  congr 1
  cases cmp ((2 * m + 1) * 2 ^ k) with
  | lt => rfl
  | gt => rfl
  | eq =>
    have : (k * 2 ^ fmt.fracBits + m) % 2 = m % 2 := by
      rw [Nat.add_mod, Nat.mul_mod, hF]
      simp
    simp only [chosen, this]
    omega

theorem Fmt.infPattern_even (fmt : Fmt) : fmt.infPattern % 2 = 0 ∧ 0 < fmt.infPattern := by cases fmt <;> decide

/-- What `roundRNE` gives for a value v whose floor and whose comparisons it is told (R138). -/
theorem roundRNE_nearest {K : Type} [Field K] [LinearOrder K] [IsStrictOrderedRing K] (fmt : Fmt) (floor : Nat)
    (cmp : Nat → Ordering) (v : K) (h1 : (floor : K) ≤ v) (h2 : v < (floor : K) + 1)
    (hlt : ∀ t, cmp t = .lt ↔ 2 * v < t) (heq : ∀ t, cmp t = .eq ↔ 2 * v = t) :
    (2 * v < unitsOf fmt (fmt.infPattern - 1) + unitsOf fmt fmt.infPattern →
      roundRNE fmt floor cmp < fmt.infPattern ∧ ∀ c,
        |v - unitsOf fmt (roundRNE fmt floor cmp)| ≤ |v - unitsOf fmt c| ∧
        (|v - unitsOf fmt (roundRNE fmt floor cmp)| = |v - unitsOf fmt c| → c ≠ roundRNE fmt floor cmp →
          roundRNE fmt floor cmp % 2 = 0)) ∧
    (unitsOf fmt (fmt.infPattern - 1) + unitsOf fmt fmt.infPattern ≤ 2 * v → roundRNE fmt floor cmp = fmt.infPattern) := by
  obtain ⟨p, hp, hp1, hr⟩ := roundRNE_eq fmt floor cmp
  rw [hr]
  clear hr
  have hmono := unitsOf_strictMono fmt
  obtain ⟨hev, hpos⟩ := fmt.infPattern_even
  generalize fmt.infPattern = top at *
  have a1 : (unitsOf fmt p : K) ≤ v := le_trans (by exact_mod_cast hp) h1
  have a2 : v < unitsOf fmt (p + 1) := lt_of_lt_of_le h2 (by exact_mod_cast hp1)
  have key : ∀ c, (unitsOf fmt c : K) ≤ unitsOf fmt p ∨ (unitsOf fmt (p + 1) : K) ≤ unitsOf fmt c := fun c => by
    rcases Nat.lt_or_ge p c with h | h
    · exact .inr (by exact_mod_cast hmono.monotone h)
    · exact .inl (by exact_mod_cast hmono.monotone h)
  have keylt : ∀ c, c < p → (unitsOf fmt c : K) < unitsOf fmt p := fun c h => by exact_mod_cast hmono h
  have keygt : ∀ c, p + 1 < c → (unitsOf fmt (p + 1) : K) < unitsOf fmt c := fun c h => by exact_mod_cast hmono h
  have hl := hlt (unitsOf fmt p + unitsOf fmt (p + 1))
  have he := heq (unitsOf fmt p + unitsOf fmt (p + 1))
  push_cast at hl he
  have hcase : (chosen p (cmp (unitsOf fmt p + unitsOf fmt (p + 1))) = p ∧ 2 * v < unitsOf fmt p + unitsOf fmt (p + 1)) ∨
      (chosen p (cmp (unitsOf fmt p + unitsOf fmt (p + 1))) = p + p % 2 ∧ 2 * v = unitsOf fmt p + unitsOf fmt (p + 1)) ∨
      (chosen p (cmp (unitsOf fmt p + unitsOf fmt (p + 1))) = p + 1 ∧ (unitsOf fmt p + unitsOf fmt (p + 1) : K) < 2 * v) := by
    cases hc : cmp (unitsOf fmt p + unitsOf fmt (p + 1)) with
    | lt => exact .inl ⟨rfl, hl.1 hc⟩
    | eq => exact .inr (.inl ⟨rfl, he.1 hc⟩)
    | gt =>
      refine .inr (.inr ⟨rfl, ?_⟩)
      rcases lt_trichotomy (2 * v) (unitsOf fmt p + unitsOf fmt (p + 1) : K) with h | h | h
      · rw [hl.2 h] at hc; cases hc
      · rw [he.2 h] at hc; cases hc
      · exact h
  clear hl he hlt heq
  generalize chosen p (cmp (unitsOf fmt p + unitsOf fmt (p + 1))) = q at *
  have dp : |v - unitsOf fmt p| = v - unitsOf fmt p := abs_of_nonneg (by linarith)
  have dp1 : |v - unitsOf fmt (p + 1)| = unitsOf fmt (p + 1) - v := by rw [abs_sub_comm]; exact abs_of_pos (by linarith)
  constructor
  · intro hov
    have hptop : p < top := by
      by_contra hge
      have m1 : (unitsOf fmt (top - 1) : K) ≤ unitsOf fmt p := by exact_mod_cast hmono.monotone (by omega)
      have m2 : (unitsOf fmt top : K) ≤ unitsOf fmt p := by exact_mod_cast hmono.monotone (by omega)
      linarith
    have hq : q < top := by
      rcases Nat.lt_or_ge (p + 1) top with h | h
      · rcases hcase with ⟨rfl, _⟩ | ⟨rfl, _⟩ | ⟨rfl, _⟩ <;> omega
      · obtain rfl : top = p + 1 := by omega
        rw [Nat.add_sub_cancel] at hov
        rcases hcase with ⟨rfl, _⟩ | ⟨rfl, h⟩ | ⟨rfl, h⟩
        · omega
        · linarith
        · linarith
    rw [min_eq_left hq.le]
    refine ⟨hq, fun c => ?_⟩
    have far : |v - unitsOf fmt c| = v - unitsOf fmt c ∧ (unitsOf fmt c : K) ≤ unitsOf fmt p ∧ (c = p ∨ (unitsOf fmt c : K) < unitsOf fmt p) ∨
        |v - unitsOf fmt c| = unitsOf fmt c - v ∧ (unitsOf fmt (p + 1) : K) ≤ unitsOf fmt c ∧
          (c = p + 1 ∨ (unitsOf fmt (p + 1) : K) < unitsOf fmt c) := by
      rcases Nat.lt_or_ge p c with h | h
      · have hh : (unitsOf fmt (p + 1) : K) ≤ unitsOf fmt c := by exact_mod_cast hmono.monotone h
        refine .inr ⟨?_, hh, ?_⟩
        · rw [abs_sub_comm]; exact abs_of_pos (by linarith)
        · rcases Nat.lt_or_ge (p + 1) c with h | h'
          · exact .inr (keygt c h)
          · exact .inl (by omega)
      · have hh : (unitsOf fmt c : K) ≤ unitsOf fmt p := by exact_mod_cast hmono.monotone h
        refine .inl ⟨abs_of_nonneg (by linarith), hh, ?_⟩
        rcases Nat.lt_or_ge c p with h | h'
        · exact .inr (keylt c h)
        · exact .inl (by omega)
    rcases hcase with ⟨rfl, hc⟩ | ⟨hqe, hc⟩ | ⟨rfl, hc⟩
    · rw [dp]
      rcases far with ⟨e, h, h'⟩ | ⟨e, h, h'⟩
      · rw [e]
        refine ⟨by linarith, fun heq hne => ?_⟩
        rcases h' with rfl | h'
        · exact absurd rfl hne
        · linarith
      · rw [e]
        exact ⟨by linarith, fun heq _ => by linarith⟩
    · have hq2 : q % 2 = 0 := by omega
      have dq : |v - unitsOf fmt q| = v - unitsOf fmt p := by
        rcases Nat.mod_two_eq_zero_or_one p with h | h
        · rw [hqe, h, Nat.add_zero, dp]
        · rw [hqe, h, dp1]; linarith
      rw [dq]
      refine ⟨?_, fun _ _ => hq2⟩
      rcases far with ⟨e, h, _⟩ | ⟨e, h, _⟩ <;> rw [e] <;> linarith
    · rw [dp1]
      rcases far with ⟨e, h, h'⟩ | ⟨e, h, h'⟩
      · rw [e]
        exact ⟨by linarith, fun heq _ => by linarith⟩
      · rw [e]
        refine ⟨by linarith, fun heq hne => ?_⟩
        rcases h' with rfl | h'
        · exact absurd rfl hne
        · linarith
  · intro hov
    refine min_eq_right ?_
    have hge : top - 1 ≤ p := by
      by_contra hlt
      have m1 : (unitsOf fmt (p + 1) : K) ≤ unitsOf fmt (top - 1) := by exact_mod_cast hmono.monotone (by omega)
      have m2 : (unitsOf fmt (top - 1) : K) < unitsOf fmt top := by exact_mod_cast hmono (by omega)
      linarith
    rcases Nat.lt_or_ge p top with h | h
    · obtain rfl : top = p + 1 := by omega
      rw [Nat.add_sub_cancel] at hov
      rcases hcase with ⟨rfl, hc⟩ | ⟨rfl, _⟩ | ⟨rfl, _⟩
      · linarith
      · omega
      · omega
    · rcases hcase with ⟨rfl, _⟩ | ⟨rfl, _⟩ | ⟨rfl, _⟩ <;> omega

end Sys2Proof.Machine
end

