-- ==== Sys2Proof/Laws/Float.lean ====
section
/-! SUPPORT. Floating-point patterns as signed magnitudes, and what `packRounded` and `fpSqrt` give of exact values: the
lemmas that lead from the model's arithmetic to the rational values of Safety.lean. -/

namespace Sys2Proof.Machine

/-! ## Patterns as signed magnitudes -/

/-- The pattern without its sign bit. -/
def magOf {n : Nat} (b : BitVec n) : Nat := b.toNat % 2 ^ (n - 1)

theorem magOf_eq (fmt : Fmt) (b : BitVec fmt.width) : magOf b = expField fmt b * 2 ^ fmt.fracBits + fracField fmt b := by
  have h : 2 ^ (fmt.width - 1) = 2 ^ fmt.fracBits * 2 ^ fmt.expBits := by cases fmt <;> rfl
  rw [magOf, h, Nat.mod_mul, expField, fracField, Nat.mul_comm (2 ^ fmt.fracBits), Nat.add_comm]

theorem expField_lt (fmt : Fmt) {n : Nat} (b : BitVec n) : expField fmt b < 2 ^ fmt.expBits := Nat.mod_lt _ (by positivity)

theorem fracField_lt (fmt : Fmt) {n : Nat} (b : BitVec n) : fracField fmt b < 2 ^ fmt.fracBits := Nat.mod_lt _ (by positivity)

theorem fpFinite_iff (fmt : Fmt) (b : BitVec fmt.width) : fpFinite fmt b ↔ magOf b < fmt.infPattern := by
  have h1 := expField_lt fmt b
  have h2 := fracField_lt fmt b
  rw [magOf_eq, fpFinite, Fmt.infPattern, Fmt.expMax]
  generalize 2 ^ fmt.fracBits = F at *
  generalize 2 ^ fmt.expBits = E at *
  generalize expField fmt b = e at *
  constructor
  · intro h
    have : (e + 1) * F ≤ (E - 1) * F := Nat.mul_le_mul_right _ (by omega)
    have e1 : (e + 1) * F = e * F + F := by ring
    omega
  · rintro h rfl
    omega

theorem fpInf_iff (fmt : Fmt) (b : BitVec fmt.width) : fpInf fmt b ↔ magOf b = fmt.infPattern := by
  have h1 := expField_lt fmt b
  have h2 := fracField_lt fmt b
  rw [magOf_eq, fpInf, Fmt.infPattern, Fmt.expMax]
  generalize 2 ^ fmt.fracBits = F at *
  generalize 2 ^ fmt.expBits = E at *
  generalize expField fmt b = e at *
  constructor
  · rintro ⟨rfl, h⟩
    omega
  · intro h
    have : E - 1 ≤ e := by
      by_contra hlt
      have : (e + 1) * F ≤ (E - 1) * F := Nat.mul_le_mul_right _ (by omega)
      have e1 : (e + 1) * F = e * F + F := by ring
      omega
    obtain rfl : e = E - 1 := by omega
    exact ⟨rfl, by omega⟩

/-- The units of a pattern, field by field. -/
theorem unitsOf_magOf (fmt : Fmt) (b : BitVec fmt.width) : unitsOf fmt (magOf b) =
    if expField fmt b = 0 then fracField fmt b else (2 ^ fmt.fracBits + fracField fmt b) * 2 ^ (expField fmt b - 1) := by
  have h2 := fracField_lt fmt b
  have hF : 0 < 2 ^ fmt.fracBits := by positivity
  rw [magOf_eq]
  split
  · next h => rw [h, Nat.zero_mul, Nat.zero_add, unitsOf, if_pos h2]
  · next h =>
    obtain ⟨k, hk⟩ : ∃ k, expField fmt b = k + 1 := ⟨expField fmt b - 1, by omega⟩
    rw [hk, show (k + 1) * 2 ^ fmt.fracBits + fracField fmt b = k * 2 ^ fmt.fracBits + (2 ^ fmt.fracBits + fracField fmt b) by ring,
      unitsOf_scaled fmt k _ (.inr (by omega)) (by omega), Nat.add_sub_cancel]

/-- F32(b) and F64(b) as a signed count of units (R16). -/
theorem fpReal_eq (fmt : Fmt) (b : BitVec fmt.width) :
    fpReal fmt b = (if b.msb then -1 else 1) * ((unitsOf fmt (magOf b) : ℚ) / 2 ^ fmt.scale) := by
  have hs : (fmt.scale : Int) = fmt.bias - 1 + fmt.fracBits := by cases fmt <;> rfl
  rw [fpReal, unitsOf_magOf]
  congr 1
  have two : (2 : ℚ) ≠ 0 := by norm_num
  have hsc : (2 : ℚ) ^ fmt.scale = 2 ^ (fmt.bias - 1) * 2 ^ fmt.fracBits := by
    rw [← zpow_natCast, hs, zpow_add₀ two, zpow_natCast]
  split
  · rw [hsc, show (1 - fmt.bias) = -(fmt.bias - 1) by ring, zpow_neg]
    field_simp
  · next h =>
    obtain ⟨k, hk⟩ : ∃ k, expField fmt b = k + 1 := ⟨expField fmt b - 1, by omega⟩
    rw [hk, Nat.add_sub_cancel, hsc]
    push_cast
    rw [show (k : Int) + 1 - fmt.bias = k - (fmt.bias - 1) by ring, zpow_sub₀ two, zpow_natCast]
    field_simp

/-- The overflow threshold lies halfway between the largest finite number and the next one up (R138). -/
theorem overflow_eq (fmt : Fmt) :
    2 * (fmt.overflow * 2 ^ fmt.scale) = unitsOf fmt (fmt.infPattern - 1) + unitsOf fmt fmt.infPattern := by
  have e1 : fmt.infPattern - 1 = (2 ^ fmt.expBits - 3) * 2 ^ fmt.fracBits + (2 * 2 ^ fmt.fracBits - 1) := by
    cases fmt <;> rfl
  have e2 : fmt.infPattern = (2 ^ fmt.expBits - 3) * 2 ^ fmt.fracBits + 2 * 2 ^ fmt.fracBits := by cases fmt <;> rfl
  have hF : 0 < 2 ^ fmt.fracBits := by positivity
  rw [e1, unitsOf_scaled fmt _ _ (.inr (by omega)) (by omega), e2, unitsOf_scaled fmt _ _ (.inr (by omega)) le_rfl]
  cases fmt with
  | single =>
    have : Fmt.overflow .single = 2 ^ 128 - 2 ^ 103 := rfl
    rw [this]
    simp only [Fmt.scale, Fmt.expBits, Fmt.fracBits]
    norm_num
  | double =>
    have : Fmt.overflow .double = 2 ^ 1024 - 2 ^ 970 := rfl
    rw [this]
    have hA : ((2 ^ 970 : Nat) : ℚ) = 2 ^ 970 := by rw [Nat.cast_pow, Nat.cast_ofNat]
    have hB : ((2 ^ 1074 : Nat) : ℚ) = 2 ^ 1074 := by rw [Nat.cast_pow, Nat.cast_ofNat]
    have h1 : (2 : ℚ) ^ 1024 = 2 ^ 54 * 2 ^ 970 := by rw [← pow_add]
    have h2 : (2 : Nat) ^ (2 ^ Fmt.expBits .double - 3) = 2 ^ 970 * 2 ^ 1074 * 2 := by
      rw [← pow_add, ← pow_succ]
      exact congrArg (2 ^ ·) (by decide)
    rw [h1, h2, show Fmt.scale .double = 1074 from rfl, ← hA, ← hB]
    generalize 2 ^ 970 = A
    generalize 2 ^ 1074 = B
    simp only [Fmt.fracBits]
    push_cast
    ring

/-! ## A sign over a magnitude -/

theorem infPattern_lt (fmt : Fmt) : fmt.infPattern < 2 ^ (fmt.width - 1) := by cases fmt <;> decide

theorem magOf_signed (fmt : Fmt) (neg : Bool) (m : Nat) (h : m < 2 ^ (fmt.width - 1)) : magOf (signed fmt.width neg m) = m := by
  have e : 2 ^ fmt.width = 2 ^ (fmt.width - 1) * 2 := by cases fmt <;> rfl
  unfold magOf signed
  rw [BitVec.toNat_ofNat, e]
  generalize 2 ^ (fmt.width - 1) = P at *
  rw [Nat.mod_mul_right_mod]
  cases neg
  · simpa using Nat.mod_eq_of_lt h
  · simpa using Nat.mod_eq_of_lt h

theorem msb_signed (fmt : Fmt) (neg : Bool) (m : Nat) (h : m < 2 ^ (fmt.width - 1)) : (signed fmt.width neg m).msb = neg := by
  have e : 2 ^ fmt.width = 2 ^ (fmt.width - 1) * 2 := by cases fmt <;> rfl
  unfold signed
  rw [BitVec.msb_eq_decide, BitVec.toNat_ofNat, e]
  generalize 2 ^ (fmt.width - 1) = P at *
  cases neg
  · simp only [Bool.false_eq_true, if_false, Nat.zero_add, decide_eq_false_iff_not]
    rw [Nat.mod_eq_of_lt (by omega)]
    omega
  · simp only [if_true, decide_eq_true_eq]
    rw [Nat.mod_eq_of_lt (by omega)]
    omega

theorem lsb_signed (fmt : Fmt) (neg : Bool) (m : Nat) : (signed fmt.width neg m).getLsbD 0 = decide (m % 2 = 1) := by
  unfold signed
  cases neg <;> cases fmt <;> simp [Fmt.width, BitVec.getLsbD, Nat.testBit_zero] <;> omega

/-- The comparisons that `roundRatio` makes are those of the quotient. -/
theorem roundRatio_nearest (fmt : Fmt) (num den : Nat) (hd : 0 < den) :
    (2 * (num / den : ℚ) < unitsOf fmt (fmt.infPattern - 1) + unitsOf fmt fmt.infPattern →
      roundRatio fmt num den < fmt.infPattern ∧ ∀ c,
        |(num / den : ℚ) - unitsOf fmt (roundRatio fmt num den)| ≤ |(num / den : ℚ) - unitsOf fmt c| ∧
        (|(num / den : ℚ) - unitsOf fmt (roundRatio fmt num den)| = |(num / den : ℚ) - unitsOf fmt c| →
          c ≠ roundRatio fmt num den → roundRatio fmt num den % 2 = 0)) ∧
    (unitsOf fmt (fmt.infPattern - 1) + unitsOf fmt fmt.infPattern ≤ 2 * (num / den : ℚ) →
      roundRatio fmt num den = fmt.infPattern) := by
  have hdq : (0 : ℚ) < den := by exact_mod_cast hd
  refine roundRNE_nearest fmt (num / den) (fun t => compare (2 * num) (t * den)) (num / den : ℚ) Nat.cast_div_le ?_ ?_ ?_
  · rw [div_lt_iff₀ hdq]
    have := Nat.lt_mul_div_succ num hd
    rw [Nat.mul_comm] at this
    exact_mod_cast this
  · intro t
    rw [Nat.compare_eq_lt, ← mul_div_assoc, div_lt_iff₀ hdq]
    exact_mod_cast Iff.rfl
  · intro t
    rw [Nat.compare_eq_eq, ← mul_div_assoc, div_eq_iff hdq.ne']
    exact_mod_cast Iff.rfl

/-- A sign over the rounded magnitude is the rounded value (R138). -/
theorem roundsTo_signed (fmt : Fmt) (neg : Bool) (num den : Nat) (hd : 0 < den) (r : ℚ)
    (hr : r = (if neg then -1 else 1) * ((num / den : ℚ) / 2 ^ fmt.scale)) :
    RoundsTo fmt r (signed fmt.width neg (roundRatio fmt num den)) := by
  obtain ⟨hin, hout⟩ := roundRatio_nearest fmt num den hd
  have hx : (0 : ℚ) ≤ num / den := by positivity
  generalize (num / den : ℚ) = x at *
  generalize roundRatio fmt num den = q at *
  have hs : (0 : ℚ) < 2 ^ fmt.scale := by positivity
  have hov := overflow_eq fmt
  have habs : |r| = x / 2 ^ fmt.scale := by
    rw [hr, abs_mul, abs_of_nonneg (div_nonneg hx hs.le)]
    cases neg <;> simp
  refine ⟨?_, ?_, fun h => ?_⟩
  · intro h
    rw [habs, div_lt_iff₀ hs] at h
    obtain ⟨hq, hnear⟩ := hin (by linarith)
    have hq' := lt_trans hq (infPattern_lt fmt)
    refine ⟨(fpFinite_iff ..).2 (by rwa [magOf_signed fmt neg q hq']), fun c hc => ?_⟩
    have ev : fpReal fmt (signed fmt.width neg q) = (if neg then -1 else 1) * ((unitsOf fmt q : ℚ) / 2 ^ fmt.scale) := by
      rw [fpReal_eq, msb_signed fmt neg q hq', magOf_signed fmt neg q hq']
    have ec := fpReal_eq fmt c
    have d1 : |r - fpReal fmt (signed fmt.width neg q)| = |x - unitsOf fmt q| / 2 ^ fmt.scale := by
      rw [hr, ev, ← mul_sub, ← sub_div, abs_mul, abs_div, abs_of_pos hs]
      cases neg <;> simp
    have hz := hnear 0
    simp only [unitsOf_zero, Nat.cast_zero, sub_zero, abs_of_nonneg hx] at hz
    have hm := hnear (magOf c)
    have hu : (0 : ℚ) ≤ unitsOf fmt (magOf c) := by positivity
    rw [d1, lsb_signed]
    by_cases hsign : c.msb = neg
    · have d2 : |r - fpReal fmt c| = |x - unitsOf fmt (magOf c)| / 2 ^ fmt.scale := by
        rw [hr, ec, hsign, ← mul_sub, ← sub_div, abs_mul, abs_div, abs_of_pos hs]
        cases neg <;> simp
      rw [d2]
      refine ⟨div_le_div_of_nonneg_right hm.1 hs.le, fun he hne => ?_⟩
      have hq2 := hm.2 (by rwa [div_left_inj' hs.ne'] at he) (by rintro rfl; exact hne (by rw [ec, ev, hsign]))
      simp [hq2]
    · have d2 : |r - fpReal fmt c| = (x + unitsOf fmt (magOf c)) / 2 ^ fmt.scale := by
        rw [hr, ec, show (if c.msb then (-1 : ℚ) else 1) = -(if neg then -1 else 1) by cases neg <;> simp_all,
          neg_mul, sub_neg_eq_add, ← mul_add, ← add_div, abs_mul, abs_div, abs_of_pos hs, abs_of_nonneg (add_nonneg hx hu)]
        cases neg <;> simp
      rw [d2]
      refine ⟨div_le_div_of_nonneg_right (by linarith) hs.le, fun he hne => ?_⟩
      rw [div_left_inj' hs.ne'] at he
      have h0 : (unitsOf fmt (magOf c) : ℚ) = 0 := by linarith
      have hq2 := hz.2 (by linarith) (by
        rintro rfl
        apply hne
        rw [ec, ev, h0, unitsOf_zero]
        simp)
      simp [hq2]
  · intro h
    rw [habs, le_div_iff₀ hs] at h
    obtain rfl := hout (by linarith)
    have hxpos : 0 < x := by
      have : (0 : ℚ) < unitsOf fmt fmt.infPattern := by
        have := unitsOf_strictMono fmt (fmt.infPattern_even).2
        rw [unitsOf_zero] at this
        exact_mod_cast this
      have : (0 : ℚ) ≤ unitsOf fmt (fmt.infPattern - 1) := by positivity
      linarith
    refine ⟨(fpInf_iff ..).2 (magOf_signed fmt neg _ (infPattern_lt fmt)), ?_⟩
    rw [msb_signed fmt neg _ (infPattern_lt fmt), hr]
    have := div_pos hxpos hs
    cases neg
    · rw [eq_comm, decide_eq_false_iff_not, if_neg (by decide)]
      linarith
    · rw [eq_comm, decide_eq_true_eq, if_pos rfl]
      linarith
  · have hq : q < 2 ^ (fmt.width - 1) := by
      rcases lt_or_ge (2 * x) (unitsOf fmt (fmt.infPattern - 1) + unitsOf fmt fmt.infPattern) with hx2 | hx2
      · exact lt_trans (hin hx2).1 (infPattern_lt fmt)
      · exact (hout hx2) ▸ infPattern_lt fmt
    rw [msb_signed fmt neg q hq]
    cases neg
    · rfl
    · have := div_nonneg hx hs.le
      rw [hr, if_pos rfl] at h
      linarith

/-! ## Reading and writing patterns -/

theorem unpack_of_nan {fmt : Fmt} {b : BitVec fmt.width} (h : fpNaN fmt b) : unpack fmt b = .nan := by
  simp only [unpack, isNaN, Fmt.expMax, h.1, beq_self_eq_true, Bool.true_and, bne_iff_ne, ne_eq, h.2, not_false_eq_true, if_true]

theorem isNaN_iff (fmt : Fmt) {n : Nat} (b : BitVec n) : isNaN fmt b = true ↔ fpNaN fmt b := by
  simp [isNaN, fpNaN, Fmt.expMax]

theorem isSNaN_iff (fmt : Fmt) {n : Nat} (b : BitVec n) : isSNaN fmt b = true ↔ fpSNaN fmt b := by
  simp [isSNaN, fpSNaN, isNaN_iff]

theorem unpack_of_inf {fmt : Fmt} {b : BitVec fmt.width} (h : fpInf fmt b) : unpack fmt b = .inf b.msb := by
  have hn : ¬ isNaN fmt b = true := by rw [isNaN_iff]; exact fun h' => h'.2 h.2
  rw [unpack, if_neg hn, if_pos (show expField fmt b = fmt.expMax from h.1)]

theorem unpack_of_finite {fmt : Fmt} {b : BitVec fmt.width} (h : fpFinite fmt b) :
    unpack fmt b = .fin b.msb (unitsOf fmt (magOf b)) := by
  have hn : ¬ isNaN fmt b = true := by rw [isNaN_iff]; exact fun h' => h h'.1
  rw [unpack, if_neg hn, if_neg (show ¬ expField fmt b = fmt.expMax from h), unitsOf_magOf]
  split <;> rfl

/-- Every pattern is a NaN, an infinity or finite, and only one of them. -/
theorem fp_cases (fmt : Fmt) {n : Nat} (b : BitVec n) : fpNaN fmt b ∨ fpInf fmt b ∨ fpFinite fmt b := by
  unfold fpNaN fpInf fpFinite
  by_cases h : expField fmt b = 2 ^ fmt.expBits - 1 <;> by_cases h' : fracField fmt b = 0 <;> simp [h, h']

theorem not_inf_of_nan {fmt : Fmt} {n : Nat} {b : BitVec n} (h : fpNaN fmt b) : ¬ fpInf fmt b := fun h' => h.2 h'.2

theorem not_finite_of_nan {fmt : Fmt} {n : Nat} {b : BitVec n} (h : fpNaN fmt b) : ¬ fpFinite fmt b := fun h' => h' h.1

theorem not_finite_of_inf {fmt : Fmt} {n : Nat} {b : BitVec n} (h : fpInf fmt b) : ¬ fpFinite fmt b := fun h' => h' h.1

/-- A finite value is zero when its units are. -/
theorem fpReal_eq_zero (fmt : Fmt) (b : BitVec fmt.width) : fpReal fmt b = 0 ↔ unitsOf fmt (magOf b) = 0 := by
  have hs : (2 : ℚ) ^ fmt.scale ≠ 0 := by positivity
  rw [fpReal_eq]
  cases b.msb <;> simp [hs]

theorem canonicalNaN_eq (fmt : Fmt) : BitVec.ofNat fmt.width fmt.canonicalNaN = fpCanonicalNaN fmt.width := by cases fmt <;> rfl

theorem signed_zero (fmt : Fmt) (neg : Bool) : signed fmt.width neg 0 = fpZero fmt.width neg := by cases fmt <;> cases neg <;> rfl

theorem isInf_signed (fmt : Fmt) (neg : Bool) : IsInf fmt neg (signed fmt.width neg fmt.infPattern) :=
  ⟨(fpInf_iff ..).2 (magOf_signed fmt neg _ (infPattern_lt fmt)), msb_signed fmt neg _ (infPattern_lt fmt)⟩

/-- An infinity is its sign over the pattern of infinity. -/
theorem eq_signed_of_inf {fmt : Fmt} {b : BitVec fmt.width} (h : fpInf fmt b) : b = signed fmt.width b.msb fmt.infPattern := by
  have hm := (fpInf_iff fmt b).1 h
  apply BitVec.eq_of_toNat_eq
  have e : 2 ^ fmt.width = 2 ^ (fmt.width - 1) * 2 := by cases fmt <;> rfl
  have hi := infPattern_lt fmt
  have hb := b.isLt
  unfold signed magOf at *
  rw [BitVec.toNat_ofNat, BitVec.msb_eq_decide]
  rw [e] at hb ⊢
  generalize 2 ^ (fmt.width - 1) = P at *
  generalize fmt.infPattern = I at *
  by_cases hp : P ≤ b.toNat
  · simp only [hp, decide_true, if_true]
    rw [Nat.mod_eq_of_lt (by omega)]
    rw [Nat.mod_eq_sub_mod hp, Nat.mod_eq_of_lt (by omega)] at hm
    omega
  · simp only [hp, decide_false, Bool.false_eq_true, if_false]
    rw [Nat.mod_eq_of_lt (by omega)] at hm ⊢
    omega

@[simp] theorem roundRatio_zero (fmt : Fmt) {den : Nat} (h : 0 < den) : roundRatio fmt 0 den = 0 := by
  have : compare 0 den = .lt := by rw [Nat.compare_eq_lt]; exact h
  simp [roundRatio, roundRNE, this]

/-- The signed sum of two magnitudes, as a number. -/
theorem signedSum_value (sa : Bool) (ma : Nat) (sb : Bool) (mb : Nat) :
    (if (signedSum sa ma sb mb).1 then (-1 : ℚ) else 1) * (signedSum sa ma sb mb).2 =
      (if sa then -1 else 1) * ma + (if sb then -1 else 1) * mb := by
  unfold signedSum
  rcases lt_trichotomy ma mb with h | h | h
  · have : ¬ mb < ma := by omega
    cases sa <;> cases sb <;> simp [h, this, Nat.cast_sub h.le] <;> ring
  · subst h
    cases sa <;> cases sb <;> simp [← two_mul]
  · cases sa <;> cases sb <;> simp [h, Nat.cast_sub h.le] <;> ring

/-- An exact sum of zero is −0 only when both signs are. -/
theorem signedSum_zero {sa : Bool} {ma : Nat} {sb : Bool} {mb : Nat} (h : (signedSum sa ma sb mb).2 = 0) :
    (signedSum sa ma sb mb).1 = (sa && sb) := by
  unfold signedSum at *
  by_cases hs : sa = sb
  · subst hs; simp
  · rw [if_neg hs] at h ⊢
    have hsb : (sa && sb) = false := by cases sa <;> cases sb <;> simp_all
    split at h
    · simp at h; omega
    · next h1 =>
      split at h
      · simp at h; omega
      · next h2 => rw [if_neg h1, if_neg h2, hsb]

/-- A rounded ratio whose exact value is not zero, and one whose exact value is zero. -/
theorem packRounded_ratio (fmt : Fmt) (neg : Bool) (num den : Nat) (hd : 0 < den) :
    RoundsTo fmt ((if neg then -1 else 1) * ((num / den : ℚ) / 2 ^ fmt.scale)) (packRounded fmt fmt.width (.ratio neg num den)) ∧
    (num = 0 → packRounded fmt fmt.width (.ratio neg num den) = fpZero fmt.width neg) :=
  ⟨roundsTo_signed fmt neg num den hd _ rfl, fun h => by rw [h, packRounded, roundRatio_zero fmt hd, signed_zero]⟩

/-! ## Square roots -/

theorem isqrtFrom_spec (k r n : Nat) (h1 : r * r ≤ n) (h2 : n < (r + 2 ^ k) * (r + 2 ^ k)) :
    isqrtFrom k r n * isqrtFrom k r n ≤ n ∧ n < (isqrtFrom k r n + 1) * (isqrtFrom k r n + 1) := by
  induction k generalizing r with
  | zero => exact ⟨h1, h2⟩
  | succ k ih =>
    unfold isqrtFrom
    have e : r + 2 ^ (k + 1) = r + 2 ^ k + 2 ^ k := by ring
    rw [e] at h2
    split
    · next h => exact ih _ h h2
    · next h => exact ih _ h1 (by omega)

theorem isqrt_spec (n : Nat) : isqrt n * isqrt n ≤ n ∧ n < (isqrt n + 1) * (isqrt n + 1) := by
  refine isqrtFrom_spec _ 0 n (by simp) ?_
  have h : n < 2 ^ (Nat.log2 n + 1) := Nat.lt_log2_self
  rw [Nat.zero_add, ← pow_add]
  exact lt_of_lt_of_le h (Nat.pow_le_pow_right (by decide) (by omega))

/-- The comparisons that `roundSqrt` makes are those of the real root. -/
theorem roundSqrt_nearest (fmt : Fmt) (n : Nat) :
    (2 * √(n : ℝ) < unitsOf fmt (fmt.infPattern - 1) + unitsOf fmt fmt.infPattern →
      roundSqrt fmt n < fmt.infPattern ∧ ∀ c,
        |√(n : ℝ) - unitsOf fmt (roundSqrt fmt n)| ≤ |√(n : ℝ) - unitsOf fmt c| ∧
        (|√(n : ℝ) - unitsOf fmt (roundSqrt fmt n)| = |√(n : ℝ) - unitsOf fmt c| →
          c ≠ roundSqrt fmt n → roundSqrt fmt n % 2 = 0)) ∧
    (unitsOf fmt (fmt.infPattern - 1) + unitsOf fmt fmt.infPattern ≤ 2 * √(n : ℝ) → roundSqrt fmt n = fmt.infPattern) := by
  obtain ⟨h1, h2⟩ := isqrt_spec n
  have e : 2 * √(n : ℝ) = √((4 * n : Nat) : ℝ) := by
    rw [Nat.cast_mul, Real.sqrt_mul (by positivity), show ((4 : Nat) : ℝ) = 2 ^ 2 by norm_num, Real.sqrt_sq (by norm_num)]
  refine roundRNE_nearest fmt (isqrt n) (fun t => compare (4 * n) (t * t)) (√(n : ℝ)) ?_ ?_ ?_ ?_
  · exact Real.le_sqrt_of_sq_le (by rw [sq]; exact_mod_cast h1)
  · rw [Real.sqrt_lt' (by positivity), sq]
    exact_mod_cast h2
  · intro t
    rw [Nat.compare_eq_lt, e]
    rcases Nat.eq_zero_or_pos t with rfl | ht
    · simp [Real.sqrt_nonneg]
    · rw [Real.sqrt_lt' (by exact_mod_cast ht), sq]
      exact_mod_cast Iff.rfl
  · intro t
    rw [Nat.compare_eq_eq, e, Real.sqrt_eq_iff_mul_self_eq (by positivity) (by positivity)]
    constructor
    · intro h; exact_mod_cast h
    · intro h; exact_mod_cast h

/-- The root of a finite value is below every overflow. -/
theorem roundSqrt_lt (fmt : Fmt) {m : Nat} (h : m ≤ unitsOf fmt (fmt.infPattern - 1)) :
    2 * √((m * 2 ^ fmt.scale : Nat) : ℝ) < unitsOf fmt (fmt.infPattern - 1) + unitsOf fmt fmt.infPattern := by
  have hs : 2 ^ fmt.scale ≤ unitsOf fmt (fmt.infPattern - 1) := by cases fmt <;> decide +kernel
  have hlt : (unitsOf fmt (fmt.infPattern - 1) : ℝ) < unitsOf fmt fmt.infPattern := by
    have := unitsOf_strictMono fmt (show fmt.infPattern - 1 < fmt.infPattern by have := fmt.infPattern_even; omega)
    exact_mod_cast this
  have : √((m * 2 ^ fmt.scale : Nat) : ℝ) ≤ unitsOf fmt (fmt.infPattern - 1) := by
    refine Real.sqrt_le_iff.2 ⟨by positivity, ?_⟩
    rw [sq]
    exact_mod_cast Nat.mul_le_mul h hs
  linarith

/-- FSQRT of a finite value that is not below zero is the finite value nearest to the root, said through squares (R151). -/
theorem sqrt_nearest (fmt : Fmt) (m : Nat) (h : m ≤ unitsOf fmt (fmt.infPattern - 1)) (a : ℚ) (ha : a = m / 2 ^ fmt.scale) :
    let v := signed fmt.width false (roundSqrt fmt (m * 2 ^ fmt.scale))
    fpFinite fmt v ∧ v.msb = false ∧ ∀ c : BitVec fmt.width, fpFinite fmt c →
      (fpReal fmt v < fpReal fmt c → 4 * a ≤ (fpReal fmt v + fpReal fmt c) ^ 2 ∧
        (4 * a = (fpReal fmt v + fpReal fmt c) ^ 2 → v.getLsbD 0 = false)) ∧
      (fpReal fmt c < fpReal fmt v → 0 ≤ fpReal fmt v + fpReal fmt c →
        (fpReal fmt v + fpReal fmt c) ^ 2 ≤ 4 * a ∧
        ((fpReal fmt v + fpReal fmt c) ^ 2 = 4 * a → v.getLsbD 0 = false)) := by
  intro v
  obtain ⟨hq, hnear⟩ := (roundSqrt_nearest fmt (m * 2 ^ fmt.scale)).1 (roundSqrt_lt fmt h)
  have hq' := lt_trans hq (infPattern_lt fmt)
  have hmag : magOf v = roundSqrt fmt (m * 2 ^ fmt.scale) := magOf_signed fmt false _ hq'
  have hmsb : v.msb = false := msb_signed fmt false _ hq'
  have hlsb : v.getLsbD 0 = decide (roundSqrt fmt (m * 2 ^ fmt.scale) % 2 = 1) := lsb_signed fmt false _
  refine ⟨(fpFinite_iff ..).2 (by rwa [hmag]), hmsb, fun c _ => ?_⟩
  have ev : fpReal fmt v = (unitsOf fmt (roundSqrt fmt (m * 2 ^ fmt.scale)) : ℚ) / 2 ^ fmt.scale := by
    rw [fpReal_eq, hmsb, hmag]; simp
  have ec := fpReal_eq fmt c
  have hs : (0 : ℚ) < 2 ^ fmt.scale := by positivity
  have hV : √((m * 2 ^ fmt.scale : Nat) : ℝ) ^ 2 = ((m * 2 ^ fmt.scale : Nat) : ℝ) := Real.sq_sqrt (by positivity)
  have hV0 : 0 ≤ √((m * 2 ^ fmt.scale : Nat) : ℝ) := Real.sqrt_nonneg _
  rw [hlsb, ev, ec, ha]
  generalize √((m * 2 ^ fmt.scale : Nat) : ℝ) = V at *
  generalize roundSqrt fmt (m * 2 ^ fmt.scale) = q at *
  have hU := unitsOf_strictMono fmt
  have up (k : Nat) (hk : (unitsOf fmt q : ℝ) < unitsOf fmt k) : 2 * V ≤ unitsOf fmt q + unitsOf fmt k := by
    have := sq_le_sq.2 (hnear k).1
    by_contra hlt
    nlinarith
  have down (k : Nat) (hk : (unitsOf fmt k : ℝ) < unitsOf fmt q) : (unitsOf fmt q + unitsOf fmt k : ℝ) ≤ 2 * V := by
    have := sq_le_sq.2 (hnear k).1
    by_contra hlt
    nlinarith
  have tie (k : Nat) (hk : unitsOf fmt k ≠ unitsOf fmt q) (h : 2 * V = unitsOf fmt q + unitsOf fmt k) :
      decide (q % 2 = 1) = false := by
    have : q % 2 = 0 := (hnear k).2 (by rw [show V - unitsOf fmt q = -(V - unitsOf fmt k) by linarith, abs_neg])
      (fun e => hk (by rw [e]))
    simp [this]
  have eS : ((2 : ℝ) ^ fmt.scale) = (((2 : ℚ) ^ fmt.scale : ℚ) : ℝ) := by push_cast; rfl
  have clear (w : ℚ) : (4 * ((m : ℚ) / 2 ^ fmt.scale) ≤ (w / 2 ^ fmt.scale) ^ 2 ↔ (2 * V) ^ 2 ≤ (w : ℝ) ^ 2) ∧
      ((w / 2 ^ fmt.scale) ^ 2 ≤ 4 * ((m : ℚ) / 2 ^ fmt.scale) ↔ (w : ℝ) ^ 2 ≤ (2 * V) ^ 2) ∧
      (4 * ((m : ℚ) / 2 ^ fmt.scale) = (w / 2 ^ fmt.scale) ^ 2 ↔ (2 * V) ^ 2 = (w : ℝ) ^ 2) := by
    have e1 : 4 * ((m : ℚ) / 2 ^ fmt.scale) = 4 * (m * 2 ^ fmt.scale) / (2 ^ fmt.scale) ^ 2 := by field_simp
    have e2 : (2 * V) ^ 2 = ((4 * (m * 2 ^ fmt.scale) : ℚ) : ℝ) := by
      rw [mul_pow, hV]
      push_cast
      ring
    have hs2 : (0 : ℚ) < (2 ^ fmt.scale) ^ 2 := by positivity
    rw [e1, e2, div_pow, div_le_div_iff_of_pos_right hs2, div_le_div_iff_of_pos_right hs2, div_left_inj' hs2.ne']
    refine ⟨?_, ?_, ?_⟩
    · rw [← Rat.cast_le (K := ℝ), Rat.cast_pow]
    · rw [← Rat.cast_le (K := ℝ), Rat.cast_pow]
    · rw [← Rat.cast_inj (α := ℝ), Rat.cast_pow]
  cases hc : c.msb with
  | false =>
    rw [if_neg (by decide), one_mul, ← add_div]
    obtain ⟨c1, c2, c3⟩ := clear ((unitsOf fmt q : ℚ) + unitsOf fmt (magOf c))
    push_cast at c1 c2 c3
    constructor
    · intro hlt
      rw [div_lt_div_iff_of_pos_right hs] at hlt
      have hlt' : (unitsOf fmt q : ℝ) < unitsOf fmt (magOf c) := by exact_mod_cast hlt
      have hu := up _ hlt'
      refine ⟨c1.2 (pow_le_pow_left₀ (by positivity) hu 2), fun he => tie (magOf c) (fun e => ?_) ?_⟩
      · rw [e] at hlt'; exact lt_irrefl _ hlt'
      · exact (pow_left_inj₀ (by positivity) (by positivity) (by decide)).1 (c3.1 he)
    · intro hlt _
      rw [div_lt_div_iff_of_pos_right hs] at hlt
      have hlt' : (unitsOf fmt (magOf c) : ℝ) < unitsOf fmt q := by exact_mod_cast hlt
      have hd := down _ hlt'
      refine ⟨c2.2 (pow_le_pow_left₀ (by positivity) hd 2), fun he => tie (magOf c) (fun e => ?_) ?_⟩
      · rw [e] at hlt'; exact lt_irrefl _ hlt'
      · exact (pow_left_inj₀ (by positivity) (by positivity) (by decide)).1 (c3.1 he.symm)
  | true =>
    rw [if_pos rfl, neg_one_mul, ← neg_div, ← add_div]
    obtain ⟨c1, c2, c3⟩ := clear ((unitsOf fmt q : ℚ) + -unitsOf fmt (magOf c))
    push_cast at c1 c2 c3
    have hu0 : (0 : ℚ) ≤ unitsOf fmt (magOf c) := by positivity
    have hu1 : (0 : ℚ) ≤ unitsOf fmt q := by positivity
    constructor
    · intro hlt
      rw [div_lt_div_iff_of_pos_right hs] at hlt
      linarith
    · intro hlt h0
      rw [div_lt_div_iff_of_pos_right hs] at hlt
      have h0' : (0 : ℚ) ≤ unitsOf fmt q + -unitsOf fmt (magOf c) := by
        by_contra hneg
        exact absurd h0 (not_le.2 (div_neg_of_neg_of_pos (not_le.1 hneg) hs))
      have hpos : (0 : ℝ) < unitsOf fmt q := by
        have : (0 : ℚ) < unitsOf fmt q := by linarith
        exact_mod_cast this
      have hd := down 0 (by simpa using hpos)
      have h0r : (0 : ℝ) ≤ unitsOf fmt q + -unitsOf fmt (magOf c) := by
        have : ((0 : ℚ) : ℝ) ≤ ((unitsOf fmt q + -unitsOf fmt (magOf c) : ℚ) : ℝ) := Rat.cast_le.2 h0'
        push_cast at this
        exact this
      have hur : (0 : ℝ) ≤ unitsOf fmt (magOf c) := by positivity
      rw [unitsOf_zero, Nat.cast_zero, add_zero] at hd
      refine ⟨c2.2 (pow_le_pow_left₀ h0r (by linarith) 2), fun he => tie 0 (fun e => ?_) ?_⟩
      · rw [← e, unitsOf_zero, Nat.cast_zero] at hpos
        exact lt_irrefl _ hpos
      · have := (pow_left_inj₀ (by positivity) h0r (by decide)).1 (c3.1 he.symm)
        rw [unitsOf_zero, Nat.cast_zero, add_zero]
        linarith

end Sys2Proof.Machine
end

