-- ==== Sys2Proof/Laws/PerInstr.lean ====
section
/-! SUPPORT. Statements about every instruction as syntax, one lemma per constructor. -/

/-- The encoding of an instruction is an instance of a row of the opcode map, has the standard 32-bit length marks, and,
when the instruction is well formed, carries no reserved rm and is built back by the row with every operand (R50 to R58). -/
def Sys2Proof.Laws.EncodedWord.Statement (i : Sys2Proof.Instr) : Prop :=
  ∃ r ∈ Sys2Proof.opcodeMap, r.accepts (Sys2Proof.encode i) = true ∧
    (Sys2Proof.encode i).extractLsb' 0 2 = 3#2 ∧ (Sys2Proof.encode i).extractLsb' 2 3 ≠ 7#3 ∧
    (Sys2Proof.wellFormed i = true →
      (r.hasRm && Sys2Proof.reservedRm (Sys2Proof.rmField (Sys2Proof.encode i))) = false ∧ r.build (Sys2Proof.encode i) = i)

namespace Sys2Proof.Laws.EncodedWord

theorem row {k : Nat} {r : OpRow} (h : opcodeMap[k]? = some r) : r ∈ opcodeMap := List.mem_of_getElem? h

theorem accepts_of {r : OpRow} {w : Word} (h : w &&& r.mask = r.pattern) : r.accepts w = true := by
  simp [OpRow.accepts, h]

theorem rm_ok {rm : BitVec 3} {w : Word} (h : (!reservedRm rm) = true) (hw : rmField w = rm) :
    (true && reservedRm (rmField w)) = false := by
  simpa [hw] using h

theorem lui (rd : XReg) (immU : BitVec 20) : Statement (.lui rd immU) :=
  ⟨_, row (k := 0) rfl, accepts_of ((encU_and_0x0000007f ..).trans rfl), encU_low0 .., ne_of_eq_of_ne (encU_low2 ..) (by simp),
    fun _ => ⟨rfl, by show Instr.lui (rdField (encU immU rd 0b0110111#7)) (immUField (encU immU rd 0b0110111#7)) = _; simp only [rdField_encU, immUField_encU]⟩⟩
theorem auipc (rd : XReg) (immU : BitVec 20) : Statement (.auipc rd immU) :=
  ⟨_, row (k := 1) rfl, accepts_of ((encU_and_0x0000007f ..).trans rfl), encU_low0 .., ne_of_eq_of_ne (encU_low2 ..) (by simp),
    fun _ => ⟨rfl, by show Instr.auipc (rdField (encU immU rd 0b0010111#7)) (immUField (encU immU rd 0b0010111#7)) = _; simp only [rdField_encU, immUField_encU]⟩⟩
theorem jal (rd : XReg) (immJ : BitVec 21) : Statement (.jal rd immJ) :=
  ⟨_, row (k := 2) rfl, accepts_of ((encJ_and_0x0000007f ..).trans rfl), encJ_low0 .., ne_of_eq_of_ne (encJ_low2 ..) (by simp),
    fun h => ⟨rfl, by show Instr.jal (rdField (encJ immJ rd 0b1101111#7)) (immJField (encJ immJ rd 0b1101111#7)) = _; simp only [rdField_encJ, immJField_encJ _ _ _ h]⟩⟩
theorem jalr (rd rs1 : XReg) (imm12 : BitVec 12) : Statement (.jalr rd rs1 imm12) :=
  ⟨_, row (k := 3) rfl, accepts_of ((encI_and_0x0000707f ..).trans rfl), encI_low0 .., ne_of_eq_of_ne (encI_low2 ..) (by simp),
    fun _ => ⟨rfl, by show Instr.jalr (rdField (encI imm12 rs1 0b000#3 rd 0b1100111#7)) (rs1Field (encI imm12 rs1 0b000#3 rd 0b1100111#7)) (immIField (encI imm12 rs1 0b000#3 rd 0b1100111#7)) = _; simp only [rdField_encI, rs1Field_encI, immIField_encI]⟩⟩
theorem beq (rs1 rs2 : XReg) (immB : BitVec 13) : Statement (.beq rs1 rs2 immB) :=
  ⟨_, row (k := 4) rfl, accepts_of ((encB_and_0x0000707f ..).trans rfl), encB_low0 .., ne_of_eq_of_ne (encB_low2 ..) (by simp),
    fun h => ⟨rfl, by show Instr.beq (rs1Field (encB immB rs2 rs1 0b000#3 0b1100011#7)) (rs2Field (encB immB rs2 rs1 0b000#3 0b1100011#7)) (immBField (encB immB rs2 rs1 0b000#3 0b1100011#7)) = _; simp only [rs1Field_encB, rs2Field_encB, immBField_encB _ _ _ _ _ h]⟩⟩
theorem bne (rs1 rs2 : XReg) (immB : BitVec 13) : Statement (.bne rs1 rs2 immB) :=
  ⟨_, row (k := 5) rfl, accepts_of ((encB_and_0x0000707f ..).trans rfl), encB_low0 .., ne_of_eq_of_ne (encB_low2 ..) (by simp),
    fun h => ⟨rfl, by show Instr.bne (rs1Field (encB immB rs2 rs1 0b001#3 0b1100011#7)) (rs2Field (encB immB rs2 rs1 0b001#3 0b1100011#7)) (immBField (encB immB rs2 rs1 0b001#3 0b1100011#7)) = _; simp only [rs1Field_encB, rs2Field_encB, immBField_encB _ _ _ _ _ h]⟩⟩
theorem blt (rs1 rs2 : XReg) (immB : BitVec 13) : Statement (.blt rs1 rs2 immB) :=
  ⟨_, row (k := 6) rfl, accepts_of ((encB_and_0x0000707f ..).trans rfl), encB_low0 .., ne_of_eq_of_ne (encB_low2 ..) (by simp),
    fun h => ⟨rfl, by show Instr.blt (rs1Field (encB immB rs2 rs1 0b100#3 0b1100011#7)) (rs2Field (encB immB rs2 rs1 0b100#3 0b1100011#7)) (immBField (encB immB rs2 rs1 0b100#3 0b1100011#7)) = _; simp only [rs1Field_encB, rs2Field_encB, immBField_encB _ _ _ _ _ h]⟩⟩
theorem bge (rs1 rs2 : XReg) (immB : BitVec 13) : Statement (.bge rs1 rs2 immB) :=
  ⟨_, row (k := 7) rfl, accepts_of ((encB_and_0x0000707f ..).trans rfl), encB_low0 .., ne_of_eq_of_ne (encB_low2 ..) (by simp),
    fun h => ⟨rfl, by show Instr.bge (rs1Field (encB immB rs2 rs1 0b101#3 0b1100011#7)) (rs2Field (encB immB rs2 rs1 0b101#3 0b1100011#7)) (immBField (encB immB rs2 rs1 0b101#3 0b1100011#7)) = _; simp only [rs1Field_encB, rs2Field_encB, immBField_encB _ _ _ _ _ h]⟩⟩
theorem bltu (rs1 rs2 : XReg) (immB : BitVec 13) : Statement (.bltu rs1 rs2 immB) :=
  ⟨_, row (k := 8) rfl, accepts_of ((encB_and_0x0000707f ..).trans rfl), encB_low0 .., ne_of_eq_of_ne (encB_low2 ..) (by simp),
    fun h => ⟨rfl, by show Instr.bltu (rs1Field (encB immB rs2 rs1 0b110#3 0b1100011#7)) (rs2Field (encB immB rs2 rs1 0b110#3 0b1100011#7)) (immBField (encB immB rs2 rs1 0b110#3 0b1100011#7)) = _; simp only [rs1Field_encB, rs2Field_encB, immBField_encB _ _ _ _ _ h]⟩⟩
theorem bgeu (rs1 rs2 : XReg) (immB : BitVec 13) : Statement (.bgeu rs1 rs2 immB) :=
  ⟨_, row (k := 9) rfl, accepts_of ((encB_and_0x0000707f ..).trans rfl), encB_low0 .., ne_of_eq_of_ne (encB_low2 ..) (by simp),
    fun h => ⟨rfl, by show Instr.bgeu (rs1Field (encB immB rs2 rs1 0b111#3 0b1100011#7)) (rs2Field (encB immB rs2 rs1 0b111#3 0b1100011#7)) (immBField (encB immB rs2 rs1 0b111#3 0b1100011#7)) = _; simp only [rs1Field_encB, rs2Field_encB, immBField_encB _ _ _ _ _ h]⟩⟩
theorem lb (rd rs1 : XReg) (imm12 : BitVec 12) : Statement (.lb rd rs1 imm12) :=
  ⟨_, row (k := 10) rfl, accepts_of ((encI_and_0x0000707f ..).trans rfl), encI_low0 .., ne_of_eq_of_ne (encI_low2 ..) (by simp),
    fun _ => ⟨rfl, by show Instr.lb (rdField (encI imm12 rs1 0b000#3 rd 0b0000011#7)) (rs1Field (encI imm12 rs1 0b000#3 rd 0b0000011#7)) (immIField (encI imm12 rs1 0b000#3 rd 0b0000011#7)) = _; simp only [rdField_encI, rs1Field_encI, immIField_encI]⟩⟩
theorem lh (rd rs1 : XReg) (imm12 : BitVec 12) : Statement (.lh rd rs1 imm12) :=
  ⟨_, row (k := 11) rfl, accepts_of ((encI_and_0x0000707f ..).trans rfl), encI_low0 .., ne_of_eq_of_ne (encI_low2 ..) (by simp),
    fun _ => ⟨rfl, by show Instr.lh (rdField (encI imm12 rs1 0b001#3 rd 0b0000011#7)) (rs1Field (encI imm12 rs1 0b001#3 rd 0b0000011#7)) (immIField (encI imm12 rs1 0b001#3 rd 0b0000011#7)) = _; simp only [rdField_encI, rs1Field_encI, immIField_encI]⟩⟩
theorem lw (rd rs1 : XReg) (imm12 : BitVec 12) : Statement (.lw rd rs1 imm12) :=
  ⟨_, row (k := 12) rfl, accepts_of ((encI_and_0x0000707f ..).trans rfl), encI_low0 .., ne_of_eq_of_ne (encI_low2 ..) (by simp),
    fun _ => ⟨rfl, by show Instr.lw (rdField (encI imm12 rs1 0b010#3 rd 0b0000011#7)) (rs1Field (encI imm12 rs1 0b010#3 rd 0b0000011#7)) (immIField (encI imm12 rs1 0b010#3 rd 0b0000011#7)) = _; simp only [rdField_encI, rs1Field_encI, immIField_encI]⟩⟩
theorem lbu (rd rs1 : XReg) (imm12 : BitVec 12) : Statement (.lbu rd rs1 imm12) :=
  ⟨_, row (k := 13) rfl, accepts_of ((encI_and_0x0000707f ..).trans rfl), encI_low0 .., ne_of_eq_of_ne (encI_low2 ..) (by simp),
    fun _ => ⟨rfl, by show Instr.lbu (rdField (encI imm12 rs1 0b100#3 rd 0b0000011#7)) (rs1Field (encI imm12 rs1 0b100#3 rd 0b0000011#7)) (immIField (encI imm12 rs1 0b100#3 rd 0b0000011#7)) = _; simp only [rdField_encI, rs1Field_encI, immIField_encI]⟩⟩
theorem lhu (rd rs1 : XReg) (imm12 : BitVec 12) : Statement (.lhu rd rs1 imm12) :=
  ⟨_, row (k := 14) rfl, accepts_of ((encI_and_0x0000707f ..).trans rfl), encI_low0 .., ne_of_eq_of_ne (encI_low2 ..) (by simp),
    fun _ => ⟨rfl, by show Instr.lhu (rdField (encI imm12 rs1 0b101#3 rd 0b0000011#7)) (rs1Field (encI imm12 rs1 0b101#3 rd 0b0000011#7)) (immIField (encI imm12 rs1 0b101#3 rd 0b0000011#7)) = _; simp only [rdField_encI, rs1Field_encI, immIField_encI]⟩⟩
theorem sb (rs2 rs1 : XReg) (immS : BitVec 12) : Statement (.sb rs2 rs1 immS) :=
  ⟨_, row (k := 15) rfl, accepts_of ((encS_and_0x0000707f ..).trans rfl), encS_low0 .., ne_of_eq_of_ne (encS_low2 ..) (by simp),
    fun _ => ⟨rfl, by show Instr.sb (rs2Field (encS immS rs2 rs1 0b000#3 0b0100011#7)) (rs1Field (encS immS rs2 rs1 0b000#3 0b0100011#7)) (immSField (encS immS rs2 rs1 0b000#3 0b0100011#7)) = _; simp only [rs2Field_encS, rs1Field_encS, immSField_encS]⟩⟩
theorem sh (rs2 rs1 : XReg) (immS : BitVec 12) : Statement (.sh rs2 rs1 immS) :=
  ⟨_, row (k := 16) rfl, accepts_of ((encS_and_0x0000707f ..).trans rfl), encS_low0 .., ne_of_eq_of_ne (encS_low2 ..) (by simp),
    fun _ => ⟨rfl, by show Instr.sh (rs2Field (encS immS rs2 rs1 0b001#3 0b0100011#7)) (rs1Field (encS immS rs2 rs1 0b001#3 0b0100011#7)) (immSField (encS immS rs2 rs1 0b001#3 0b0100011#7)) = _; simp only [rs2Field_encS, rs1Field_encS, immSField_encS]⟩⟩
theorem sw (rs2 rs1 : XReg) (immS : BitVec 12) : Statement (.sw rs2 rs1 immS) :=
  ⟨_, row (k := 17) rfl, accepts_of ((encS_and_0x0000707f ..).trans rfl), encS_low0 .., ne_of_eq_of_ne (encS_low2 ..) (by simp),
    fun _ => ⟨rfl, by show Instr.sw (rs2Field (encS immS rs2 rs1 0b010#3 0b0100011#7)) (rs1Field (encS immS rs2 rs1 0b010#3 0b0100011#7)) (immSField (encS immS rs2 rs1 0b010#3 0b0100011#7)) = _; simp only [rs2Field_encS, rs1Field_encS, immSField_encS]⟩⟩
theorem addi (rd rs1 : XReg) (imm12 : BitVec 12) : Statement (.addi rd rs1 imm12) :=
  ⟨_, row (k := 18) rfl, accepts_of ((encI_and_0x0000707f ..).trans rfl), encI_low0 .., ne_of_eq_of_ne (encI_low2 ..) (by simp),
    fun _ => ⟨rfl, by show Instr.addi (rdField (encI imm12 rs1 0b000#3 rd 0b0010011#7)) (rs1Field (encI imm12 rs1 0b000#3 rd 0b0010011#7)) (immIField (encI imm12 rs1 0b000#3 rd 0b0010011#7)) = _; simp only [rdField_encI, rs1Field_encI, immIField_encI]⟩⟩
theorem slti (rd rs1 : XReg) (imm12 : BitVec 12) : Statement (.slti rd rs1 imm12) :=
  ⟨_, row (k := 19) rfl, accepts_of ((encI_and_0x0000707f ..).trans rfl), encI_low0 .., ne_of_eq_of_ne (encI_low2 ..) (by simp),
    fun _ => ⟨rfl, by show Instr.slti (rdField (encI imm12 rs1 0b010#3 rd 0b0010011#7)) (rs1Field (encI imm12 rs1 0b010#3 rd 0b0010011#7)) (immIField (encI imm12 rs1 0b010#3 rd 0b0010011#7)) = _; simp only [rdField_encI, rs1Field_encI, immIField_encI]⟩⟩
theorem sltiu (rd rs1 : XReg) (imm12 : BitVec 12) : Statement (.sltiu rd rs1 imm12) :=
  ⟨_, row (k := 20) rfl, accepts_of ((encI_and_0x0000707f ..).trans rfl), encI_low0 .., ne_of_eq_of_ne (encI_low2 ..) (by simp),
    fun _ => ⟨rfl, by show Instr.sltiu (rdField (encI imm12 rs1 0b011#3 rd 0b0010011#7)) (rs1Field (encI imm12 rs1 0b011#3 rd 0b0010011#7)) (immIField (encI imm12 rs1 0b011#3 rd 0b0010011#7)) = _; simp only [rdField_encI, rs1Field_encI, immIField_encI]⟩⟩
theorem xori (rd rs1 : XReg) (imm12 : BitVec 12) : Statement (.xori rd rs1 imm12) :=
  ⟨_, row (k := 21) rfl, accepts_of ((encI_and_0x0000707f ..).trans rfl), encI_low0 .., ne_of_eq_of_ne (encI_low2 ..) (by simp),
    fun _ => ⟨rfl, by show Instr.xori (rdField (encI imm12 rs1 0b100#3 rd 0b0010011#7)) (rs1Field (encI imm12 rs1 0b100#3 rd 0b0010011#7)) (immIField (encI imm12 rs1 0b100#3 rd 0b0010011#7)) = _; simp only [rdField_encI, rs1Field_encI, immIField_encI]⟩⟩
theorem ori (rd rs1 : XReg) (imm12 : BitVec 12) : Statement (.ori rd rs1 imm12) :=
  ⟨_, row (k := 22) rfl, accepts_of ((encI_and_0x0000707f ..).trans rfl), encI_low0 .., ne_of_eq_of_ne (encI_low2 ..) (by simp),
    fun _ => ⟨rfl, by show Instr.ori (rdField (encI imm12 rs1 0b110#3 rd 0b0010011#7)) (rs1Field (encI imm12 rs1 0b110#3 rd 0b0010011#7)) (immIField (encI imm12 rs1 0b110#3 rd 0b0010011#7)) = _; simp only [rdField_encI, rs1Field_encI, immIField_encI]⟩⟩
theorem andi (rd rs1 : XReg) (imm12 : BitVec 12) : Statement (.andi rd rs1 imm12) :=
  ⟨_, row (k := 23) rfl, accepts_of ((encI_and_0x0000707f ..).trans rfl), encI_low0 .., ne_of_eq_of_ne (encI_low2 ..) (by simp),
    fun _ => ⟨rfl, by show Instr.andi (rdField (encI imm12 rs1 0b111#3 rd 0b0010011#7)) (rs1Field (encI imm12 rs1 0b111#3 rd 0b0010011#7)) (immIField (encI imm12 rs1 0b111#3 rd 0b0010011#7)) = _; simp only [rdField_encI, rs1Field_encI, immIField_encI]⟩⟩
theorem slli (rd rs1 : XReg) (shamt : BitVec 5) : Statement (.slli rd rs1 shamt) :=
  ⟨_, row (k := 24) rfl, accepts_of ((encR_and_0xfe00707f ..).trans rfl), encR_low0 .., ne_of_eq_of_ne (encR_low2 ..) (by simp),
    fun _ => ⟨rfl, by show Instr.slli (rdField (encR 0b0000000#7 shamt rs1 0b001#3 rd 0b0010011#7)) (rs1Field (encR 0b0000000#7 shamt rs1 0b001#3 rd 0b0010011#7)) (rs2Field (encR 0b0000000#7 shamt rs1 0b001#3 rd 0b0010011#7)) = _; simp only [rdField_encR, rs1Field_encR, rs2Field_encR]⟩⟩
theorem srli (rd rs1 : XReg) (shamt : BitVec 5) : Statement (.srli rd rs1 shamt) :=
  ⟨_, row (k := 25) rfl, accepts_of ((encR_and_0xfe00707f ..).trans rfl), encR_low0 .., ne_of_eq_of_ne (encR_low2 ..) (by simp),
    fun _ => ⟨rfl, by show Instr.srli (rdField (encR 0b0000000#7 shamt rs1 0b101#3 rd 0b0010011#7)) (rs1Field (encR 0b0000000#7 shamt rs1 0b101#3 rd 0b0010011#7)) (rs2Field (encR 0b0000000#7 shamt rs1 0b101#3 rd 0b0010011#7)) = _; simp only [rdField_encR, rs1Field_encR, rs2Field_encR]⟩⟩
theorem srai (rd rs1 : XReg) (shamt : BitVec 5) : Statement (.srai rd rs1 shamt) :=
  ⟨_, row (k := 26) rfl, accepts_of ((encR_and_0xfe00707f ..).trans rfl), encR_low0 .., ne_of_eq_of_ne (encR_low2 ..) (by simp),
    fun _ => ⟨rfl, by show Instr.srai (rdField (encR 0b0100000#7 shamt rs1 0b101#3 rd 0b0010011#7)) (rs1Field (encR 0b0100000#7 shamt rs1 0b101#3 rd 0b0010011#7)) (rs2Field (encR 0b0100000#7 shamt rs1 0b101#3 rd 0b0010011#7)) = _; simp only [rdField_encR, rs1Field_encR, rs2Field_encR]⟩⟩
theorem add (rd rs1 rs2 : XReg) : Statement (.add rd rs1 rs2) :=
  ⟨_, row (k := 27) rfl, accepts_of ((encR_and_0xfe00707f ..).trans rfl), encR_low0 .., ne_of_eq_of_ne (encR_low2 ..) (by simp),
    fun _ => ⟨rfl, by show Instr.add (rdField (encR 0b0000000#7 rs2 rs1 0b000#3 rd 0b0110011#7)) (rs1Field (encR 0b0000000#7 rs2 rs1 0b000#3 rd 0b0110011#7)) (rs2Field (encR 0b0000000#7 rs2 rs1 0b000#3 rd 0b0110011#7)) = _; simp only [rdField_encR, rs1Field_encR, rs2Field_encR]⟩⟩
theorem sub (rd rs1 rs2 : XReg) : Statement (.sub rd rs1 rs2) :=
  ⟨_, row (k := 28) rfl, accepts_of ((encR_and_0xfe00707f ..).trans rfl), encR_low0 .., ne_of_eq_of_ne (encR_low2 ..) (by simp),
    fun _ => ⟨rfl, by show Instr.sub (rdField (encR 0b0100000#7 rs2 rs1 0b000#3 rd 0b0110011#7)) (rs1Field (encR 0b0100000#7 rs2 rs1 0b000#3 rd 0b0110011#7)) (rs2Field (encR 0b0100000#7 rs2 rs1 0b000#3 rd 0b0110011#7)) = _; simp only [rdField_encR, rs1Field_encR, rs2Field_encR]⟩⟩
theorem sll (rd rs1 rs2 : XReg) : Statement (.sll rd rs1 rs2) :=
  ⟨_, row (k := 29) rfl, accepts_of ((encR_and_0xfe00707f ..).trans rfl), encR_low0 .., ne_of_eq_of_ne (encR_low2 ..) (by simp),
    fun _ => ⟨rfl, by show Instr.sll (rdField (encR 0b0000000#7 rs2 rs1 0b001#3 rd 0b0110011#7)) (rs1Field (encR 0b0000000#7 rs2 rs1 0b001#3 rd 0b0110011#7)) (rs2Field (encR 0b0000000#7 rs2 rs1 0b001#3 rd 0b0110011#7)) = _; simp only [rdField_encR, rs1Field_encR, rs2Field_encR]⟩⟩
theorem slt (rd rs1 rs2 : XReg) : Statement (.slt rd rs1 rs2) :=
  ⟨_, row (k := 30) rfl, accepts_of ((encR_and_0xfe00707f ..).trans rfl), encR_low0 .., ne_of_eq_of_ne (encR_low2 ..) (by simp),
    fun _ => ⟨rfl, by show Instr.slt (rdField (encR 0b0000000#7 rs2 rs1 0b010#3 rd 0b0110011#7)) (rs1Field (encR 0b0000000#7 rs2 rs1 0b010#3 rd 0b0110011#7)) (rs2Field (encR 0b0000000#7 rs2 rs1 0b010#3 rd 0b0110011#7)) = _; simp only [rdField_encR, rs1Field_encR, rs2Field_encR]⟩⟩
theorem sltu (rd rs1 rs2 : XReg) : Statement (.sltu rd rs1 rs2) :=
  ⟨_, row (k := 31) rfl, accepts_of ((encR_and_0xfe00707f ..).trans rfl), encR_low0 .., ne_of_eq_of_ne (encR_low2 ..) (by simp),
    fun _ => ⟨rfl, by show Instr.sltu (rdField (encR 0b0000000#7 rs2 rs1 0b011#3 rd 0b0110011#7)) (rs1Field (encR 0b0000000#7 rs2 rs1 0b011#3 rd 0b0110011#7)) (rs2Field (encR 0b0000000#7 rs2 rs1 0b011#3 rd 0b0110011#7)) = _; simp only [rdField_encR, rs1Field_encR, rs2Field_encR]⟩⟩
theorem xor (rd rs1 rs2 : XReg) : Statement (.xor rd rs1 rs2) :=
  ⟨_, row (k := 32) rfl, accepts_of ((encR_and_0xfe00707f ..).trans rfl), encR_low0 .., ne_of_eq_of_ne (encR_low2 ..) (by simp),
    fun _ => ⟨rfl, by show Instr.xor (rdField (encR 0b0000000#7 rs2 rs1 0b100#3 rd 0b0110011#7)) (rs1Field (encR 0b0000000#7 rs2 rs1 0b100#3 rd 0b0110011#7)) (rs2Field (encR 0b0000000#7 rs2 rs1 0b100#3 rd 0b0110011#7)) = _; simp only [rdField_encR, rs1Field_encR, rs2Field_encR]⟩⟩
theorem srl (rd rs1 rs2 : XReg) : Statement (.srl rd rs1 rs2) :=
  ⟨_, row (k := 33) rfl, accepts_of ((encR_and_0xfe00707f ..).trans rfl), encR_low0 .., ne_of_eq_of_ne (encR_low2 ..) (by simp),
    fun _ => ⟨rfl, by show Instr.srl (rdField (encR 0b0000000#7 rs2 rs1 0b101#3 rd 0b0110011#7)) (rs1Field (encR 0b0000000#7 rs2 rs1 0b101#3 rd 0b0110011#7)) (rs2Field (encR 0b0000000#7 rs2 rs1 0b101#3 rd 0b0110011#7)) = _; simp only [rdField_encR, rs1Field_encR, rs2Field_encR]⟩⟩
theorem sra (rd rs1 rs2 : XReg) : Statement (.sra rd rs1 rs2) :=
  ⟨_, row (k := 34) rfl, accepts_of ((encR_and_0xfe00707f ..).trans rfl), encR_low0 .., ne_of_eq_of_ne (encR_low2 ..) (by simp),
    fun _ => ⟨rfl, by show Instr.sra (rdField (encR 0b0100000#7 rs2 rs1 0b101#3 rd 0b0110011#7)) (rs1Field (encR 0b0100000#7 rs2 rs1 0b101#3 rd 0b0110011#7)) (rs2Field (encR 0b0100000#7 rs2 rs1 0b101#3 rd 0b0110011#7)) = _; simp only [rdField_encR, rs1Field_encR, rs2Field_encR]⟩⟩
theorem or (rd rs1 rs2 : XReg) : Statement (.or rd rs1 rs2) :=
  ⟨_, row (k := 35) rfl, accepts_of ((encR_and_0xfe00707f ..).trans rfl), encR_low0 .., ne_of_eq_of_ne (encR_low2 ..) (by simp),
    fun _ => ⟨rfl, by show Instr.or (rdField (encR 0b0000000#7 rs2 rs1 0b110#3 rd 0b0110011#7)) (rs1Field (encR 0b0000000#7 rs2 rs1 0b110#3 rd 0b0110011#7)) (rs2Field (encR 0b0000000#7 rs2 rs1 0b110#3 rd 0b0110011#7)) = _; simp only [rdField_encR, rs1Field_encR, rs2Field_encR]⟩⟩
theorem and (rd rs1 rs2 : XReg) : Statement (.and rd rs1 rs2) :=
  ⟨_, row (k := 36) rfl, accepts_of ((encR_and_0xfe00707f ..).trans rfl), encR_low0 .., ne_of_eq_of_ne (encR_low2 ..) (by simp),
    fun _ => ⟨rfl, by show Instr.and (rdField (encR 0b0000000#7 rs2 rs1 0b111#3 rd 0b0110011#7)) (rs1Field (encR 0b0000000#7 rs2 rs1 0b111#3 rd 0b0110011#7)) (rs2Field (encR 0b0000000#7 rs2 rs1 0b111#3 rd 0b0110011#7)) = _; simp only [rdField_encR, rs1Field_encR, rs2Field_encR]⟩⟩
theorem fence (fm pred succ : BitVec 4) (rs1 rd : XReg) : Statement (.fence fm pred succ rs1 rd) :=
  ⟨_, row (k := 37) rfl, accepts_of ((encI_and_0x0000707f ..).trans rfl), encI_low0 .., ne_of_eq_of_ne (encI_low2 ..) (by simp),
    fun _ => ⟨rfl, by show Instr.fence (fmField (encI (fm ++ pred ++ succ) rs1 0b000#3 rd 0b0001111#7)) (predField (encI (fm ++ pred ++ succ) rs1 0b000#3 rd 0b0001111#7)) (succField (encI (fm ++ pred ++ succ) rs1 0b000#3 rd 0b0001111#7)) (rs1Field (encI (fm ++ pred ++ succ) rs1 0b000#3 rd 0b0001111#7)) (rdField (encI (fm ++ pred ++ succ) rs1 0b000#3 rd 0b0001111#7)) = _; simp only [fmField_encI, predField_encI, succField_encI, rs1Field_encI, rdField_encI]⟩⟩
theorem fenceI (imm12 : BitVec 12) (rs1 rd : XReg) : Statement (.fenceI imm12 rs1 rd) :=
  ⟨_, row (k := 38) rfl, accepts_of ((encI_and_0x0000707f ..).trans rfl), encI_low0 .., ne_of_eq_of_ne (encI_low2 ..) (by simp),
    fun _ => ⟨rfl, by show Instr.fenceI (immIField (encI imm12 rs1 0b001#3 rd 0b0001111#7)) (rs1Field (encI imm12 rs1 0b001#3 rd 0b0001111#7)) (rdField (encI imm12 rs1 0b001#3 rd 0b0001111#7)) = _; simp only [immIField_encI, rs1Field_encI, rdField_encI]⟩⟩
theorem ecall : Statement .ecall := ⟨_, row (k := 39) rfl, accepts_of rfl, rfl, ne_of_eq_of_ne (encI_low2 ..) (by simp), fun _ => ⟨rfl, rfl⟩⟩
theorem ebreak : Statement .ebreak := ⟨_, row (k := 40) rfl, accepts_of rfl, rfl, ne_of_eq_of_ne (encI_low2 ..) (by simp), fun _ => ⟨rfl, rfl⟩⟩
theorem mul (rd rs1 rs2 : XReg) : Statement (.mul rd rs1 rs2) :=
  ⟨_, row (k := 41) rfl, accepts_of ((encR_and_0xfe00707f ..).trans rfl), encR_low0 .., ne_of_eq_of_ne (encR_low2 ..) (by simp),
    fun _ => ⟨rfl, by show Instr.mul (rdField (encR 0b0000001#7 rs2 rs1 0b000#3 rd 0b0110011#7)) (rs1Field (encR 0b0000001#7 rs2 rs1 0b000#3 rd 0b0110011#7)) (rs2Field (encR 0b0000001#7 rs2 rs1 0b000#3 rd 0b0110011#7)) = _; simp only [rdField_encR, rs1Field_encR, rs2Field_encR]⟩⟩
theorem mulh (rd rs1 rs2 : XReg) : Statement (.mulh rd rs1 rs2) :=
  ⟨_, row (k := 42) rfl, accepts_of ((encR_and_0xfe00707f ..).trans rfl), encR_low0 .., ne_of_eq_of_ne (encR_low2 ..) (by simp),
    fun _ => ⟨rfl, by show Instr.mulh (rdField (encR 0b0000001#7 rs2 rs1 0b001#3 rd 0b0110011#7)) (rs1Field (encR 0b0000001#7 rs2 rs1 0b001#3 rd 0b0110011#7)) (rs2Field (encR 0b0000001#7 rs2 rs1 0b001#3 rd 0b0110011#7)) = _; simp only [rdField_encR, rs1Field_encR, rs2Field_encR]⟩⟩
theorem mulhsu (rd rs1 rs2 : XReg) : Statement (.mulhsu rd rs1 rs2) :=
  ⟨_, row (k := 43) rfl, accepts_of ((encR_and_0xfe00707f ..).trans rfl), encR_low0 .., ne_of_eq_of_ne (encR_low2 ..) (by simp),
    fun _ => ⟨rfl, by show Instr.mulhsu (rdField (encR 0b0000001#7 rs2 rs1 0b010#3 rd 0b0110011#7)) (rs1Field (encR 0b0000001#7 rs2 rs1 0b010#3 rd 0b0110011#7)) (rs2Field (encR 0b0000001#7 rs2 rs1 0b010#3 rd 0b0110011#7)) = _; simp only [rdField_encR, rs1Field_encR, rs2Field_encR]⟩⟩
theorem mulhu (rd rs1 rs2 : XReg) : Statement (.mulhu rd rs1 rs2) :=
  ⟨_, row (k := 44) rfl, accepts_of ((encR_and_0xfe00707f ..).trans rfl), encR_low0 .., ne_of_eq_of_ne (encR_low2 ..) (by simp),
    fun _ => ⟨rfl, by show Instr.mulhu (rdField (encR 0b0000001#7 rs2 rs1 0b011#3 rd 0b0110011#7)) (rs1Field (encR 0b0000001#7 rs2 rs1 0b011#3 rd 0b0110011#7)) (rs2Field (encR 0b0000001#7 rs2 rs1 0b011#3 rd 0b0110011#7)) = _; simp only [rdField_encR, rs1Field_encR, rs2Field_encR]⟩⟩
theorem div (rd rs1 rs2 : XReg) : Statement (.div rd rs1 rs2) :=
  ⟨_, row (k := 45) rfl, accepts_of ((encR_and_0xfe00707f ..).trans rfl), encR_low0 .., ne_of_eq_of_ne (encR_low2 ..) (by simp),
    fun _ => ⟨rfl, by show Instr.div (rdField (encR 0b0000001#7 rs2 rs1 0b100#3 rd 0b0110011#7)) (rs1Field (encR 0b0000001#7 rs2 rs1 0b100#3 rd 0b0110011#7)) (rs2Field (encR 0b0000001#7 rs2 rs1 0b100#3 rd 0b0110011#7)) = _; simp only [rdField_encR, rs1Field_encR, rs2Field_encR]⟩⟩
theorem divu (rd rs1 rs2 : XReg) : Statement (.divu rd rs1 rs2) :=
  ⟨_, row (k := 46) rfl, accepts_of ((encR_and_0xfe00707f ..).trans rfl), encR_low0 .., ne_of_eq_of_ne (encR_low2 ..) (by simp),
    fun _ => ⟨rfl, by show Instr.divu (rdField (encR 0b0000001#7 rs2 rs1 0b101#3 rd 0b0110011#7)) (rs1Field (encR 0b0000001#7 rs2 rs1 0b101#3 rd 0b0110011#7)) (rs2Field (encR 0b0000001#7 rs2 rs1 0b101#3 rd 0b0110011#7)) = _; simp only [rdField_encR, rs1Field_encR, rs2Field_encR]⟩⟩
theorem rem (rd rs1 rs2 : XReg) : Statement (.rem rd rs1 rs2) :=
  ⟨_, row (k := 47) rfl, accepts_of ((encR_and_0xfe00707f ..).trans rfl), encR_low0 .., ne_of_eq_of_ne (encR_low2 ..) (by simp),
    fun _ => ⟨rfl, by show Instr.rem (rdField (encR 0b0000001#7 rs2 rs1 0b110#3 rd 0b0110011#7)) (rs1Field (encR 0b0000001#7 rs2 rs1 0b110#3 rd 0b0110011#7)) (rs2Field (encR 0b0000001#7 rs2 rs1 0b110#3 rd 0b0110011#7)) = _; simp only [rdField_encR, rs1Field_encR, rs2Field_encR]⟩⟩
theorem remu (rd rs1 rs2 : XReg) : Statement (.remu rd rs1 rs2) :=
  ⟨_, row (k := 48) rfl, accepts_of ((encR_and_0xfe00707f ..).trans rfl), encR_low0 .., ne_of_eq_of_ne (encR_low2 ..) (by simp),
    fun _ => ⟨rfl, by show Instr.remu (rdField (encR 0b0000001#7 rs2 rs1 0b111#3 rd 0b0110011#7)) (rs1Field (encR 0b0000001#7 rs2 rs1 0b111#3 rd 0b0110011#7)) (rs2Field (encR 0b0000001#7 rs2 rs1 0b111#3 rd 0b0110011#7)) = _; simp only [rdField_encR, rs1Field_encR, rs2Field_encR]⟩⟩
theorem lrW (rd rs1 : XReg) (aq rl : Bool) : Statement (.lrW rd rs1 aq rl) :=
  ⟨_, row (k := 49) rfl, accepts_of ((encAmo_and_0xf9f0707f ..).trans rfl), encAmo_low0 .., ne_of_eq_of_ne (encAmo_low2 ..) (by simp),
    fun _ => ⟨rfl, by show Instr.lrW (rdField (encAmo 0b00010#5 aq rl 0b00000#5 rs1 0b010#3 rd 0b0101111#7)) (rs1Field (encAmo 0b00010#5 aq rl 0b00000#5 rs1 0b010#3 rd 0b0101111#7)) (aqField (encAmo 0b00010#5 aq rl 0b00000#5 rs1 0b010#3 rd 0b0101111#7)) (rlField (encAmo 0b00010#5 aq rl 0b00000#5 rs1 0b010#3 rd 0b0101111#7)) = _; simp only [rdField_encAmo, rs1Field_encAmo, aqField_encAmo, rlField_encAmo]⟩⟩
theorem scW (rd rs2 rs1 : XReg) (aq rl : Bool) : Statement (.scW rd rs2 rs1 aq rl) :=
  ⟨_, row (k := 50) rfl, accepts_of ((encAmo_and_0xf800707f ..).trans rfl), encAmo_low0 .., ne_of_eq_of_ne (encAmo_low2 ..) (by simp),
    fun _ => ⟨rfl, by show Instr.scW (rdField (encAmo 0b00011#5 aq rl rs2 rs1 0b010#3 rd 0b0101111#7)) (rs2Field (encAmo 0b00011#5 aq rl rs2 rs1 0b010#3 rd 0b0101111#7)) (rs1Field (encAmo 0b00011#5 aq rl rs2 rs1 0b010#3 rd 0b0101111#7)) (aqField (encAmo 0b00011#5 aq rl rs2 rs1 0b010#3 rd 0b0101111#7)) (rlField (encAmo 0b00011#5 aq rl rs2 rs1 0b010#3 rd 0b0101111#7)) = _; simp only [rdField_encAmo, rs2Field_encAmo, rs1Field_encAmo, aqField_encAmo, rlField_encAmo]⟩⟩
theorem amoswapW (rd rs2 rs1 : XReg) (aq rl : Bool) : Statement (.amoswapW rd rs2 rs1 aq rl) :=
  ⟨_, row (k := 51) rfl, accepts_of ((encAmo_and_0xf800707f ..).trans rfl), encAmo_low0 .., ne_of_eq_of_ne (encAmo_low2 ..) (by simp),
    fun _ => ⟨rfl, by show Instr.amoswapW (rdField (encAmo 0b00001#5 aq rl rs2 rs1 0b010#3 rd 0b0101111#7)) (rs2Field (encAmo 0b00001#5 aq rl rs2 rs1 0b010#3 rd 0b0101111#7)) (rs1Field (encAmo 0b00001#5 aq rl rs2 rs1 0b010#3 rd 0b0101111#7)) (aqField (encAmo 0b00001#5 aq rl rs2 rs1 0b010#3 rd 0b0101111#7)) (rlField (encAmo 0b00001#5 aq rl rs2 rs1 0b010#3 rd 0b0101111#7)) = _; simp only [rdField_encAmo, rs2Field_encAmo, rs1Field_encAmo, aqField_encAmo, rlField_encAmo]⟩⟩
theorem amoaddW (rd rs2 rs1 : XReg) (aq rl : Bool) : Statement (.amoaddW rd rs2 rs1 aq rl) :=
  ⟨_, row (k := 52) rfl, accepts_of ((encAmo_and_0xf800707f ..).trans rfl), encAmo_low0 .., ne_of_eq_of_ne (encAmo_low2 ..) (by simp),
    fun _ => ⟨rfl, by show Instr.amoaddW (rdField (encAmo 0b00000#5 aq rl rs2 rs1 0b010#3 rd 0b0101111#7)) (rs2Field (encAmo 0b00000#5 aq rl rs2 rs1 0b010#3 rd 0b0101111#7)) (rs1Field (encAmo 0b00000#5 aq rl rs2 rs1 0b010#3 rd 0b0101111#7)) (aqField (encAmo 0b00000#5 aq rl rs2 rs1 0b010#3 rd 0b0101111#7)) (rlField (encAmo 0b00000#5 aq rl rs2 rs1 0b010#3 rd 0b0101111#7)) = _; simp only [rdField_encAmo, rs2Field_encAmo, rs1Field_encAmo, aqField_encAmo, rlField_encAmo]⟩⟩
theorem amoxorW (rd rs2 rs1 : XReg) (aq rl : Bool) : Statement (.amoxorW rd rs2 rs1 aq rl) :=
  ⟨_, row (k := 53) rfl, accepts_of ((encAmo_and_0xf800707f ..).trans rfl), encAmo_low0 .., ne_of_eq_of_ne (encAmo_low2 ..) (by simp),
    fun _ => ⟨rfl, by show Instr.amoxorW (rdField (encAmo 0b00100#5 aq rl rs2 rs1 0b010#3 rd 0b0101111#7)) (rs2Field (encAmo 0b00100#5 aq rl rs2 rs1 0b010#3 rd 0b0101111#7)) (rs1Field (encAmo 0b00100#5 aq rl rs2 rs1 0b010#3 rd 0b0101111#7)) (aqField (encAmo 0b00100#5 aq rl rs2 rs1 0b010#3 rd 0b0101111#7)) (rlField (encAmo 0b00100#5 aq rl rs2 rs1 0b010#3 rd 0b0101111#7)) = _; simp only [rdField_encAmo, rs2Field_encAmo, rs1Field_encAmo, aqField_encAmo, rlField_encAmo]⟩⟩
theorem amoandW (rd rs2 rs1 : XReg) (aq rl : Bool) : Statement (.amoandW rd rs2 rs1 aq rl) :=
  ⟨_, row (k := 54) rfl, accepts_of ((encAmo_and_0xf800707f ..).trans rfl), encAmo_low0 .., ne_of_eq_of_ne (encAmo_low2 ..) (by simp),
    fun _ => ⟨rfl, by show Instr.amoandW (rdField (encAmo 0b01100#5 aq rl rs2 rs1 0b010#3 rd 0b0101111#7)) (rs2Field (encAmo 0b01100#5 aq rl rs2 rs1 0b010#3 rd 0b0101111#7)) (rs1Field (encAmo 0b01100#5 aq rl rs2 rs1 0b010#3 rd 0b0101111#7)) (aqField (encAmo 0b01100#5 aq rl rs2 rs1 0b010#3 rd 0b0101111#7)) (rlField (encAmo 0b01100#5 aq rl rs2 rs1 0b010#3 rd 0b0101111#7)) = _; simp only [rdField_encAmo, rs2Field_encAmo, rs1Field_encAmo, aqField_encAmo, rlField_encAmo]⟩⟩
theorem amoorW (rd rs2 rs1 : XReg) (aq rl : Bool) : Statement (.amoorW rd rs2 rs1 aq rl) :=
  ⟨_, row (k := 55) rfl, accepts_of ((encAmo_and_0xf800707f ..).trans rfl), encAmo_low0 .., ne_of_eq_of_ne (encAmo_low2 ..) (by simp),
    fun _ => ⟨rfl, by show Instr.amoorW (rdField (encAmo 0b01000#5 aq rl rs2 rs1 0b010#3 rd 0b0101111#7)) (rs2Field (encAmo 0b01000#5 aq rl rs2 rs1 0b010#3 rd 0b0101111#7)) (rs1Field (encAmo 0b01000#5 aq rl rs2 rs1 0b010#3 rd 0b0101111#7)) (aqField (encAmo 0b01000#5 aq rl rs2 rs1 0b010#3 rd 0b0101111#7)) (rlField (encAmo 0b01000#5 aq rl rs2 rs1 0b010#3 rd 0b0101111#7)) = _; simp only [rdField_encAmo, rs2Field_encAmo, rs1Field_encAmo, aqField_encAmo, rlField_encAmo]⟩⟩
theorem amominW (rd rs2 rs1 : XReg) (aq rl : Bool) : Statement (.amominW rd rs2 rs1 aq rl) :=
  ⟨_, row (k := 56) rfl, accepts_of ((encAmo_and_0xf800707f ..).trans rfl), encAmo_low0 .., ne_of_eq_of_ne (encAmo_low2 ..) (by simp),
    fun _ => ⟨rfl, by show Instr.amominW (rdField (encAmo 0b10000#5 aq rl rs2 rs1 0b010#3 rd 0b0101111#7)) (rs2Field (encAmo 0b10000#5 aq rl rs2 rs1 0b010#3 rd 0b0101111#7)) (rs1Field (encAmo 0b10000#5 aq rl rs2 rs1 0b010#3 rd 0b0101111#7)) (aqField (encAmo 0b10000#5 aq rl rs2 rs1 0b010#3 rd 0b0101111#7)) (rlField (encAmo 0b10000#5 aq rl rs2 rs1 0b010#3 rd 0b0101111#7)) = _; simp only [rdField_encAmo, rs2Field_encAmo, rs1Field_encAmo, aqField_encAmo, rlField_encAmo]⟩⟩
theorem amomaxW (rd rs2 rs1 : XReg) (aq rl : Bool) : Statement (.amomaxW rd rs2 rs1 aq rl) :=
  ⟨_, row (k := 57) rfl, accepts_of ((encAmo_and_0xf800707f ..).trans rfl), encAmo_low0 .., ne_of_eq_of_ne (encAmo_low2 ..) (by simp),
    fun _ => ⟨rfl, by show Instr.amomaxW (rdField (encAmo 0b10100#5 aq rl rs2 rs1 0b010#3 rd 0b0101111#7)) (rs2Field (encAmo 0b10100#5 aq rl rs2 rs1 0b010#3 rd 0b0101111#7)) (rs1Field (encAmo 0b10100#5 aq rl rs2 rs1 0b010#3 rd 0b0101111#7)) (aqField (encAmo 0b10100#5 aq rl rs2 rs1 0b010#3 rd 0b0101111#7)) (rlField (encAmo 0b10100#5 aq rl rs2 rs1 0b010#3 rd 0b0101111#7)) = _; simp only [rdField_encAmo, rs2Field_encAmo, rs1Field_encAmo, aqField_encAmo, rlField_encAmo]⟩⟩
theorem amominuW (rd rs2 rs1 : XReg) (aq rl : Bool) : Statement (.amominuW rd rs2 rs1 aq rl) :=
  ⟨_, row (k := 58) rfl, accepts_of ((encAmo_and_0xf800707f ..).trans rfl), encAmo_low0 .., ne_of_eq_of_ne (encAmo_low2 ..) (by simp),
    fun _ => ⟨rfl, by show Instr.amominuW (rdField (encAmo 0b11000#5 aq rl rs2 rs1 0b010#3 rd 0b0101111#7)) (rs2Field (encAmo 0b11000#5 aq rl rs2 rs1 0b010#3 rd 0b0101111#7)) (rs1Field (encAmo 0b11000#5 aq rl rs2 rs1 0b010#3 rd 0b0101111#7)) (aqField (encAmo 0b11000#5 aq rl rs2 rs1 0b010#3 rd 0b0101111#7)) (rlField (encAmo 0b11000#5 aq rl rs2 rs1 0b010#3 rd 0b0101111#7)) = _; simp only [rdField_encAmo, rs2Field_encAmo, rs1Field_encAmo, aqField_encAmo, rlField_encAmo]⟩⟩
theorem amomaxuW (rd rs2 rs1 : XReg) (aq rl : Bool) : Statement (.amomaxuW rd rs2 rs1 aq rl) :=
  ⟨_, row (k := 59) rfl, accepts_of ((encAmo_and_0xf800707f ..).trans rfl), encAmo_low0 .., ne_of_eq_of_ne (encAmo_low2 ..) (by simp),
    fun _ => ⟨rfl, by show Instr.amomaxuW (rdField (encAmo 0b11100#5 aq rl rs2 rs1 0b010#3 rd 0b0101111#7)) (rs2Field (encAmo 0b11100#5 aq rl rs2 rs1 0b010#3 rd 0b0101111#7)) (rs1Field (encAmo 0b11100#5 aq rl rs2 rs1 0b010#3 rd 0b0101111#7)) (aqField (encAmo 0b11100#5 aq rl rs2 rs1 0b010#3 rd 0b0101111#7)) (rlField (encAmo 0b11100#5 aq rl rs2 rs1 0b010#3 rd 0b0101111#7)) = _; simp only [rdField_encAmo, rs2Field_encAmo, rs1Field_encAmo, aqField_encAmo, rlField_encAmo]⟩⟩
theorem flw (rd : FReg) (rs1 : XReg) (imm12 : BitVec 12) : Statement (.flw rd rs1 imm12) :=
  ⟨_, row (k := 60) rfl, accepts_of ((encI_and_0x0000707f ..).trans rfl), encI_low0 .., ne_of_eq_of_ne (encI_low2 ..) (by simp),
    fun _ => ⟨rfl, by show Instr.flw (rdField (encI imm12 rs1 0b010#3 rd 0b0000111#7)) (rs1Field (encI imm12 rs1 0b010#3 rd 0b0000111#7)) (immIField (encI imm12 rs1 0b010#3 rd 0b0000111#7)) = _; simp only [rdField_encI, rs1Field_encI, immIField_encI]⟩⟩
theorem fsw (rs2 : FReg) (rs1 : XReg) (immS : BitVec 12) : Statement (.fsw rs2 rs1 immS) :=
  ⟨_, row (k := 61) rfl, accepts_of ((encS_and_0x0000707f ..).trans rfl), encS_low0 .., ne_of_eq_of_ne (encS_low2 ..) (by simp),
    fun _ => ⟨rfl, by show Instr.fsw (rs2Field (encS immS rs2 rs1 0b010#3 0b0100111#7)) (rs1Field (encS immS rs2 rs1 0b010#3 0b0100111#7)) (immSField (encS immS rs2 rs1 0b010#3 0b0100111#7)) = _; simp only [rs2Field_encS, rs1Field_encS, immSField_encS]⟩⟩
theorem fmaddS (rd rs1 rs2 rs3 : FReg) (rm : BitVec 3) : Statement (.fmaddS rd rs1 rs2 rs3 rm) :=
  ⟨_, row (k := 62) rfl, accepts_of ((encR4_and_0x0600007f ..).trans rfl), encR4_low0 .., ne_of_eq_of_ne (encR4_low2 ..) (by simp),
    fun h => ⟨rm_ok h (rmField_encR4 ..), by show Instr.fmaddS (rdField (encR4 rs3 0b00#2 rs2 rs1 rm rd 0b1000011#7)) (rs1Field (encR4 rs3 0b00#2 rs2 rs1 rm rd 0b1000011#7)) (rs2Field (encR4 rs3 0b00#2 rs2 rs1 rm rd 0b1000011#7)) (rs3Field (encR4 rs3 0b00#2 rs2 rs1 rm rd 0b1000011#7)) (rmField (encR4 rs3 0b00#2 rs2 rs1 rm rd 0b1000011#7)) = _; simp only [rdField_encR4, rs1Field_encR4, rs2Field_encR4, rs3Field_encR4, rmField_encR4]⟩⟩
theorem fmsubS (rd rs1 rs2 rs3 : FReg) (rm : BitVec 3) : Statement (.fmsubS rd rs1 rs2 rs3 rm) :=
  ⟨_, row (k := 63) rfl, accepts_of ((encR4_and_0x0600007f ..).trans rfl), encR4_low0 .., ne_of_eq_of_ne (encR4_low2 ..) (by simp),
    fun h => ⟨rm_ok h (rmField_encR4 ..), by show Instr.fmsubS (rdField (encR4 rs3 0b00#2 rs2 rs1 rm rd 0b1000111#7)) (rs1Field (encR4 rs3 0b00#2 rs2 rs1 rm rd 0b1000111#7)) (rs2Field (encR4 rs3 0b00#2 rs2 rs1 rm rd 0b1000111#7)) (rs3Field (encR4 rs3 0b00#2 rs2 rs1 rm rd 0b1000111#7)) (rmField (encR4 rs3 0b00#2 rs2 rs1 rm rd 0b1000111#7)) = _; simp only [rdField_encR4, rs1Field_encR4, rs2Field_encR4, rs3Field_encR4, rmField_encR4]⟩⟩
theorem fnmsubS (rd rs1 rs2 rs3 : FReg) (rm : BitVec 3) : Statement (.fnmsubS rd rs1 rs2 rs3 rm) :=
  ⟨_, row (k := 64) rfl, accepts_of ((encR4_and_0x0600007f ..).trans rfl), encR4_low0 .., ne_of_eq_of_ne (encR4_low2 ..) (by simp),
    fun h => ⟨rm_ok h (rmField_encR4 ..), by show Instr.fnmsubS (rdField (encR4 rs3 0b00#2 rs2 rs1 rm rd 0b1001011#7)) (rs1Field (encR4 rs3 0b00#2 rs2 rs1 rm rd 0b1001011#7)) (rs2Field (encR4 rs3 0b00#2 rs2 rs1 rm rd 0b1001011#7)) (rs3Field (encR4 rs3 0b00#2 rs2 rs1 rm rd 0b1001011#7)) (rmField (encR4 rs3 0b00#2 rs2 rs1 rm rd 0b1001011#7)) = _; simp only [rdField_encR4, rs1Field_encR4, rs2Field_encR4, rs3Field_encR4, rmField_encR4]⟩⟩
theorem fnmaddS (rd rs1 rs2 rs3 : FReg) (rm : BitVec 3) : Statement (.fnmaddS rd rs1 rs2 rs3 rm) :=
  ⟨_, row (k := 65) rfl, accepts_of ((encR4_and_0x0600007f ..).trans rfl), encR4_low0 .., ne_of_eq_of_ne (encR4_low2 ..) (by simp),
    fun h => ⟨rm_ok h (rmField_encR4 ..), by show Instr.fnmaddS (rdField (encR4 rs3 0b00#2 rs2 rs1 rm rd 0b1001111#7)) (rs1Field (encR4 rs3 0b00#2 rs2 rs1 rm rd 0b1001111#7)) (rs2Field (encR4 rs3 0b00#2 rs2 rs1 rm rd 0b1001111#7)) (rs3Field (encR4 rs3 0b00#2 rs2 rs1 rm rd 0b1001111#7)) (rmField (encR4 rs3 0b00#2 rs2 rs1 rm rd 0b1001111#7)) = _; simp only [rdField_encR4, rs1Field_encR4, rs2Field_encR4, rs3Field_encR4, rmField_encR4]⟩⟩
theorem faddS (rd rs1 rs2 : FReg) (rm : BitVec 3) : Statement (.faddS rd rs1 rs2 rm) :=
  ⟨_, row (k := 66) rfl, accepts_of ((encR_and_0xfe00007f ..).trans rfl), encR_low0 .., ne_of_eq_of_ne (encR_low2 ..) (by simp),
    fun h => ⟨rm_ok h (rmField_encR ..), by show Instr.faddS (rdField (encR 0b0000000#7 rs2 rs1 rm rd 0b1010011#7)) (rs1Field (encR 0b0000000#7 rs2 rs1 rm rd 0b1010011#7)) (rs2Field (encR 0b0000000#7 rs2 rs1 rm rd 0b1010011#7)) (rmField (encR 0b0000000#7 rs2 rs1 rm rd 0b1010011#7)) = _; simp only [rdField_encR, rs1Field_encR, rs2Field_encR, rmField_encR]⟩⟩
theorem fsubS (rd rs1 rs2 : FReg) (rm : BitVec 3) : Statement (.fsubS rd rs1 rs2 rm) :=
  ⟨_, row (k := 67) rfl, accepts_of ((encR_and_0xfe00007f ..).trans rfl), encR_low0 .., ne_of_eq_of_ne (encR_low2 ..) (by simp),
    fun h => ⟨rm_ok h (rmField_encR ..), by show Instr.fsubS (rdField (encR 0b0000100#7 rs2 rs1 rm rd 0b1010011#7)) (rs1Field (encR 0b0000100#7 rs2 rs1 rm rd 0b1010011#7)) (rs2Field (encR 0b0000100#7 rs2 rs1 rm rd 0b1010011#7)) (rmField (encR 0b0000100#7 rs2 rs1 rm rd 0b1010011#7)) = _; simp only [rdField_encR, rs1Field_encR, rs2Field_encR, rmField_encR]⟩⟩
theorem fmulS (rd rs1 rs2 : FReg) (rm : BitVec 3) : Statement (.fmulS rd rs1 rs2 rm) :=
  ⟨_, row (k := 68) rfl, accepts_of ((encR_and_0xfe00007f ..).trans rfl), encR_low0 .., ne_of_eq_of_ne (encR_low2 ..) (by simp),
    fun h => ⟨rm_ok h (rmField_encR ..), by show Instr.fmulS (rdField (encR 0b0001000#7 rs2 rs1 rm rd 0b1010011#7)) (rs1Field (encR 0b0001000#7 rs2 rs1 rm rd 0b1010011#7)) (rs2Field (encR 0b0001000#7 rs2 rs1 rm rd 0b1010011#7)) (rmField (encR 0b0001000#7 rs2 rs1 rm rd 0b1010011#7)) = _; simp only [rdField_encR, rs1Field_encR, rs2Field_encR, rmField_encR]⟩⟩
theorem fdivS (rd rs1 rs2 : FReg) (rm : BitVec 3) : Statement (.fdivS rd rs1 rs2 rm) :=
  ⟨_, row (k := 69) rfl, accepts_of ((encR_and_0xfe00007f ..).trans rfl), encR_low0 .., ne_of_eq_of_ne (encR_low2 ..) (by simp),
    fun h => ⟨rm_ok h (rmField_encR ..), by show Instr.fdivS (rdField (encR 0b0001100#7 rs2 rs1 rm rd 0b1010011#7)) (rs1Field (encR 0b0001100#7 rs2 rs1 rm rd 0b1010011#7)) (rs2Field (encR 0b0001100#7 rs2 rs1 rm rd 0b1010011#7)) (rmField (encR 0b0001100#7 rs2 rs1 rm rd 0b1010011#7)) = _; simp only [rdField_encR, rs1Field_encR, rs2Field_encR, rmField_encR]⟩⟩
theorem fsqrtS (rd rs1 : FReg) (rm : BitVec 3) : Statement (.fsqrtS rd rs1 rm) :=
  ⟨_, row (k := 70) rfl, accepts_of ((encR_and_0xfff0007f ..).trans rfl), encR_low0 .., ne_of_eq_of_ne (encR_low2 ..) (by simp),
    fun h => ⟨rm_ok h (rmField_encR ..), by show Instr.fsqrtS (rdField (encR 0b0101100#7 0b00000#5 rs1 rm rd 0b1010011#7)) (rs1Field (encR 0b0101100#7 0b00000#5 rs1 rm rd 0b1010011#7)) (rmField (encR 0b0101100#7 0b00000#5 rs1 rm rd 0b1010011#7)) = _; simp only [rdField_encR, rs1Field_encR, rmField_encR]⟩⟩
theorem fsgnjS (rd rs1 rs2 : FReg) : Statement (.fsgnjS rd rs1 rs2) :=
  ⟨_, row (k := 71) rfl, accepts_of ((encR_and_0xfe00707f ..).trans rfl), encR_low0 .., ne_of_eq_of_ne (encR_low2 ..) (by simp),
    fun _ => ⟨rfl, by show Instr.fsgnjS (rdField (encR 0b0010000#7 rs2 rs1 0b000#3 rd 0b1010011#7)) (rs1Field (encR 0b0010000#7 rs2 rs1 0b000#3 rd 0b1010011#7)) (rs2Field (encR 0b0010000#7 rs2 rs1 0b000#3 rd 0b1010011#7)) = _; simp only [rdField_encR, rs1Field_encR, rs2Field_encR]⟩⟩
theorem fsgnjnS (rd rs1 rs2 : FReg) : Statement (.fsgnjnS rd rs1 rs2) :=
  ⟨_, row (k := 72) rfl, accepts_of ((encR_and_0xfe00707f ..).trans rfl), encR_low0 .., ne_of_eq_of_ne (encR_low2 ..) (by simp),
    fun _ => ⟨rfl, by show Instr.fsgnjnS (rdField (encR 0b0010000#7 rs2 rs1 0b001#3 rd 0b1010011#7)) (rs1Field (encR 0b0010000#7 rs2 rs1 0b001#3 rd 0b1010011#7)) (rs2Field (encR 0b0010000#7 rs2 rs1 0b001#3 rd 0b1010011#7)) = _; simp only [rdField_encR, rs1Field_encR, rs2Field_encR]⟩⟩
theorem fsgnjxS (rd rs1 rs2 : FReg) : Statement (.fsgnjxS rd rs1 rs2) :=
  ⟨_, row (k := 73) rfl, accepts_of ((encR_and_0xfe00707f ..).trans rfl), encR_low0 .., ne_of_eq_of_ne (encR_low2 ..) (by simp),
    fun _ => ⟨rfl, by show Instr.fsgnjxS (rdField (encR 0b0010000#7 rs2 rs1 0b010#3 rd 0b1010011#7)) (rs1Field (encR 0b0010000#7 rs2 rs1 0b010#3 rd 0b1010011#7)) (rs2Field (encR 0b0010000#7 rs2 rs1 0b010#3 rd 0b1010011#7)) = _; simp only [rdField_encR, rs1Field_encR, rs2Field_encR]⟩⟩
theorem fminS (rd rs1 rs2 : FReg) : Statement (.fminS rd rs1 rs2) :=
  ⟨_, row (k := 74) rfl, accepts_of ((encR_and_0xfe00707f ..).trans rfl), encR_low0 .., ne_of_eq_of_ne (encR_low2 ..) (by simp),
    fun _ => ⟨rfl, by show Instr.fminS (rdField (encR 0b0010100#7 rs2 rs1 0b000#3 rd 0b1010011#7)) (rs1Field (encR 0b0010100#7 rs2 rs1 0b000#3 rd 0b1010011#7)) (rs2Field (encR 0b0010100#7 rs2 rs1 0b000#3 rd 0b1010011#7)) = _; simp only [rdField_encR, rs1Field_encR, rs2Field_encR]⟩⟩
theorem fmaxS (rd rs1 rs2 : FReg) : Statement (.fmaxS rd rs1 rs2) :=
  ⟨_, row (k := 75) rfl, accepts_of ((encR_and_0xfe00707f ..).trans rfl), encR_low0 .., ne_of_eq_of_ne (encR_low2 ..) (by simp),
    fun _ => ⟨rfl, by show Instr.fmaxS (rdField (encR 0b0010100#7 rs2 rs1 0b001#3 rd 0b1010011#7)) (rs1Field (encR 0b0010100#7 rs2 rs1 0b001#3 rd 0b1010011#7)) (rs2Field (encR 0b0010100#7 rs2 rs1 0b001#3 rd 0b1010011#7)) = _; simp only [rdField_encR, rs1Field_encR, rs2Field_encR]⟩⟩
theorem feqS (rd : XReg) (rs1 rs2 : FReg) : Statement (.feqS rd rs1 rs2) :=
  ⟨_, row (k := 76) rfl, accepts_of ((encR_and_0xfe00707f ..).trans rfl), encR_low0 .., ne_of_eq_of_ne (encR_low2 ..) (by simp),
    fun _ => ⟨rfl, by show Instr.feqS (rdField (encR 0b1010000#7 rs2 rs1 0b010#3 rd 0b1010011#7)) (rs1Field (encR 0b1010000#7 rs2 rs1 0b010#3 rd 0b1010011#7)) (rs2Field (encR 0b1010000#7 rs2 rs1 0b010#3 rd 0b1010011#7)) = _; simp only [rdField_encR, rs1Field_encR, rs2Field_encR]⟩⟩
theorem fltS (rd : XReg) (rs1 rs2 : FReg) : Statement (.fltS rd rs1 rs2) :=
  ⟨_, row (k := 77) rfl, accepts_of ((encR_and_0xfe00707f ..).trans rfl), encR_low0 .., ne_of_eq_of_ne (encR_low2 ..) (by simp),
    fun _ => ⟨rfl, by show Instr.fltS (rdField (encR 0b1010000#7 rs2 rs1 0b001#3 rd 0b1010011#7)) (rs1Field (encR 0b1010000#7 rs2 rs1 0b001#3 rd 0b1010011#7)) (rs2Field (encR 0b1010000#7 rs2 rs1 0b001#3 rd 0b1010011#7)) = _; simp only [rdField_encR, rs1Field_encR, rs2Field_encR]⟩⟩
theorem fleS (rd : XReg) (rs1 rs2 : FReg) : Statement (.fleS rd rs1 rs2) :=
  ⟨_, row (k := 78) rfl, accepts_of ((encR_and_0xfe00707f ..).trans rfl), encR_low0 .., ne_of_eq_of_ne (encR_low2 ..) (by simp),
    fun _ => ⟨rfl, by show Instr.fleS (rdField (encR 0b1010000#7 rs2 rs1 0b000#3 rd 0b1010011#7)) (rs1Field (encR 0b1010000#7 rs2 rs1 0b000#3 rd 0b1010011#7)) (rs2Field (encR 0b1010000#7 rs2 rs1 0b000#3 rd 0b1010011#7)) = _; simp only [rdField_encR, rs1Field_encR, rs2Field_encR]⟩⟩
theorem fcvtWS (rd : XReg) (rs1 : FReg) (rm : BitVec 3) : Statement (.fcvtWS rd rs1 rm) :=
  ⟨_, row (k := 79) rfl, accepts_of ((encR_and_0xfff0007f ..).trans rfl), encR_low0 .., ne_of_eq_of_ne (encR_low2 ..) (by simp),
    fun h => ⟨rm_ok h (rmField_encR ..), by show Instr.fcvtWS (rdField (encR 0b1100000#7 0b00000#5 rs1 rm rd 0b1010011#7)) (rs1Field (encR 0b1100000#7 0b00000#5 rs1 rm rd 0b1010011#7)) (rmField (encR 0b1100000#7 0b00000#5 rs1 rm rd 0b1010011#7)) = _; simp only [rdField_encR, rs1Field_encR, rmField_encR]⟩⟩
theorem fcvtWUS (rd : XReg) (rs1 : FReg) (rm : BitVec 3) : Statement (.fcvtWUS rd rs1 rm) :=
  ⟨_, row (k := 80) rfl, accepts_of ((encR_and_0xfff0007f ..).trans rfl), encR_low0 .., ne_of_eq_of_ne (encR_low2 ..) (by simp),
    fun h => ⟨rm_ok h (rmField_encR ..), by show Instr.fcvtWUS (rdField (encR 0b1100000#7 0b00001#5 rs1 rm rd 0b1010011#7)) (rs1Field (encR 0b1100000#7 0b00001#5 rs1 rm rd 0b1010011#7)) (rmField (encR 0b1100000#7 0b00001#5 rs1 rm rd 0b1010011#7)) = _; simp only [rdField_encR, rs1Field_encR, rmField_encR]⟩⟩
theorem fcvtSW (rd : FReg) (rs1 : XReg) (rm : BitVec 3) : Statement (.fcvtSW rd rs1 rm) :=
  ⟨_, row (k := 81) rfl, accepts_of ((encR_and_0xfff0007f ..).trans rfl), encR_low0 .., ne_of_eq_of_ne (encR_low2 ..) (by simp),
    fun h => ⟨rm_ok h (rmField_encR ..), by show Instr.fcvtSW (rdField (encR 0b1101000#7 0b00000#5 rs1 rm rd 0b1010011#7)) (rs1Field (encR 0b1101000#7 0b00000#5 rs1 rm rd 0b1010011#7)) (rmField (encR 0b1101000#7 0b00000#5 rs1 rm rd 0b1010011#7)) = _; simp only [rdField_encR, rs1Field_encR, rmField_encR]⟩⟩
theorem fcvtSWU (rd : FReg) (rs1 : XReg) (rm : BitVec 3) : Statement (.fcvtSWU rd rs1 rm) :=
  ⟨_, row (k := 82) rfl, accepts_of ((encR_and_0xfff0007f ..).trans rfl), encR_low0 .., ne_of_eq_of_ne (encR_low2 ..) (by simp),
    fun h => ⟨rm_ok h (rmField_encR ..), by show Instr.fcvtSWU (rdField (encR 0b1101000#7 0b00001#5 rs1 rm rd 0b1010011#7)) (rs1Field (encR 0b1101000#7 0b00001#5 rs1 rm rd 0b1010011#7)) (rmField (encR 0b1101000#7 0b00001#5 rs1 rm rd 0b1010011#7)) = _; simp only [rdField_encR, rs1Field_encR, rmField_encR]⟩⟩
theorem fmvXW (rd : XReg) (rs1 : FReg) : Statement (.fmvXW rd rs1) :=
  ⟨_, row (k := 83) rfl, accepts_of ((encR_and_0xfff0707f ..).trans rfl), encR_low0 .., ne_of_eq_of_ne (encR_low2 ..) (by simp),
    fun _ => ⟨rfl, by show Instr.fmvXW (rdField (encR 0b1110000#7 0b00000#5 rs1 0b000#3 rd 0b1010011#7)) (rs1Field (encR 0b1110000#7 0b00000#5 rs1 0b000#3 rd 0b1010011#7)) = _; simp only [rdField_encR, rs1Field_encR]⟩⟩
theorem fmvWX (rd : FReg) (rs1 : XReg) : Statement (.fmvWX rd rs1) :=
  ⟨_, row (k := 84) rfl, accepts_of ((encR_and_0xfff0707f ..).trans rfl), encR_low0 .., ne_of_eq_of_ne (encR_low2 ..) (by simp),
    fun _ => ⟨rfl, by show Instr.fmvWX (rdField (encR 0b1111000#7 0b00000#5 rs1 0b000#3 rd 0b1010011#7)) (rs1Field (encR 0b1111000#7 0b00000#5 rs1 0b000#3 rd 0b1010011#7)) = _; simp only [rdField_encR, rs1Field_encR]⟩⟩
theorem fld (rd : FReg) (rs1 : XReg) (imm12 : BitVec 12) : Statement (.fld rd rs1 imm12) :=
  ⟨_, row (k := 85) rfl, accepts_of ((encI_and_0x0000707f ..).trans rfl), encI_low0 .., ne_of_eq_of_ne (encI_low2 ..) (by simp),
    fun _ => ⟨rfl, by show Instr.fld (rdField (encI imm12 rs1 0b011#3 rd 0b0000111#7)) (rs1Field (encI imm12 rs1 0b011#3 rd 0b0000111#7)) (immIField (encI imm12 rs1 0b011#3 rd 0b0000111#7)) = _; simp only [rdField_encI, rs1Field_encI, immIField_encI]⟩⟩
theorem fsd (rs2 : FReg) (rs1 : XReg) (immS : BitVec 12) : Statement (.fsd rs2 rs1 immS) :=
  ⟨_, row (k := 86) rfl, accepts_of ((encS_and_0x0000707f ..).trans rfl), encS_low0 .., ne_of_eq_of_ne (encS_low2 ..) (by simp),
    fun _ => ⟨rfl, by show Instr.fsd (rs2Field (encS immS rs2 rs1 0b011#3 0b0100111#7)) (rs1Field (encS immS rs2 rs1 0b011#3 0b0100111#7)) (immSField (encS immS rs2 rs1 0b011#3 0b0100111#7)) = _; simp only [rs2Field_encS, rs1Field_encS, immSField_encS]⟩⟩
theorem fmaddD (rd rs1 rs2 rs3 : FReg) (rm : BitVec 3) : Statement (.fmaddD rd rs1 rs2 rs3 rm) :=
  ⟨_, row (k := 87) rfl, accepts_of ((encR4_and_0x0600007f ..).trans rfl), encR4_low0 .., ne_of_eq_of_ne (encR4_low2 ..) (by simp),
    fun h => ⟨rm_ok h (rmField_encR4 ..), by show Instr.fmaddD (rdField (encR4 rs3 0b01#2 rs2 rs1 rm rd 0b1000011#7)) (rs1Field (encR4 rs3 0b01#2 rs2 rs1 rm rd 0b1000011#7)) (rs2Field (encR4 rs3 0b01#2 rs2 rs1 rm rd 0b1000011#7)) (rs3Field (encR4 rs3 0b01#2 rs2 rs1 rm rd 0b1000011#7)) (rmField (encR4 rs3 0b01#2 rs2 rs1 rm rd 0b1000011#7)) = _; simp only [rdField_encR4, rs1Field_encR4, rs2Field_encR4, rs3Field_encR4, rmField_encR4]⟩⟩
theorem fmsubD (rd rs1 rs2 rs3 : FReg) (rm : BitVec 3) : Statement (.fmsubD rd rs1 rs2 rs3 rm) :=
  ⟨_, row (k := 88) rfl, accepts_of ((encR4_and_0x0600007f ..).trans rfl), encR4_low0 .., ne_of_eq_of_ne (encR4_low2 ..) (by simp),
    fun h => ⟨rm_ok h (rmField_encR4 ..), by show Instr.fmsubD (rdField (encR4 rs3 0b01#2 rs2 rs1 rm rd 0b1000111#7)) (rs1Field (encR4 rs3 0b01#2 rs2 rs1 rm rd 0b1000111#7)) (rs2Field (encR4 rs3 0b01#2 rs2 rs1 rm rd 0b1000111#7)) (rs3Field (encR4 rs3 0b01#2 rs2 rs1 rm rd 0b1000111#7)) (rmField (encR4 rs3 0b01#2 rs2 rs1 rm rd 0b1000111#7)) = _; simp only [rdField_encR4, rs1Field_encR4, rs2Field_encR4, rs3Field_encR4, rmField_encR4]⟩⟩
theorem fnmsubD (rd rs1 rs2 rs3 : FReg) (rm : BitVec 3) : Statement (.fnmsubD rd rs1 rs2 rs3 rm) :=
  ⟨_, row (k := 89) rfl, accepts_of ((encR4_and_0x0600007f ..).trans rfl), encR4_low0 .., ne_of_eq_of_ne (encR4_low2 ..) (by simp),
    fun h => ⟨rm_ok h (rmField_encR4 ..), by show Instr.fnmsubD (rdField (encR4 rs3 0b01#2 rs2 rs1 rm rd 0b1001011#7)) (rs1Field (encR4 rs3 0b01#2 rs2 rs1 rm rd 0b1001011#7)) (rs2Field (encR4 rs3 0b01#2 rs2 rs1 rm rd 0b1001011#7)) (rs3Field (encR4 rs3 0b01#2 rs2 rs1 rm rd 0b1001011#7)) (rmField (encR4 rs3 0b01#2 rs2 rs1 rm rd 0b1001011#7)) = _; simp only [rdField_encR4, rs1Field_encR4, rs2Field_encR4, rs3Field_encR4, rmField_encR4]⟩⟩
theorem fnmaddD (rd rs1 rs2 rs3 : FReg) (rm : BitVec 3) : Statement (.fnmaddD rd rs1 rs2 rs3 rm) :=
  ⟨_, row (k := 90) rfl, accepts_of ((encR4_and_0x0600007f ..).trans rfl), encR4_low0 .., ne_of_eq_of_ne (encR4_low2 ..) (by simp),
    fun h => ⟨rm_ok h (rmField_encR4 ..), by show Instr.fnmaddD (rdField (encR4 rs3 0b01#2 rs2 rs1 rm rd 0b1001111#7)) (rs1Field (encR4 rs3 0b01#2 rs2 rs1 rm rd 0b1001111#7)) (rs2Field (encR4 rs3 0b01#2 rs2 rs1 rm rd 0b1001111#7)) (rs3Field (encR4 rs3 0b01#2 rs2 rs1 rm rd 0b1001111#7)) (rmField (encR4 rs3 0b01#2 rs2 rs1 rm rd 0b1001111#7)) = _; simp only [rdField_encR4, rs1Field_encR4, rs2Field_encR4, rs3Field_encR4, rmField_encR4]⟩⟩
theorem faddD (rd rs1 rs2 : FReg) (rm : BitVec 3) : Statement (.faddD rd rs1 rs2 rm) :=
  ⟨_, row (k := 91) rfl, accepts_of ((encR_and_0xfe00007f ..).trans rfl), encR_low0 .., ne_of_eq_of_ne (encR_low2 ..) (by simp),
    fun h => ⟨rm_ok h (rmField_encR ..), by show Instr.faddD (rdField (encR 0b0000001#7 rs2 rs1 rm rd 0b1010011#7)) (rs1Field (encR 0b0000001#7 rs2 rs1 rm rd 0b1010011#7)) (rs2Field (encR 0b0000001#7 rs2 rs1 rm rd 0b1010011#7)) (rmField (encR 0b0000001#7 rs2 rs1 rm rd 0b1010011#7)) = _; simp only [rdField_encR, rs1Field_encR, rs2Field_encR, rmField_encR]⟩⟩
theorem fsubD (rd rs1 rs2 : FReg) (rm : BitVec 3) : Statement (.fsubD rd rs1 rs2 rm) :=
  ⟨_, row (k := 92) rfl, accepts_of ((encR_and_0xfe00007f ..).trans rfl), encR_low0 .., ne_of_eq_of_ne (encR_low2 ..) (by simp),
    fun h => ⟨rm_ok h (rmField_encR ..), by show Instr.fsubD (rdField (encR 0b0000101#7 rs2 rs1 rm rd 0b1010011#7)) (rs1Field (encR 0b0000101#7 rs2 rs1 rm rd 0b1010011#7)) (rs2Field (encR 0b0000101#7 rs2 rs1 rm rd 0b1010011#7)) (rmField (encR 0b0000101#7 rs2 rs1 rm rd 0b1010011#7)) = _; simp only [rdField_encR, rs1Field_encR, rs2Field_encR, rmField_encR]⟩⟩
theorem fmulD (rd rs1 rs2 : FReg) (rm : BitVec 3) : Statement (.fmulD rd rs1 rs2 rm) :=
  ⟨_, row (k := 93) rfl, accepts_of ((encR_and_0xfe00007f ..).trans rfl), encR_low0 .., ne_of_eq_of_ne (encR_low2 ..) (by simp),
    fun h => ⟨rm_ok h (rmField_encR ..), by show Instr.fmulD (rdField (encR 0b0001001#7 rs2 rs1 rm rd 0b1010011#7)) (rs1Field (encR 0b0001001#7 rs2 rs1 rm rd 0b1010011#7)) (rs2Field (encR 0b0001001#7 rs2 rs1 rm rd 0b1010011#7)) (rmField (encR 0b0001001#7 rs2 rs1 rm rd 0b1010011#7)) = _; simp only [rdField_encR, rs1Field_encR, rs2Field_encR, rmField_encR]⟩⟩
theorem fdivD (rd rs1 rs2 : FReg) (rm : BitVec 3) : Statement (.fdivD rd rs1 rs2 rm) :=
  ⟨_, row (k := 94) rfl, accepts_of ((encR_and_0xfe00007f ..).trans rfl), encR_low0 .., ne_of_eq_of_ne (encR_low2 ..) (by simp),
    fun h => ⟨rm_ok h (rmField_encR ..), by show Instr.fdivD (rdField (encR 0b0001101#7 rs2 rs1 rm rd 0b1010011#7)) (rs1Field (encR 0b0001101#7 rs2 rs1 rm rd 0b1010011#7)) (rs2Field (encR 0b0001101#7 rs2 rs1 rm rd 0b1010011#7)) (rmField (encR 0b0001101#7 rs2 rs1 rm rd 0b1010011#7)) = _; simp only [rdField_encR, rs1Field_encR, rs2Field_encR, rmField_encR]⟩⟩
theorem fsqrtD (rd rs1 : FReg) (rm : BitVec 3) : Statement (.fsqrtD rd rs1 rm) :=
  ⟨_, row (k := 95) rfl, accepts_of ((encR_and_0xfff0007f ..).trans rfl), encR_low0 .., ne_of_eq_of_ne (encR_low2 ..) (by simp),
    fun h => ⟨rm_ok h (rmField_encR ..), by show Instr.fsqrtD (rdField (encR 0b0101101#7 0b00000#5 rs1 rm rd 0b1010011#7)) (rs1Field (encR 0b0101101#7 0b00000#5 rs1 rm rd 0b1010011#7)) (rmField (encR 0b0101101#7 0b00000#5 rs1 rm rd 0b1010011#7)) = _; simp only [rdField_encR, rs1Field_encR, rmField_encR]⟩⟩
theorem fsgnjD (rd rs1 rs2 : FReg) : Statement (.fsgnjD rd rs1 rs2) :=
  ⟨_, row (k := 96) rfl, accepts_of ((encR_and_0xfe00707f ..).trans rfl), encR_low0 .., ne_of_eq_of_ne (encR_low2 ..) (by simp),
    fun _ => ⟨rfl, by show Instr.fsgnjD (rdField (encR 0b0010001#7 rs2 rs1 0b000#3 rd 0b1010011#7)) (rs1Field (encR 0b0010001#7 rs2 rs1 0b000#3 rd 0b1010011#7)) (rs2Field (encR 0b0010001#7 rs2 rs1 0b000#3 rd 0b1010011#7)) = _; simp only [rdField_encR, rs1Field_encR, rs2Field_encR]⟩⟩
theorem fsgnjnD (rd rs1 rs2 : FReg) : Statement (.fsgnjnD rd rs1 rs2) :=
  ⟨_, row (k := 97) rfl, accepts_of ((encR_and_0xfe00707f ..).trans rfl), encR_low0 .., ne_of_eq_of_ne (encR_low2 ..) (by simp),
    fun _ => ⟨rfl, by show Instr.fsgnjnD (rdField (encR 0b0010001#7 rs2 rs1 0b001#3 rd 0b1010011#7)) (rs1Field (encR 0b0010001#7 rs2 rs1 0b001#3 rd 0b1010011#7)) (rs2Field (encR 0b0010001#7 rs2 rs1 0b001#3 rd 0b1010011#7)) = _; simp only [rdField_encR, rs1Field_encR, rs2Field_encR]⟩⟩
theorem fsgnjxD (rd rs1 rs2 : FReg) : Statement (.fsgnjxD rd rs1 rs2) :=
  ⟨_, row (k := 98) rfl, accepts_of ((encR_and_0xfe00707f ..).trans rfl), encR_low0 .., ne_of_eq_of_ne (encR_low2 ..) (by simp),
    fun _ => ⟨rfl, by show Instr.fsgnjxD (rdField (encR 0b0010001#7 rs2 rs1 0b010#3 rd 0b1010011#7)) (rs1Field (encR 0b0010001#7 rs2 rs1 0b010#3 rd 0b1010011#7)) (rs2Field (encR 0b0010001#7 rs2 rs1 0b010#3 rd 0b1010011#7)) = _; simp only [rdField_encR, rs1Field_encR, rs2Field_encR]⟩⟩
theorem fminD (rd rs1 rs2 : FReg) : Statement (.fminD rd rs1 rs2) :=
  ⟨_, row (k := 99) rfl, accepts_of ((encR_and_0xfe00707f ..).trans rfl), encR_low0 .., ne_of_eq_of_ne (encR_low2 ..) (by simp),
    fun _ => ⟨rfl, by show Instr.fminD (rdField (encR 0b0010101#7 rs2 rs1 0b000#3 rd 0b1010011#7)) (rs1Field (encR 0b0010101#7 rs2 rs1 0b000#3 rd 0b1010011#7)) (rs2Field (encR 0b0010101#7 rs2 rs1 0b000#3 rd 0b1010011#7)) = _; simp only [rdField_encR, rs1Field_encR, rs2Field_encR]⟩⟩
theorem fmaxD (rd rs1 rs2 : FReg) : Statement (.fmaxD rd rs1 rs2) :=
  ⟨_, row (k := 100) rfl, accepts_of ((encR_and_0xfe00707f ..).trans rfl), encR_low0 .., ne_of_eq_of_ne (encR_low2 ..) (by simp),
    fun _ => ⟨rfl, by show Instr.fmaxD (rdField (encR 0b0010101#7 rs2 rs1 0b001#3 rd 0b1010011#7)) (rs1Field (encR 0b0010101#7 rs2 rs1 0b001#3 rd 0b1010011#7)) (rs2Field (encR 0b0010101#7 rs2 rs1 0b001#3 rd 0b1010011#7)) = _; simp only [rdField_encR, rs1Field_encR, rs2Field_encR]⟩⟩
theorem feqD (rd : XReg) (rs1 rs2 : FReg) : Statement (.feqD rd rs1 rs2) :=
  ⟨_, row (k := 101) rfl, accepts_of ((encR_and_0xfe00707f ..).trans rfl), encR_low0 .., ne_of_eq_of_ne (encR_low2 ..) (by simp),
    fun _ => ⟨rfl, by show Instr.feqD (rdField (encR 0b1010001#7 rs2 rs1 0b010#3 rd 0b1010011#7)) (rs1Field (encR 0b1010001#7 rs2 rs1 0b010#3 rd 0b1010011#7)) (rs2Field (encR 0b1010001#7 rs2 rs1 0b010#3 rd 0b1010011#7)) = _; simp only [rdField_encR, rs1Field_encR, rs2Field_encR]⟩⟩
theorem fltD (rd : XReg) (rs1 rs2 : FReg) : Statement (.fltD rd rs1 rs2) :=
  ⟨_, row (k := 102) rfl, accepts_of ((encR_and_0xfe00707f ..).trans rfl), encR_low0 .., ne_of_eq_of_ne (encR_low2 ..) (by simp),
    fun _ => ⟨rfl, by show Instr.fltD (rdField (encR 0b1010001#7 rs2 rs1 0b001#3 rd 0b1010011#7)) (rs1Field (encR 0b1010001#7 rs2 rs1 0b001#3 rd 0b1010011#7)) (rs2Field (encR 0b1010001#7 rs2 rs1 0b001#3 rd 0b1010011#7)) = _; simp only [rdField_encR, rs1Field_encR, rs2Field_encR]⟩⟩
theorem fleD (rd : XReg) (rs1 rs2 : FReg) : Statement (.fleD rd rs1 rs2) :=
  ⟨_, row (k := 103) rfl, accepts_of ((encR_and_0xfe00707f ..).trans rfl), encR_low0 .., ne_of_eq_of_ne (encR_low2 ..) (by simp),
    fun _ => ⟨rfl, by show Instr.fleD (rdField (encR 0b1010001#7 rs2 rs1 0b000#3 rd 0b1010011#7)) (rs1Field (encR 0b1010001#7 rs2 rs1 0b000#3 rd 0b1010011#7)) (rs2Field (encR 0b1010001#7 rs2 rs1 0b000#3 rd 0b1010011#7)) = _; simp only [rdField_encR, rs1Field_encR, rs2Field_encR]⟩⟩
theorem fcvtWD (rd : XReg) (rs1 : FReg) (rm : BitVec 3) : Statement (.fcvtWD rd rs1 rm) :=
  ⟨_, row (k := 104) rfl, accepts_of ((encR_and_0xfff0007f ..).trans rfl), encR_low0 .., ne_of_eq_of_ne (encR_low2 ..) (by simp),
    fun h => ⟨rm_ok h (rmField_encR ..), by show Instr.fcvtWD (rdField (encR 0b1100001#7 0b00000#5 rs1 rm rd 0b1010011#7)) (rs1Field (encR 0b1100001#7 0b00000#5 rs1 rm rd 0b1010011#7)) (rmField (encR 0b1100001#7 0b00000#5 rs1 rm rd 0b1010011#7)) = _; simp only [rdField_encR, rs1Field_encR, rmField_encR]⟩⟩
theorem fcvtWUD (rd : XReg) (rs1 : FReg) (rm : BitVec 3) : Statement (.fcvtWUD rd rs1 rm) :=
  ⟨_, row (k := 105) rfl, accepts_of ((encR_and_0xfff0007f ..).trans rfl), encR_low0 .., ne_of_eq_of_ne (encR_low2 ..) (by simp),
    fun h => ⟨rm_ok h (rmField_encR ..), by show Instr.fcvtWUD (rdField (encR 0b1100001#7 0b00001#5 rs1 rm rd 0b1010011#7)) (rs1Field (encR 0b1100001#7 0b00001#5 rs1 rm rd 0b1010011#7)) (rmField (encR 0b1100001#7 0b00001#5 rs1 rm rd 0b1010011#7)) = _; simp only [rdField_encR, rs1Field_encR, rmField_encR]⟩⟩
theorem fcvtDW (rd : FReg) (rs1 : XReg) (rm : BitVec 3) : Statement (.fcvtDW rd rs1 rm) :=
  ⟨_, row (k := 106) rfl, accepts_of ((encR_and_0xfff0007f ..).trans rfl), encR_low0 .., ne_of_eq_of_ne (encR_low2 ..) (by simp),
    fun h => ⟨rm_ok h (rmField_encR ..), by show Instr.fcvtDW (rdField (encR 0b1101001#7 0b00000#5 rs1 rm rd 0b1010011#7)) (rs1Field (encR 0b1101001#7 0b00000#5 rs1 rm rd 0b1010011#7)) (rmField (encR 0b1101001#7 0b00000#5 rs1 rm rd 0b1010011#7)) = _; simp only [rdField_encR, rs1Field_encR, rmField_encR]⟩⟩
theorem fcvtDWU (rd : FReg) (rs1 : XReg) (rm : BitVec 3) : Statement (.fcvtDWU rd rs1 rm) :=
  ⟨_, row (k := 107) rfl, accepts_of ((encR_and_0xfff0007f ..).trans rfl), encR_low0 .., ne_of_eq_of_ne (encR_low2 ..) (by simp),
    fun h => ⟨rm_ok h (rmField_encR ..), by show Instr.fcvtDWU (rdField (encR 0b1101001#7 0b00001#5 rs1 rm rd 0b1010011#7)) (rs1Field (encR 0b1101001#7 0b00001#5 rs1 rm rd 0b1010011#7)) (rmField (encR 0b1101001#7 0b00001#5 rs1 rm rd 0b1010011#7)) = _; simp only [rdField_encR, rs1Field_encR, rmField_encR]⟩⟩
theorem fcvtSD (rd rs1 : FReg) (rm : BitVec 3) : Statement (.fcvtSD rd rs1 rm) :=
  ⟨_, row (k := 108) rfl, accepts_of ((encR_and_0xfff0007f ..).trans rfl), encR_low0 .., ne_of_eq_of_ne (encR_low2 ..) (by simp),
    fun h => ⟨rm_ok h (rmField_encR ..), by show Instr.fcvtSD (rdField (encR 0b0100000#7 0b00001#5 rs1 rm rd 0b1010011#7)) (rs1Field (encR 0b0100000#7 0b00001#5 rs1 rm rd 0b1010011#7)) (rmField (encR 0b0100000#7 0b00001#5 rs1 rm rd 0b1010011#7)) = _; simp only [rdField_encR, rs1Field_encR, rmField_encR]⟩⟩
theorem fcvtDS (rd rs1 : FReg) (rm : BitVec 3) : Statement (.fcvtDS rd rs1 rm) :=
  ⟨_, row (k := 109) rfl, accepts_of ((encR_and_0xfff0007f ..).trans rfl), encR_low0 .., ne_of_eq_of_ne (encR_low2 ..) (by simp),
    fun h => ⟨rm_ok h (rmField_encR ..), by show Instr.fcvtDS (rdField (encR 0b0100001#7 0b00000#5 rs1 rm rd 0b1010011#7)) (rs1Field (encR 0b0100001#7 0b00000#5 rs1 rm rd 0b1010011#7)) (rmField (encR 0b0100001#7 0b00000#5 rs1 rm rd 0b1010011#7)) = _; simp only [rdField_encR, rs1Field_encR, rmField_encR]⟩⟩
theorem csrrw (rd : XReg) (csr : BitVec 12) (rs1 : XReg) : Statement (.csrrw rd csr rs1) :=
  ⟨_, row (k := 110) rfl, accepts_of ((encI_and_0x0000707f ..).trans rfl), encI_low0 .., ne_of_eq_of_ne (encI_low2 ..) (by simp),
    fun _ => ⟨rfl, by show Instr.csrrw (rdField (encI csr rs1 0b001#3 rd 0b1110011#7)) (immIField (encI csr rs1 0b001#3 rd 0b1110011#7)) (rs1Field (encI csr rs1 0b001#3 rd 0b1110011#7)) = _; simp only [rdField_encI, immIField_encI, rs1Field_encI]⟩⟩
theorem csrrs (rd : XReg) (csr : BitVec 12) (rs1 : XReg) : Statement (.csrrs rd csr rs1) :=
  ⟨_, row (k := 111) rfl, accepts_of ((encI_and_0x0000707f ..).trans rfl), encI_low0 .., ne_of_eq_of_ne (encI_low2 ..) (by simp),
    fun _ => ⟨rfl, by show Instr.csrrs (rdField (encI csr rs1 0b010#3 rd 0b1110011#7)) (immIField (encI csr rs1 0b010#3 rd 0b1110011#7)) (rs1Field (encI csr rs1 0b010#3 rd 0b1110011#7)) = _; simp only [rdField_encI, immIField_encI, rs1Field_encI]⟩⟩
theorem csrrc (rd : XReg) (csr : BitVec 12) (rs1 : XReg) : Statement (.csrrc rd csr rs1) :=
  ⟨_, row (k := 112) rfl, accepts_of ((encI_and_0x0000707f ..).trans rfl), encI_low0 .., ne_of_eq_of_ne (encI_low2 ..) (by simp),
    fun _ => ⟨rfl, by show Instr.csrrc (rdField (encI csr rs1 0b011#3 rd 0b1110011#7)) (immIField (encI csr rs1 0b011#3 rd 0b1110011#7)) (rs1Field (encI csr rs1 0b011#3 rd 0b1110011#7)) = _; simp only [rdField_encI, immIField_encI, rs1Field_encI]⟩⟩
theorem vsetvli (rd rs1 : XReg) (zimm : BitVec 11) : Statement (.vsetvli rd rs1 zimm) :=
  ⟨_, row (k := 113) rfl, accepts_of ((encI_and_0x8000707f ..).trans rfl), encI_low0 .., ne_of_eq_of_ne (encI_low2 ..) (by simp),
    fun _ => ⟨rfl, by show Instr.vsetvli (rdField (encI (0#1 ++ zimm) rs1 0b111#3 rd 0b1010111#7)) (rs1Field (encI (0#1 ++ zimm) rs1 0b111#3 rd 0b1010111#7)) (zimmField (encI (0#1 ++ zimm) rs1 0b111#3 rd 0b1010111#7)) = _; simp only [rdField_encI, rs1Field_encI, zimmField_encI]⟩⟩
theorem vle8V (vd : VReg) (rs1 : XReg) : Statement (.vle8V vd rs1) :=
  ⟨_, row (k := 114) rfl, accepts_of ((encR_and_0xfff0707f ..).trans rfl), encR_low0 .., ne_of_eq_of_ne (encR_low2 ..) (by simp),
    fun _ => ⟨rfl, by show Instr.vle8V (rdField (encR 0b0000001#7 0b00000#5 rs1 0b000#3 vd 0b0000111#7)) (rs1Field (encR 0b0000001#7 0b00000#5 rs1 0b000#3 vd 0b0000111#7)) = _; simp only [rdField_encR, rs1Field_encR]⟩⟩
theorem vlse8V (vd : VReg) (rs1 rs2 : XReg) : Statement (.vlse8V vd rs1 rs2) :=
  ⟨_, row (k := 115) rfl, accepts_of ((encR_and_0xfe00707f ..).trans rfl), encR_low0 .., ne_of_eq_of_ne (encR_low2 ..) (by simp),
    fun _ => ⟨rfl, by show Instr.vlse8V (rdField (encR 0b0000101#7 rs2 rs1 0b000#3 vd 0b0000111#7)) (rs1Field (encR 0b0000101#7 rs2 rs1 0b000#3 vd 0b0000111#7)) (rs2Field (encR 0b0000101#7 rs2 rs1 0b000#3 vd 0b0000111#7)) = _; simp only [rdField_encR, rs1Field_encR, rs2Field_encR]⟩⟩
theorem vse8V (vs3 : VReg) (rs1 : XReg) : Statement (.vse8V vs3 rs1) :=
  ⟨_, row (k := 116) rfl, accepts_of ((encR_and_0xfff0707f ..).trans rfl), encR_low0 .., ne_of_eq_of_ne (encR_low2 ..) (by simp),
    fun _ => ⟨rfl, by show Instr.vse8V (rdField (encR 0b0000001#7 0b00000#5 rs1 0b000#3 vs3 0b0100111#7)) (rs1Field (encR 0b0000001#7 0b00000#5 rs1 0b000#3 vs3 0b0100111#7)) = _; simp only [rdField_encR, rs1Field_encR]⟩⟩
theorem vsse8V (vs3 : VReg) (rs1 rs2 : XReg) : Statement (.vsse8V vs3 rs1 rs2) :=
  ⟨_, row (k := 117) rfl, accepts_of ((encR_and_0xfe00707f ..).trans rfl), encR_low0 .., ne_of_eq_of_ne (encR_low2 ..) (by simp),
    fun _ => ⟨rfl, by show Instr.vsse8V (rdField (encR 0b0000101#7 rs2 rs1 0b000#3 vs3 0b0100111#7)) (rs1Field (encR 0b0000101#7 rs2 rs1 0b000#3 vs3 0b0100111#7)) (rs2Field (encR 0b0000101#7 rs2 rs1 0b000#3 vs3 0b0100111#7)) = _; simp only [rdField_encR, rs1Field_encR, rs2Field_encR]⟩⟩
theorem vle16V (vd : VReg) (rs1 : XReg) : Statement (.vle16V vd rs1) :=
  ⟨_, row (k := 118) rfl, accepts_of ((encR_and_0xfff0707f ..).trans rfl), encR_low0 .., ne_of_eq_of_ne (encR_low2 ..) (by simp),
    fun _ => ⟨rfl, by show Instr.vle16V (rdField (encR 0b0000001#7 0b00000#5 rs1 0b101#3 vd 0b0000111#7)) (rs1Field (encR 0b0000001#7 0b00000#5 rs1 0b101#3 vd 0b0000111#7)) = _; simp only [rdField_encR, rs1Field_encR]⟩⟩
theorem vlse16V (vd : VReg) (rs1 rs2 : XReg) : Statement (.vlse16V vd rs1 rs2) :=
  ⟨_, row (k := 119) rfl, accepts_of ((encR_and_0xfe00707f ..).trans rfl), encR_low0 .., ne_of_eq_of_ne (encR_low2 ..) (by simp),
    fun _ => ⟨rfl, by show Instr.vlse16V (rdField (encR 0b0000101#7 rs2 rs1 0b101#3 vd 0b0000111#7)) (rs1Field (encR 0b0000101#7 rs2 rs1 0b101#3 vd 0b0000111#7)) (rs2Field (encR 0b0000101#7 rs2 rs1 0b101#3 vd 0b0000111#7)) = _; simp only [rdField_encR, rs1Field_encR, rs2Field_encR]⟩⟩
theorem vse16V (vs3 : VReg) (rs1 : XReg) : Statement (.vse16V vs3 rs1) :=
  ⟨_, row (k := 120) rfl, accepts_of ((encR_and_0xfff0707f ..).trans rfl), encR_low0 .., ne_of_eq_of_ne (encR_low2 ..) (by simp),
    fun _ => ⟨rfl, by show Instr.vse16V (rdField (encR 0b0000001#7 0b00000#5 rs1 0b101#3 vs3 0b0100111#7)) (rs1Field (encR 0b0000001#7 0b00000#5 rs1 0b101#3 vs3 0b0100111#7)) = _; simp only [rdField_encR, rs1Field_encR]⟩⟩
theorem vsse16V (vs3 : VReg) (rs1 rs2 : XReg) : Statement (.vsse16V vs3 rs1 rs2) :=
  ⟨_, row (k := 121) rfl, accepts_of ((encR_and_0xfe00707f ..).trans rfl), encR_low0 .., ne_of_eq_of_ne (encR_low2 ..) (by simp),
    fun _ => ⟨rfl, by show Instr.vsse16V (rdField (encR 0b0000101#7 rs2 rs1 0b101#3 vs3 0b0100111#7)) (rs1Field (encR 0b0000101#7 rs2 rs1 0b101#3 vs3 0b0100111#7)) (rs2Field (encR 0b0000101#7 rs2 rs1 0b101#3 vs3 0b0100111#7)) = _; simp only [rdField_encR, rs1Field_encR, rs2Field_encR]⟩⟩
theorem vle32V (vd : VReg) (rs1 : XReg) : Statement (.vle32V vd rs1) :=
  ⟨_, row (k := 122) rfl, accepts_of ((encR_and_0xfff0707f ..).trans rfl), encR_low0 .., ne_of_eq_of_ne (encR_low2 ..) (by simp),
    fun _ => ⟨rfl, by show Instr.vle32V (rdField (encR 0b0000001#7 0b00000#5 rs1 0b110#3 vd 0b0000111#7)) (rs1Field (encR 0b0000001#7 0b00000#5 rs1 0b110#3 vd 0b0000111#7)) = _; simp only [rdField_encR, rs1Field_encR]⟩⟩
theorem vlse32V (vd : VReg) (rs1 rs2 : XReg) : Statement (.vlse32V vd rs1 rs2) :=
  ⟨_, row (k := 123) rfl, accepts_of ((encR_and_0xfe00707f ..).trans rfl), encR_low0 .., ne_of_eq_of_ne (encR_low2 ..) (by simp),
    fun _ => ⟨rfl, by show Instr.vlse32V (rdField (encR 0b0000101#7 rs2 rs1 0b110#3 vd 0b0000111#7)) (rs1Field (encR 0b0000101#7 rs2 rs1 0b110#3 vd 0b0000111#7)) (rs2Field (encR 0b0000101#7 rs2 rs1 0b110#3 vd 0b0000111#7)) = _; simp only [rdField_encR, rs1Field_encR, rs2Field_encR]⟩⟩
theorem vse32V (vs3 : VReg) (rs1 : XReg) : Statement (.vse32V vs3 rs1) :=
  ⟨_, row (k := 124) rfl, accepts_of ((encR_and_0xfff0707f ..).trans rfl), encR_low0 .., ne_of_eq_of_ne (encR_low2 ..) (by simp),
    fun _ => ⟨rfl, by show Instr.vse32V (rdField (encR 0b0000001#7 0b00000#5 rs1 0b110#3 vs3 0b0100111#7)) (rs1Field (encR 0b0000001#7 0b00000#5 rs1 0b110#3 vs3 0b0100111#7)) = _; simp only [rdField_encR, rs1Field_encR]⟩⟩
theorem vsse32V (vs3 : VReg) (rs1 rs2 : XReg) : Statement (.vsse32V vs3 rs1 rs2) :=
  ⟨_, row (k := 125) rfl, accepts_of ((encR_and_0xfe00707f ..).trans rfl), encR_low0 .., ne_of_eq_of_ne (encR_low2 ..) (by simp),
    fun _ => ⟨rfl, by show Instr.vsse32V (rdField (encR 0b0000101#7 rs2 rs1 0b110#3 vs3 0b0100111#7)) (rs1Field (encR 0b0000101#7 rs2 rs1 0b110#3 vs3 0b0100111#7)) (rs2Field (encR 0b0000101#7 rs2 rs1 0b110#3 vs3 0b0100111#7)) = _; simp only [rdField_encR, rs1Field_encR, rs2Field_encR]⟩⟩
theorem vaddVV (vd vs2 vs1 : VReg) : Statement (.vaddVV vd vs2 vs1) :=
  ⟨_, row (k := 126) rfl, accepts_of ((encR_and_0xfe00707f ..).trans rfl), encR_low0 .., ne_of_eq_of_ne (encR_low2 ..) (by simp),
    fun _ => ⟨rfl, by show Instr.vaddVV (rdField (encR 0b0000001#7 vs2 vs1 0b000#3 vd 0b1010111#7)) (rs2Field (encR 0b0000001#7 vs2 vs1 0b000#3 vd 0b1010111#7)) (rs1Field (encR 0b0000001#7 vs2 vs1 0b000#3 vd 0b1010111#7)) = _; simp only [rdField_encR, rs2Field_encR, rs1Field_encR]⟩⟩
theorem vaddVX (vd vs2 : VReg) (rs1 : XReg) : Statement (.vaddVX vd vs2 rs1) :=
  ⟨_, row (k := 127) rfl, accepts_of ((encR_and_0xfe00707f ..).trans rfl), encR_low0 .., ne_of_eq_of_ne (encR_low2 ..) (by simp),
    fun _ => ⟨rfl, by show Instr.vaddVX (rdField (encR 0b0000001#7 vs2 rs1 0b100#3 vd 0b1010111#7)) (rs2Field (encR 0b0000001#7 vs2 rs1 0b100#3 vd 0b1010111#7)) (rs1Field (encR 0b0000001#7 vs2 rs1 0b100#3 vd 0b1010111#7)) = _; simp only [rdField_encR, rs2Field_encR, rs1Field_encR]⟩⟩
theorem vaddVI (vd vs2 : VReg) (imm5 : BitVec 5) : Statement (.vaddVI vd vs2 imm5) :=
  ⟨_, row (k := 128) rfl, accepts_of ((encR_and_0xfe00707f ..).trans rfl), encR_low0 .., ne_of_eq_of_ne (encR_low2 ..) (by simp),
    fun _ => ⟨rfl, by show Instr.vaddVI (rdField (encR 0b0000001#7 vs2 imm5 0b011#3 vd 0b1010111#7)) (rs2Field (encR 0b0000001#7 vs2 imm5 0b011#3 vd 0b1010111#7)) (rs1Field (encR 0b0000001#7 vs2 imm5 0b011#3 vd 0b1010111#7)) = _; simp only [rdField_encR, rs2Field_encR, rs1Field_encR]⟩⟩
theorem vsubVV (vd vs2 vs1 : VReg) : Statement (.vsubVV vd vs2 vs1) :=
  ⟨_, row (k := 129) rfl, accepts_of ((encR_and_0xfe00707f ..).trans rfl), encR_low0 .., ne_of_eq_of_ne (encR_low2 ..) (by simp),
    fun _ => ⟨rfl, by show Instr.vsubVV (rdField (encR 0b0000101#7 vs2 vs1 0b000#3 vd 0b1010111#7)) (rs2Field (encR 0b0000101#7 vs2 vs1 0b000#3 vd 0b1010111#7)) (rs1Field (encR 0b0000101#7 vs2 vs1 0b000#3 vd 0b1010111#7)) = _; simp only [rdField_encR, rs2Field_encR, rs1Field_encR]⟩⟩
theorem vsubVX (vd vs2 : VReg) (rs1 : XReg) : Statement (.vsubVX vd vs2 rs1) :=
  ⟨_, row (k := 130) rfl, accepts_of ((encR_and_0xfe00707f ..).trans rfl), encR_low0 .., ne_of_eq_of_ne (encR_low2 ..) (by simp),
    fun _ => ⟨rfl, by show Instr.vsubVX (rdField (encR 0b0000101#7 vs2 rs1 0b100#3 vd 0b1010111#7)) (rs2Field (encR 0b0000101#7 vs2 rs1 0b100#3 vd 0b1010111#7)) (rs1Field (encR 0b0000101#7 vs2 rs1 0b100#3 vd 0b1010111#7)) = _; simp only [rdField_encR, rs2Field_encR, rs1Field_encR]⟩⟩
theorem vminuVV (vd vs2 vs1 : VReg) : Statement (.vminuVV vd vs2 vs1) :=
  ⟨_, row (k := 131) rfl, accepts_of ((encR_and_0xfe00707f ..).trans rfl), encR_low0 .., ne_of_eq_of_ne (encR_low2 ..) (by simp),
    fun _ => ⟨rfl, by show Instr.vminuVV (rdField (encR 0b0001001#7 vs2 vs1 0b000#3 vd 0b1010111#7)) (rs2Field (encR 0b0001001#7 vs2 vs1 0b000#3 vd 0b1010111#7)) (rs1Field (encR 0b0001001#7 vs2 vs1 0b000#3 vd 0b1010111#7)) = _; simp only [rdField_encR, rs2Field_encR, rs1Field_encR]⟩⟩
theorem vminuVX (vd vs2 : VReg) (rs1 : XReg) : Statement (.vminuVX vd vs2 rs1) :=
  ⟨_, row (k := 132) rfl, accepts_of ((encR_and_0xfe00707f ..).trans rfl), encR_low0 .., ne_of_eq_of_ne (encR_low2 ..) (by simp),
    fun _ => ⟨rfl, by show Instr.vminuVX (rdField (encR 0b0001001#7 vs2 rs1 0b100#3 vd 0b1010111#7)) (rs2Field (encR 0b0001001#7 vs2 rs1 0b100#3 vd 0b1010111#7)) (rs1Field (encR 0b0001001#7 vs2 rs1 0b100#3 vd 0b1010111#7)) = _; simp only [rdField_encR, rs2Field_encR, rs1Field_encR]⟩⟩
theorem vmaxuVV (vd vs2 vs1 : VReg) : Statement (.vmaxuVV vd vs2 vs1) :=
  ⟨_, row (k := 133) rfl, accepts_of ((encR_and_0xfe00707f ..).trans rfl), encR_low0 .., ne_of_eq_of_ne (encR_low2 ..) (by simp),
    fun _ => ⟨rfl, by show Instr.vmaxuVV (rdField (encR 0b0001101#7 vs2 vs1 0b000#3 vd 0b1010111#7)) (rs2Field (encR 0b0001101#7 vs2 vs1 0b000#3 vd 0b1010111#7)) (rs1Field (encR 0b0001101#7 vs2 vs1 0b000#3 vd 0b1010111#7)) = _; simp only [rdField_encR, rs2Field_encR, rs1Field_encR]⟩⟩
theorem vmaxuVX (vd vs2 : VReg) (rs1 : XReg) : Statement (.vmaxuVX vd vs2 rs1) :=
  ⟨_, row (k := 134) rfl, accepts_of ((encR_and_0xfe00707f ..).trans rfl), encR_low0 .., ne_of_eq_of_ne (encR_low2 ..) (by simp),
    fun _ => ⟨rfl, by show Instr.vmaxuVX (rdField (encR 0b0001101#7 vs2 rs1 0b100#3 vd 0b1010111#7)) (rs2Field (encR 0b0001101#7 vs2 rs1 0b100#3 vd 0b1010111#7)) (rs1Field (encR 0b0001101#7 vs2 rs1 0b100#3 vd 0b1010111#7)) = _; simp only [rdField_encR, rs2Field_encR, rs1Field_encR]⟩⟩
theorem vandVV (vd vs2 vs1 : VReg) : Statement (.vandVV vd vs2 vs1) :=
  ⟨_, row (k := 135) rfl, accepts_of ((encR_and_0xfe00707f ..).trans rfl), encR_low0 .., ne_of_eq_of_ne (encR_low2 ..) (by simp),
    fun _ => ⟨rfl, by show Instr.vandVV (rdField (encR 0b0010011#7 vs2 vs1 0b000#3 vd 0b1010111#7)) (rs2Field (encR 0b0010011#7 vs2 vs1 0b000#3 vd 0b1010111#7)) (rs1Field (encR 0b0010011#7 vs2 vs1 0b000#3 vd 0b1010111#7)) = _; simp only [rdField_encR, rs2Field_encR, rs1Field_encR]⟩⟩
theorem vandVX (vd vs2 : VReg) (rs1 : XReg) : Statement (.vandVX vd vs2 rs1) :=
  ⟨_, row (k := 136) rfl, accepts_of ((encR_and_0xfe00707f ..).trans rfl), encR_low0 .., ne_of_eq_of_ne (encR_low2 ..) (by simp),
    fun _ => ⟨rfl, by show Instr.vandVX (rdField (encR 0b0010011#7 vs2 rs1 0b100#3 vd 0b1010111#7)) (rs2Field (encR 0b0010011#7 vs2 rs1 0b100#3 vd 0b1010111#7)) (rs1Field (encR 0b0010011#7 vs2 rs1 0b100#3 vd 0b1010111#7)) = _; simp only [rdField_encR, rs2Field_encR, rs1Field_encR]⟩⟩
theorem vandVI (vd vs2 : VReg) (imm5 : BitVec 5) : Statement (.vandVI vd vs2 imm5) :=
  ⟨_, row (k := 137) rfl, accepts_of ((encR_and_0xfe00707f ..).trans rfl), encR_low0 .., ne_of_eq_of_ne (encR_low2 ..) (by simp),
    fun _ => ⟨rfl, by show Instr.vandVI (rdField (encR 0b0010011#7 vs2 imm5 0b011#3 vd 0b1010111#7)) (rs2Field (encR 0b0010011#7 vs2 imm5 0b011#3 vd 0b1010111#7)) (rs1Field (encR 0b0010011#7 vs2 imm5 0b011#3 vd 0b1010111#7)) = _; simp only [rdField_encR, rs2Field_encR, rs1Field_encR]⟩⟩
theorem vorVV (vd vs2 vs1 : VReg) : Statement (.vorVV vd vs2 vs1) :=
  ⟨_, row (k := 138) rfl, accepts_of ((encR_and_0xfe00707f ..).trans rfl), encR_low0 .., ne_of_eq_of_ne (encR_low2 ..) (by simp),
    fun _ => ⟨rfl, by show Instr.vorVV (rdField (encR 0b0010101#7 vs2 vs1 0b000#3 vd 0b1010111#7)) (rs2Field (encR 0b0010101#7 vs2 vs1 0b000#3 vd 0b1010111#7)) (rs1Field (encR 0b0010101#7 vs2 vs1 0b000#3 vd 0b1010111#7)) = _; simp only [rdField_encR, rs2Field_encR, rs1Field_encR]⟩⟩
theorem vorVX (vd vs2 : VReg) (rs1 : XReg) : Statement (.vorVX vd vs2 rs1) :=
  ⟨_, row (k := 139) rfl, accepts_of ((encR_and_0xfe00707f ..).trans rfl), encR_low0 .., ne_of_eq_of_ne (encR_low2 ..) (by simp),
    fun _ => ⟨rfl, by show Instr.vorVX (rdField (encR 0b0010101#7 vs2 rs1 0b100#3 vd 0b1010111#7)) (rs2Field (encR 0b0010101#7 vs2 rs1 0b100#3 vd 0b1010111#7)) (rs1Field (encR 0b0010101#7 vs2 rs1 0b100#3 vd 0b1010111#7)) = _; simp only [rdField_encR, rs2Field_encR, rs1Field_encR]⟩⟩
theorem vorVI (vd vs2 : VReg) (imm5 : BitVec 5) : Statement (.vorVI vd vs2 imm5) :=
  ⟨_, row (k := 140) rfl, accepts_of ((encR_and_0xfe00707f ..).trans rfl), encR_low0 .., ne_of_eq_of_ne (encR_low2 ..) (by simp),
    fun _ => ⟨rfl, by show Instr.vorVI (rdField (encR 0b0010101#7 vs2 imm5 0b011#3 vd 0b1010111#7)) (rs2Field (encR 0b0010101#7 vs2 imm5 0b011#3 vd 0b1010111#7)) (rs1Field (encR 0b0010101#7 vs2 imm5 0b011#3 vd 0b1010111#7)) = _; simp only [rdField_encR, rs2Field_encR, rs1Field_encR]⟩⟩
theorem vxorVV (vd vs2 vs1 : VReg) : Statement (.vxorVV vd vs2 vs1) :=
  ⟨_, row (k := 141) rfl, accepts_of ((encR_and_0xfe00707f ..).trans rfl), encR_low0 .., ne_of_eq_of_ne (encR_low2 ..) (by simp),
    fun _ => ⟨rfl, by show Instr.vxorVV (rdField (encR 0b0010111#7 vs2 vs1 0b000#3 vd 0b1010111#7)) (rs2Field (encR 0b0010111#7 vs2 vs1 0b000#3 vd 0b1010111#7)) (rs1Field (encR 0b0010111#7 vs2 vs1 0b000#3 vd 0b1010111#7)) = _; simp only [rdField_encR, rs2Field_encR, rs1Field_encR]⟩⟩
theorem vxorVX (vd vs2 : VReg) (rs1 : XReg) : Statement (.vxorVX vd vs2 rs1) :=
  ⟨_, row (k := 142) rfl, accepts_of ((encR_and_0xfe00707f ..).trans rfl), encR_low0 .., ne_of_eq_of_ne (encR_low2 ..) (by simp),
    fun _ => ⟨rfl, by show Instr.vxorVX (rdField (encR 0b0010111#7 vs2 rs1 0b100#3 vd 0b1010111#7)) (rs2Field (encR 0b0010111#7 vs2 rs1 0b100#3 vd 0b1010111#7)) (rs1Field (encR 0b0010111#7 vs2 rs1 0b100#3 vd 0b1010111#7)) = _; simp only [rdField_encR, rs2Field_encR, rs1Field_encR]⟩⟩
theorem vxorVI (vd vs2 : VReg) (imm5 : BitVec 5) : Statement (.vxorVI vd vs2 imm5) :=
  ⟨_, row (k := 143) rfl, accepts_of ((encR_and_0xfe00707f ..).trans rfl), encR_low0 .., ne_of_eq_of_ne (encR_low2 ..) (by simp),
    fun _ => ⟨rfl, by show Instr.vxorVI (rdField (encR 0b0010111#7 vs2 imm5 0b011#3 vd 0b1010111#7)) (rs2Field (encR 0b0010111#7 vs2 imm5 0b011#3 vd 0b1010111#7)) (rs1Field (encR 0b0010111#7 vs2 imm5 0b011#3 vd 0b1010111#7)) = _; simp only [rdField_encR, rs2Field_encR, rs1Field_encR]⟩⟩
theorem vmseqVV (vd vs2 vs1 : VReg) : Statement (.vmseqVV vd vs2 vs1) :=
  ⟨_, row (k := 144) rfl, accepts_of ((encR_and_0xfe00707f ..).trans rfl), encR_low0 .., ne_of_eq_of_ne (encR_low2 ..) (by simp),
    fun _ => ⟨rfl, by show Instr.vmseqVV (rdField (encR 0b0110001#7 vs2 vs1 0b000#3 vd 0b1010111#7)) (rs2Field (encR 0b0110001#7 vs2 vs1 0b000#3 vd 0b1010111#7)) (rs1Field (encR 0b0110001#7 vs2 vs1 0b000#3 vd 0b1010111#7)) = _; simp only [rdField_encR, rs2Field_encR, rs1Field_encR]⟩⟩
theorem vmseqVX (vd vs2 : VReg) (rs1 : XReg) : Statement (.vmseqVX vd vs2 rs1) :=
  ⟨_, row (k := 145) rfl, accepts_of ((encR_and_0xfe00707f ..).trans rfl), encR_low0 .., ne_of_eq_of_ne (encR_low2 ..) (by simp),
    fun _ => ⟨rfl, by show Instr.vmseqVX (rdField (encR 0b0110001#7 vs2 rs1 0b100#3 vd 0b1010111#7)) (rs2Field (encR 0b0110001#7 vs2 rs1 0b100#3 vd 0b1010111#7)) (rs1Field (encR 0b0110001#7 vs2 rs1 0b100#3 vd 0b1010111#7)) = _; simp only [rdField_encR, rs2Field_encR, rs1Field_encR]⟩⟩
theorem vmseqVI (vd vs2 : VReg) (imm5 : BitVec 5) : Statement (.vmseqVI vd vs2 imm5) :=
  ⟨_, row (k := 146) rfl, accepts_of ((encR_and_0xfe00707f ..).trans rfl), encR_low0 .., ne_of_eq_of_ne (encR_low2 ..) (by simp),
    fun _ => ⟨rfl, by show Instr.vmseqVI (rdField (encR 0b0110001#7 vs2 imm5 0b011#3 vd 0b1010111#7)) (rs2Field (encR 0b0110001#7 vs2 imm5 0b011#3 vd 0b1010111#7)) (rs1Field (encR 0b0110001#7 vs2 imm5 0b011#3 vd 0b1010111#7)) = _; simp only [rdField_encR, rs2Field_encR, rs1Field_encR]⟩⟩
theorem vmsneVV (vd vs2 vs1 : VReg) : Statement (.vmsneVV vd vs2 vs1) :=
  ⟨_, row (k := 147) rfl, accepts_of ((encR_and_0xfe00707f ..).trans rfl), encR_low0 .., ne_of_eq_of_ne (encR_low2 ..) (by simp),
    fun _ => ⟨rfl, by show Instr.vmsneVV (rdField (encR 0b0110011#7 vs2 vs1 0b000#3 vd 0b1010111#7)) (rs2Field (encR 0b0110011#7 vs2 vs1 0b000#3 vd 0b1010111#7)) (rs1Field (encR 0b0110011#7 vs2 vs1 0b000#3 vd 0b1010111#7)) = _; simp only [rdField_encR, rs2Field_encR, rs1Field_encR]⟩⟩
theorem vmsneVX (vd vs2 : VReg) (rs1 : XReg) : Statement (.vmsneVX vd vs2 rs1) :=
  ⟨_, row (k := 148) rfl, accepts_of ((encR_and_0xfe00707f ..).trans rfl), encR_low0 .., ne_of_eq_of_ne (encR_low2 ..) (by simp),
    fun _ => ⟨rfl, by show Instr.vmsneVX (rdField (encR 0b0110011#7 vs2 rs1 0b100#3 vd 0b1010111#7)) (rs2Field (encR 0b0110011#7 vs2 rs1 0b100#3 vd 0b1010111#7)) (rs1Field (encR 0b0110011#7 vs2 rs1 0b100#3 vd 0b1010111#7)) = _; simp only [rdField_encR, rs2Field_encR, rs1Field_encR]⟩⟩
theorem vmsneVI (vd vs2 : VReg) (imm5 : BitVec 5) : Statement (.vmsneVI vd vs2 imm5) :=
  ⟨_, row (k := 149) rfl, accepts_of ((encR_and_0xfe00707f ..).trans rfl), encR_low0 .., ne_of_eq_of_ne (encR_low2 ..) (by simp),
    fun _ => ⟨rfl, by show Instr.vmsneVI (rdField (encR 0b0110011#7 vs2 imm5 0b011#3 vd 0b1010111#7)) (rs2Field (encR 0b0110011#7 vs2 imm5 0b011#3 vd 0b1010111#7)) (rs1Field (encR 0b0110011#7 vs2 imm5 0b011#3 vd 0b1010111#7)) = _; simp only [rdField_encR, rs2Field_encR, rs1Field_encR]⟩⟩
theorem vmsltVV (vd vs2 vs1 : VReg) : Statement (.vmsltVV vd vs2 vs1) :=
  ⟨_, row (k := 150) rfl, accepts_of ((encR_and_0xfe00707f ..).trans rfl), encR_low0 .., ne_of_eq_of_ne (encR_low2 ..) (by simp),
    fun _ => ⟨rfl, by show Instr.vmsltVV (rdField (encR 0b0110111#7 vs2 vs1 0b000#3 vd 0b1010111#7)) (rs2Field (encR 0b0110111#7 vs2 vs1 0b000#3 vd 0b1010111#7)) (rs1Field (encR 0b0110111#7 vs2 vs1 0b000#3 vd 0b1010111#7)) = _; simp only [rdField_encR, rs2Field_encR, rs1Field_encR]⟩⟩
theorem vmsltVX (vd vs2 : VReg) (rs1 : XReg) : Statement (.vmsltVX vd vs2 rs1) :=
  ⟨_, row (k := 151) rfl, accepts_of ((encR_and_0xfe00707f ..).trans rfl), encR_low0 .., ne_of_eq_of_ne (encR_low2 ..) (by simp),
    fun _ => ⟨rfl, by show Instr.vmsltVX (rdField (encR 0b0110111#7 vs2 rs1 0b100#3 vd 0b1010111#7)) (rs2Field (encR 0b0110111#7 vs2 rs1 0b100#3 vd 0b1010111#7)) (rs1Field (encR 0b0110111#7 vs2 rs1 0b100#3 vd 0b1010111#7)) = _; simp only [rdField_encR, rs2Field_encR, rs1Field_encR]⟩⟩
theorem vmsleVV (vd vs2 vs1 : VReg) : Statement (.vmsleVV vd vs2 vs1) :=
  ⟨_, row (k := 152) rfl, accepts_of ((encR_and_0xfe00707f ..).trans rfl), encR_low0 .., ne_of_eq_of_ne (encR_low2 ..) (by simp),
    fun _ => ⟨rfl, by show Instr.vmsleVV (rdField (encR 0b0111011#7 vs2 vs1 0b000#3 vd 0b1010111#7)) (rs2Field (encR 0b0111011#7 vs2 vs1 0b000#3 vd 0b1010111#7)) (rs1Field (encR 0b0111011#7 vs2 vs1 0b000#3 vd 0b1010111#7)) = _; simp only [rdField_encR, rs2Field_encR, rs1Field_encR]⟩⟩
theorem vmsleVX (vd vs2 : VReg) (rs1 : XReg) : Statement (.vmsleVX vd vs2 rs1) :=
  ⟨_, row (k := 153) rfl, accepts_of ((encR_and_0xfe00707f ..).trans rfl), encR_low0 .., ne_of_eq_of_ne (encR_low2 ..) (by simp),
    fun _ => ⟨rfl, by show Instr.vmsleVX (rdField (encR 0b0111011#7 vs2 rs1 0b100#3 vd 0b1010111#7)) (rs2Field (encR 0b0111011#7 vs2 rs1 0b100#3 vd 0b1010111#7)) (rs1Field (encR 0b0111011#7 vs2 rs1 0b100#3 vd 0b1010111#7)) = _; simp only [rdField_encR, rs2Field_encR, rs1Field_encR]⟩⟩
theorem vmsleVI (vd vs2 : VReg) (imm5 : BitVec 5) : Statement (.vmsleVI vd vs2 imm5) :=
  ⟨_, row (k := 154) rfl, accepts_of ((encR_and_0xfe00707f ..).trans rfl), encR_low0 .., ne_of_eq_of_ne (encR_low2 ..) (by simp),
    fun _ => ⟨rfl, by show Instr.vmsleVI (rdField (encR 0b0111011#7 vs2 imm5 0b011#3 vd 0b1010111#7)) (rs2Field (encR 0b0111011#7 vs2 imm5 0b011#3 vd 0b1010111#7)) (rs1Field (encR 0b0111011#7 vs2 imm5 0b011#3 vd 0b1010111#7)) = _; simp only [rdField_encR, rs2Field_encR, rs1Field_encR]⟩⟩
theorem vmsgtVX (vd vs2 : VReg) (rs1 : XReg) : Statement (.vmsgtVX vd vs2 rs1) :=
  ⟨_, row (k := 155) rfl, accepts_of ((encR_and_0xfe00707f ..).trans rfl), encR_low0 .., ne_of_eq_of_ne (encR_low2 ..) (by simp),
    fun _ => ⟨rfl, by show Instr.vmsgtVX (rdField (encR 0b0111111#7 vs2 rs1 0b100#3 vd 0b1010111#7)) (rs2Field (encR 0b0111111#7 vs2 rs1 0b100#3 vd 0b1010111#7)) (rs1Field (encR 0b0111111#7 vs2 rs1 0b100#3 vd 0b1010111#7)) = _; simp only [rdField_encR, rs2Field_encR, rs1Field_encR]⟩⟩
theorem vmsgtVI (vd vs2 : VReg) (imm5 : BitVec 5) : Statement (.vmsgtVI vd vs2 imm5) :=
  ⟨_, row (k := 156) rfl, accepts_of ((encR_and_0xfe00707f ..).trans rfl), encR_low0 .., ne_of_eq_of_ne (encR_low2 ..) (by simp),
    fun _ => ⟨rfl, by show Instr.vmsgtVI (rdField (encR 0b0111111#7 vs2 imm5 0b011#3 vd 0b1010111#7)) (rs2Field (encR 0b0111111#7 vs2 imm5 0b011#3 vd 0b1010111#7)) (rs1Field (encR 0b0111111#7 vs2 imm5 0b011#3 vd 0b1010111#7)) = _; simp only [rdField_encR, rs2Field_encR, rs1Field_encR]⟩⟩
theorem vsllVV (vd vs2 vs1 : VReg) : Statement (.vsllVV vd vs2 vs1) :=
  ⟨_, row (k := 157) rfl, accepts_of ((encR_and_0xfe00707f ..).trans rfl), encR_low0 .., ne_of_eq_of_ne (encR_low2 ..) (by simp),
    fun _ => ⟨rfl, by show Instr.vsllVV (rdField (encR 0b1001011#7 vs2 vs1 0b000#3 vd 0b1010111#7)) (rs2Field (encR 0b1001011#7 vs2 vs1 0b000#3 vd 0b1010111#7)) (rs1Field (encR 0b1001011#7 vs2 vs1 0b000#3 vd 0b1010111#7)) = _; simp only [rdField_encR, rs2Field_encR, rs1Field_encR]⟩⟩
theorem vsllVX (vd vs2 : VReg) (rs1 : XReg) : Statement (.vsllVX vd vs2 rs1) :=
  ⟨_, row (k := 158) rfl, accepts_of ((encR_and_0xfe00707f ..).trans rfl), encR_low0 .., ne_of_eq_of_ne (encR_low2 ..) (by simp),
    fun _ => ⟨rfl, by show Instr.vsllVX (rdField (encR 0b1001011#7 vs2 rs1 0b100#3 vd 0b1010111#7)) (rs2Field (encR 0b1001011#7 vs2 rs1 0b100#3 vd 0b1010111#7)) (rs1Field (encR 0b1001011#7 vs2 rs1 0b100#3 vd 0b1010111#7)) = _; simp only [rdField_encR, rs2Field_encR, rs1Field_encR]⟩⟩
theorem vsllVI (vd vs2 : VReg) (imm5 : BitVec 5) : Statement (.vsllVI vd vs2 imm5) :=
  ⟨_, row (k := 159) rfl, accepts_of ((encR_and_0xfe00707f ..).trans rfl), encR_low0 .., ne_of_eq_of_ne (encR_low2 ..) (by simp),
    fun _ => ⟨rfl, by show Instr.vsllVI (rdField (encR 0b1001011#7 vs2 imm5 0b011#3 vd 0b1010111#7)) (rs2Field (encR 0b1001011#7 vs2 imm5 0b011#3 vd 0b1010111#7)) (rs1Field (encR 0b1001011#7 vs2 imm5 0b011#3 vd 0b1010111#7)) = _; simp only [rdField_encR, rs2Field_encR, rs1Field_encR]⟩⟩
theorem vsrlVV (vd vs2 vs1 : VReg) : Statement (.vsrlVV vd vs2 vs1) :=
  ⟨_, row (k := 160) rfl, accepts_of ((encR_and_0xfe00707f ..).trans rfl), encR_low0 .., ne_of_eq_of_ne (encR_low2 ..) (by simp),
    fun _ => ⟨rfl, by show Instr.vsrlVV (rdField (encR 0b1010001#7 vs2 vs1 0b000#3 vd 0b1010111#7)) (rs2Field (encR 0b1010001#7 vs2 vs1 0b000#3 vd 0b1010111#7)) (rs1Field (encR 0b1010001#7 vs2 vs1 0b000#3 vd 0b1010111#7)) = _; simp only [rdField_encR, rs2Field_encR, rs1Field_encR]⟩⟩
theorem vsrlVX (vd vs2 : VReg) (rs1 : XReg) : Statement (.vsrlVX vd vs2 rs1) :=
  ⟨_, row (k := 161) rfl, accepts_of ((encR_and_0xfe00707f ..).trans rfl), encR_low0 .., ne_of_eq_of_ne (encR_low2 ..) (by simp),
    fun _ => ⟨rfl, by show Instr.vsrlVX (rdField (encR 0b1010001#7 vs2 rs1 0b100#3 vd 0b1010111#7)) (rs2Field (encR 0b1010001#7 vs2 rs1 0b100#3 vd 0b1010111#7)) (rs1Field (encR 0b1010001#7 vs2 rs1 0b100#3 vd 0b1010111#7)) = _; simp only [rdField_encR, rs2Field_encR, rs1Field_encR]⟩⟩
theorem vsrlVI (vd vs2 : VReg) (imm5 : BitVec 5) : Statement (.vsrlVI vd vs2 imm5) :=
  ⟨_, row (k := 162) rfl, accepts_of ((encR_and_0xfe00707f ..).trans rfl), encR_low0 .., ne_of_eq_of_ne (encR_low2 ..) (by simp),
    fun _ => ⟨rfl, by show Instr.vsrlVI (rdField (encR 0b1010001#7 vs2 imm5 0b011#3 vd 0b1010111#7)) (rs2Field (encR 0b1010001#7 vs2 imm5 0b011#3 vd 0b1010111#7)) (rs1Field (encR 0b1010001#7 vs2 imm5 0b011#3 vd 0b1010111#7)) = _; simp only [rdField_encR, rs2Field_encR, rs1Field_encR]⟩⟩
theorem vmulVV (vd vs2 vs1 : VReg) : Statement (.vmulVV vd vs2 vs1) :=
  ⟨_, row (k := 163) rfl, accepts_of ((encR_and_0xfe00707f ..).trans rfl), encR_low0 .., ne_of_eq_of_ne (encR_low2 ..) (by simp),
    fun _ => ⟨rfl, by show Instr.vmulVV (rdField (encR 0b1001011#7 vs2 vs1 0b010#3 vd 0b1010111#7)) (rs2Field (encR 0b1001011#7 vs2 vs1 0b010#3 vd 0b1010111#7)) (rs1Field (encR 0b1001011#7 vs2 vs1 0b010#3 vd 0b1010111#7)) = _; simp only [rdField_encR, rs2Field_encR, rs1Field_encR]⟩⟩
theorem vmulVX (vd vs2 : VReg) (rs1 : XReg) : Statement (.vmulVX vd vs2 rs1) :=
  ⟨_, row (k := 164) rfl, accepts_of ((encR_and_0xfe00707f ..).trans rfl), encR_low0 .., ne_of_eq_of_ne (encR_low2 ..) (by simp),
    fun _ => ⟨rfl, by show Instr.vmulVX (rdField (encR 0b1001011#7 vs2 rs1 0b110#3 vd 0b1010111#7)) (rs2Field (encR 0b1001011#7 vs2 rs1 0b110#3 vd 0b1010111#7)) (rs1Field (encR 0b1001011#7 vs2 rs1 0b110#3 vd 0b1010111#7)) = _; simp only [rdField_encR, rs2Field_encR, rs1Field_encR]⟩⟩
theorem vredsumVS (vd vs2 vs1 : VReg) : Statement (.vredsumVS vd vs2 vs1) :=
  ⟨_, row (k := 165) rfl, accepts_of ((encR_and_0xfe00707f ..).trans rfl), encR_low0 .., ne_of_eq_of_ne (encR_low2 ..) (by simp),
    fun _ => ⟨rfl, by show Instr.vredsumVS (rdField (encR 0b0000001#7 vs2 vs1 0b010#3 vd 0b1010111#7)) (rs2Field (encR 0b0000001#7 vs2 vs1 0b010#3 vd 0b1010111#7)) (rs1Field (encR 0b0000001#7 vs2 vs1 0b010#3 vd 0b1010111#7)) = _; simp only [rdField_encR, rs2Field_encR, rs1Field_encR]⟩⟩
theorem vwredsumuVS (vd vs2 vs1 : VReg) : Statement (.vwredsumuVS vd vs2 vs1) :=
  ⟨_, row (k := 166) rfl, accepts_of ((encR_and_0xfe00707f ..).trans rfl), encR_low0 .., ne_of_eq_of_ne (encR_low2 ..) (by simp),
    fun _ => ⟨rfl, by show Instr.vwredsumuVS (rdField (encR 0b1100001#7 vs2 vs1 0b000#3 vd 0b1010111#7)) (rs2Field (encR 0b1100001#7 vs2 vs1 0b000#3 vd 0b1010111#7)) (rs1Field (encR 0b1100001#7 vs2 vs1 0b000#3 vd 0b1010111#7)) = _; simp only [rdField_encR, rs2Field_encR, rs1Field_encR]⟩⟩
theorem vmvXS (rd : XReg) (vs2 : VReg) : Statement (.vmvXS rd vs2) :=
  ⟨_, row (k := 167) rfl, accepts_of ((encR_and_0xfe0ff07f ..).trans rfl), encR_low0 .., ne_of_eq_of_ne (encR_low2 ..) (by simp),
    fun _ => ⟨rfl, by show Instr.vmvXS (rdField (encR 0b0100001#7 vs2 0b00000#5 0b010#3 rd 0b1010111#7)) (rs2Field (encR 0b0100001#7 vs2 0b00000#5 0b010#3 rd 0b1010111#7)) = _; simp only [rdField_encR, rs2Field_encR]⟩⟩
theorem vmvSX (vd : VReg) (rs1 : XReg) : Statement (.vmvSX vd rs1) :=
  ⟨_, row (k := 168) rfl, accepts_of ((encR_and_0xfff0707f ..).trans rfl), encR_low0 .., ne_of_eq_of_ne (encR_low2 ..) (by simp),
    fun _ => ⟨rfl, by show Instr.vmvSX (rdField (encR 0b0100001#7 0b00000#5 rs1 0b110#3 vd 0b1010111#7)) (rs1Field (encR 0b0100001#7 0b00000#5 rs1 0b110#3 vd 0b1010111#7)) = _; simp only [rdField_encR, rs1Field_encR]⟩⟩

end Sys2Proof.Laws.EncodedWord
end

