-- ==== Sys2Proof/Tests/Slice0.lean ====
section
/-! SUPPORT. The model's own tests: ill-formed terms, words of the spec's encodings, single steps from the vectors of
95_test_vectors.md, and for every statement with hypotheses a concrete state and operands that meet them. -/

namespace Sys2Proof.Tests

open Sys2Proof Sys2Proof.Machine

set_option Elab.async false

/-! ## WellFormed refuses an ill-formed term of each kind (30_encoding.md R53, R55) -/

theorem test_wf_branch_offset_odd : wellFormed (.beq 1 2 0x001) = false ∧ wellFormed (.bgeu 1 2 0x1FFF) = false := by decide

theorem test_wf_branch_offset_even : wellFormed (.beq 1 2 0x1FFE) = true := by decide

theorem test_wf_jump_offset_odd : wellFormed (.jal 1 0x1FFFFF) = false := by decide

theorem test_wf_jump_offset_even : wellFormed (.jal 1 0x1FFFFE) = true := by decide

theorem test_wf_reserved_rm : wellFormed (.faddS 1 2 3 5) = false ∧ wellFormed (.fcvtWD 1 2 6) = false ∧
    wellFormed (.fmaddD 1 2 3 4 5) = false ∧ wellFormed (.fsqrtS 1 2 6) = false := by decide

theorem test_wf_accepted_rm : wellFormed (.faddS 1 2 3 7) = true ∧ wellFormed (.fmaddD 1 2 3 4 0) = true := by decide

/-! ## Decoding -/

/-! Words written out field by field from the formats of R51 and R52 and the fixed fields of R58. -/

theorem test_bits_rv32i :
    decode (0b0100000#7 ++ 0b00010#5 ++ 0b00001#5 ++ 0b101#3 ++ 0b11111#5 ++ 0b0110011#7) = .ok (.sra 31 1 2) ∧
    decode (0b111111111111#12 ++ 0b00001#5 ++ 0b100#3 ++ 0b00011#5 ++ 0b0000011#7) = .ok (.lbu 3 1 0xFFF) ∧
    decode (0b1000000#7 ++ 0b00010#5 ++ 0b00001#5 ++ 0b010#3 ++ 0b00001#5 ++ 0b0100011#7) = .ok (.sw 2 1 0x801) ∧
    decode (0b1#1 ++ 0b000001#6 ++ 0b00010#5 ++ 0b00001#5 ++ 0b001#3 ++ 0b0010#4 ++ 0b1#1 ++ 0b1100011#7) =
      .ok (.bne 1 2 0x1824) ∧
    decode (0b10000000000000000001#20 ++ 0b00101#5 ++ 0b0110111#7) = .ok (.lui 5 0x80001) ∧
    decode (0b1#1 ++ 0b0000000001#10 ++ 0b1#1 ++ 0b00000011#8 ++ 0b00001#5 ++ 0b1101111#7) = .ok (.jal 1 0x103802) := by
  decide +kernel

theorem test_bits_other_families :
    decode (0b0000001#7 ++ 0b00010#5 ++ 0b00001#5 ++ 0b110#3 ++ 0b00011#5 ++ 0b0110011#7) = .ok (.rem 3 1 2) ∧
    decode (0b11000#5 ++ 0b1#1 ++ 0b0#1 ++ 0b00010#5 ++ 0b00001#5 ++ 0b010#3 ++ 0b00011#5 ++ 0b0101111#7) =
      .ok (.amominuW 3 2 1 true false) ∧
    decode (0b00100#5 ++ 0b01#2 ++ 0b00011#5 ++ 0b00010#5 ++ 0b000#3 ++ 0b00001#5 ++ 0b1001011#7) = .ok (.fnmsubD 1 2 3 4 0) ∧
    decode (0b110000100010#12 ++ 0b00000#5 ++ 0b010#3 ++ 0b00101#5 ++ 0b1110011#7) = .ok (.csrrs 5 0xC22 0) ∧
    decode (0b0#1 ++ 0b00011010011#11 ++ 0b00110#5 ++ 0b111#3 ++ 0b00101#5 ++ 0b1010111#7) = .ok (.vsetvli 5 6 0x0D3) ∧
    decode (0b0000101#7 ++ 0b00010#5 ++ 0b00001#5 ++ 0b110#3 ++ 0b00011#5 ++ 0b0100111#7) = .ok (.vsse32V 3 1 2) ∧
    decode (0b100101#6 ++ 0b1#1 ++ 0b00010#5 ++ 0b11111#5 ++ 0b011#3 ++ 0b00011#5 ++ 0b1010111#7) = .ok (.vsllVI 3 2 31) := by
  decide +kernel

/-- Reserved rm values, words of other lengths and words of no row are refused by name (R55, R56). -/
theorem test_decode_refuses : decode 0x0020D1D3 = .error .reservedRm ∧ decode 0x0020E1D3 = .error .reservedRm ∧
    decode 0 = .error .notStandardLength ∧ decode 0xFFFFFFFF = .error .notStandardLength ∧ decode 0x30200073 = .error .noRow ∧
    decode 0x020080D7 = .ok (.vaddVV 1 0 1) ∧ decode 0x000080D7 = .error .noRow := by decide +kernel

theorem test_decodeBytes_truncated : decodeBytes [0x13, 0x00, 0x00] = .error .truncated := by decide +kernel

theorem test_decodeTableWord : decodeTableWord 32 0x002081B3 = some (.add 3 1 2) := by decide +kernel

/-! One word for every row of the opcode table, from the assembler text and the word of 95_test_vectors.md. -/

theorem test_decode_the_integer_unit_rv32i_0 :
    decode 0xFFFFF1B7 = .ok (.lui 3 0xFFFFF) ∧
    decode 0x00001197 = .ok (.auipc 3 0x1) ∧
    decode 0xFF9FF0EF = .ok (.jal 1 0x1FFFF8) ∧
    decode 0x003100E7 = .ok (.jalr 1 2 0x3) ∧
    decode 0x02208063 = .ok (.beq 1 2 0x20) ∧
    decode 0xFE2098E3 = .ok (.bne 1 2 0x1FF0) ∧
    decode 0x0020C463 = .ok (.blt 1 2 0x8) ∧
    decode 0x0020D463 = .ok (.bge 1 2 0x8) ∧
    decode 0x0020E463 = .ok (.bltu 1 2 0x8) ∧
    decode 0x0020F463 = .ok (.bgeu 1 2 0x8) ∧
    decode 0x00008183 = .ok (.lb 3 1 0x0) ∧
    decode 0x00009183 = .ok (.lh 3 1 0x0) ∧
    decode 0x0040A183 = .ok (.lw 3 1 0x4) ∧
    decode 0x0000C183 = .ok (.lbu 3 1 0x0) ∧
    decode 0x0020D183 = .ok (.lhu 3 1 0x2) := by
  decide +kernel

theorem test_decode_the_integer_unit_rv32i_1 :
    decode 0x002080A3 = .ok (.sb 2 1 0x1) ∧
    decode 0x00209123 = .ok (.sh 2 1 0x2) ∧
    decode 0x0020A023 = .ok (.sw 2 1 0x0) ∧
    decode 0xFFF08193 = .ok (.addi 3 1 0xFFF) ∧
    decode 0xFFF0A193 = .ok (.slti 3 1 0xFFF) ∧
    decode 0xFFF0B193 = .ok (.sltiu 3 1 0xFFF) ∧
    decode 0xFFF0C193 = .ok (.xori 3 1 0xFFF) ∧
    decode 0x8000E193 = .ok (.ori 3 1 0x800) ∧
    decode 0xFF00F193 = .ok (.andi 3 1 0xFF0) ∧
    decode 0x01F09193 = .ok (.slli 3 1 0x1F) ∧
    decode 0x0040D193 = .ok (.srli 3 1 0x4) ∧
    decode 0x4040D193 = .ok (.srai 3 1 0x4) ∧
    decode 0x002081B3 = .ok (.add 3 1 2) ∧
    decode 0x402081B3 = .ok (.sub 3 1 2) ∧
    decode 0x002091B3 = .ok (.sll 3 1 2) := by
  decide +kernel

theorem test_decode_the_integer_unit_rv32i_2 :
    decode 0x0020A1B3 = .ok (.slt 3 1 2) ∧
    decode 0x0020B1B3 = .ok (.sltu 3 1 2) ∧
    decode 0x0020C1B3 = .ok (.xor 3 1 2) ∧
    decode 0x0020D1B3 = .ok (.srl 3 1 2) ∧
    decode 0x4020D1B3 = .ok (.sra 3 1 2) ∧
    decode 0x0020E1B3 = .ok (.or 3 1 2) ∧
    decode 0x0020F1B3 = .ok (.and 3 1 2) ∧
    decode 0x0FF0000F = .ok (.fence 0 15 15 0 0) ∧
    decode 0x0000100F = .ok (.fenceI 0 0 0) ∧
    decode 0x00000073 = .ok (.ecall) ∧
    decode 0x00100073 = .ok (.ebreak) := by
  decide +kernel

theorem test_decode_the_multiply_divide_unit_0 :
    decode 0x022081B3 = .ok (.mul 3 1 2) ∧
    decode 0x022091B3 = .ok (.mulh 3 1 2) ∧
    decode 0x0220A1B3 = .ok (.mulhsu 3 1 2) ∧
    decode 0x0220B1B3 = .ok (.mulhu 3 1 2) ∧
    decode 0x0220C1B3 = .ok (.div 3 1 2) ∧
    decode 0x0220D1B3 = .ok (.divu 3 1 2) ∧
    decode 0x0220E1B3 = .ok (.rem 3 1 2) ∧
    decode 0x0220F1B3 = .ok (.remu 3 1 2) := by
  decide +kernel

theorem test_decode_the_atomic_unit_0 :
    decode 0x1000A1AF = .ok (.lrW 3 1 false false) ∧
    decode 0x1820A1AF = .ok (.scW 3 2 1 false false) ∧
    decode 0x0820A12F = .ok (.amoswapW 2 2 1 false false) ∧
    decode 0x0020A1AF = .ok (.amoaddW 3 2 1 false false) ∧
    decode 0x2020A1AF = .ok (.amoxorW 3 2 1 false false) ∧
    decode 0x6020A1AF = .ok (.amoandW 3 2 1 false false) ∧
    decode 0x4020A1AF = .ok (.amoorW 3 2 1 false false) ∧
    decode 0x8020A1AF = .ok (.amominW 3 2 1 false false) ∧
    decode 0xA020A1AF = .ok (.amomaxW 3 2 1 false false) ∧
    decode 0xC020A1AF = .ok (.amominuW 3 2 1 false false) ∧
    decode 0xE020A1AF = .ok (.amomaxuW 3 2 1 false false) := by
  decide +kernel

theorem test_decode_the_floating_point_units_0 :
    decode 0x0040A187 = .ok (.flw 3 1 0x4) ∧
    decode 0x0020A027 = .ok (.fsw 2 1 0x0) ∧
    decode 0x1820F243 = .ok (.fmaddS 4 1 2 3 7) ∧
    decode 0x1820F247 = .ok (.fmsubS 4 1 2 3 7) ∧
    decode 0x1820F24B = .ok (.fnmsubS 4 1 2 3 7) ∧
    decode 0x1820F24F = .ok (.fnmaddS 4 1 2 3 7) ∧
    decode 0x0020F1D3 = .ok (.faddS 3 1 2 7) ∧
    decode 0x0820F1D3 = .ok (.fsubS 3 1 2 7) ∧
    decode 0x1020F1D3 = .ok (.fmulS 3 1 2 7) ∧
    decode 0x1820F1D3 = .ok (.fdivS 3 1 2 7) ∧
    decode 0x5800F1D3 = .ok (.fsqrtS 3 1 7) ∧
    decode 0x202081D3 = .ok (.fsgnjS 3 1 2) ∧
    decode 0x201091D3 = .ok (.fsgnjnS 3 1 1) ∧
    decode 0x2020A1D3 = .ok (.fsgnjxS 3 1 2) ∧
    decode 0x282081D3 = .ok (.fminS 3 1 2) := by
  decide +kernel

theorem test_decode_the_floating_point_units_1 :
    decode 0x282091D3 = .ok (.fmaxS 3 1 2) ∧
    decode 0xA020A1D3 = .ok (.feqS 3 1 2) ∧
    decode 0xA02091D3 = .ok (.fltS 3 1 2) ∧
    decode 0xA02081D3 = .ok (.fleS 3 1 2) ∧
    decode 0xC000F1D3 = .ok (.fcvtWS 3 1 7) ∧
    decode 0xC010F1D3 = .ok (.fcvtWUS 3 1 7) ∧
    decode 0xD000F1D3 = .ok (.fcvtSW 3 1 7) ∧
    decode 0xD010F1D3 = .ok (.fcvtSWU 3 1 7) ∧
    decode 0xE00081D3 = .ok (.fmvXW 3 1) ∧
    decode 0xF00081D3 = .ok (.fmvWX 3 1) ∧
    decode 0x0040B187 = .ok (.fld 3 1 0x4) ∧
    decode 0x0020B227 = .ok (.fsd 2 1 0x4) ∧
    decode 0x1A20F243 = .ok (.fmaddD 4 1 2 3 7) ∧
    decode 0x1A20F247 = .ok (.fmsubD 4 1 2 3 7) ∧
    decode 0x1A20F24B = .ok (.fnmsubD 4 1 2 3 7) := by
  decide +kernel

theorem test_decode_the_floating_point_units_2 :
    decode 0x1A20F24F = .ok (.fnmaddD 4 1 2 3 7) ∧
    decode 0x0220F1D3 = .ok (.faddD 3 1 2 7) ∧
    decode 0x0A20F1D3 = .ok (.fsubD 3 1 2 7) ∧
    decode 0x1220F1D3 = .ok (.fmulD 3 1 2 7) ∧
    decode 0x1A20F1D3 = .ok (.fdivD 3 1 2 7) ∧
    decode 0x5A00F1D3 = .ok (.fsqrtD 3 1 7) ∧
    decode 0x222081D3 = .ok (.fsgnjD 3 1 2) ∧
    decode 0x221091D3 = .ok (.fsgnjnD 3 1 1) ∧
    decode 0x2220A1D3 = .ok (.fsgnjxD 3 1 2) ∧
    decode 0x2A2081D3 = .ok (.fminD 3 1 2) ∧
    decode 0x2A2091D3 = .ok (.fmaxD 3 1 2) ∧
    decode 0xA220A1D3 = .ok (.feqD 3 1 2) ∧
    decode 0xA22091D3 = .ok (.fltD 3 1 2) ∧
    decode 0xA22081D3 = .ok (.fleD 3 1 2) ∧
    decode 0xC200F1D3 = .ok (.fcvtWD 3 1 7) := by
  decide +kernel

theorem test_decode_the_floating_point_units_3 :
    decode 0xC210F1D3 = .ok (.fcvtWUD 3 1 7) ∧
    decode 0xD200F1D3 = .ok (.fcvtDW 3 1 7) ∧
    decode 0xD210F1D3 = .ok (.fcvtDWU 3 1 7) ∧
    decode 0x4010F1D3 = .ok (.fcvtSD 3 1 7) ∧
    decode 0x4200F1D3 = .ok (.fcvtDS 3 1 7) := by
  decide +kernel

theorem test_decode_the_csr_unit_0 :
    decode 0x003312F3 = .ok (.csrrw 5 0x3 6) ∧
    decode 0x001022F3 = .ok (.csrrs 5 0x1 0) ∧
    decode 0x003332F3 = .ok (.csrrc 5 0x3 6) := by
  decide +kernel

theorem test_decode_vector_configuration_loads_and_stores_0 :
    decode 0x000072D7 = .ok (.vsetvli 5 0 0x0) ∧
    decode 0x02008087 = .ok (.vle8V 1 1) ∧
    decode 0x0A208087 = .ok (.vlse8V 1 1 2) ∧
    decode 0x020080A7 = .ok (.vse8V 1 1) ∧
    decode 0x0A2080A7 = .ok (.vsse8V 1 1 2) ∧
    decode 0x0200D087 = .ok (.vle16V 1 1) ∧
    decode 0x0A20D087 = .ok (.vlse16V 1 1 2) ∧
    decode 0x0200D0A7 = .ok (.vse16V 1 1) ∧
    decode 0x0A20D0A7 = .ok (.vsse16V 1 1 2) ∧
    decode 0x0200E087 = .ok (.vle32V 1 1) ∧
    decode 0x0A20E087 = .ok (.vlse32V 1 1 2) ∧
    decode 0x0200E0A7 = .ok (.vse32V 1 1) ∧
    decode 0x0A20E0A7 = .ok (.vsse32V 1 1 2) := by
  decide +kernel

theorem test_decode_vector_alu_compares_moves_and_reductions_0 :
    decode 0x022081D7 = .ok (.vaddVV 3 2 1) ∧
    decode 0x0220C1D7 = .ok (.vaddVX 3 2 1) ∧
    decode 0x022FB1D7 = .ok (.vaddVI 3 2 0x1F) ∧
    decode 0x0A2081D7 = .ok (.vsubVV 3 2 1) ∧
    decode 0x0A20C1D7 = .ok (.vsubVX 3 2 1) ∧
    decode 0x122081D7 = .ok (.vminuVV 3 2 1) ∧
    decode 0x1220C1D7 = .ok (.vminuVX 3 2 1) ∧
    decode 0x1A2081D7 = .ok (.vmaxuVV 3 2 1) ∧
    decode 0x1A20C1D7 = .ok (.vmaxuVX 3 2 1) ∧
    decode 0x262081D7 = .ok (.vandVV 3 2 1) ∧
    decode 0x2620C1D7 = .ok (.vandVX 3 2 1) ∧
    decode 0x262F31D7 = .ok (.vandVI 3 2 0x1E) ∧
    decode 0x2A2081D7 = .ok (.vorVV 3 2 1) ∧
    decode 0x2A20C1D7 = .ok (.vorVX 3 2 1) ∧
    decode 0x2A2831D7 = .ok (.vorVI 3 2 0x10) := by
  decide +kernel

theorem test_decode_vector_alu_compares_moves_and_reductions_1 :
    decode 0x2E2081D7 = .ok (.vxorVV 3 2 1) ∧
    decode 0x2E20C1D7 = .ok (.vxorVX 3 2 1) ∧
    decode 0x2E2FB1D7 = .ok (.vxorVI 3 2 0x1F) ∧
    decode 0x622081D7 = .ok (.vmseqVV 3 2 1) ∧
    decode 0x6220C1D7 = .ok (.vmseqVX 3 2 1) ∧
    decode 0x622FB1D7 = .ok (.vmseqVI 3 2 0x1F) ∧
    decode 0x662081D7 = .ok (.vmsneVV 3 2 1) ∧
    decode 0x6620C1D7 = .ok (.vmsneVX 3 2 1) ∧
    decode 0x662031D7 = .ok (.vmsneVI 3 2 0x0) ∧
    decode 0x6E2081D7 = .ok (.vmsltVV 3 2 1) ∧
    decode 0x6E20C1D7 = .ok (.vmsltVX 3 2 1) ∧
    decode 0x762081D7 = .ok (.vmsleVV 3 2 1) ∧
    decode 0x7620C1D7 = .ok (.vmsleVX 3 2 1) ∧
    decode 0x762031D7 = .ok (.vmsleVI 3 2 0x0) ∧
    decode 0x7E20C1D7 = .ok (.vmsgtVX 3 2 1) := by
  decide +kernel

theorem test_decode_vector_alu_compares_moves_and_reductions_2 :
    decode 0x7E2831D7 = .ok (.vmsgtVI 3 2 0x10) ∧
    decode 0x962081D7 = .ok (.vsllVV 3 2 1) ∧
    decode 0x9620C1D7 = .ok (.vsllVX 3 2 1) ∧
    decode 0x962FB1D7 = .ok (.vsllVI 3 2 0x1F) ∧
    decode 0xA22081D7 = .ok (.vsrlVV 3 2 1) ∧
    decode 0xA220C1D7 = .ok (.vsrlVX 3 2 1) ∧
    decode 0xA22231D7 = .ok (.vsrlVI 3 2 0x4) ∧
    decode 0x9620A1D7 = .ok (.vmulVV 3 2 1) ∧
    decode 0x9620E1D7 = .ok (.vmulVX 3 2 1) ∧
    decode 0x0220A1D7 = .ok (.vredsumVS 3 2 1) ∧
    decode 0xC22081D7 = .ok (.vwredsumuVS 3 2 1) ∧
    decode 0x422022D7 = .ok (.vmvXS 5 2) ∧
    decode 0x4202E1D7 = .ok (.vmvSX 3 5) := by
  decide +kernel

/-! ## Single steps from the vectors of 95_test_vectors.md -/

def x (r v : Nat) (s : State) : State := s.setX (BitVec.ofNat 5 r) (BitVec.ofNat 32 v)
def f (r v : Nat) (s : State) : State := s.setF (BitVec.ofNat 5 r) (BitVec.ofNat 64 v)
def elems (w : Nat) : Nat → List Nat → VRegs → VRegs
  | _, [], v => v
  | o, a :: l, v => elems w (o + w) l (v.setBytes o (leBytes w a))
def vreg (r w : Nat) (l : List Nat) (s : State) : State := s.setVr (elems w (16 * r) l s.vr)
def cfg (vt n : Nat) (s : State) : State := { s with vtype := BitVec.ofNat 5 vt, vl := BitVec.ofNat 32 n }
def vstartIs (n : Nat) (s : State) : State := { s with vstart := BitVec.ofNat 32 n }
def pcIs (n : Nat) (s : State) : State := { s with pc := BitVec.ofNat 32 n }
def fcsrIs (n : Nat) (s : State) : State := { s with fcsr8 := BitVec.ofNat 8 n }
def mems (w a : Nat) : List Nat → State → State
  | [], s => s
  | v :: l, s => mems w (a + w) l { s with mem := s.mem.writeBytes a (leBytes w v) }
def dirtyFrom (a n : Nat) (s : State) : State := { s with dirty := dirtyAdd s.dirty a n }
def admitBelow (n : Nat) (s : State) : State :=
  { s with params := { s.params with memAdmits := [⟨0, n, true, true, true⟩] } }

/-- The reset state with a few things set. -/
def start (l : List (State → State)) : State := l.foldl (fun s g => g s) State.reset

/-- One step of the word at pc from a start state, and a check of the state it leaves. -/
def after (w : Nat) (l : List (State → State)) (check : State → Bool) : Bool :=
  let s := start l
  match step { s with mem := s.mem.writeBytes s.pc.toNat (leBytes 4 w) } with
  | .next t => check t
  | .fault _ => false
  | .refused _ => false

/-- withFetchWord makes the next step run the word, whatever the state. -/
theorem test_withFetchWord : (match step (State.reset.withFetchWord 32 0xFFF08193) with
    | .next t => t.readX 3 == 0xFFFFFFFF && t.pc == 0x1004 && t.stop == none
    | _ => false) = true := by decide +kernel

/-- The first step from State.reset with nothing placed ends the run with IllegalInstruction (log 14). -/
theorem test_reset_runs_nothing : (match step State.reset with
    | .next t => t.stop == some (.illegalInstruction 0) && t.pc == 0x1000
    | _ => false) = true := by decide +kernel

/-- TI-03 `sll x3, x1, x2`; TI-05 `sra x3, x1, x2`; TI-16 `slti x3, x1, -1`; TI-20 `ori x3, x1, -2048`; TI-29 `jal x1,
-8`. -/
theorem test_vectors_integer_0 :
    after 0x002091B3 [x 1 0x00000001, x 2 0x00000021] (fun t => t.readX 3 == 0x00000002) = true ∧
    after 0x4020D1B3 [x 1 0x80000000, x 2 0x0000001F] (fun t => t.readX 3 == 0xFFFFFFFF) = true ∧
    after 0xFFF0A193 [x 1 0xFFFFFFFE] (fun t => t.readX 3 == 0x00000001) = true ∧
    after 0x8000E193 [x 1 0x00000001] (fun t => t.readX 3 == 0xFFFFF801) = true ∧
    after 0xFF9FF0EF [] (fun t => t.pc == 0x00000FF8 && t.readX 1 == 0x00001004) = true := by
  decide +kernel

/-- TI-32 `jalr x2, 0(x2)`; TI-37 `blt x1, x2, 8`; TI-42 `lb x3, 0(x1)`; TI-45 `lh x3, 2(x1)`; TI-54 `sh x2, 2(x1)`. -/
theorem test_vectors_integer_1 :
    after 0x00010167 [x 2 0x00003000] (fun t => t.pc == 0x00003000 && t.readX 2 == 0x00001004) = true ∧
    after 0x0020C463 [x 1 0xFFFFFFFF, x 2 0x00000001] (fun t => t.pc == 0x00001008) = true ∧
    after 0x00008183 [x 1 0x00000200, mems 1 0x00000200 [0x80, 0x01, 0x80, 0xFF, 0x78, 0x56, 0x34, 0x12]] (fun t => t.readX 3 == 0xFFFFFF80) = true ∧
    after 0x00209183 [x 1 0x00000200, mems 1 0x00000200 [0x80, 0x01, 0x80, 0xFF, 0x78, 0x56, 0x34, 0x12]] (fun t => t.readX 3 == 0xFFFFFF80) = true ∧
    after 0x00209123 [x 1 0x00000200, x 2 0x12345678, mems 4 0x00000200 [0x00000000]] (fun t => leNat (t.mem.readBytes 0x00000200 4) == 0x56780000) = true := by
  decide +kernel

/-- TI-49 `lw x3, 2(x1)`; TI-58 `fence.i`; TI-59 `ecall`. -/
theorem test_vectors_integer_2 :
    after 0x0020A183 [x 1 0x00000200, mems 1 0x00000200 [0x80, 0x01, 0x80, 0xFF, 0x78, 0x56, 0x34, 0x12]] (fun t => t.stop == some (.misalignedAccess 0x00000202) && t.pc == 0x00001000) = true ∧
    after 0x0000100F [dirtyFrom 0x00000200 2] (fun t => t.dirty == []) = true ∧
    after 0x00000073 [x 10 0x00000001] (fun t => t.stop == some .ecall) = true := by
  decide +kernel

/-- TM-05 `mulh x3, x1, x2`; TM-09 `div x3, x1, x2`; TM-12 `rem x3, x1, x2`; TM-15 `div x3, x1, x2`. -/
theorem test_vectors_multiply_divide_0 :
    after 0x022091B3 [x 1 0x80000000, x 2 0x00000001] (fun t => t.readX 3 == 0xFFFFFFFF) = true ∧
    after 0x0220C1B3 [x 1 0xFFFFFFF9, x 2 0x00000002] (fun t => t.readX 3 == 0xFFFFFFFD) = true ∧
    after 0x0220E1B3 [x 1 0x00000007, x 2 0xFFFFFFFE] (fun t => t.readX 3 == 0x00000001) = true ∧
    after 0x0220C1B3 [x 1 0x80000000, x 2 0xFFFFFFFF] (fun t => t.readX 3 == 0x80000000) = true := by
  decide +kernel

/-- TA-01 `lr.w x3, (x1)`; TA-02 `sc.w x3, x2, (x1)`; TA-04 `amoadd.w x3, x2, (x1)`; TA-10 `amominu.w x3, x2, (x1)`. -/
theorem test_vectors_atomic_0 :
    after 0x1000A1AF [x 1 0x00000200, mems 4 0x00000200 [0x80000000]] (fun t => t.readX 3 == 0x80000000) = true ∧
    after 0x1820A1AF [x 1 0x00000200, x 2 0x00000007, mems 4 0x00000200 [0x80000000]] (fun t => t.readX 3 == 0x00000000 && leNat (t.mem.readBytes 0x00000200 4) == 0x00000007) = true ∧
    after 0x0020A1AF [x 1 0x00000200, x 2 0x80000000, mems 4 0x00000200 [0x80000000]] (fun t => t.readX 3 == 0x80000000 && leNat (t.mem.readBytes 0x00000200 4) == 0x00000000) = true ∧
    after 0xC020A1AF [x 1 0x00000200, x 2 0x00000001, mems 4 0x00000200 [0x80000000]] (fun t => t.readX 3 == 0x80000000 && leNat (t.mem.readBytes 0x00000200 4) == 0x00000001) = true := by
  decide +kernel

/-- TF-02 `fadd.s f3, f1, f2`; TF-04 `fadd.s f3, f1, f2`; TF-10 `fmul.s f3, f1, f2`; TF-25 `fnmadd.s f4, f1, f2, f3`;
TF-30 `fsgnj.s f3, f1, f2`. -/
theorem test_vectors_single_0 :
    after 0x0020F1D3 [f 1 0xFFFFFFFF3DCCCCCD, f 2 0xFFFFFFFF3E4CCCCD] (fun t => t.readF 3 == 0xFFFFFFFF3E99999A) = true ∧
    after 0x0020F1D3 [f 1 0x000000003F800000, f 2 0xFFFFFFFF40000000] (fun t => t.readF 3 == 0xFFFFFFFF7FC00000) = true ∧
    after 0x1020F1D3 [f 1 0xFFFFFFFF7F800000, f 2 0xFFFFFFFF00000000] (fun t => t.readF 3 == 0xFFFFFFFF7FC00000) = true ∧
    after 0x1820F24F [f 1 0xFFFFFFFF40000000, f 2 0xFFFFFFFF40400000, f 3 0xFFFFFFFF3F800000] (fun t => t.readF 4 == 0xFFFFFFFFC0E00000) = true ∧
    after 0x202081D3 [f 1 0xFFFFFFFF7F800001, f 2 0xFFFFFFFFBF800000] (fun t => t.readF 3 == 0xFFFFFFFFFF800001) = true := by
  decide +kernel

/-- TF-40 `flt.s x3, f1, f2`; TF-50 `fcvt.w.s x3, f1`; TF-60 `fcvt.s.wu f3, x1`. -/
theorem test_vectors_single_1 :
    after 0xA02091D3 [f 1 0xFFFFFFFF3F800000, f 2 0xFFFFFFFF40000000] (fun t => t.readX 3 == 0x00000001) = true ∧
    after 0xC000F1D3 [f 1 0xFFFFFFFF7FC00001] (fun t => t.readX 3 == 0x7FFFFFFF) = true ∧
    after 0xD010F1D3 [x 1 0xFFFFFFFF] (fun t => t.readF 3 == 0xFFFFFFFF4F800000) = true := by
  decide +kernel

/-- TD-01 `fadd.d f3, f1, f2`; TD-05 `fsqrt.d f3, f1`; TD-20 `fcvt.d.wu f3, x1`; TD-30 `fsgnj.d f3, f1, f2`. -/
theorem test_vectors_double_0 :
    after 0x0220F1D3 [f 1 0x3FB999999999999A, f 2 0x3FC999999999999A] (fun t => t.readF 3 == 0x3FD3333333333334) = true ∧
    after 0x5A00F1D3 [f 1 0x4000000000000000] (fun t => t.readF 3 == 0x3FF6A09E667F3BCD) = true ∧
    after 0xD210F1D3 [x 1 0xFFFFFFFF] (fun t => t.readF 3 == 0x41EFFFFFFFE00000) = true ∧
    after 0x222081D3 [f 1 0x7FF8000000000001, f 2 0xBFF0000000000000] (fun t => t.readF 3 == 0xFFF8000000000001) = true := by
  decide +kernel

/-- TC-01 `csrrw x5, fcsr, x6`; TC-04 `csrrw x0, frm, x6`; TC-10 `csrrs x5, vtype, x0`; TC-12 `csrrw x0, vl, x6`. -/
theorem test_vectors_csr_0 :
    after 0x003312F3 [x 6 0x000001FF, fcsrIs 0x21] (fun t => t.readX 5 == 0x00000021 && t.fcsr8 == 0xFF) = true ∧
    after 0x00231073 [x 6 0x00000003, fcsrIs 0x01] (fun t => t.readX 0 == 0x00000000 && t.fcsr8 == 0x61) = true ∧
    after 0xC21022F3 [cfg 0x12 0] (fun t => t.readX 5 == 0x00000012) = true ∧
    after 0xC2031073 [x 6 0x00000001] (fun t => t.stop == some (.illegalInstruction 0xC2031073) && t.pc == 0x00001000) = true := by
  decide +kernel

/-- TVC-04 `vsetvli x5, x0, e32, m8`; TVC-11 `vsetvli x5, x0, e64, m1`. -/
theorem test_vectors_vector_configuration_0 :
    after 0x013072D7 [] (fun t => t.readX 5 == 0x00000020 && t.vtype == 0x13 && t.vl == 32) = true ∧
    after 0x018072D7 [] (fun t => t.stop == some (.vConfigUnsupported 0x00000018) && t.pc == 0x00001000) = true := by
  decide +kernel

/-- TVM-02 `vle32.v v1, (x1)`; TVM-07 `vlse32.v v1, (x1), x2`; TVM-10 `vsse16.v v1, (x1), x2`; TVM-12 `vle16.v v1, (x1)`;
TVM-14 `vle32.v v1, (x1)`. -/
theorem test_vectors_vector_memory_0 :
    after 0x0200E087 [x 1 0x00000300, cfg 0x10 2, vreg 1 4 [0x00000009, 0x00000009, 0x00000009, 0x00000009], mems 4 0x00000300 [0x00000001, 0x00000002, 0x00000003, 0x00000004, 0x00000005, 0x00000006, 0x00000007, 0x00000008]] (fun t => (t.vr.elem 1 0 4).toNat == 0x00000001 && (t.vr.elem 1 1 4).toNat == 0x00000002 && (t.vr.elem 1 2 4).toNat == 0x00000009 && (t.vr.elem 1 3 4).toNat == 0x00000009) = true ∧
    after 0x0A20E087 [x 1 0x0000031C, x 2 0xFFFFFFFC, cfg 0x10 4, mems 4 0x00000300 [0x00000001, 0x00000002, 0x00000003, 0x00000004, 0x00000005, 0x00000006, 0x00000007, 0x00000008]] (fun t => (t.vr.elem 1 0 4).toNat == 0x00000008 && (t.vr.elem 1 1 4).toNat == 0x00000007 && (t.vr.elem 1 2 4).toNat == 0x00000006 && (t.vr.elem 1 3 4).toNat == 0x00000005) = true ∧
    after 0x0A20D0A7 [x 1 0x00000400, x 2 0x00000004, cfg 0x08 2, vreg 1 2 [0x1111, 0x2222]] (fun t => leNat (t.mem.readBytes 0x00000400 4) == 0x00001111 && leNat (t.mem.readBytes 0x00000404 4) == 0x00002222) = true ∧
    after 0x0200D087 [x 1 0x00000300, cfg 0x10 4, mems 4 0x00000300 [0x00000001, 0x00000002, 0x00000003, 0x00000004, 0x00000005, 0x00000006, 0x00000007, 0x00000008]] (fun t => t.stop == some (.vEewMismatch 0x00000002) && t.pc == 0x00001000) = true ∧
    after 0x0200E087 [x 1 0x00000300, cfg 0x10 4, vstartIs 1, mems 4 0x00000300 [0x00000001, 0x00000002, 0x00000003, 0x00000004, 0x00000005, 0x00000006, 0x00000007, 0x00000008]] (fun t => t.stop == some (.vStartNonZero 0x00000001) && t.pc == 0x00001000) = true := by
  decide +kernel

/-- TVM-15 `vle32.v v30, (x1)`; TVM-16 `vle32.v v1, (x1)`. -/
theorem test_vectors_vector_memory_1 :
    after 0x0200EF07 [x 1 0x00000300, cfg 0x12 16, mems 4 0x00000300 [0x00000001, 0x00000002, 0x00000003, 0x00000004, 0x00000005, 0x00000006, 0x00000007, 0x00000008]] (fun t => t.stop == some (.vRegOutOfRange 0x0000001E) && t.pc == 0x00001000) = true ∧
    after 0x0200E087 [x 1 0x0000FFF8, cfg 0x10 4, vreg 1 4 [0x00000009, 0x00000009, 0x00000009, 0x00000009], mems 4 0x0000FFF8 [0x00000011, 0x00000022], admitBelow 0x10000] (fun t => t.stop == some (.accessFault 0x00010000) && t.pc == 0x00001000 && (t.vr.elem 1 0 4).toNat == 0x00000011 && (t.vr.elem 1 1 4).toNat == 0x00000022 && (t.vr.elem 1 2 4).toNat == 0x00000009 && (t.vr.elem 1 3 4).toNat == 0x00000009) = true := by
  decide +kernel

/-- TVA-01 `vadd.vv v3, v2, v1`; TVA-03 `vadd.vi v3, v2, -1`; TVA-20 `vmslt.vx v3, v2, x1`; TVA-30 `vredsum.vs v2, v2,
v2`; TVA-40 `vand.vx v3, v2, x1`. -/
theorem test_vectors_vector_alu_0 :
    after 0x022081D7 [cfg 0x00 4, vreg 1 1 [0x01, 0x80, 0x7F, 0x10], vreg 2 1 [0xFF, 0x80, 0x01, 0x20]] (fun t => (t.vr.elem 3 0 1).toNat == 0x00 && (t.vr.elem 3 1 1).toNat == 0x00 && (t.vr.elem 3 2 1).toNat == 0x80 && (t.vr.elem 3 3 1).toNat == 0x30) = true ∧
    after 0x022FB1D7 [cfg 0x08 3, vreg 2 2 [0x0000, 0x0005, 0xFFFF]] (fun t => (t.vr.elem 3 0 2).toNat == 0xFFFF && (t.vr.elem 3 1 2).toNat == 0x0004 && (t.vr.elem 3 2 2).toNat == 0xFFFE && (t.vr.elem 3 3 2).toNat == 0x0000) = true ∧
    after 0x6E20C1D7 [x 1 0x00000001, cfg 0x00 2, vreg 2 1 [0xFF, 0x01]] (fun t => (t.vr.elem 3 0 1).toNat == 0x01 && (t.vr.elem 3 1 1).toNat == 0x00 && (t.vr.elem 3 2 1).toNat == 0x00 && (t.vr.elem 3 3 1).toNat == 0x00) = true ∧
    after 0x02212157 [cfg 0x10 2, vreg 2 4 [0x00000005, 0x00000006, 0x00000007, 0x00000008]] (fun t => (t.vr.elem 2 0 4).toNat == 0x00000010 && (t.vr.elem 2 1 4).toNat == 0x00000006 && (t.vr.elem 2 2 4).toNat == 0x00000007 && (t.vr.elem 2 3 4).toNat == 0x00000008) = true ∧
    after 0x2620C1D7 [x 1 0xFFFFFF0F, cfg 0x00 2, vreg 2 1 [0xFF, 0x3C]] (fun t => (t.vr.elem 3 0 1).toNat == 0x0F && (t.vr.elem 3 1 1).toNat == 0x0C && (t.vr.elem 3 2 1).toNat == 0x00 && (t.vr.elem 3 3 1).toNat == 0x00) = true := by
  decide +kernel

/-- TVA-45 `vmseq.vv v3, v2, v1`. -/
theorem test_vectors_vector_alu_1 :
    after 0x622081D7 [cfg 0x00 3, vreg 1 1 [0x01, 0x02, 0x03], vreg 2 1 [0x01, 0x00, 0x03]] (fun t => (t.vr.elem 3 0 1).toNat == 0x01 && (t.vr.elem 3 1 1).toNat == 0x00 && (t.vr.elem 3 2 1).toNat == 0x01 && (t.vr.elem 3 3 1).toNat == 0x00) = true := by
  decide +kernel

/-- TX-01 `illegal (all zeros)`; TX-12 `addi x0, x0, 0`; TX-13 `addi x0, x0, 0`; TX-17 `fld f3, 0(x1)`. -/
theorem test_vectors_events_0 :
    after 0x00000000 [] (fun t => t.stop == some (.illegalInstruction 0x00000000) && t.pc == 0x00001000) = true ∧
    after 0x00000013 [pcIs 0x00001002] (fun t => t.stop == some (.misalignedFetch 0x00001002) && t.pc == 0x00001002) = true ∧
    after 0x00000013 [dirtyFrom 0x00001003 1] (fun t => t.stop == some (.staleFetch 0x00001000) && t.pc == 0x00001000) = true ∧
    after 0x0000B187 [x 1 0x0000FFFC, admitBelow 0x10000] (fun t => t.stop == some (.accessFault 0x00010000) && t.pc == 0x00001000) = true := by
  decide +kernel

/-! ## Witnesses: for every statement with hypotheses, a state and operands that meet them, clause by clause -/

/-- A state whose next instruction is the word. -/
def loadedWith (w : Nat) (l : List (State → State)) : State :=
  let s := start l
  { s with mem := s.mem.writeBytes s.pc.toNat (leBytes 4 w) }

theorem witness_EncodedInstructionsDecodeBack : wellFormed (.beq 1 2 0x1FFE) = true ∧ wellFormed (.jal 1 0x100000) = true ∧
    wellFormed (.fmaddD 1 2 3 4 7) = true ∧ wellFormed (.vsllVI 1 2 0x1F) = true := by decide

theorem witness_DecodedWordsReencode : decode 0xFE2098E3 = .ok (.bne 1 2 0x1FF0) := by decide +kernel

theorem witness_StepRunsTheDecodedInstruction :
    let s := loadedWith 0x002081B3 [x 1 5, x 2 7, dirtyFrom 0x2000 4]
    s.stop = none ∧ s.hostStop = false ∧ s.pc.toNat % 4 = 0 ∧ (∀ k ∈ s.dirty, k < s.pc.toNat ∨ s.pc.toNat + 4 ≤ k) ∧
    s.params.admits s.pc.toNat 4 = true ∧ decode (s.wordAt s.pc) = .ok (.add 3 1 2) ∧
    exec (.add 3 1 2) { s with pc := s.pc + 4 } = .next (({ s with pc := s.pc + 4 } : State).setX 3 12) :=
  ⟨by decide +kernel, by decide +kernel, by decide +kernel, by decide +kernel, by decide +kernel, by decide +kernel,
    congrArg (fun v => Host.Outcome.next (State.setX _ 3 v)) (by decide +kernel)⟩

theorem witness_FetchEventsStopTheRun :
    let s := start [pcIs 0x1002]
    let u := start [dirtyFrom 0x1003 1]
    let v := start [admitBelow 0x1003, dirtyFrom 0x1004 1]
    (s.stop = none ∧ s.hostStop = false ∧ s.pc.toNat % 4 ≠ 0) ∧
    (u.stop = none ∧ u.hostStop = false ∧ u.pc.toNat % 4 = 0 ∧ ∃ k ∈ u.dirty, u.pc.toNat ≤ k ∧ k < u.pc.toNat + 4) ∧
    (v.stop = none ∧ v.hostStop = false ∧ v.pc.toNat % 4 = 0 ∧ (∀ k ∈ v.dirty, k < v.pc.toNat ∨ v.pc.toNat + 4 ≤ k) ∧
      v.params.admits v.pc.toNat 4 = false) := by decide +kernel

theorem low_of_statement {i : Instr} (h : Laws.EncodedWord.Statement i) : (encode i).extractLsb' 0 2 = 3#2 := by
  obtain ⟨_, _, _, h, _⟩ := h
  exact h

/-- The low two bits of every encoding are 11. -/
theorem encode_low (i : Instr) : (encode i).extractLsb' 0 2 = 3#2 := by
  cases i with
  | lui => exact low_of_statement (Laws.EncodedWord.lui ..)
  | auipc => exact low_of_statement (Laws.EncodedWord.auipc ..)
  | jal => exact low_of_statement (Laws.EncodedWord.jal ..)
  | jalr => exact low_of_statement (Laws.EncodedWord.jalr ..)
  | beq => exact low_of_statement (Laws.EncodedWord.beq ..)
  | bne => exact low_of_statement (Laws.EncodedWord.bne ..)
  | blt => exact low_of_statement (Laws.EncodedWord.blt ..)
  | bge => exact low_of_statement (Laws.EncodedWord.bge ..)
  | bltu => exact low_of_statement (Laws.EncodedWord.bltu ..)
  | bgeu => exact low_of_statement (Laws.EncodedWord.bgeu ..)
  | lb => exact low_of_statement (Laws.EncodedWord.lb ..)
  | lh => exact low_of_statement (Laws.EncodedWord.lh ..)
  | lw => exact low_of_statement (Laws.EncodedWord.lw ..)
  | lbu => exact low_of_statement (Laws.EncodedWord.lbu ..)
  | lhu => exact low_of_statement (Laws.EncodedWord.lhu ..)
  | sb => exact low_of_statement (Laws.EncodedWord.sb ..)
  | sh => exact low_of_statement (Laws.EncodedWord.sh ..)
  | sw => exact low_of_statement (Laws.EncodedWord.sw ..)
  | addi => exact low_of_statement (Laws.EncodedWord.addi ..)
  | slti => exact low_of_statement (Laws.EncodedWord.slti ..)
  | sltiu => exact low_of_statement (Laws.EncodedWord.sltiu ..)
  | xori => exact low_of_statement (Laws.EncodedWord.xori ..)
  | ori => exact low_of_statement (Laws.EncodedWord.ori ..)
  | andi => exact low_of_statement (Laws.EncodedWord.andi ..)
  | slli => exact low_of_statement (Laws.EncodedWord.slli ..)
  | srli => exact low_of_statement (Laws.EncodedWord.srli ..)
  | srai => exact low_of_statement (Laws.EncodedWord.srai ..)
  | add => exact low_of_statement (Laws.EncodedWord.add ..)
  | sub => exact low_of_statement (Laws.EncodedWord.sub ..)
  | sll => exact low_of_statement (Laws.EncodedWord.sll ..)
  | slt => exact low_of_statement (Laws.EncodedWord.slt ..)
  | sltu => exact low_of_statement (Laws.EncodedWord.sltu ..)
  | xor => exact low_of_statement (Laws.EncodedWord.xor ..)
  | srl => exact low_of_statement (Laws.EncodedWord.srl ..)
  | sra => exact low_of_statement (Laws.EncodedWord.sra ..)
  | or => exact low_of_statement (Laws.EncodedWord.or ..)
  | and => exact low_of_statement (Laws.EncodedWord.and ..)
  | fence => exact low_of_statement (Laws.EncodedWord.fence ..)
  | fenceI => exact low_of_statement (Laws.EncodedWord.fenceI ..)
  | ecall => exact low_of_statement (Laws.EncodedWord.ecall)
  | ebreak => exact low_of_statement (Laws.EncodedWord.ebreak)
  | mul => exact low_of_statement (Laws.EncodedWord.mul ..)
  | mulh => exact low_of_statement (Laws.EncodedWord.mulh ..)
  | mulhsu => exact low_of_statement (Laws.EncodedWord.mulhsu ..)
  | mulhu => exact low_of_statement (Laws.EncodedWord.mulhu ..)
  | div => exact low_of_statement (Laws.EncodedWord.div ..)
  | divu => exact low_of_statement (Laws.EncodedWord.divu ..)
  | rem => exact low_of_statement (Laws.EncodedWord.rem ..)
  | remu => exact low_of_statement (Laws.EncodedWord.remu ..)
  | lrW => exact low_of_statement (Laws.EncodedWord.lrW ..)
  | scW => exact low_of_statement (Laws.EncodedWord.scW ..)
  | amoswapW => exact low_of_statement (Laws.EncodedWord.amoswapW ..)
  | amoaddW => exact low_of_statement (Laws.EncodedWord.amoaddW ..)
  | amoxorW => exact low_of_statement (Laws.EncodedWord.amoxorW ..)
  | amoandW => exact low_of_statement (Laws.EncodedWord.amoandW ..)
  | amoorW => exact low_of_statement (Laws.EncodedWord.amoorW ..)
  | amominW => exact low_of_statement (Laws.EncodedWord.amominW ..)
  | amomaxW => exact low_of_statement (Laws.EncodedWord.amomaxW ..)
  | amominuW => exact low_of_statement (Laws.EncodedWord.amominuW ..)
  | amomaxuW => exact low_of_statement (Laws.EncodedWord.amomaxuW ..)
  | flw => exact low_of_statement (Laws.EncodedWord.flw ..)
  | fsw => exact low_of_statement (Laws.EncodedWord.fsw ..)
  | fmaddS => exact low_of_statement (Laws.EncodedWord.fmaddS ..)
  | fmsubS => exact low_of_statement (Laws.EncodedWord.fmsubS ..)
  | fnmsubS => exact low_of_statement (Laws.EncodedWord.fnmsubS ..)
  | fnmaddS => exact low_of_statement (Laws.EncodedWord.fnmaddS ..)
  | faddS => exact low_of_statement (Laws.EncodedWord.faddS ..)
  | fsubS => exact low_of_statement (Laws.EncodedWord.fsubS ..)
  | fmulS => exact low_of_statement (Laws.EncodedWord.fmulS ..)
  | fdivS => exact low_of_statement (Laws.EncodedWord.fdivS ..)
  | fsqrtS => exact low_of_statement (Laws.EncodedWord.fsqrtS ..)
  | fsgnjS => exact low_of_statement (Laws.EncodedWord.fsgnjS ..)
  | fsgnjnS => exact low_of_statement (Laws.EncodedWord.fsgnjnS ..)
  | fsgnjxS => exact low_of_statement (Laws.EncodedWord.fsgnjxS ..)
  | fminS => exact low_of_statement (Laws.EncodedWord.fminS ..)
  | fmaxS => exact low_of_statement (Laws.EncodedWord.fmaxS ..)
  | feqS => exact low_of_statement (Laws.EncodedWord.feqS ..)
  | fltS => exact low_of_statement (Laws.EncodedWord.fltS ..)
  | fleS => exact low_of_statement (Laws.EncodedWord.fleS ..)
  | fcvtWS => exact low_of_statement (Laws.EncodedWord.fcvtWS ..)
  | fcvtWUS => exact low_of_statement (Laws.EncodedWord.fcvtWUS ..)
  | fcvtSW => exact low_of_statement (Laws.EncodedWord.fcvtSW ..)
  | fcvtSWU => exact low_of_statement (Laws.EncodedWord.fcvtSWU ..)
  | fmvXW => exact low_of_statement (Laws.EncodedWord.fmvXW ..)
  | fmvWX => exact low_of_statement (Laws.EncodedWord.fmvWX ..)
  | fld => exact low_of_statement (Laws.EncodedWord.fld ..)
  | fsd => exact low_of_statement (Laws.EncodedWord.fsd ..)
  | fmaddD => exact low_of_statement (Laws.EncodedWord.fmaddD ..)
  | fmsubD => exact low_of_statement (Laws.EncodedWord.fmsubD ..)
  | fnmsubD => exact low_of_statement (Laws.EncodedWord.fnmsubD ..)
  | fnmaddD => exact low_of_statement (Laws.EncodedWord.fnmaddD ..)
  | faddD => exact low_of_statement (Laws.EncodedWord.faddD ..)
  | fsubD => exact low_of_statement (Laws.EncodedWord.fsubD ..)
  | fmulD => exact low_of_statement (Laws.EncodedWord.fmulD ..)
  | fdivD => exact low_of_statement (Laws.EncodedWord.fdivD ..)
  | fsqrtD => exact low_of_statement (Laws.EncodedWord.fsqrtD ..)
  | fsgnjD => exact low_of_statement (Laws.EncodedWord.fsgnjD ..)
  | fsgnjnD => exact low_of_statement (Laws.EncodedWord.fsgnjnD ..)
  | fsgnjxD => exact low_of_statement (Laws.EncodedWord.fsgnjxD ..)
  | fminD => exact low_of_statement (Laws.EncodedWord.fminD ..)
  | fmaxD => exact low_of_statement (Laws.EncodedWord.fmaxD ..)
  | feqD => exact low_of_statement (Laws.EncodedWord.feqD ..)
  | fltD => exact low_of_statement (Laws.EncodedWord.fltD ..)
  | fleD => exact low_of_statement (Laws.EncodedWord.fleD ..)
  | fcvtWD => exact low_of_statement (Laws.EncodedWord.fcvtWD ..)
  | fcvtWUD => exact low_of_statement (Laws.EncodedWord.fcvtWUD ..)
  | fcvtDW => exact low_of_statement (Laws.EncodedWord.fcvtDW ..)
  | fcvtDWU => exact low_of_statement (Laws.EncodedWord.fcvtDWU ..)
  | fcvtSD => exact low_of_statement (Laws.EncodedWord.fcvtSD ..)
  | fcvtDS => exact low_of_statement (Laws.EncodedWord.fcvtDS ..)
  | csrrw => exact low_of_statement (Laws.EncodedWord.csrrw ..)
  | csrrs => exact low_of_statement (Laws.EncodedWord.csrrs ..)
  | csrrc => exact low_of_statement (Laws.EncodedWord.csrrc ..)
  | vsetvli => exact low_of_statement (Laws.EncodedWord.vsetvli ..)
  | vle8V => exact low_of_statement (Laws.EncodedWord.vle8V ..)
  | vlse8V => exact low_of_statement (Laws.EncodedWord.vlse8V ..)
  | vse8V => exact low_of_statement (Laws.EncodedWord.vse8V ..)
  | vsse8V => exact low_of_statement (Laws.EncodedWord.vsse8V ..)
  | vle16V => exact low_of_statement (Laws.EncodedWord.vle16V ..)
  | vlse16V => exact low_of_statement (Laws.EncodedWord.vlse16V ..)
  | vse16V => exact low_of_statement (Laws.EncodedWord.vse16V ..)
  | vsse16V => exact low_of_statement (Laws.EncodedWord.vsse16V ..)
  | vle32V => exact low_of_statement (Laws.EncodedWord.vle32V ..)
  | vlse32V => exact low_of_statement (Laws.EncodedWord.vlse32V ..)
  | vse32V => exact low_of_statement (Laws.EncodedWord.vse32V ..)
  | vsse32V => exact low_of_statement (Laws.EncodedWord.vsse32V ..)
  | vaddVV => exact low_of_statement (Laws.EncodedWord.vaddVV ..)
  | vaddVX => exact low_of_statement (Laws.EncodedWord.vaddVX ..)
  | vaddVI => exact low_of_statement (Laws.EncodedWord.vaddVI ..)
  | vsubVV => exact low_of_statement (Laws.EncodedWord.vsubVV ..)
  | vsubVX => exact low_of_statement (Laws.EncodedWord.vsubVX ..)
  | vminuVV => exact low_of_statement (Laws.EncodedWord.vminuVV ..)
  | vminuVX => exact low_of_statement (Laws.EncodedWord.vminuVX ..)
  | vmaxuVV => exact low_of_statement (Laws.EncodedWord.vmaxuVV ..)
  | vmaxuVX => exact low_of_statement (Laws.EncodedWord.vmaxuVX ..)
  | vandVV => exact low_of_statement (Laws.EncodedWord.vandVV ..)
  | vandVX => exact low_of_statement (Laws.EncodedWord.vandVX ..)
  | vandVI => exact low_of_statement (Laws.EncodedWord.vandVI ..)
  | vorVV => exact low_of_statement (Laws.EncodedWord.vorVV ..)
  | vorVX => exact low_of_statement (Laws.EncodedWord.vorVX ..)
  | vorVI => exact low_of_statement (Laws.EncodedWord.vorVI ..)
  | vxorVV => exact low_of_statement (Laws.EncodedWord.vxorVV ..)
  | vxorVX => exact low_of_statement (Laws.EncodedWord.vxorVX ..)
  | vxorVI => exact low_of_statement (Laws.EncodedWord.vxorVI ..)
  | vmseqVV => exact low_of_statement (Laws.EncodedWord.vmseqVV ..)
  | vmseqVX => exact low_of_statement (Laws.EncodedWord.vmseqVX ..)
  | vmseqVI => exact low_of_statement (Laws.EncodedWord.vmseqVI ..)
  | vmsneVV => exact low_of_statement (Laws.EncodedWord.vmsneVV ..)
  | vmsneVX => exact low_of_statement (Laws.EncodedWord.vmsneVX ..)
  | vmsneVI => exact low_of_statement (Laws.EncodedWord.vmsneVI ..)
  | vmsltVV => exact low_of_statement (Laws.EncodedWord.vmsltVV ..)
  | vmsltVX => exact low_of_statement (Laws.EncodedWord.vmsltVX ..)
  | vmsleVV => exact low_of_statement (Laws.EncodedWord.vmsleVV ..)
  | vmsleVX => exact low_of_statement (Laws.EncodedWord.vmsleVX ..)
  | vmsleVI => exact low_of_statement (Laws.EncodedWord.vmsleVI ..)
  | vmsgtVX => exact low_of_statement (Laws.EncodedWord.vmsgtVX ..)
  | vmsgtVI => exact low_of_statement (Laws.EncodedWord.vmsgtVI ..)
  | vsllVV => exact low_of_statement (Laws.EncodedWord.vsllVV ..)
  | vsllVX => exact low_of_statement (Laws.EncodedWord.vsllVX ..)
  | vsllVI => exact low_of_statement (Laws.EncodedWord.vsllVI ..)
  | vsrlVV => exact low_of_statement (Laws.EncodedWord.vsrlVV ..)
  | vsrlVX => exact low_of_statement (Laws.EncodedWord.vsrlVX ..)
  | vsrlVI => exact low_of_statement (Laws.EncodedWord.vsrlVI ..)
  | vmulVV => exact low_of_statement (Laws.EncodedWord.vmulVV ..)
  | vmulVX => exact low_of_statement (Laws.EncodedWord.vmulVX ..)
  | vredsumVS => exact low_of_statement (Laws.EncodedWord.vredsumVS ..)
  | vwredsumuVS => exact low_of_statement (Laws.EncodedWord.vwredsumuVS ..)
  | vmvXS => exact low_of_statement (Laws.EncodedWord.vmvXS ..)
  | vmvSX => exact low_of_statement (Laws.EncodedWord.vmvSX ..)

theorem witness_UnknownWordsStopTheRun :
    let s := State.reset
    s.stop = none ∧ s.hostStop = false ∧ s.pc.toNat % 4 = 0 ∧ (∀ k ∈ s.dirty, k < s.pc.toNat ∨ s.pc.toNat + 4 ≤ k) ∧
    s.params.admits s.pc.toNat 4 = true ∧ (∀ i : Instr, wellFormed i = true → encode i ≠ s.wordAt s.pc) := by
  refine ⟨rfl, rfl, by decide +kernel, by decide +kernel, by decide +kernel, fun i _ h => ?_⟩
  have := encode_low i
  rw [h] at this
  exact absurd this (by decide +kernel)

theorem witness_OnlyHaltedEnginesDoNotStep : (start []).stop = none ∧
    ((start []).stopAt 0 .ecall).stop = some .ecall := by decide +kernel

theorem witness_HostStopHaltsBetweenInstructions :
    let s := { State.reset with hostStop := true }
    s.stop = none ∧ s.hostStop = true := by decide

theorem witness_ResetMeetsTheInvariant : (0xFFFFFFFE : Word).getLsbD 0 = false ∧ Memory.wf [(0x1000, 0x13)] = true := by
  decide +kernel

/-- JAL to the last even address below ipc: a step between two states of which the first meets the invariant. -/
theorem witness_StepKeepsTheInvariant : State.Inv (loadedWith 0xFF9FF0EF [cfg 0x13 32]) ∧
    ∃ t, step (loadedWith 0xFF9FF0EF [cfg 0x13 32]) = .next t ∧ t.pc = 0x00000FF8 :=
  ⟨⟨by decide +kernel, by decide +kernel, ⟨by decide +kernel, by decide +kernel⟩, by decide +kernel, by decide +kernel,
    by decide +kernel⟩, _, rfl, by decide +kernel⟩

theorem witness_ZeroRegisterHoldsZero : ∃ t, step (loadedWith 0x00100013 []) = .next t ∧ t.stop = none :=
  ⟨_, rfl, by decide +kernel⟩

/-- A jump to a target with bit 1 set. -/
theorem witness_JumpResults : (start [x 1 0x2002]).stop = none ∧ (start [x 1 0x2002]).hostStop = false ∧
    (∃ t, exec (.jalr 5 1 0) (start [x 1 0x2002]) = .next t ∧ t.pc.toNat / 2 % 2 = 1) ∧
    ∃ t, exec (.jal 5 6) (start [x 1 0x2002]) = .next t ∧ t.pc.toNat / 2 % 2 = 1 :=
  ⟨by decide +kernel, by decide +kernel, ⟨_, rfl, by decide +kernel⟩, _, rfl, by decide +kernel⟩

/-- An address of each alignment, admitted and not. -/
theorem witness_accesses :
    let s := start [x 1 0x1FFF, admitBelow 0x2000]
    let a := s.address 1 0
    (s.params.admits a.toNat 1 = true ∧ a.toNat % 1 = 0 ∧ a.toNat % 2 ≠ 0 ∧ a.toNat % 4 ≠ 0) ∧
    (s.params.admits (s.address 1 1).toNat 1 = false ∧ (s.address 1 1).toNat % 2 = 0 ∧ (s.address 1 1).toNat % 4 = 0 ∧
      s.params.admits (s.address 1 1).toNat 2 = false ∧ s.params.admits (s.address 1 1).toNat 4 = false) ∧
    ((s.address 1 0xFFF).toNat % 2 = 0 ∧ s.params.admits (s.address 1 0xFFF).toNat 2 = true) ∧
    ((s.address 1 0xFFD).toNat % 4 = 0 ∧ s.params.admits (s.address 1 0xFFD).toNat 4 = true) := by decide +kernel

theorem witness_IntegerLoadResults : State.Accessible (start [x 1 0x3001]) ((start [x 1 0x3001]).address 1 0) 1 ∧
    State.Accessible (start [x 1 0x3001]) ((start [x 1 0x3001]).address 1 0xFFF) 2 ∧
    State.Accessible (start [x 1 0x3001]) ((start [x 1 0x3001]).address 1 0xFFF) 4 :=
  ⟨⟨by decide +kernel, by decide +kernel⟩, ⟨by decide +kernel, by decide +kernel⟩, ⟨by decide +kernel, by decide +kernel⟩⟩

/-- The same for the stores, at the ends of the address space. -/
theorem witness_IntegerStoreResults : State.Accessible (start [x 1 0xFFFFFFFF]) ((start [x 1 0xFFFFFFFF]).address 1 0) 1 ∧
    State.Accessible (start [x 1 0xFFFFFFFF]) ((start [x 1 0xFFFFFFFF]).address 1 1) 2 ∧
    State.Accessible (start [x 1 0xFFFFFFFF]) ((start [x 1 0xFFFFFFFF]).address 1 0xFFD) 4 :=
  ⟨⟨by decide +kernel, by decide +kernel⟩, ⟨by decide +kernel, by decide +kernel⟩, ⟨by decide +kernel, by decide +kernel⟩⟩

theorem witness_MultiplyDivideIdentities :
    let s := start [x 1 0x80000000, x 2 3]
    (3 : XReg) ≠ 0 ∧ s.readX 2 ≠ 0 ∧ ¬ ((s.readX 1).toInt = -2 ^ 31 ∧ (s.readX 2).toInt = -1) ∧
    ((∃ q, exec (.div 3 1 2) s = .next q) ∧ (∃ m, exec (.rem 3 1 2) s = .next m)) ∧
    ((∃ q, exec (.divu 3 1 2) s = .next q) ∧ ∃ m, exec (.remu 3 1 2) s = .next m) ∧
    (∃ l, exec (.mul 3 1 2) s = .next l) ∧ (∃ h, exec (.mulh 3 1 2) s = .next h) ∧
    (∃ h, exec (.mulhsu 3 1 2) s = .next h) ∧ ∃ h, exec (.mulhu 3 1 2) s = .next h :=
  ⟨by decide, by decide +kernel, by decide +kernel, ⟨⟨_, rfl⟩, _, rfl⟩, ⟨⟨_, rfl⟩, _, rfl⟩, ⟨_, rfl⟩, ⟨_, rfl⟩, ⟨_, rfl⟩,
    _, rfl⟩

/-- An aligned and admitted word, a misaligned one and one that is not admitted, at x[rs1]. -/
theorem witness_LoadReservedStoreConditionalResults :
    let s := start [x 1 0x1FFC, x 2 0x1FFE, x 3 0x2000, admitBelow 0x2000]
    ((s.readX 1).toNat % 4 = 0 ∧ s.params.admits (s.readX 1).toNat 4 = true) ∧ (s.readX 2).toNat % 4 ≠ 0 ∧
    ((s.readX 3).toNat % 4 = 0 ∧ s.params.admits (s.readX 3).toNat 4 = false) := by decide +kernel

theorem witness_AtomicMemoryResults : State.Accessible (start [x 1 0x1FFC]) ((start [x 1 0x1FFC]).readX 1) 4 :=
  ⟨by decide +kernel, by decide +kernel⟩

/-- Both words of a double admitted, the second word alone refused, and both refused. -/
theorem witness_FpLoadResults :
    let s := start [x 1 0x1FFC, admitBelow 0x2000]
    let ea := s.address 1 0
    let low := s.address 1 0xFFC
    (low.toNat % 4 = 0 ∧ s.params.admits low.toNat 4 = true ∧ (low + 4).toNat % 4 = 0 ∧
      s.params.admits (low + 4).toNat 4 = true) ∧
    (ea.toNat % 4 = 0 ∧ s.params.admits ea.toNat 4 = true ∧ (ea + 4).toNat % 4 = 0 ∧ s.params.admits (ea + 4).toNat 4 = false) ∧
    (s.address 1 4).toNat % 4 = 0 ∧ s.params.admits (s.address 1 4).toNat 4 = false ∧ (s.address 1 2).toNat % 4 ≠ 0 := by
  decide +kernel

/-- The last word of the address space: the second word is at address 0. -/
theorem witness_FpStoreResults : State.Accessible (start [x 1 0xFFFFFFFC]) ((start [x 1 0xFFFFFFFC]).address 1 0) 4 ∧
    State.Accessible (start [x 1 0xFFFFFFFC]) ((start [x 1 0xFFFFFFFC]).address 1 0 + 4) 4 ∧
    (start [x 1 0x1FFC, admitBelow 0x2000]).params.admits ((start [x 1 0x1FFC, admitBelow 0x2000]).address 1 0 + 4).toNat 4 = false :=
  ⟨⟨by decide +kernel, by decide +kernel⟩, ⟨by decide +kernel, by decide +kernel⟩, by decide +kernel⟩

/-- TX-18 `fsd f3, 0(x1)`, the second word refused, at the address that R146 gives, the rule the row names; the row's own
printed value is the other reading of log 8. -/
theorem test_fsd_second_word_refused :
    let l := [x 1 0x0000FFFC, f 3 0x1122334455667788, admitBelow 0x10000]
    let other := fun (s : State) => { s with params := { s.params with fsdFaultAddress := .refusedWord } }
    let check := fun (a : Word) (t : State) => t.stop == some (.accessFault a) && t.pc == 0x00001000 && t.mem.read 0x0000FFFC == 0
    after 0x0030B027 l (check 0x0000FFFC) = true ∧ after 0x0030B027 (l ++ [other]) (check 0x00010000) = true := by
  decide +kernel

theorem witness_SinglesAreNaNBoxed :
    ((start [f 1 0x3F800000]).readF 1).toNat / 2 ^ 32 ≠ 0xFFFFFFFF ∧
    (start [f 1 0xFFFFFFFF3F800000]).readF 1 = 0xFFFFFFFF#32 ++ 0x3F800000#32 := by decide +kernel

/-! The clauses of the floating-point statements. A register that holds the boxed pattern (or the double) gives the
operand; each theorem below lists, clause by clause, operands that meet the clause's hypotheses. -/

theorem witness_operands : (start [f 1 0xFFFFFFFF7F800001]).readS 1 = 0x7F800001 ∧
    (start [f 1 0x7FF0000000000001]).readF 1 = 0x7FF0000000000001 := by decide +kernel

theorem witness_SingleArithmeticResults_sum :
    (fpNaN .single 0x7FC00001#32 ∨ fpNaN .single 0x3F800000#32) ∧
    (fpInf .single 0x7F800000#32 ∧ fpInf .single 0xFF800000#32 ∧ (0x7F800000#32).msb ≠ (0xFF800000#32).msb) ∧
    (fpInf .single 0x3F800000#32 ∨ fpFinite .single 0x3F800000#32) ∧
    (fpReal .single 0x3F800000#32 + fpReal .single 0x40000000#32 ≠ 0) ∧
    (fpReal .single 0x3F800000#32 + fpReal .single 0xBF800000#32 = 0) ∧
    (fpFinite .single 0xBF800000#32 ∧ fpFinite .single 0x7F7FFFFF#32 ∧ fpFinite .single 0x80000000#32) := by
  simp only [fpNaN, fpInf, fpFinite, fpReal]; decide +kernel

/-- A sum at the overflow threshold, one below it, and one that is a tie between two patterns. -/
theorem witness_SingleArithmeticResults_rounding :
    Fmt.overflow .single ≤ |fpReal .single 0x7F7FFFFF#32 + fpReal .single 0x73000000#32| ∧
    |fpReal .single 0x7F7FFFFF#32 + fpReal .single 0x72FFFFFF#32| < Fmt.overflow .single ∧
    (let r := fpReal .single 0x3F800000#32 + fpReal .single 0x33800000#32
     |r - fpReal .single 0x3F800000#32| = |r - fpReal .single 0x3F800001#32| ∧
      fpReal .single 0x3F800001#32 ≠ fpReal .single 0x3F800000#32) := by
  simp only [Fmt.overflow, fpReal]; decide +kernel

theorem witness_SingleArithmeticResults_product :
    (fpInf .single 0x7F800000#32 ∧ fpFinite .single 0x80000000#32 ∧ fpReal .single 0x80000000#32 = 0) ∧
    (fpFinite .single 0x3F800000#32 ∧ fpReal .single 0x3F800000#32 ≠ 0) ∧
    fpReal .single 0x3F800000#32 * fpReal .single 0x00000001#32 ≠ 0 ∧
    fpReal .single 0x3F800000#32 * fpReal .single 0x80000000#32 = 0 := by
  simp only [fpInf, fpFinite, fpReal]; decide +kernel

/-- Two infinities of one sign, for the sum, the product and the fused operations. -/
theorem witness_infinities :
    (fpInf .single 0xFF800000#32 ∧ fpInf .single 0xFF800000#32 ∧ (0xFF800000#32).msb = (0xFF800000#32).msb) ∧
    (fpInf .double 0x7FF0000000000000#64 ∧ fpInf .double 0x7FF0000000000000#64) := by
  simp only [fpInf]; decide +kernel

/-- The corner of R149, 2^-149 · 0.5: positive, not zero, and under half of the least subnormal or just half of it. -/
theorem witness_RoundsTo_positive_underflow :
    fpFinite .single 0x00000001#32 ∧ fpFinite .single 0x3F000000#32 ∧
    fpReal .single 0x00000001#32 * fpReal .single 0x3F000000#32 ≠ 0 ∧
    0 < fpReal .single 0x00000001#32 * fpReal .single 0x3F000000#32 ∧
    2 * (fpReal .single 0x00000001#32 * fpReal .single 0x3F000000#32) = fpReal .single 0x00000001#32 := by
  simp only [fpFinite, fpReal]; decide +kernel

/-- The clauses of a quotient, in their order: NaN, ∞/∞, 0/0, ∞/finite, x/0, 0/x and x/y. -/
theorem witness_SingleArithmeticResults_quotient :
    (fpNaN .single 0x7FC00001#32 ∨ fpNaN .single 0x3F800000#32) ∧
    (fpInf .single 0x7F800000#32 ∧ fpInf .single 0xFF800000#32) ∧
    (fpFinite .single 0x00000000#32 ∧ fpFinite .single 0x80000000#32 ∧
      fpReal .single 0x00000000#32 = 0 ∧ fpReal .single 0x80000000#32 = 0) ∧
    (fpInf .single 0xFF800000#32 ∧ fpFinite .single 0x80000000#32) ∧
    (fpFinite .single 0xBF800000#32 ∧ fpFinite .single 0x80000000#32 ∧
      fpReal .single 0xBF800000#32 ≠ 0 ∧ fpReal .single 0x80000000#32 = 0) ∧
    (fpFinite .single 0x80000000#32 ∧ fpFinite .single 0x40400000#32 ∧
      fpReal .single 0x80000000#32 = 0 ∧ fpReal .single 0x40400000#32 ≠ 0) ∧
    (fpFinite .single 0x3F800000#32 ∧ fpFinite .single 0x40400000#32 ∧
      fpReal .single 0x3F800000#32 ≠ 0 ∧ fpReal .single 0x40400000#32 ≠ 0) := by
  simp only [fpNaN, fpInf, fpFinite, fpReal]; decide +kernel

theorem fpReal_negative_zero : fpReal .double 0x8000000000000000#64 = 0 := by
  have h : expField .double 0x8000000000000000#64 = 0 ∧ fracField .double 0x8000000000000000#64 = 0 := by decide +kernel
  simp [fpReal, h]

theorem witness_DoubleArithmeticResults_sum :
    (fpNaN .double 0x7FF8000000000001#64 ∨ fpNaN .double 0x3FF0000000000000#64) ∧
    (fpInf .double 0x7FF0000000000000#64 ∧ fpInf .double 0xFFF0000000000000#64 ∧
      (0x7FF0000000000000#64).msb ≠ (0xFFF0000000000000#64).msb) ∧
    (fpFinite .double 0x3FF0000000000000#64 ∧ fpFinite .double 0xBFF0000000000000#64 ∧ fpFinite .double 0x8000000000000000#64) ∧
    fpReal .double 0x3FF0000000000000#64 + fpReal .double 0x4000000000000000#64 ≠ 0 ∧
    fpReal .double 0x3FF0000000000000#64 + fpReal .double 0xBFF0000000000000#64 = 0 := by
  simp only [fpNaN, fpInf, fpFinite, fpReal]; decide +kernel

theorem witness_DoubleArithmeticResults_tie :
    let r := fpReal .double 0x3FF0000000000000#64 + fpReal .double 0x3CA0000000000000#64
    |r - fpReal .double 0x3FF0000000000000#64| = |r - fpReal .double 0x3FF0000000000001#64| ∧
      fpReal .double 0x3FF0000000000001#64 ≠ fpReal .double 0x3FF0000000000000#64 := by
  simp only [fpReal]; decide +kernel

set_option exponentiation.threshold 2000 in
theorem witness_DoubleArithmeticResults_overflow :
    Fmt.overflow .double ≤ |fpReal .double 0x7FE0000000000000#64 + fpReal .double 0x7FE0000000000000#64| ∧
    |fpReal .double 0x3FF0000000000000#64 + fpReal .double 0x3FF0000000000000#64| < Fmt.overflow .double := by
  have h1 : expField .double 0x7FE0000000000000#64 = 2046 ∧ fracField .double 0x7FE0000000000000#64 = 0 ∧
    (0x7FE0000000000000#64).msb = false := by decide +kernel
  have e1 : fpReal .double 0x7FE0000000000000#64 = 2 ^ 1023 := by
    simp only [fpReal, h1, Fmt.bias]; norm_num
  have e2 : fpReal .double 0x3FF0000000000000#64 = 1 := by simp only [fpReal]; decide +kernel
  have : (2 : ℚ) ^ 1024 = 2 ^ 1023 + 2 ^ 1023 := by rw [pow_succ]; ring
  have : (0 : ℚ) ≤ 2 ^ 970 := by positivity
  rw [e1, e2, Fmt.overflow]
  refine ⟨le_trans ?_ (le_abs_self _), ?_⟩
  · linarith
  · norm_num

theorem witness_DoubleArithmeticResults_product :
    (fpInf .double 0x7FF0000000000000#64 ∧ fpFinite .double 0x8000000000000000#64 ∧ fpReal .double 0x8000000000000000#64 = 0) ∧
    fpReal .double 0x3FF0000000000000#64 ≠ 0 ∧
    fpReal .double 0x3FF0000000000000#64 * fpReal .double 0x4000000000000000#64 ≠ 0 ∧
    fpReal .double 0x3FF0000000000000#64 * fpReal .double 0x8000000000000000#64 = 0 := by
  simp only [fpReal_negative_zero, mul_zero]
  simp only [fpInf, fpFinite, fpReal]; decide +kernel

theorem fpReal_positive_zero : fpReal .double 0x0000000000000000#64 = 0 := by
  have h : expField .double 0x0000000000000000#64 = 0 ∧ fracField .double 0x0000000000000000#64 = 0 := by decide +kernel
  simp [fpReal, h]

/-- The clauses of a quotient, in their order: NaN, ∞/∞, 0/0, ∞/finite, x/0, 0/x and x/y. -/
theorem witness_DoubleArithmeticResults_quotient :
    (fpNaN .double 0x7FF8000000000001#64 ∨ fpNaN .double 0x3FF0000000000000#64) ∧
    (fpInf .double 0x7FF0000000000000#64 ∧ fpInf .double 0xFFF0000000000000#64) ∧
    (fpFinite .double 0x0000000000000000#64 ∧ fpFinite .double 0x8000000000000000#64 ∧
      fpReal .double 0x0000000000000000#64 = 0 ∧ fpReal .double 0x8000000000000000#64 = 0) ∧
    (fpInf .double 0xFFF0000000000000#64 ∧ fpFinite .double 0x8000000000000000#64) ∧
    (fpFinite .double 0xBFF0000000000000#64 ∧ fpFinite .double 0x8000000000000000#64 ∧
      fpReal .double 0xBFF0000000000000#64 ≠ 0 ∧ fpReal .double 0x8000000000000000#64 = 0) ∧
    (fpFinite .double 0x8000000000000000#64 ∧ fpFinite .double 0x4008000000000000#64 ∧
      fpReal .double 0x8000000000000000#64 = 0 ∧ fpReal .double 0x4008000000000000#64 ≠ 0) ∧
    (fpFinite .double 0x3FF0000000000000#64 ∧ fpFinite .double 0x4008000000000000#64 ∧
      fpReal .double 0x3FF0000000000000#64 ≠ 0 ∧ fpReal .double 0x4008000000000000#64 ≠ 0) := by
  simp only [fpReal_negative_zero, fpReal_positive_zero]
  simp only [fpNaN, fpInf, fpFinite, fpReal]; decide +kernel

/-- The infinities of a fused sum with equal and with opposite signs, and the exact sums that are and are not zero. -/
theorem witness_FusedResults :
    (fpInf .single 0x7F800000#32 ∧ fpFinite .single 0xC0000000#32 ∧ fpReal .single 0xC0000000#32 ≠ 0 ∧
      fpInf .single 0xFF800000#32 ∧ (0xC0000000#32).msb = (0xFF800000#32).msb) ∧
    (fpReal .single 0x40000000#32 * fpReal .single 0x40400000#32 + fpReal .single 0xC0C00000#32 = 0 ∧
      fpFinite .single 0x40000000#32 ∧ fpFinite .single 0x40400000#32 ∧ fpFinite .single 0xC0C00000#32) ∧
    fpReal .single 0x40000000#32 * fpReal .single 0x40400000#32 + fpReal .single 0x40C00000#32 ≠ 0 ∧
    (fpInf .double 0x7FF0000000000000#64 ∧ fpReal .double 0xC000000000000000#64 ≠ 0) ∧
    fpReal .double 0x4000000000000000#64 * fpReal .double 0x4008000000000000#64 + fpReal .double 0xC018000000000000#64 = 0 ∧
    fpReal .double 0x4000000000000000#64 * fpReal .double 0x4008000000000000#64 + fpReal .double 0x4018000000000000#64 ≠ 0 := by
  simp only [fpInf, fpFinite, fpReal]; decide +kernel

/-- Operands that are not below zero (4.0, −0, NaN, +∞) and operands that are (−2.0, −∞). -/
theorem witness_SquareRootResults :
    (¬ fpBelowZero .single 0x40800000#32 ∧ ¬ fpBelowZero .single 0x80000000#32 ∧ ¬ fpBelowZero .single 0xFFC00000#32 ∧
      ¬ fpBelowZero .single 0x7F800000#32 ∧ fpBelowZero .single 0xC0000000#32 ∧ fpBelowZero .single 0xFF800000#32) ∧
    (¬ fpBelowZero .double 0x4010000000000000#64 ∧ ¬ fpBelowZero .double 0x8000000000000000#64 ∧
      fpBelowZero .double 0xC000000000000000#64 ∧ fpBelowZero .double 0xFFF0000000000000#64) := by
  simp only [fpBelowZero, fpReal_negative_zero]
  simp only [IsInf, fpInf, fpFinite, fpReal]; decide +kernel

/-- A finite value above and one below a root that is not representable: the two clauses of the nearest value. -/
theorem witness_SquareRootResults_nearest :
    fpFinite .single 0x40000000#32 ∧ fpReal .single 0x40000000#32 ≠ 0 ∧
    fpReal .single 0x3FB504F3#32 < fpReal .single 0x3FB504F4#32 ∧
    fpReal .single 0x3FB504F2#32 < fpReal .single 0x3FB504F3#32 ∧
    0 ≤ fpReal .single 0x3FB504F3#32 + fpReal .single 0x3FB504F2#32 := by
  simp only [fpFinite, fpReal]; decide +kernel

theorem witness_MinMaxResults :
    (fpSNaN .single 0x7F800001#32 ∧ fpNaN .single 0x7FC00000#32 ∧ ¬ fpSNaN .single 0x7FC00000#32 ∧ ¬ fpNaN .single 0x3F800000#32) ∧
    (fpSNaN .double 0x7FF0000000000001#64 ∧ fpNaN .double 0x7FF8000000000000#64 ∧ ¬ fpSNaN .double 0x7FF8000000000000#64 ∧
      ¬ fpNaN .double 0x3FF0000000000000#64) := by
  simp only [fpSNaN, fpNaN]; decide +kernel

/-- −0 comes before +0, 1.0 before 2.0, −∞ before 1.0, and 2.0 not before 1.0. -/
theorem witness_MinMaxResults_order :
    fpSmaller .single 0x80000000#32 0x00000000#32 ∧ fpSmaller .single 0x3F800000#32 0x40000000#32 ∧
    fpSmaller .single 0xFF800000#32 0x3F800000#32 ∧ ¬ fpSmaller .single 0x40000000#32 0x3F800000#32 := by
  have h0 : fpReal .single 0x80000000#32 = fpReal .single 0x00000000#32 := by simp only [fpReal]; decide +kernel
  have h1 : fpReal .single 0x3F800000#32 < fpReal .single 0x40000000#32 := by simp only [fpReal]; decide +kernel
  have e0 : expField .single 0x80000000#32 ≠ 2 ^ Fmt.expBits .single - 1 := by decide +kernel
  have e1 : expField .single 0x00000000#32 ≠ 2 ^ Fmt.expBits .single - 1 := by decide +kernel
  have e2 : expField .single 0x3F800000#32 ≠ 2 ^ Fmt.expBits .single - 1 := by decide +kernel
  have e3 : expField .single 0x40000000#32 ≠ 2 ^ Fmt.expBits .single - 1 := by decide +kernel
  have e4 : expField .single 0xFF800000#32 = 2 ^ Fmt.expBits .single - 1 := by decide +kernel
  have x : fpExt .single 0x3F800000#32 < fpExt .single 0x40000000#32 := by
    rw [fpExt, fpExt, if_neg e2, if_neg e3]
    exact WithBot.coe_lt_coe.2 (WithTop.coe_lt_coe.2 h1)
  refine ⟨.inr ⟨?_, by decide, by decide⟩, .inl x, .inl ?_, fun h => ?_⟩
  · rw [fpExt, fpExt, if_neg e0, if_neg e1, h0]
  · rw [fpExt, fpExt, if_pos e4, if_neg e2, if_pos (by decide)]
    exact WithBot.bot_lt_coe _
  · rcases h with h | h
    · exact absurd h (lt_asymm x)
    · exact absurd h.2.1 (by decide)

theorem witness_FpCompareResults :
    let s := start [f 1 0xFFFFFFFF3F800000, f 2 0xFFFFFFFF7FC00000, f 3 0x3FF0000000000000, f 4 0x7FF8000000000000]
    ¬ fpNaN .single (s.readS 1) ∧ fpNaN .single (s.readS 2) ∧ ¬ fpNaN .double (s.readF 3) ∧ fpNaN .double (s.readF 4) := by
  simp only [fpNaN]; decide +kernel

/-- A NaN, both infinities, and 2.5, a tie between 2 and 3 that rounds to 2 and truncates to 2. -/
theorem witness_FpToIntegerResults :
    (fpNaN .single 0x7FC00000#32 ∧ IsInf .single false 0x7F800000#32 ∧ IsInf .single true 0xFF800000#32 ∧
      fpFinite .single 0x40200000#32 ∧ RoundsToInt (fpReal .single 0x40200000#32) 2) ∧
    (fpNaN .double 0x7FF8000000000000#64 ∧ IsInf .double false 0x7FF0000000000000#64 ∧
      IsInf .double true 0xFFF0000000000000#64 ∧ fpFinite .double 0x4004000000000000#64 ∧
      RoundsToInt (fpReal .double 0x4004000000000000#64) 2) := by
  simp only [fpNaN, IsInf, fpInf, fpFinite, fpReal, RoundsToInt]; decide +kernel

theorem witness_IntegerToFpResults : (start [x 1 0]).readX 1 = 0 ∧ ((start [x 1 0xFFFFFFFF]).readX 1).toInt ≠ 0 ∧
    |(((start [x 1 0xFFFFFFFF]).readX 1).toNat : ℚ)| < Fmt.overflow .single := by
  refine ⟨by decide +kernel, by decide +kernel, ?_⟩
  simp only [Fmt.overflow]; decide +kernel

/-- A NaN, an infinity, a zero, a double at and one below the single overflow threshold, and a finite single. -/
theorem witness_FpToFpResults :
    fpNaN .double 0x7FF0000000000001#64 ∧ IsInf .double true 0xFFF0000000000000#64 ∧
    (fpFinite .double 0x8000000000000000#64 ∧ fpReal .double 0x8000000000000000#64 = 0) ∧
    (fpFinite .double 0x47EFFFFFF0000000#64 ∧ fpReal .double 0x47EFFFFFF0000000#64 ≠ 0 ∧
      Fmt.overflow .single ≤ |fpReal .double 0x47EFFFFFF0000000#64|) ∧
    |fpReal .double 0x47EFFFFFEFFFFFFF#64| < Fmt.overflow .single ∧
    fpNaN .single 0x7F800001#32 ∧ IsInf .single false 0x7F800000#32 ∧ fpFinite .single 0x00000001#32 := by
  simp only [fpReal_negative_zero]
  simp only [fpNaN, IsInf, fpInf, fpFinite, fpReal, Fmt.overflow]; decide +kernel

/-- exec answers a next state that passes a check. -/
def runs (i : Instr) (s : State) (check : State → Bool) : Bool :=
  match exec i s with
  | .next t => check t
  | .fault _ => false
  | .refused _ => false

theorem next_of_runs {i : Instr} {s : State} {check : State → Bool} (h : runs i s check = true) :
    ∃ t, exec i s = .next t ∧ check t = true := by
  unfold runs at h
  split at h
  · next t e => exact ⟨t, e, h⟩
  · cases h
  · cases h

/-- A compare with a NaN and a root of a negative value set NV; an addition of singles does not and is no CSR instruction. -/
theorem witness_OnlyComparesAndSquareRootsSetNV :
    (SetsNV (start []) (.feqS 3 1 2) ∧ ∃ t, exec (.feqS 3 1 2) (start []) = .next t) ∧
    (SetsNV (start [f 1 0xBFF0000000000000]) (.fsqrtD 3 1 0) ∧
      ∃ t, exec (.fsqrtD 3 1 0) (start [f 1 0xBFF0000000000000]) = .next t ∧ (t.stop == some .fsqrtNegative) = true) ∧
    (¬ SetsNV (start []) (.faddS 3 1 2 0) ∧ ¬ IsCsrInstruction (.faddS 3 1 2 0) ∧ ∃ t, exec (.faddS 3 1 2 0) (start []) = .next t) := by
  refine ⟨⟨.inl ⟨3, 1, 2, .inl rfl, .inl ?_⟩, _, rfl⟩, ⟨.inr (.inr (.inr ⟨3, 1, 0, rfl, .inr ?_⟩)), next_of_runs (by decide +kernel)⟩,
    by simp [SetsNV], by simp [IsCsrInstruction], _, rfl⟩
  · simp only [fpNaN]; decide +kernel
  · simp only [fpFinite, fpReal]; decide +kernel

theorem witness_CsrReadsFollowTheMap :
    0x000#12 ∉ [0x001#12, 0x002#12, 0x003#12, 0x008#12, 0xC20#12, 0xC21#12, 0xC22#12] ∧
    0xC23#12 ∉ [0x001#12, 0x002#12, 0x003#12, 0x008#12, 0xC20#12, 0xC21#12, 0xC22#12] := by decide

theorem witness_CsrInstructionResults : 0x003#12 ∉ [0xC20#12, 0xC21#12, 0xC22#12] ∧ (6 : XReg) ≠ 0 ∧
    0xC21#12 ∈ [0xC20#12, 0xC21#12, 0xC22#12] ∧ (start []).params.csrSetClear = .rs1 := by decide +kernel

/-- e32, m8 is supported; vlmul 4, vsew 3, bit 5 and bits 10:8 each make a value unsupported. -/
theorem witness_VsetvliResults :
    (0x0D3#11).toNat % 8 < 4 ∧ (0x0D3#11).toNat / 8 % 4 ≠ 3 ∧ (0x0D3#11).toNat / 32 % 2 = 0 ∧ (0x0D3#11).toNat / 256 = 0 ∧
    4 ≤ (0x004#11).toNat % 8 ∧ (0x018#11).toNat / 8 % 4 = 3 ∧ (0x020#11).toNat / 32 % 2 = 1 ∧ (0x100#11).toNat / 256 ≠ 0 := by
  decide

theorem witness_VectorChecksInOrder :
    vectorOperands (start [vstartIs 1]).sew (.vaddVV 1 2 3) = some (none, [(1, 1), (2, 1), (3, 1)]) ∧
    (start [vstartIs 1]).vstart ≠ 0 ∧
    vectorOperands (start []).sew (.vle16V 1 2) = some (some 2, [(1, 2)]) ∧ (start []).vstart = 0 ∧ 2 ≠ (start []).sew ∧
    (vectorOperands (start [cfg 0x13 32]).sew (.vaddVV 1 25 3) = some (none, [(1, 4)] ++ (25, 4) :: [(3, 4)]) ∧
      (start [cfg 0x13 32]).vl.toNat = 32) := by decide +kernel

/-- The first group ends at v8 and the second would end at v32. -/
theorem witness_VectorChecksInOrder_groups : groupFits 32 4 1 ∧ ¬ groupFits 32 4 25 ∧ groupFits 32 4 24 ∧ groupFits 0 4 31 := by
  simp only [groupFits]; decide +kernel

/-- vl elements at stride 0 and at a stride that wraps past address 0, with each element width. -/
theorem witness_VectorLoadResults :
    (let s := start [x 1 0xFFFFFFFC, x 2 4, cfg 0x11 8]
     (∀ el, el < s.vl.toNat → (s.readX 1 + BitVec.ofNat 32 el * s.readX 2).toNat % 4 = 0 ∧
       s.params.admits (s.readX 1 + BitVec.ofNat 32 el * s.readX 2).toNat 4 = true) ∧ s.sew = 4 ∧ s.vstart = 0) ∧
    (let s := start [x 1 0x2000, cfg 0x08 3]
     (∀ el, el < s.vl.toNat → (s.readX 1 + BitVec.ofNat 32 el * 2).toNat % 2 = 0 ∧
       s.params.admits (s.readX 1 + BitVec.ofNat 32 el * 2).toNat 2 = true) ∧ s.sew = 2 ∧ s.vstart = 0) ∧
    (let s := start [x 1 0x2001, cfg 0x00 3]
     (∀ el, el < s.vl.toNat → s.params.admits (s.readX 1 + BitVec.ofNat 32 el * 1).toNat 1 = true) ∧ s.sew = 1 ∧ s.vstart = 0) := by
  decide +kernel

theorem witness_VectorReady : State.VectorReady (start [cfg 0x11 8]) [30, 28, 26] :=
  ⟨by decide +kernel, by simp only [groupFits]; decide +kernel⟩

theorem witness_VectorStoreResults : State.VectorReady (start [x 1 0x3000, cfg 0x11 8]) [30] ∧
    ∀ el, el < (start [x 1 0x3000, cfg 0x11 8]).vl.toNat →
      State.Accessible (start [x 1 0x3000, cfg 0x11 8]) ((start [x 1 0x3000, cfg 0x11 8]).readX 1 + BitVec.ofNat 32 el * 4) 4 := by
  refine ⟨⟨by decide +kernel, by simp only [groupFits]; decide +kernel⟩, ?_⟩
  simp only [State.Accessible]; decide +kernel

/-- A strided load whose third element is off its alignment, and a unit-stride store whose third element is not admitted. -/
theorem witness_VectorFaultsKeepEarlierElements :
    (let s := start [x 1 0x2000, x 2 8, cfg 0x08 4, admitBelow 0x2004]
     vectorOperands s.sew (.vse16V 1 1) = some (some 2, [(1, 2)]) ∧ elementAddresses s (.vse16V 1 1) = some (0x2000, 2) ∧
     2 = s.sew ∧ s.vstart = 0 ∧ 2 < s.vl.toNat ∧
     (∀ el, el < 2 → (0x2000#32 + BitVec.ofNat 32 el * 2).toNat % 2 = 0 ∧
       s.params.admits (0x2000#32 + BitVec.ofNat 32 el * 2).toNat 2 = true) ∧
     (0x2000#32 + BitVec.ofNat 32 2 * 2).toNat % 2 = 0 ∧ s.params.admits (0x2000#32 + BitVec.ofNat 32 2 * 2).toNat 2 = false) ∧
    (let s := start [x 1 0x2000, x 2 1, cfg 0x08 4]
     vectorOperands s.sew (.vlse16V 1 1 2) = some (some 2, [(1, 2)]) ∧ elementAddresses s (.vlse16V 1 1 2) = some (0x2000, 1) ∧
     2 = s.sew ∧ s.vstart = 0 ∧ 1 < s.vl.toNat ∧
     (∀ el, el < 1 → (0x2000#32 + BitVec.ofNat 32 el * 1).toNat % 2 = 0 ∧
       s.params.admits (0x2000#32 + BitVec.ofNat 32 el * 1).toNat 2 = true) ∧
     (0x2000#32 + BitVec.ofNat 32 1 * 1).toNat % 2 ≠ 0) ∧
    groupFits 4 2 1 ∧
    (∃ t, exec (.vse16V 1 1) { start [x 1 0x2000, x 2 8, cfg 0x08 4, admitBelow 0x2004] with vl := 2 } = .next t) ∧
    ∃ t, exec (.vlse16V 1 1 2) { start [x 1 0x2000, x 2 1, cfg 0x08 4] with vl := 1 } = .next t :=
  ⟨by decide +kernel, by decide +kernel, by simp only [groupFits]; decide +kernel, ⟨_, rfl⟩, ⟨_, rfl⟩⟩

/-- The checks of a vector-immediate instruction pass at a legal vtype and at vsew = 3, which no run reaches. -/
theorem witness_VectorImmediateResults :
    State.VectorReady (start [cfg 0x10 4]) [1, 2] ∧ State.VectorReady (start [cfg 0x18 1]) [1, 2] :=
  ⟨⟨by decide +kernel, by simp only [groupFits]; decide +kernel⟩, by decide +kernel, by simp only [groupFits]; decide +kernel⟩

theorem witness_ElementwiseLanes : State.VectorReady (start [cfg 0x10 4]) [1, 1, 2] ∧ SameOrApart 4 4 1 1 ∧
    SameOrApart 4 4 1 2 ∧ ∃ t, exec (.vsubVV 1 1 2) (start [cfg 0x10 4]) = .next t :=
  ⟨⟨by decide +kernel, by simp only [groupFits]; decide +kernel⟩, .inl rfl, .inr (.inl (by decide)), _, rfl⟩

theorem witness_VectorMoveAndReductionResults : (start [cfg 0x13 32]).vstart = 0 ∧ groupFits 32 4 24 :=
  ⟨by decide +kernel, by simp only [groupFits]; decide +kernel⟩

theorem witness_ConfigurationChangesOnlyByItsInstructions :
    (∃ t, exec (.vsetvli 5 0 0x13) State.reset = .next t ∧ t.vl ≠ State.reset.vl ∧ t.vtype ≠ State.reset.vtype) ∧
    ∃ t, exec (.csrrw 0 0x008 1) (start [x 1 7]) = .next t ∧ t.vstart ≠ (start [x 1 7]).vstart :=
  ⟨⟨_, rfl, by decide +kernel⟩, _, rfl, by decide +kernel⟩

/-- A store that changes a byte, and a FENCE.I that empties Dirty. -/
theorem witness_MemoryChangesOnlyWhereAdmitted :
    (∃ t, exec (.sb 1 2 0) (start [x 1 0xFF, x 2 0x2000]) = .next t ∧ t.mem ≠ (start [x 1 0xFF, x 2 0x2000]).mem ∧
      t.mem.read 0x2000 ≠ (start [x 1 0xFF, x 2 0x2000]).mem.read 0x2000) ∧
    ∃ t, exec (.fenceI 0 0 0) (start [dirtyFrom 0x2000 1]) = .next t ∧ ∃ c ∈ (start [dirtyFrom 0x2000 1]).dirty, c ∉ t.dirty :=
  ⟨⟨_, rfl, by decide +kernel⟩, _, rfl, by decide +kernel⟩

theorem witness_FaultsChangeNothing : (start [x 1 1]).stop = none ∧
    ∃ t, exec (.lw 3 1 0) (start [x 1 1]) = .next t ∧ t.stop = some (.misalignedAccess 1) ∧
      Stop.isFault (.misalignedAccess 1) = true :=
  ⟨by decide +kernel, _, rfl, by decide +kernel⟩

theorem witness_HaltsComeFromThreeInstructions : State.reset.stop = none ∧
    ∃ t, exec .ecall State.reset = .next t ∧ t.stop = some .ecall ∧ Stop.isFault .ecall = false :=
  ⟨rfl, _, rfl, by decide +kernel⟩

theorem witness_HaltedRunsStayHalted : (State.reset.stopAt 0 .ebreak).stop ≠ none ∧
    Reaches (State.reset.stopAt 0 .ebreak) (State.reset.stopAt 0 .ebreak) := ⟨by decide, .refl _⟩

/-- rd is the base register and then x0. -/
theorem witness_LoadsReadTheLatestStore : State.Accessible (start [x 1 0x2001, x 2 7]) ((start [x 1 0x2001, x 2 7]).address 1 0xFFF) 4 ∧
    ∃ t, exec (.sw 2 1 0xFFF) (start [x 1 0x2001, x 2 7]) = .next t :=
  ⟨⟨by decide +kernel, by decide +kernel⟩, _, rfl⟩

/-- A store whose second element is not admitted: one element is done, byte 0x2000 changes, and the load of the same
addresses stops there too. -/
theorem witness_FaultsChangeNothing_elements :
    let s := start [x 1 0x2000, cfg 0x10 2, vreg 1 4 [7, 8], mems 4 0x2000 [9], admitBelow 0x2004]
    accessesElements s.sew (.vse32V 1 1) ∧ vectorOperands s.sew (.vse32V 1 1) = some (some 4, [(1, 4)]) ∧
    elementAddresses s (.vse32V 1 1) = some (0x2000, 4) ∧ vectorOperands s.sew (.vle32V 1 1) = some (some 4, [(1, 4)]) ∧
    elementAddresses s (.vle32V 1 1) = some (0x2000, 4) ∧
    (∃ t, exec (.vse32V 1 1) s = .next t ∧
      (t.stop == some (.accessFault 0x2004) && t.mem.read 0x2000 == 7 && t.dirty == [0x2000, 0x2001, 0x2002, 0x2003]) = true) ∧
    ∃ t, exec (.vle32V 1 1) s = .next t ∧
      (t.stop == some (.accessFault 0x2004) && (t.vr.elem 1 0 4).toNat == 9 && (t.vr.elem 1 1 4).toNat == 8) = true :=
  ⟨⟨4, [(1, 4)], rfl⟩, rfl, rfl, rfl, rfl, next_of_runs (by decide +kernel), next_of_runs (by decide +kernel)⟩

end Sys2Proof.Tests
end

/-! PROOFS. The statements of 00_scope.md about one step (R7, R11): the events of the fetch, the decoded instruction's run,
and which engines have a step. -/

namespace Sys2Proof.Machine

/-! ## The fetch's conditions as the statements write them -/

/-- The low two bits of an address are zero exactly when it is a multiple of 4. -/
theorem low_two_bits_eq_zero_iff (a : Word) : a.extractLsb' 0 2 = 0#2 ↔ a.toNat % 4 = 0 := by
  rw [← BitVec.toNat_inj, BitVec.extractLsb'_toNat]
  simp

theorem dirtyHits_eq_false_iff (d : List Nat) (a n : Nat) :
    dirtyHits d a n = false ↔ ∀ k ∈ d, k < a ∨ a + n ≤ k := by
  simp [dirtyHits, imp_iff_not_or]

theorem toNat_append_byte {n : Nat} (v : BitVec n) (b : Byte) : (v ++ b).toNat = b.toNat + 256 * v.toNat := by
  rw [BitVec.toNat_append, ← Nat.shiftLeft_add_eq_or_of_lt b.isLt, Nat.shiftLeft_eq]
  omega

/-- A word's value is the sum of its bytes, the lowest first (R38). -/
theorem State.toNat_wordAt (s : State) (a : Word) : (s.wordAt a).toNat = leNat (s.mem.readBytes a.toNat 4) :=
  calc (s.wordAt a).toNat
    _ = (s.byteAt a 0).toNat + 256 * (s.byteAt a 3 ++ s.byteAt a 2 ++ s.byteAt a 1).toNat := toNat_append_byte _ _
    _ = leNat (s.mem.readBytes a.toNat 4) := by rw [toNat_append_byte, toNat_append_byte]; rfl

/-- A word read from memory is the little-endian word of the statements (R38). -/
theorem State.loadValue_four (s : State) (a : Word) : s.loadValue a 4 = s.wordAt a := by
  rw [State.loadValue, ← s.toNat_wordAt a]
  exact BitVec.ofNat_toNat ..

/-! ## The events of the fetch (R279) -/

theorem State.fetch_of_misaligned {s : State} (ha : s.pc.toNat % 4 ≠ 0) : s.fetch = .error (.misalignedFetch s.pc) := by
  have hlow := mt (low_two_bits_eq_zero_iff s.pc).1 ha
  rw [State.fetch, if_pos hlow]

theorem State.fetch_of_stale {s : State} (ha : s.pc.toNat % 4 = 0) (hd : dirtyHits s.dirty s.pc.toNat 4 = true) :
    s.fetch = .error (.staleFetch s.pc) := by
  have hlow := (low_two_bits_eq_zero_iff s.pc).2 ha
  rw [State.fetch, if_neg (not_not.2 hlow), if_pos hd]

theorem State.fetch_of_refused {s : State} {k : Stop} (ha : s.pc.toNat % 4 = 0)
    (hd : dirtyHits s.dirty s.pc.toNat 4 = false) (hk : s.accessCheck s.pc 4 = some k) : s.fetch = .error k := by
  have hlow := (low_two_bits_eq_zero_iff s.pc).2 ha
  rw [State.fetch, if_neg (not_not.2 hlow), if_neg (by simp [hd]), State.memRead_of_some hk]

/-! ## Every instruction answers a next state

The meanings branch on a condition, on the vector checks or on a memory primitive's answer, and each branch is a next
state: a fault of a body is recorded in it (R276). -/

/-- The meaning has answered a next state. -/
def Answers (r : Result) : Prop := ∃ t, r = .next t

theorem Answers.next (t : State) : Answers (.next t) := ⟨t, rfl⟩

theorem Answers.ite {c : Prop} [Decidable c] {a b : Result} (ha : Answers a) (hb : Answers b) :
    Answers (if c then a else b) := by
  split
  · exact ha
  · exact hb

theorem Answers.check (s : State) {e : Option Stop} (t : State) :
    Answers (match e with | some k => .next (s.raise k) | none => .next t) := by
  cases e with
  | some k => exact .next _
  | none => exact .next _

theorem loadInt_answers (rd rs1 : XReg) (imm : BitVec 12) (n : Nat) (extend : BitVec (8 * n) → Word) (s : State) :
    Answers (loadInt rd rs1 imm n extend s) := by
  unfold loadInt
  split <;> exact .next _

theorem storeAt_answers (rs1 : XReg) (imm : BitVec 12) (n : Nat) {m : Nat} (v : BitVec m) (s : State) :
    Answers (storeAt rs1 imm n v s) := by
  unfold storeAt
  split <;> exact .next _

theorem amo_answers (rd rs2 rs1 : XReg) (op : Word → Word → Word) (s : State) : Answers (amo rd rs2 rs1 op s) := by
  unfold amo
  split <;> exact .next _

/-- No instruction is refused and none fails: the event a body raises is part of the state it answers (R274). -/
theorem exec_answers (i : Instr) (s : State) : Answers (exec i s) := by
  cases i with
  | lb | lh | lw | lbu | lhu => exact loadInt_answers ..
  | sb | sh | sw | fsw => exact storeAt_answers ..
  | amoswapW | amoaddW | amoxorW | amoandW | amoorW | amominW | amomaxW | amominuW | amomaxuW =>
    dsimp only [exec, execAmoswapW, execAmoaddW, execAmoxorW, execAmoandW, execAmoorW, execAmominW, execAmomaxW,
      execAmominuW, execAmomaxuW]
    exact amo_answers ..
  | lrW | scW | flw =>
    dsimp only [exec, execLrW, execScW, execFlw]
    split <;> exact .next _
  | fld =>
    dsimp only [exec, execFld]
    split
    · exact .next _
    · split <;> exact .next _
  | fsd => exact .ite (.next _) (.ite (.next _) (.next _))
  | fsqrtS | fsqrtD | feqS | fltS | fleS | feqD | fltD | fleD => exact .ite (.next _) (.next _)
  | csrrw | csrrs | csrrc | vsetvli => exact .ite (.next _) (.next _)
  | vle8V | vle16V | vle32V | vlse8V | vlse16V | vlse32V => exact .check s _
  | vse8V | vse16V | vse32V | vsse8V | vsse16V | vsse32V => exact .check s _
  | vaddVV | vsubVV | vminuVV | vmaxuVV | vandVV | vorVV | vxorVV | vmseqVV | vmsneVV | vmsltVV | vmsleVV | vsllVV
  | vsrlVV | vmulVV => exact .check s _
  | vaddVX | vsubVX | vminuVX | vmaxuVX | vandVX | vorVX | vxorVX | vmseqVX | vmsneVX | vmsltVX | vmsleVX | vmsgtVX
  | vsllVX | vsrlVX | vmulVX => exact .check s _
  | vaddVI | vandVI | vorVI | vxorVI | vmseqVI | vmsneVI | vmsleVI | vmsgtVI | vsllVI | vsrlVI => exact .check s _
  | vmvXS | vmvSX | vredsumVS | vwredsumuVS => exact .check s _
  | _ => exact .next _

/-! ## The obligations -/

/-- Settles O5: the fetch fails with the event of the clause, and `step` records it at pc. -/
theorem fetchEventsStopTheRun : Obligations.FetchEventsStopTheRun := by
  intro s hrun hhost
  refine ⟨fun ha => ?_, fun ha hd => ?_, fun ha hd hadm => ?_⟩
  · exact step_of_fetch_error hrun hhost (State.fetch_of_misaligned ha)
  · exact step_of_fetch_error hrun hhost (State.fetch_of_stale ha ((dirtyHits_iff ..).2 hd))
  · have hrefused := (s.accessCheck_eq_some s.pc 4 _).2 (.inr ⟨ha, hadm, rfl⟩)
    exact step_of_fetch_error hrun hhost (State.fetch_of_refused ha ((dirtyHits_eq_false_iff ..).2 hd) hrefused)

/-- Settles O4: the fetch gives i, and retiring clears x0 exactly when the run goes on. -/
theorem stepRunsTheDecodedInstruction : Obligations.StepRunsTheDecodedInstruction := by
  intro s t i hrun hhost ha hd hadm hdec hexec
  have hfetch : s.fetch = .ok i := (s.fetch_eq_ok i).2 ⟨(low_two_bits_eq_zero_iff _).2 ha,
    (dirtyHits_eq_false_iff ..).2 hd, (s.accessCheck_eq_none s.pc 4).2 ⟨ha, hadm⟩, by rwa [s.loadValue_four]⟩
  rw [step_of_fetch_ok hrun hhost hfetch hexec]
  cases ht : t.stop with
  | none => rw [State.retire_of_running ht, if_pos rfl, ← ht]; rfl
  | some r => rw [State.retire_of_stopped ht, if_neg nofun]

/-- Settles O7: a running engine halts for the host, stops at the fetch, or runs an instruction, which always answers a
next state. -/
theorem onlyHaltedEnginesDoNotStep : Obligations.OnlyHaltedEnginesDoNotStep := by
  intro s
  refine ⟨fun r h => step_of_halted h, fun hrun => ?_⟩
  cases hhost : s.hostStop with
  | true => exact ⟨_, step_of_hostStop hrun hhost⟩
  | false =>
    cases hfetch : s.fetch with
    | error k => exact ⟨_, step_of_fetch_error hrun hhost hfetch⟩
    | ok i =>
      obtain ⟨t, ht⟩ := exec_answers i s.advance
      exact ⟨_, step_of_fetch_ok hrun hhost hfetch ht⟩

/-- Settles O8: halting leaves pc at the next instruction's address and sets the reason alone. -/
theorem hostStopHaltsBetweenInstructions : Obligations.HostStopHaltsBetweenInstructions :=
  fun _ hrun hhost => step_of_hostStop hrun hhost

end Sys2Proof.Machine

/-! PROOFS. The statements of 10_state.md: the invariant of every step (R19, R28, R209), x0 (R19), and the registers that hold
the vector configuration (R29, R30). -/

namespace Sys2Proof

/-! ## A decoded instruction is well formed

The decoder builds an instruction from the row that the word matches. An offset field has no bit 0 of its own (R53), and a
row with an rm field is refused when rm is reserved (R55). -/

theorem evenBranchOffset_immBField (w : Word) : evenBranchOffset (immBField w) = true := by
  rw [evenBranchOffset, getLsbD_immBField]
  rfl

theorem evenJumpOffset_immJField (w : Word) : evenJumpOffset (immJField w) = true := by
  rw [evenJumpOffset, getLsbD_immJField]
  rfl

/-- The first ten rows hold the jumps and branches, the rows with an offset field. -/
theorem wellFormed_build_of_mem_take : ∀ r ∈ opcodeMap.take 10, ∀ w, wellFormed (r.build w) = true := by
  simp only [opcodeMap, rv32iRowsA, List.cons_append, List.take_succ_cons, List.take_zero, List.forall_mem_cons]
  exact ⟨fun _ => rfl, fun _ => rfl, evenJumpOffset_immJField, fun _ => rfl, evenBranchOffset_immBField,
    evenBranchOffset_immBField, evenBranchOffset_immBField, evenBranchOffset_immBField, evenBranchOffset_immBField,
    evenBranchOffset_immBField, nofun⟩

/-- After them the decoder's check of the rm field is all that well-formedness asks for. -/
theorem wellFormed_build_of_mem_drop : ∀ r ∈ opcodeMap.drop 10,
    (fun w => wellFormed (r.build w)) = fun w => !(r.hasRm && reservedRm (rmField w)) :=
  List.map_inj_left.1 rfl

theorem wellFormed_of_decode {w : Word} {i : Instr} (h : decode w = .ok i) : wellFormed i = true := by
  obtain ⟨r, hr, -, -, -, hrm, rfl⟩ := row_of_decode h
  rw [← List.take_append_drop 10 opcodeMap] at hr
  rcases List.mem_append.1 hr with hr | hr
  · exact wellFormed_build_of_mem_take r hr w
  · rw [congrFun (wellFormed_build_of_mem_drop r hr) w, hrm, Bool.not_false]

end Sys2Proof

namespace Sys2Proof.Machine

/-! ## What each state operation does to the invariant -/

theorem even_add_four {a : Word} (h : a.getLsbD 0 = false) : (a + 4).getLsbD 0 = false := even_add h rfl

/-- The invariant reads six fields; a state that agrees on them, but for an even pc, keeps it. -/
theorem State.Inv.congr {s t : State} (h : s.Inv) (hx : t.x[0] = s.x[0]) (hpc : t.pc.getLsbD 0 = false)
    (hvtype : t.vtype = s.vtype) (hvl : t.vl = s.vl) (hmem : t.mem = s.mem) (hdirty : t.dirty = s.dirty) : t.Inv where
  x0 := hx.trans h.x0
  pcEven := hpc
  vtypeLegal := hvtype ▸ h.vtypeLegal
  vlBound := by rw [hvl, hvtype]; exact h.vlBound
  memWf := hmem ▸ h.memWf
  dirtyWf := hdirty ▸ h.dirtyWf

theorem State.Inv.setX {s : State} (h : s.Inv) (rd : XReg) (v : Word) : (s.setX rd v).Inv :=
  h.congr (s.setX_x0 rd v) h.pcEven rfl rfl rfl rfl

theorem State.Inv.setPc {s : State} (h : s.Inv) {a : Word} (ha : a.getLsbD 0 = false) : (s.setPc a).Inv :=
  h.congr rfl ha rfl rfl rfl rfl

theorem State.Inv.setF {s : State} (h : s.Inv) (rd : FReg) (v : Dword) : (s.setF rd v).Inv :=
  h.congr rfl h.pcEven rfl rfl rfl rfl

theorem State.Inv.setVr {s : State} (h : s.Inv) (v : VRegs) : (s.setVr v).Inv :=
  h.congr rfl h.pcEven rfl rfl rfl rfl

theorem State.Inv.setNV {s : State} (h : s.Inv) : s.setNV.Inv :=
  h.congr rfl h.pcEven rfl rfl rfl rfl

theorem State.Inv.csrWrite {s : State} (h : s.Inv) (n : BitVec 12) (v : Word) : (s.csrWrite n v).Inv :=
  h.congr (by simp) (by simpa using h.pcEven) (by simp) (by simp) (by simp) (by simp)

theorem State.Inv.stopAt {s : State} (h : s.Inv) {a : Word} (ha : a.getLsbD 0 = false) (r : Stop) : (s.stopAt a r).Inv :=
  h.congr rfl ha rfl rfl rfl rfl

theorem State.Inv.raise {s : State} (h : s.Inv) (r : Stop) : (s.raise r).Inv := h.stopAt (even_ipc h.pcEven) r

theorem State.Inv.halt {s : State} (h : s.Inv) (r : Stop) : (s.halt r).Inv := h.stopAt h.pcEven r

theorem State.Inv.advance {s : State} (h : s.Inv) : s.advance.Inv := h.setPc (even_add_four h.pcEven)

theorem State.Inv.clearX0 {s : State} (h : s.Inv) : s.clearX0.Inv :=
  h.congr (s.clearX0_x0.trans h.x0.symm) h.pcEven rfl rfl rfl rfl

theorem State.Inv.retire {s : State} (h : s.Inv) : s.retire.Inv := by
  cases hs : s.stop with
  | none => rw [State.retire_of_running hs]; exact h.clearX0
  | some r => rwa [State.retire_of_stopped hs]

theorem State.Inv.sqrtHalt {s : State} (h : s.Inv) (rd : FReg) : (sqrtHalt rd s).Inv :=
  ((h.setNV.setF rd (Config.drawn s.draws)).halt .fsqrtNegative).congr rfl h.pcEven rfl rfl rfl rfl

theorem State.Inv.fenceI {s : State} (h : s.Inv) : State.Inv { s with dirty := [] } where
  x0 := h.x0
  pcEven := h.pcEven
  vtypeLegal := h.vtypeLegal
  vlBound := h.vlBound
  memWf := h.memWf
  dirtyWf := rfl

/-- An accepted store ends inside the address space, so memory and Dirty keep their canonical form (R36). -/
theorem State.Inv.storeValue {s : State} (h : s.Inv) {a : Word} {n m : Nat} (v : BitVec m) (hn : n = 1 ∨ n = 2 ∨ n = 4)
    (hc : s.accessCheck a n = none) : (s.storeValue a n v).Inv :=
  have hin := aligned_access_inside a n ((s.accessCheck_eq_none a n).1 hc).1 hn
  { x0 := h.x0
    pcEven := h.pcEven
    vtypeLegal := h.vtypeLegal
    vlBound := h.vlBound
    memWf := State.storeValue_wf v hin h.memWf
    dirtyWf := State.storeValue_dirtyWf v hin h.dirtyWf }

theorem State.Inv.loadLoop {s : State} (h : s.Inv) (vd : VReg) (w : Nat) (base stride : Word) (n el : Nat) :
    (loadLoop vd w base stride n el s).Inv :=
  loadLoop_induction vd w base stride (fun _ v hs => hs.setVr v) (fun _ r hs => hs.raise r) n el s h

theorem State.Inv.storeLoop {s : State} (h : s.Inv) (vs3 : VReg) {w : Nat} (base stride : Word) (n el : Nat)
    (hw : w = 1 ∨ w = 2 ∨ w = 4) : (storeLoop vs3 w base stride n el s).Inv :=
  storeLoop_induction vs3 w base stride (fun _ _ v hc hs => hs.storeValue v hw hc) (fun _ r hs => hs.raise r) n el s h

/-- A vtypei that VSETVLI accepts is a legal vtype (R208, R209). -/
theorem legalVtype_of_supported {z : BitVec 11} (hz : vtypeiUnsupported z = false) : legalVtype (z.extractLsb' 0 5) := by
  have hlmul : (z.extractLsb' 0 5).extractLsb' 0 3 = z.extractLsb' 0 3 := by ext k hk; simp
  have hsew : (z.extractLsb' 0 5).extractLsb' 3 2 = z.extractLsb' 3 2 := by ext k hk; simp
  simp only [vtypeiUnsupported, Bool.or_eq_false_iff, decide_eq_false_iff_not, beq_eq_false_iff_ne, not_le] at hz
  obtain ⟨⟨⟨h3, h2⟩, -⟩, -⟩ := hz
  exact ⟨hlmul ▸ h3, hsew ▸ h2⟩

/-- A vector configuration of VSETVLI: a supported vtype, and a vl up to its VLMAX (R28, R208). -/
theorem State.Inv.setConfiguration {s : State} (h : s.Inv) {z : BitVec 11} {n : Nat} (hz : vtypeiUnsupported z = false)
    (hn : n ≤ vlmaxOf (z.extractLsb' 0 5)) :
    State.Inv { s with vtype := z.extractLsb' 0 5, vl := BitVec.ofNat 32 n } where
  x0 := h.x0
  pcEven := h.pcEven
  vtypeLegal := legalVtype_of_supported hz
  vlBound := (Nat.mod_le n _).trans hn
  memWf := h.memWf
  dirtyWf := h.dirtyWf

/-! ## Every effect, every step -/

/-- Every effect of a well-formed instruction keeps the invariant: the jumps of an ill-formed one could make pc odd. -/
theorem State.Inv.effect {i : Instr} {s t : State} (h : s.Inv) (hi : wellFormed i = true) (he : Effect i s t) : t.Inv := by
  cases he with
  | writeX rd v => exact h.setX rd v
  | writeF rd v => exact h.setF rd v
  | writeV v => exact h.setVr v
  | noChange => exact h
  | jump a ha => exact h.setPc (ha hi h.pcEven)
  | jumpLink rd v a ha => exact (h.setX rd v).setPc (ha hi h.pcEven)
  | fenceI => exact h.fenceI
  | ecall => exact h.halt .ecall
  | ebreak => exact h.halt .ebreak
  | raise r => exact h.raise r
  | invalid rd => exact h.setNV.setX rd 0
  | root rd => exact h.sqrtHalt rd
  | csr rd _ n v => exact (h.csrWrite n v).setX rd _
  | vset rd _ _ _ hz hn => exact (h.setConfiguration hz hn).setX rd _
  | store a n v hn hc => exact h.storeValue v hn hc
  | storeX a v rd w hc => exact (h.storeValue v (by simp) hc).setX rd w
  | storePair a b v w ha hb => exact (h.storeValue v (by simp) ha).storeValue w (by simp) hb
  | vload vd w base stride => exact h.loadLoop vd w base stride _ 0
  | vstore vs3 w base stride _ _ _ hw => exact h.storeLoop vs3 base stride _ 0 hw

/-- Settles O11: an event leaves an even pc, and a fetched instruction is well formed, so its effect keeps the invariant. -/
theorem stepKeepsTheInvariant : Obligations.StepKeepsTheInvariant := by
  intro s t hs hstep
  obtain ⟨-, ⟨-, rfl⟩ | ⟨-, k, -, rfl⟩ | ⟨-, i, u, hfetch, hexec, rfl⟩⟩ := step_cases hstep
  · exact hs.halt .hostStop
  · exact hs.stopAt hs.pcEven k
  · obtain ⟨-, -, -, hdecode⟩ := (s.fetch_eq_ok i).1 hfetch
    exact (hs.advance.effect (wellFormed_of_decode hdecode) (exec_effect hexec)).retire

/-! ## The vector configuration registers (R29, R30) -/

/-- The vector configuration and what is fixed for a run are the same in both states. -/
structure SameConfiguration (s t : State) : Prop where
  vl : t.vl = s.vl
  vtype : t.vtype = s.vtype
  vstart : t.vstart = s.vstart
  params : t.params = s.params
  hostStop : t.hostStop = s.hostStop

theorem SameConfiguration.loadLoop (vd : VReg) (w : Nat) (base stride : Word) (n el : Nat) (s : State) :
    SameConfiguration s (loadLoop vd w base stride n el s) := by
  obtain ⟨v, p, r, h, -⟩ := loadLoop_changes vd w base stride n el s
  exact h ▸ ⟨rfl, rfl, rfl, rfl, rfl⟩

theorem SameConfiguration.storeLoop (vs3 : VReg) (w : Nat) (base stride : Word) (n el : Nat) (s : State) :
    SameConfiguration s (storeLoop vs3 w base stride n el s) := by
  obtain ⟨m, d, p, r, h, -⟩ := storeLoop_changes vs3 w base stride n el s
  exact h ▸ ⟨rfl, rfl, rfl, rfl, rfl⟩

/-- Only the CSR with number 0x008 is vstart (R32). -/
theorem State.csrWrite_vstart_of_ne (s : State) {n : BitVec 12} (v : Word) (h : n ≠ 0x008) :
    (s.csrWrite n v).vstart = s.vstart := by
  unfold State.csrWrite
  rw [if_neg h]
  split_ifs <;> rfl

/-- An effect keeps the configuration, or it is that of a CSR instruction or of VSETVLI. -/
theorem Effect.configuration {i : Instr} {s t : State} (h : Effect i s t) : SameConfiguration s t ∨
    (∃ rd rs1 n v w, (i = .csrrw rd n rs1 ∨ i = .csrrs rd n rs1 ∨ i = .csrrc rd n rs1) ∧ t = (s.csrWrite n v).setX rd w) ∨
    ∃ rd rs1 z vt n w, i = .vsetvli rd rs1 z ∧ t = State.setX { s with vtype := vt, vl := n } rd w := by
  cases h with
  | csr rd rs1 n v hi => exact .inr (.inl ⟨rd, rs1, n, v, _, hi, rfl⟩)
  | vset rd rs1 z => exact .inr (.inr ⟨rd, rs1, z, _, _, _, rfl, rfl⟩)
  | vload => exact .inl (.loadLoop ..)
  | vstore => exact .inl (.storeLoop ..)
  | _ => exact .inl ⟨rfl, rfl, rfl, rfl, rfl⟩

/-- Settles O53: only VSETVLI and the CSR instructions reach the configuration, and these write vstart alone of it. -/
theorem configurationChangesOnlyByItsInstructions : Obligations.ConfigurationChangesOnlyByItsInstructions := by
  intro s t i hexec
  obtain ⟨hvl, hvtype, hvstart, hparams, hhost⟩ | ⟨rd, rs1, n, v, w, hi, rfl⟩ | ⟨rd, rs1, z, vt, n, w, rfl, rfl⟩ :=
    (exec_effect hexec).configuration
  · exact ⟨fun h => (h.elim (· hvl) (· hvtype)).elim, fun h => (h hvstart).elim, hparams, hhost⟩
  · refine ⟨by simp, fun h => ?_, by simp, by simp⟩
    obtain rfl : n = 0x008 := of_not_not fun hn => h (s.csrWrite_vstart_of_ne v hn)
    exact ⟨rd, rs1, hi⟩
  · exact ⟨fun _ => ⟨rd, rs1, z, rfl⟩, fun h => (h rfl).elim, rfl, rfl⟩

/-! ## x0 (R19) -/

/-- Settles O12: a step that goes on ends by clearing x0, and the two others end the run. -/
theorem zeroRegisterHoldsZero : Obligations.ZeroRegisterHoldsZero := by
  refine ⟨fun s t hstep hrun => ?_, State.readX_zero⟩
  obtain ⟨-, ⟨-, rfl⟩ | ⟨-, k, -, rfl⟩ | ⟨-, i, u, -, -, rfl⟩⟩ := step_cases hstep
  · cases hrun
  · cases hrun
  · cases hu : u.stop with
    | none => rw [State.retire_of_running hu, State.clearX0_x0]
    | some r => rw [State.retire_of_stopped hu, hu] at hrun; cases hrun

end Sys2Proof.Machine

/-! PROOFS. The statements of 20_memory.md: where memory and Dirty change (R37, R42, R48), and that a load reads the latest
store (R38, R45). -/

namespace Sys2Proof.Machine

/-! ## Changes made by admitted stores -/

/-- From s to t memory changed by admitted stores alone: a byte that differs is Dirty and lies in an admitted access, and
Dirty lost nothing (R36, R37, R48). -/
structure ChangedByStores (s t : State) : Prop where
  params : t.params = s.params
  changed : ∀ c, t.mem.read c ≠ s.mem.read c → c ∈ t.dirty ∧ ∃ a n, s.params.admits a n = true ∧ a ≤ c ∧ c < a + n
  dirty : ∀ c ∈ s.dirty, c ∈ t.dirty

theorem ChangedByStores.refl (s : State) : ChangedByStores s s where
  params := rfl
  changed _ h := (h rfl).elim
  dirty _ h := h

/-- A byte that differs after both was changed by the first or by the second. -/
theorem ChangedByStores.trans {s t u : State} (h : ChangedByStores s t) (h' : ChangedByStores t u) : ChangedByStores s u where
  params := h'.params.trans h.params
  changed c hc := by
    by_cases ht : t.mem.read c = s.mem.read c
    · rw [← h.params]
      exact h'.changed c (ht ▸ hc)
    · obtain ⟨hdirty, hadmitted⟩ := h.changed c ht
      exact ⟨h'.dirty c hdirty, hadmitted⟩
  dirty c hc := h'.dirty c (h.dirty c hc)

/-- An update that leaves memory, Dirty and the parameters alone adds no change. -/
theorem ChangedByStores.congr {s t u : State} (h : ChangedByStores s t) (hparams : u.params = t.params) (hmem : u.mem = t.mem)
    (hdirty : u.dirty = t.dirty) : ChangedByStores s u where
  params := hparams.trans h.params
  changed := by rw [hmem, hdirty]; exact h.changed
  dirty := by rw [hdirty]; exact h.dirty

/-- The stored run is the admitted access, and all its bytes become Dirty (R36). -/
theorem ChangedByStores.storeValue {s : State} {a : Word} {n m : Nat} (v : BitVec m) (hc : s.accessCheck a n = none) :
    ChangedByStores s (s.storeValue a n v) where
  params := rfl
  changed c h := by
    have hin : a.toNat ≤ c ∧ c < a.toNat + n := by
      by_contra hout
      exact h (s.storeValue_read_outside a n v c (by omega))
    exact ⟨(s.mem_dirty_storeValue a n v c).2 (.inl hin), a.toNat, n, ((s.accessCheck_eq_none a n).1 hc).2, hin⟩
  dirty c h := (s.mem_dirty_storeValue a n v c).2 (.inr h)

/-- The stores of a vector store are admitted one by one, and the event that may end them changes no byte (R211, R212). -/
theorem ChangedByStores.storeLoop (vs3 : VReg) (w : Nat) (base stride : Word) (n el : Nat) (s : State) :
    ChangedByStores s (storeLoop vs3 w base stride n el s) :=
  storeLoop_induction vs3 w base stride (fun _ _ v hc h => h.trans (.storeValue v hc)) (fun _ _ h => h.congr rfl rfl rfl)
    n el s (.refl s)

theorem loadLoop_mem_dirty (vd : VReg) (w : Nat) (base stride : Word) (n el : Nat) (s : State) :
    (loadLoop vd w base stride n el s).mem = s.mem ∧ (loadLoop vd w base stride n el s).dirty = s.dirty := by
  obtain ⟨v, p, r, h, -⟩ := loadLoop_changes vd w base stride n el s
  exact h ▸ ⟨rfl, rfl⟩

/-- An effect leaves memory and Dirty alone, or is FENCE.I's, or is made of admitted stores. -/
theorem Effect.memory {i : Instr} {s t : State} (h : Effect i s t) : (t.mem = s.mem ∧ t.dirty = s.dirty) ∨
    (t.mem = s.mem ∧ ∃ imm rs1 rd, i = .fenceI imm rs1 rd) ∨ (storesMemory i = true ∧ ChangedByStores s t) := by
  cases h with
  | fenceI imm rs1 rd => exact .inr (.inl ⟨rfl, imm, rs1, rd, rfl⟩)
  | store a n v _ hc hi => exact .inr (.inr ⟨hi, .storeValue v hc⟩)
  | storeX a v rd w hc hi => exact .inr (.inr ⟨hi, (ChangedByStores.storeValue v hc).congr rfl rfl rfl⟩)
  | storePair a b v w ha hb hi => exact .inr (.inr ⟨hi, (ChangedByStores.storeValue v ha).trans (.storeValue w hb)⟩)
  | vstore vs3 w base stride _ _ hi => exact .inr (.inr ⟨hi, .storeLoop ..⟩)
  | vload vd w base stride => exact .inl (loadLoop_mem_dirty ..)
  | csr rd rs1 n v => exact .inl ⟨s.csrWrite_mem n v, s.csrWrite_dirty n v⟩
  | _ => exact .inl ⟨rfl, rfl⟩

/-- Settles O54: only admitted stores reach memory and only FENCE.I empties Dirty, by what an effect does to the two. -/
theorem memoryChangesOnlyWhereAdmitted : Obligations.MemoryChangesOnlyWhereAdmitted := by
  intro s t i hexec
  obtain ⟨hmem, hdirty⟩ | ⟨hmem, hfence⟩ | ⟨hstores, hchanges⟩ := (exec_effect hexec).memory
  · exact ⟨fun h => (h hmem).elim, fun c h => (h (by rw [hmem])).elim, fun ⟨c, hc, hlost⟩ => (hlost (hdirty ▸ hc)).elim⟩
  · exact ⟨fun h => (h hmem).elim, fun c h => (h (by rw [hmem])).elim, fun _ => hfence⟩
  · exact ⟨fun _ => hstores, hchanges.changed, fun ⟨c, hc, hlost⟩ => (hlost (hchanges.dirty c hc)).elim⟩

/-! ## A load after a store -/

/-- The statements' address is the effective address of the meanings (R77). -/
theorem State.address_eq_ea (s : State) (rs1 : XReg) (imm : BitVec 12) : s.address rs1 imm = s.ea rs1 imm := rfl

@[simp] theorem State.address_storeValue (s : State) (a : Word) (n : Nat) {m : Nat} (v : BitVec m) (rs1 : XReg)
    (imm : BitVec 12) : (s.storeValue a n v).address rs1 imm = s.address rs1 imm := rfl

theorem State.Accessible.check {s : State} {a : Word} {n : Nat} (h : s.Accessible a n) : s.accessCheck a n = none :=
  (s.accessCheck_eq_none a n).2 h

/-- An accepted integer load writes the value in memory, extended, to x[rd] (R77). -/
theorem loadInt_of_accessible {s : State} {rs1 : XReg} {imm : BitVec 12} {n : Nat} (rd : XReg)
    (extend : BitVec (8 * n) → Word) (h : s.Accessible (s.address rs1 imm) n) :
    loadInt rd rs1 imm n extend s = .next (s.setX rd (extend (s.loadValue (s.address rs1 imm) n))) := by
  rw [State.address_eq_ea] at h ⊢
  rw [loadInt, State.memRead_of_none h.check]

/-- An accepted integer store stores the value's low bytes (R77). -/
theorem storeAt_of_accessible {s : State} {rs1 : XReg} {imm : BitVec 12} {n m : Nat} (v : BitVec m)
    (h : s.Accessible (s.address rs1 imm) n) :
    storeAt rs1 imm n v s = .next (s.storeValue (s.address rs1 imm) n v) := by
  rw [State.address_eq_ea] at h ⊢
  rw [storeAt, State.memWrite_of_none h.check]

/-- An instruction whose meaning is one write of x[rd] changes nothing else (R19). -/
theorem writesX_of_exec {i : Instr} {s : State} {rd : XReg} {v : Word} (h : exec i s = .next (s.setX rd v)) :
    WritesX i s rd v :=
  ⟨_, h, fun r => s.readX_setX rd r v, s.setX_frame rd v⟩

theorem exec_lw_of_accessible {s : State} {rs1 : XReg} {imm : BitVec 12} (rd : XReg)
    (h : s.Accessible (s.address rs1 imm) 4) :
    exec (.lw rd rs1 imm) s = .next (s.setX rd (s.loadValue (s.address rs1 imm) 4)) :=
  loadInt_of_accessible (n := 4) rd id h

theorem exec_sw_of_accessible {s : State} {rs1 : XReg} {imm : BitVec 12} (rs2 : XReg)
    (h : s.Accessible (s.address rs1 imm) 4) :
    exec (.sw rs2 rs1 imm) s = .next (s.storeValue (s.address rs1 imm) 4 (s.readX rs2)) :=
  storeAt_of_accessible (s.readX rs2) h

/-- Settles O58: SW leaves the registers and the parameters, so LW accepts the same address and reads the stored word. -/
theorem loadsReadTheLatestStore : Obligations.LoadsReadTheLatestStore := by
  intro s t rs2 rs1 rd imm hacc hexec
  rw [exec_sw_of_accessible rs2 hacc] at hexec
  obtain rfl := Host.Outcome.next.inj hexec
  have hread := s.loadValue_storeValue (s.address rs1 imm) 4 (s.readX rs2)
  have hlw := exec_lw_of_accessible (s := s.storeValue (s.address rs1 imm) 4 (s.readX rs2)) (rs1 := rs1) (imm := imm) rd hacc
  rw [State.address_storeValue, hread] at hlw
  exact writesX_of_exec hlw

end Sys2Proof.Machine

/-! PROOFS. The statements of 30_encoding.md (R50 to R58): encoding and decoding undo each other, and a fetched word that is no
encoding ends the run (R55, R275). -/

namespace Sys2Proof.Laws.EncodedWord

/-- The lemmas of the constructors together, in the constructors' order. -/
theorem statement (i : Instr) : Statement i :=
  Instr.rec (motive := Statement)
    lui auipc jal jalr beq bne blt bge bltu bgeu lb lh lw lbu lhu sb sh sw addi slti sltiu xori ori andi slli srli srai
    add sub sll slt sltu xor srl sra or and fence fenceI ecall ebreak mul mulh mulhsu mulhu div divu rem remu lrW scW
    amoswapW amoaddW amoxorW amoandW amoorW amominW amomaxW amominuW amomaxuW flw fsw fmaddS fmsubS fnmsubS fnmaddS
    faddS fsubS fmulS fdivS fsqrtS fsgnjS fsgnjnS fsgnjxS fminS fmaxS feqS fltS fleS fcvtWS fcvtWUS fcvtSW fcvtSWU fmvXW
    fmvWX fld fsd fmaddD fmsubD fnmsubD fnmaddD faddD fsubD fmulD fdivD fsqrtD fsgnjD fsgnjnD fsgnjxD fminD fmaxD feqD
    fltD fleD fcvtWD fcvtWUD fcvtDW fcvtDWU fcvtSD fcvtDS csrrw csrrs csrrc vsetvli vle8V vlse8V vse8V vsse8V vle16V
    vlse16V vse16V vsse16V vle32V vlse32V vse32V vsse32V vaddVV vaddVX vaddVI vsubVV vsubVX vminuVV vminuVX vmaxuVV
    vmaxuVX vandVV vandVX vandVI vorVV vorVX vorVI vxorVV vxorVX vxorVI vmseqVV vmseqVX vmseqVI vmsneVV vmsneVX vmsneVI
    vmsltVV vmsltVX vmsleVV vmsleVX vmsleVI vmsgtVX vmsgtVI vsllVV vsllVX vsllVI vsrlVV vsrlVX vsrlVI vmulVV vmulVX
    vredsumVS vwredsumuVS vmvXS vmvSX i

end Sys2Proof.Laws.EncodedWord

namespace Sys2Proof

theorem decode_encode {i : Instr} (hi : wellFormed i = true) : decode (encode i) = .ok i := by
  obtain ⟨r, hr, haccepts, h0, h2, hbuild⟩ := Laws.EncodedWord.statement i
  obtain ⟨hrm, hi⟩ := hbuild hi
  rw [decode_of_row hr haccepts h0 h2 hrm, hi]

/-! ## A word is laid out from its own fields

Each format of R51 and R52, filled with the fields that the decoder reads from a word, gives the word again. -/

theorem encR_fields (w : Word) : encR (w.extractLsb' 25 7) (w.extractLsb' 20 5) (w.extractLsb' 15 5) (w.extractLsb' 12 3)
    (w.extractLsb' 7 5) (w.extractLsb' 0 7) = w := by
  ext k hk
  simp only [← BitVec.getLsbD_eq_getElem, getLsbD_encR, BitVec.getLsbD_extractLsb']
  interval_cases k <;> rfl

theorem encI_fields (w : Word) : encI (w.extractLsb' 20 12) (w.extractLsb' 15 5) (w.extractLsb' 12 3) (w.extractLsb' 7 5)
    (w.extractLsb' 0 7) = w := by
  ext k hk
  simp only [← BitVec.getLsbD_eq_getElem, getLsbD_encI, BitVec.getLsbD_extractLsb']
  interval_cases k <;> rfl

theorem encS_fields (w : Word) : encS (immSField w) (w.extractLsb' 20 5) (w.extractLsb' 15 5) (w.extractLsb' 12 3)
    (w.extractLsb' 0 7) = w := by
  ext k hk
  simp only [← BitVec.getLsbD_eq_getElem, getLsbD_encS, BitVec.getLsbD_extractLsb', getLsbD_immSField]
  interval_cases k <;> rfl

theorem encB_fields (w : Word) : encB (immBField w) (w.extractLsb' 20 5) (w.extractLsb' 15 5) (w.extractLsb' 12 3)
    (w.extractLsb' 0 7) = w := by
  ext k hk
  simp only [← BitVec.getLsbD_eq_getElem, getLsbD_encB, BitVec.getLsbD_extractLsb', getLsbD_immBField]
  interval_cases k <;> rfl

theorem encU_fields (w : Word) : encU (w.extractLsb' 12 20) (w.extractLsb' 7 5) (w.extractLsb' 0 7) = w := by
  ext k hk
  simp only [← BitVec.getLsbD_eq_getElem, getLsbD_encU, BitVec.getLsbD_extractLsb']
  interval_cases k <;> rfl

theorem encJ_fields (w : Word) : encJ (immJField w) (w.extractLsb' 7 5) (w.extractLsb' 0 7) = w := by
  ext k hk
  simp only [← BitVec.getLsbD_eq_getElem, getLsbD_encJ, BitVec.getLsbD_extractLsb', getLsbD_immJField]
  interval_cases k <;> rfl

theorem encR4_fields (w : Word) : encR4 (w.extractLsb' 27 5) (w.extractLsb' 25 2) (w.extractLsb' 20 5) (w.extractLsb' 15 5)
    (w.extractLsb' 12 3) (w.extractLsb' 7 5) (w.extractLsb' 0 7) = w := by
  ext k hk
  simp only [← BitVec.getLsbD_eq_getElem, getLsbD_encR4, BitVec.getLsbD_extractLsb']
  interval_cases k <;> rfl

theorem encAmo_fields (w : Word) : encAmo (w.extractLsb' 27 5) (aqField w) (rlField w) (w.extractLsb' 20 5)
    (w.extractLsb' 15 5) (w.extractLsb' 12 3) (w.extractLsb' 7 5) (w.extractLsb' 0 7) = w := by
  ext k hk
  simp only [← BitVec.getLsbD_eq_getElem, getLsbD_encAmo, BitVec.getLsbD_extractLsb', aqField, rlField]
  interval_cases k <;> simp

/-- FENCE's three fields fill the immediate of the I format. -/
theorem append_fence_fields (w : Word) : fmField w ++ predField w ++ succField w = w.extractLsb' 20 12 := by
  rw [fmField, predField, succField, BitVec.extractLsb'_append_extractLsb'_eq_extractLsb' (show 28 = 24 + 4 from rfl),
    BitVec.extractLsb'_append_extractLsb'_eq_extractLsb' (show 24 = 20 + 4 from rfl)]

/-- VSETVLI's leading bit and its vtypei fill the immediate of the I format. -/
theorem append_vsetvli_fields (w : Word) : w.extractLsb' 31 1 ++ zimmField w = w.extractLsb' 20 12 := by
  rw [zimmField, BitVec.extractLsb'_append_extractLsb'_eq_extractLsb' (show 31 = 20 + 11 from rfl)]

/-! ## What a row builds encodes to the word -/

/-- The bits of a field, which are the row's own where the row fixes them all, and the word's elsewhere. -/
def OpRow.field (r : OpRow) (w : Word) (start len : Nat) : BitVec len :=
  if r.mask.extractLsb' start len = BitVec.allOnes len then r.pattern.extractLsb' start len else w.extractLsb' start len

theorem OpRow.field_of_accepts {r : OpRow} {w : Word} (h : r.accepts w = true) (start len : Nat) :
    r.field w start len = w.extractLsb' start len := by
  have hpattern : w &&& r.mask = r.pattern := by simpa [OpRow.accepts] using h
  unfold OpRow.field
  split_ifs with hfixed
  · rw [← hpattern, BitVec.extractLsb'_and, hfixed, BitVec.and_allOnes]
  · rfl

/-- The formats of R51 and R52. FENCE and VSETVLI have an I format with a divided immediate. -/
inductive WordFormat where
  | r | i | s | b | u | j | r4 | amo | fence | vsetvli

/-- A word laid out in a format, from the row's fixed fields and the word's others. -/
def OpRow.layOut (r : OpRow) (w : Word) : WordFormat → Word
  | .r => encR (r.field w 25 7) (r.field w 20 5) (r.field w 15 5) (r.field w 12 3) (r.field w 7 5) (r.field w 0 7)
  | .i => encI (r.field w 20 12) (r.field w 15 5) (r.field w 12 3) (r.field w 7 5) (r.field w 0 7)
  | .s => encS (immSField w) (r.field w 20 5) (r.field w 15 5) (r.field w 12 3) (r.field w 0 7)
  | .b => encB (immBField w) (r.field w 20 5) (r.field w 15 5) (r.field w 12 3) (r.field w 0 7)
  | .u => encU (r.field w 12 20) (r.field w 7 5) (r.field w 0 7)
  | .j => encJ (immJField w) (r.field w 7 5) (r.field w 0 7)
  | .r4 => encR4 (r.field w 27 5) (r.field w 25 2) (r.field w 20 5) (r.field w 15 5) (r.field w 12 3) (r.field w 7 5)
      (r.field w 0 7)
  | .amo => encAmo (r.field w 27 5) (aqField w) (rlField w) (r.field w 20 5) (r.field w 15 5) (r.field w 12 3)
      (r.field w 7 5) (r.field w 0 7)
  | .fence => encI (fmField w ++ predField w ++ succField w) (r.field w 15 5) (r.field w 12 3) (r.field w 7 5) (r.field w 0 7)
  | .vsetvli => encI (r.field w 31 1 ++ zimmField w) (r.field w 15 5) (r.field w 12 3) (r.field w 7 5) (r.field w 0 7)

/-- Every format lays out a word that the row accepts as the word itself. -/
theorem OpRow.layOut_of_accepts {r : OpRow} {w : Word} (h : r.accepts w = true) (f : WordFormat) : r.layOut w f = w := by
  have hfield := OpRow.field_of_accepts h
  cases f with
  | r => simp only [OpRow.layOut, hfield, encR_fields]
  | i => simp only [OpRow.layOut, hfield, encI_fields]
  | s => simp only [OpRow.layOut, hfield, encS_fields]
  | b => simp only [OpRow.layOut, hfield, encB_fields]
  | u => simp only [OpRow.layOut, hfield, encU_fields]
  | j => simp only [OpRow.layOut, hfield, encJ_fields]
  | r4 => simp only [OpRow.layOut, hfield, encR4_fields]
  | amo => simp only [OpRow.layOut, hfield, encAmo_fields]
  | fence => simp only [OpRow.layOut, hfield, append_fence_fields, encI_fields]
  | vsetvli => simp only [OpRow.layOut, hfield, append_vsetvli_fields, encI_fields]

/-- The format of a row, by its opcode (R51, R52, R58): I for SYSTEM, R for the others that fix bits 31:25. -/
def OpRow.format (r : OpRow) : WordFormat :=
  if r.pattern.extractLsb' 0 7 = 0b1110011#7 then .i
  else if r.mask.extractLsb' 25 7 = BitVec.allOnes 7 then .r
  else match (r.pattern.extractLsb' 0 7).toNat with
    | 0b0110111 | 0b0010111 => .u
    | 0b1101111 => .j
    | 0b1100011 => .b
    | 0b0100011 | 0b0100111 => .s
    | 0b0101111 => .amo
    | 0b1000011 | 0b1000111 | 0b1001011 | 0b1001111 => .r4
    | 0b1010111 => .vsetvli
    | 0b0001111 => if r.pattern.extractLsb' 12 3 = 0 then .fence else .i
    | _ => .i

/-- The encoder lays out the instruction that a row builds in the row's format, with the row's fixed fields. -/
theorem encode_build : ∀ r ∈ opcodeMap, (fun w => encode (r.build w)) = fun w => r.layOut w r.format :=
  List.map_inj_left.1 rfl

/-! ## Decoding and encoding undo each other -/

/-- A word decodes to an instruction exactly when it is the encoding of it and the instruction is well formed (R55). -/
theorem decode_eq_ok_iff {w : Word} {i : Instr} : decode w = .ok i ↔ wellFormed i = true ∧ encode i = w := by
  constructor
  · intro h
    obtain ⟨r, hr, haccepts, -, -, -, rfl⟩ := row_of_decode h
    exact ⟨wellFormed_of_decode h, (congrFun (encode_build r hr) w).trans (r.layOut_of_accepts haccepts r.format)⟩
  · rintro ⟨hi, rfl⟩
    exact decode_encode hi

/-- Settles O2: the instruction's row accepts the encoding and reads every operand back. -/
theorem encodedInstructionsDecodeBack : Obligations.EncodedInstructionsDecodeBack :=
  fun _ hi => decode_encode hi

/-- Settles O3: the row's format, filled with the row's fixed fields and the word's others, is the word. -/
theorem decodedWordsReencode : Obligations.DecodedWordsReencode :=
  fun _ _ h => decode_eq_ok_iff.1 h

/-- Settles O1: each word is the encoding of its instruction. -/
theorem specWordsDecode : Obligations.SpecWordsDecode := by
  simp only [Obligations.SpecWordsDecode, decode_eq_ok_iff]
  decide

end Sys2Proof

namespace Sys2Proof.Machine

/-! ## A fetched word that decodes to nothing -/

/-- A word that does not decode is recorded by the fetch's last event (R55, R279). -/
theorem State.fetch_of_undecoded {s : State} {e : DecodeError} (ha : s.pc.toNat % 4 = 0)
    (hd : dirtyHits s.dirty s.pc.toNat 4 = false) (hadm : s.params.admits s.pc.toNat 4 = true)
    (he : decode (s.wordAt s.pc) = .error e) : s.fetch = .error (.illegalInstruction (s.wordAt s.pc)) := by
  have hlow := (low_two_bits_eq_zero_iff s.pc).2 ha
  have hread := State.memRead_of_none ((s.accessCheck_eq_none s.pc 4).2 ⟨ha, hadm⟩)
  rw [s.loadValue_four] at hread
  rw [State.fetch, if_neg (not_not.2 hlow), if_neg (by simp [hd]), hread]
  simp only [he]

/-- Settles O6: a word that decoded would be the encoding of a well-formed instruction, so this one does not. -/
theorem unknownWordsStopTheRun : Obligations.UnknownWordsStopTheRun := by
  intro s hrun hhost ha hd hadm hunknown
  cases hdecode : decode (s.wordAt s.pc) with
  | ok i =>
    obtain ⟨hi, hencode⟩ := decode_eq_ok_iff.1 hdecode
    exact (hunknown i hi hencode).elim
  | error e =>
    exact step_of_fetch_error hrun hhost (State.fetch_of_undecoded ha ((dirtyHits_eq_false_iff ..).2 hd) hadm hdecode)

end Sys2Proof.Machine

/-! PROOFS. The statements of 40_rv32i.md (R66 to R108): the results of the integer instructions, and what each leaves unchanged. -/

namespace Sys2Proof.Machine

/-! ## The words of the meanings as the statements write them -/

/-- A sign-extended immediate is the same signed number. -/
theorem toInt_imm12Value (imm : BitVec 12) : (imm12Value imm).toInt = imm.toInt :=
  BitVec.toInt_signExtend_of_le (by decide)

/-- Placing 20 bits in bits 31:12 multiplies them by 2^12 (R53). -/
theorem immUValue_eq (imm : BitVec 20) : immUValue imm = BitVec.ofNat 32 (imm.toNat * 4096) := by
  have hlow : (0#12).toNat = 0 := rfl
  apply BitVec.eq_of_toNat_eq
  rw [immUValue, BitVec.toNat_append, hlow, Nat.or_zero, Nat.shiftLeft_eq, BitVec.toNat_ofNat]
  omega

theorem shiftAmount_eq (v : Word) : shiftAmount v = v.toNat % 32 := by
  rw [shiftAmount, BitVec.extractLsb'_toNat]
  rfl

theorem boolWord_decide (p : Prop) [Decidable p] : boolWord (decide p) = if p then 1 else 0 := by
  simp [boolWord]

theorem boolWord_slt (a b : Word) : boolWord (a.slt b) = if a.toInt < b.toInt then 1 else 0 := boolWord_decide _

theorem boolWord_ult (a b : Word) : boolWord (a.ult b) = if a.toNat < b.toNat then 1 else 0 := boolWord_decide _

theorem shiftLeft_eq_ofNat (a : Word) (n : Nat) : a <<< n = BitVec.ofNat 32 (a.toNat * 2 ^ n) := by
  rw [← Nat.shiftLeft_eq]
  rfl

theorem ushiftRight_eq_ofNat (a : Word) (n : Nat) : a >>> n = BitVec.ofNat 32 (a.toNat / 2 ^ n) := by
  rw [← Nat.shiftRight_eq_div_pow, ← BitVec.toNat_ushiftRight, BitVec.ofNat_toNat, BitVec.setWidth_eq]

/-- An arithmetic right shift is the division by a power of two, rounded down (R102). -/
theorem sshiftRight_eq_ofInt (a : Word) (n : Nat) : a.sshiftRight n = BitVec.ofInt 32 (a.toInt / 2 ^ n) := by
  rw [BitVec.sshiftRight, Int.shiftRight_eq_div_pow, Nat.cast_pow, Nat.cast_ofNat]

/-- The mask of JALR clears bit 0 (R69). -/
theorem and_not_one_eq (a : Word) : a &&& 0xFFFFFFFE#32 = BitVec.ofNat 32 (a.toNat / 2 * 2) :=
  calc a &&& 0xFFFFFFFE#32
    _ = a &&& BitVec.allOnes 32 <<< 1 := rfl
    _ = a >>> 1 <<< 1 := BitVec.shiftLeft_ushiftRight.symm
    _ = BitVec.ofNat 32 (a.toNat / 2 * 2) := by
      rw [shiftLeft_eq_ofNat, BitVec.toNat_ushiftRight, Nat.shiftRight_eq_div_pow, Nat.pow_one]

/-! ## Register-register and register-immediate instructions -/

/-- An instruction whose meaning is one write of x[rd], the value being written otherwise in the statement. -/
theorem writesX_of_exec_eq {i : Instr} {s : State} {rd : XReg} {v w : Word} (h : exec i s = .next (s.setX rd v)) (hv : v = w) :
    WritesX i s rd w :=
  hv ▸ writesX_of_exec h

/-- Settles O13: each instruction is one write of x[rd], and its operation is the arithmetic of its rule. -/
theorem integerRegisterResults : Obligations.IntegerRegisterResults := by
  intro s rd rs1 rs2 a b
  refine ⟨writesX_of_exec rfl, writesX_of_exec rfl, ?sll, ?slt, ?sltu, writesX_of_exec rfl, ?srl, ?sra, writesX_of_exec rfl,
    writesX_of_exec rfl⟩
  case sll => exact writesX_of_exec_eq rfl (congrArg (a <<< ·) (shiftAmount_eq b))
  case slt => exact writesX_of_exec_eq rfl (boolWord_slt a b)
  case sltu => exact writesX_of_exec_eq rfl (boolWord_ult a b)
  case srl => exact writesX_of_exec_eq rfl (congrArg (a >>> ·) (shiftAmount_eq b))
  case sra => exact writesX_of_exec_eq rfl (shiftAmount_eq b ▸ sshiftRight_eq_ofInt a (shiftAmount b))

/-- Settles O14: each instruction is one write of x[rd], and its immediate is the number that its rule has. -/
theorem integerImmediateResults : Obligations.IntegerImmediateResults := by
  intro s rd rs1 imm upper shamt a c
  refine ⟨?lui, ?auipc, writesX_of_exec rfl, ?slti, ?sltiu, writesX_of_exec rfl, writesX_of_exec rfl, writesX_of_exec rfl,
    ?slli, ?srli, ?srai⟩
  case lui => exact writesX_of_exec_eq rfl (immUValue_eq upper)
  case auipc => exact writesX_of_exec_eq rfl (congrArg (s.pc - 4 + ·) (immUValue_eq upper))
  case slti => exact writesX_of_exec_eq rfl (toInt_imm12Value imm ▸ boolWord_slt a (imm12Value imm))
  case sltiu => exact writesX_of_exec_eq rfl (boolWord_ult a c)
  case slli => exact writesX_of_exec_eq rfl (shiftLeft_eq_ofNat a shamt.toNat)
  case srli => exact writesX_of_exec_eq rfl (ushiftRight_eq_ofNat a shamt.toNat)
  case srai => exact writesX_of_exec_eq rfl (sshiftRight_eq_ofInt a shamt.toNat)

/-! ## Branches -/

/-- A branch whose condition is p replaces pc alone (R70). -/
theorem exec_of_branch {i : Instr} {s : State} {rs1 rs2 : XReg} {off : BitVec 13} {p : Prop} [Decidable p]
    (cond : Word → Word → Bool) (h : exec i s = branch rs1 rs2 off cond s) (hp : cond (s.readX rs1) (s.readX rs2) = true ↔ p) :
    exec i s = .next { s with pc := if p then s.pc - 4 + BitVec.ofInt 32 off.toInt else s.pc } := by
  rw [h, branch]
  by_cases hc : p
  · rw [if_pos (hp.2 hc), if_pos hc]; rfl
  · rw [if_neg (mt hp.1 hc), if_neg hc]

/-- A branch whose condition is that p fails. -/
theorem exec_of_branch_not {i : Instr} {s : State} {rs1 rs2 : XReg} {off : BitVec 13} {p : Prop} [Decidable p]
    (cond : Word → Word → Bool) (h : exec i s = branch rs1 rs2 off cond s) (hp : cond (s.readX rs1) (s.readX rs2) = true ↔ ¬ p) :
    exec i s = .next { s with pc := if p then s.pc else s.pc - 4 + BitVec.ofInt 32 off.toInt } := by
  rw [exec_of_branch cond h hp, ite_not]

/-- Settles O15: the six instructions share the branch and differ in the condition. -/
theorem branchResults : Obligations.BranchResults := by
  intro s rs1 rs2 off a b target
  refine ⟨exec_of_branch (· == ·) rfl ?eq, exec_of_branch_not (· != ·) rfl ?ne, exec_of_branch BitVec.slt rfl ?lt,
    exec_of_branch_not (!BitVec.slt · ·) rfl ?ge, exec_of_branch BitVec.ult rfl ?ltu,
    exec_of_branch_not (!BitVec.ult · ·) rfl ?geu⟩
  case eq => exact beq_iff_eq
  case ne => exact bne_iff_ne
  case lt => exact BitVec.slt_iff_toInt_lt
  case ge => rw [Bool.not_eq_true', ← Bool.not_eq_true]; exact not_congr BitVec.slt_iff_toInt_lt
  case ltu => exact BitVec.ult_iff_toNat_lt
  case geu => rw [Bool.not_eq_true', ← Bool.not_eq_true]; exact not_congr BitVec.ult_iff_toNat_lt

/-! ## Jumps -/

/-- The link is ipc + 4, which pc holds during a body (R7, R68). -/
theorem jumpLink_eq (rd : XReg) (target : Word) (s : State) :
    jumpLink rd target s = .next ((s.setX rd s.pc).setPc target) := by
  rw [jumpLink, State.ipc, BitVec.sub_add_cancel]

/-- A jump with link writes x[rd] and pc and changes nothing else (R68, R69). -/
theorem links_of_jumpLink {i : Instr} {s : State} {rd : XReg} {target target' : Word} (h : exec i s = jumpLink rd target s)
    (htarget : target = target') :
    ∃ t, exec i s = .next t ∧ t.pc = target' ∧ xWritten s t rd s.pc ∧ { t with x := s.x, pc := s.pc } = s :=
  ⟨_, h.trans (jumpLink_eq rd target s), htarget, fun r => s.readX_setX rd r s.pc, rfl⟩

/-- JAL and JALR are jumps with link. -/
theorem exec_eq_jumpLink {i : Instr} {rd rs1 : XReg} {off : BitVec 21} {imm : BitVec 12}
    (hi : i = .jal rd off ∨ i = .jalr rd rs1 imm) (s : State) : ∃ target, exec i s = jumpLink rd target s := by
  obtain rfl | rfl := hi
  · exact ⟨_, rfl⟩
  · exact ⟨_, rfl⟩

/-- Settles O16: both instructions are jumps with link, which leave the engine running; the next fetch checks their target. -/
theorem jumpResults : Obligations.JumpResults := by
  intro s rd rs1 off imm
  refine ⟨links_of_jumpLink rfl rfl, links_of_jumpLink rfl (and_not_one_eq _), fun i t hi hexec hrun hhost hbit => ?_⟩
  obtain ⟨target, hjump⟩ := exec_eq_jumpLink hi s
  rw [hjump, jumpLink] at hexec
  obtain rfl := Host.Outcome.next.inj hexec
  exact step_of_fetch_error hrun hhost (State.fetch_of_misaligned (by omega))

/-! ## Accesses to memory -/

/-- The value of an admitted read of one byte. -/
theorem State.loadValue_one (s : State) (a : Word) : s.loadValue a 1 = s.byteAt a 0 :=
  BitVec.ofNat_toNat ..

/-- The value of an admitted read of two bytes is the little-endian half-word of the statements (R38). -/
theorem State.loadValue_two (s : State) (a : Word) : s.loadValue a 2 = s.halfAt a := by
  have hbytes : leNat (s.mem.readBytes a.toNat 2) = (s.halfAt a).toNat := (toNat_append_byte (s.byteAt a 1) (s.byteAt a 0)).symm
  rw [State.loadValue, hbytes]
  exact BitVec.ofNat_toNat ..

/-- The stored bytes of a value are its runs of eight bits, the lowest first (R36, R38). -/
theorem leBytes_toNat_eq {m : Nat} (n : Nat) (v : BitVec m) :
    leBytes n v.toNat = (List.range n).map fun k => v.extractLsb' (8 * k) 8 := by
  induction n generalizing v with
  | zero => rfl
  | succ n ih =>
    have htail : v.toNat / 256 = (v >>> 8).toNat := by rw [BitVec.toNat_ushiftRight, Nat.shiftRight_eq_div_pow]
    rw [leBytes, htail, ih, List.range_succ_eq_map, List.map_cons, List.map_map]
    congr 1
    refine List.map_congr_left fun k _ => ?_
    rw [Function.comp_apply, Nat.mul_succ, Nat.add_comm, BitVec.extractLsb', BitVec.toNat_ushiftRight, ← Nat.shiftRight_add]
    rfl

/-- What a store of the low n bytes of a value stores (R36). -/
theorem stored_storeValue {m : Nat} (s : State) (a : Word) (n : Nat) (v : BitVec m) :
    Stored s (s.storeValue a n v) a ((List.range n).map fun k => v.extractLsb' (8 * k) 8) := by
  rw [← leBytes_toNat_eq]
  refine ⟨fun k hk => Memory.read_writeBytes_inside _ _ k _ hk, fun c hc => Memory.read_writeBytes_outside _ _ c _ hc, fun c => ?_⟩
  rw [leBytes_length]
  exact s.mem_dirty_storeValue a n v c

/-- An accepted store stores the low bytes and changes nothing else (R77). -/
theorem stores_of_storeAt {i : Instr} {s : State} {rs1 : XReg} {imm : BitVec 12} {n m : Nat} {v : BitVec m}
    (h : exec i s = storeAt rs1 imm n v s) (hacc : s.Accessible (s.address rs1 imm) n) :
    Stores i s (s.address rs1 imm) ((List.range n).map fun k => v.extractLsb' (8 * k) 8) :=
  ⟨_, h.trans (storeAt_of_accessible v hacc), stored_storeValue s _ n v, rfl⟩

/-- An instruction that raises the event of its access check refuses the access as R36 and R279 say. -/
theorem refusesAccess_of_accessCheck {i : Instr} {s : State} {a : Word} {n : Nat}
    (h : ∀ k, s.accessCheck a n = some k → exec i s = .next (s.raise k)) : RefusesAccess i s a n :=
  ⟨fun ha => h _ ((s.accessCheck_eq_some a n _).2 (.inl ⟨ha, rfl⟩)),
    fun ha hadm => h _ ((s.accessCheck_eq_some a n _).2 (.inr ⟨ha, hadm, rfl⟩))⟩

theorem refusesAccess_of_loadInt {i : Instr} {s : State} {rd rs1 : XReg} {imm : BitVec 12} {n : Nat}
    {extend : BitVec (8 * n) → Word} (h : exec i s = loadInt rd rs1 imm n extend s) :
    RefusesAccess i s (s.address rs1 imm) n := by
  refine refusesAccess_of_accessCheck fun k hk => ?_
  rw [State.address_eq_ea] at hk
  rw [h, loadInt, State.memRead_of_some hk]

theorem refusesAccess_of_storeAt {i : Instr} {s : State} {rs1 : XReg} {imm : BitVec 12} {n m : Nat} {v : BitVec m}
    (h : exec i s = storeAt rs1 imm n v s) : RefusesAccess i s (s.address rs1 imm) n := by
  refine refusesAccess_of_accessCheck fun k hk => ?_
  rw [State.address_eq_ea] at hk
  rw [h, storeAt, State.memWrite_of_some hk]

/-- An access of one byte is always aligned, so that only its admission can refuse it. -/
theorem RefusesAccess.byte {i : Instr} {s : State} {a : Word} (h : RefusesAccess i s a 1)
    (hadm : s.params.admits a.toNat 1 = false) : Raises i s (.accessFault a) :=
  h.2 (Nat.mod_one _) hadm

/-- An accepted load writes the extended value to x[rd] and changes nothing else (R77). -/
theorem writesX_of_loadInt {i : Instr} {s : State} {rd rs1 : XReg} {imm : BitVec 12} {n : Nat} {v : BitVec (8 * n)}
    (extend : BitVec (8 * n) → Word) (h : exec i s = loadInt rd rs1 imm n extend s) (hacc : s.Accessible (s.address rs1 imm) n)
    (hv : s.loadValue (s.address rs1 imm) n = v) : WritesX i s rd (extend v) :=
  hv ▸ writesX_of_exec (h.trans (loadInt_of_accessible rd extend hacc))

/-- Settles O17: the five instructions share the load and differ in the width and the extension. -/
theorem integerLoadResults : Obligations.IntegerLoadResults := by
  intro s rd rs1 imm ea
  have hlb : exec (.lb rd rs1 imm) s = loadInt rd rs1 imm 1 (·.signExtend 32) s := rfl
  have hlbu : exec (.lbu rd rs1 imm) s = loadInt rd rs1 imm 1 (·.setWidth 32) s := rfl
  have hlh : exec (.lh rd rs1 imm) s = loadInt rd rs1 imm 2 (·.signExtend 32) s := rfl
  have hlhu : exec (.lhu rd rs1 imm) s = loadInt rd rs1 imm 2 (·.setWidth 32) s := rfl
  have hlw : exec (.lw rd rs1 imm) s = loadInt rd rs1 imm 4 id s := rfl
  rw [BitVec.ofNat_toNat, BitVec.ofNat_toNat]
  exact ⟨fun h => writesX_of_loadInt _ hlb h (s.loadValue_one ea), fun h => writesX_of_loadInt _ hlbu h (s.loadValue_one ea),
    fun h => writesX_of_loadInt _ hlh h (s.loadValue_two ea), fun h => writesX_of_loadInt _ hlhu h (s.loadValue_two ea),
    fun h => writesX_of_loadInt _ hlw h (s.loadValue_four ea),
    fun h => ⟨(refusesAccess_of_loadInt hlb).byte h, (refusesAccess_of_loadInt hlbu).byte h⟩, refusesAccess_of_loadInt hlh,
    refusesAccess_of_loadInt hlhu, refusesAccess_of_loadInt hlw⟩

/-- Settles O18: the three instructions share the store and differ in the width. -/
theorem integerStoreResults : Obligations.IntegerStoreResults :=
  fun _ _ _ _ => ⟨stores_of_storeAt rfl, stores_of_storeAt rfl, stores_of_storeAt rfl,
    RefusesAccess.byte (refusesAccess_of_storeAt rfl), refusesAccess_of_storeAt rfl, refusesAccess_of_storeAt rfl⟩

/-! ## Fences and environment instructions -/

/-- Settles O19: each meaning is the next state that its rule has. -/
theorem fenceAndEnvironmentResults : Obligations.FenceAndEnvironmentResults :=
  fun _ _ _ _ _ _ _ => ⟨rfl, rfl, rfl, rfl⟩

end Sys2Proof.Machine

/-! PROOFS. The statements of 41_rv32m.md (R110 to R121): the results of the multiply/divide unit, and the identities between
them. -/

namespace Sys2Proof.Machine

/-! ## Products -/

/-- A word read as an unsigned number is that number modulo 2^32. -/
theorem ofInt_toNat (a : Word) : BitVec.ofInt 32 a.toNat = a := by
  rw [BitVec.ofInt_natCast, BitVec.ofNat_toNat, BitVec.setWidth_eq]

/-- The low word of a product depends on the factors modulo 2^32 alone, so that MUL serves every signedness (R114). -/
theorem ofInt_mul_of_ofInt {a b : Word} {x y : Int} (hx : BitVec.ofInt 32 x = a) (hy : BitVec.ofInt 32 y = b) :
    BitVec.ofInt 32 (x * y) = a * b := by
  rw [BitVec.ofInt_mul, hx, hy]

/-- The low word of the signed product, which is what MUL computes. -/
theorem ofInt_toInt_mul_toInt (a b : Word) : BitVec.ofInt 32 (a.toInt * b.toInt) = a * b :=
  ofInt_mul_of_ofInt BitVec.ofInt_toInt BitVec.ofInt_toInt

/-- Bits 63:32 are the quotient by 2^32, rounded down (R115). -/
theorem highWord_eq_ofInt (p : Int) : highWord p = BitVec.ofInt 32 (p / 2 ^ 32) := by
  apply BitVec.eq_of_toNat_eq
  rw [highWord, BitVec.extractLsb'_toNat, BitVec.toNat_ofInt, BitVec.toNat_ofInt, Nat.shiftRight_eq_div_pow]
  omega

theorem highWord_natCast (n : Nat) : highWord n = BitVec.ofNat 32 (n / 2 ^ 32) := by
  rw [highWord_eq_ofInt, ← BitVec.ofInt_natCast, Int.natCast_ediv, Nat.cast_pow, Nat.cast_ofNat]

/-- The low half of a 64-bit number is the number modulo 2^32. -/
theorem extractLsb'_ofInt_low (p : Int) : (BitVec.ofInt 64 p).extractLsb' 0 32 = BitVec.ofInt 32 p := by
  apply BitVec.eq_of_toNat_eq
  rw [BitVec.extractLsb'_toNat, BitVec.toNat_ofInt, BitVec.toNat_ofInt, Nat.shiftRight_zero]
  omega

/-- The high word of a product above the low one is the product modulo 2^64 (R113). -/
theorem highWord_append_mul {a b : Word} {x y : Int} (hx : BitVec.ofInt 32 x = a) (hy : BitVec.ofInt 32 y = b) :
    highWord (x * y) ++ a * b = BitVec.ofInt 64 (x * y) := by
  rw [← ofInt_mul_of_ofInt hx hy, ← extractLsb'_ofInt_low]
  exact BitVec.extractLsb'_append_extractLsb'

theorem abs_toInt_le (a : Word) : |a.toInt| ≤ 2 ^ 31 :=
  abs_le.2 ⟨a.le_toInt, a.toInt_lt.le⟩

/-- The product of a signed word and a factor below 2^32 in magnitude fits in 64 bits. -/
theorem toInt_ofInt_mul {x y : Int} (hx : |x| ≤ 2 ^ 31) (hy : |y| < 2 ^ 32) : (BitVec.ofInt 64 (x * y)).toInt = x * y := by
  have hp : |x * y| ≤ 2 ^ 31 * (2 ^ 32 - 1) := by
    rw [abs_mul]
    exact mul_le_mul hx (Int.le_sub_one_of_lt hy) (abs_nonneg y) (by decide)
  obtain ⟨hlo, hhi⟩ := abs_le.1 hp
  exact BitVec.toInt_ofInt_eq_self (by decide) (by omega) (by omega)

theorem toNat_ofInt_mul (a b : Word) : (BitVec.ofInt 64 (a.toNat * b.toNat)).toNat = a.toNat * b.toNat := by
  rw [← Nat.cast_mul, BitVec.ofInt_natCast, BitVec.toNat_ofNat]
  exact Nat.mod_eq_of_lt (Nat.mul_lt_mul'' (c := 2 ^ 32) (d := 2 ^ 32) a.isLt b.isLt)

/-! ## Quotients and remainders -/

/-- The overflow case as the statements write it (R111). -/
theorem overflow_iff (a b : Word) : a = intMin ∧ b = 0xFFFFFFFF#32 ↔ a.toInt = -2 ^ 31 ∧ b.toInt = -1 :=
  and_congr (BitVec.toInt_inj (y := intMin)).symm (BitVec.toInt_inj (y := 0xFFFFFFFF#32)).symm

/-- Outside the corners of R112, DIV is the truncated quotient. -/
theorem divSigned_eq (a b : Word) : divSigned a b = if b = 0 then 0xFFFFFFFF#32 else
    if a.toInt = -2 ^ 31 ∧ b.toInt = -1 then 0x80000000#32 else BitVec.ofInt 32 (a.toInt.tdiv b.toInt) :=
  if_congr Iff.rfl rfl (if_congr (overflow_iff a b) rfl rfl)

/-- Outside the corners of R112, REM is the remainder of the truncated quotient. -/
theorem remSigned_eq (a b : Word) : remSigned a b = if b = 0 then a else
    if a.toInt = -2 ^ 31 ∧ b.toInt = -1 then 0#32 else BitVec.ofInt 32 (a.toInt.tmod b.toInt) :=
  if_congr Iff.rfl rfl (if_congr (overflow_iff a b) rfl (congrArg (BitVec.ofInt 32) (Int.tmod_def ..).symm))

/-- For a divisor that is not 0, the overflow case included, DIV is the division of words. -/
theorem divSigned_eq_sdiv {a b : Word} (hb : b ≠ 0) : divSigned a b = a.sdiv b := by
  rw [divSigned, if_neg hb]
  by_cases ho : a = intMin ∧ b = 0xFFFFFFFF#32
  · obtain ⟨rfl, rfl⟩ := ho
    rfl
  · rw [if_neg ho, ← BitVec.toInt_sdiv_of_ne_or_ne a b (not_and_or.1 ho), BitVec.ofInt_toInt]

/-- For a divisor that is not 0, the overflow case included, REM is the remainder of words. -/
theorem remSigned_eq_srem {a b : Word} (hb : b ≠ 0) : remSigned a b = a.srem b := by
  rw [remSigned, if_neg hb]
  by_cases ho : a = intMin ∧ b = 0xFFFFFFFF#32
  · obtain ⟨rfl, rfl⟩ := ho
    rfl
  · rw [if_neg ho, ← Int.tmod_def, ← BitVec.toInt_srem, BitVec.ofInt_toInt]

/-- Outside the overflow case, quotient times divisor plus remainder is the dividend (R113). -/
theorem divSigned_mul_add_remSigned_toInt {a b : Word} (hb : b ≠ 0) (ho : ¬ (a.toInt = -2 ^ 31 ∧ b.toInt = -1)) :
    (divSigned a b).toInt * b.toInt + (remSigned a b).toInt = a.toInt := by
  rw [divSigned_eq_sdiv hb, remSigned_eq_srem hb, BitVec.toInt_srem,
    BitVec.toInt_sdiv_of_ne_or_ne a b (not_and_or.1 (mt (overflow_iff a b).1 ho)), Int.tdiv_mul_add_tmod]

/-- The same modulo 2^32, the overflow case included. -/
theorem divSigned_mul_add_remSigned {a b : Word} (hb : b ≠ 0) : divSigned a b * b + remSigned a b = a := by
  by_cases ho : a.toInt = -2 ^ 31 ∧ b.toInt = -1
  · obtain ⟨rfl, rfl⟩ := (overflow_iff a b).2 ho
    rfl
  · have hid := congrArg (BitVec.ofInt 32) (divSigned_mul_add_remSigned_toInt hb ho)
    rwa [BitVec.ofInt_add, ofInt_toInt_mul_toInt, BitVec.ofInt_toInt, BitVec.ofInt_toInt] at hid

/-- The signed remainder is smaller in magnitude than the divisor (R113). -/
theorem abs_remSigned_lt {a b : Word} (hb : b ≠ 0) : |(remSigned a b).toInt| < |b.toInt| := by
  have hpos : 0 < b.toInt.natAbs := Int.natAbs_pos.2 (mt (BitVec.toInt_inj (y := 0)).1 hb)
  rw [remSigned_eq_srem hb, BitVec.toInt_srem, Int.abs_eq_natAbs, Int.abs_eq_natAbs, Int.natAbs_tmod]
  exact Int.ofNat_lt.2 (Nat.mod_lt _ hpos)

/-- For a divisor that is not 0, DIVU and REMU are the division with remainder of the unsigned numbers (R113). -/
theorem divUnsigned_mul_add_remUnsigned {a b : Word} (hb : b ≠ 0) :
    (divUnsigned a b).toNat * b.toNat + (remUnsigned a b).toNat = a.toNat := by
  have hq : divUnsigned a b = a / b := (if_neg hb).trans BitVec.udiv_def.symm
  have hm : remUnsigned a b = a % b := (if_neg hb).trans BitVec.umod_def.symm
  rw [hq, hm, BitVec.toNat_udiv, BitVec.toNat_umod, Nat.div_add_mod']

/-! ## Results and identities -/

/-- Settles O20: each instruction is one write of x[rd], and its operation is the arithmetic of its rule. -/
theorem multiplyDivideResults : Obligations.MultiplyDivideResults := by
  intro s rd rs1 rs2 a b
  refine ⟨?mul, ?mulh, ?mulhsu, ?mulhu, ?div, writesX_of_exec rfl, ?rem, writesX_of_exec rfl⟩
  case mul => exact writesX_of_exec_eq rfl (ofInt_toInt_mul_toInt a b)
  case mulh => exact writesX_of_exec_eq rfl (highWord_eq_ofInt (a.toInt * b.toInt))
  case mulhsu => exact writesX_of_exec_eq rfl (highWord_eq_ofInt (a.toInt * b.toNat))
  case mulhu => exact writesX_of_exec_eq rfl (highWord_natCast (a.toNat * b.toNat))
  case div => exact writesX_of_exec_eq rfl (divSigned_eq a b)
  case rem => exact writesX_of_exec_eq rfl (remSigned_eq a b)

/-- What an instruction whose meaning is one write of x[rd] leaves in an rd that is not x0 (R19). -/
theorem readX_of_exec {i : Instr} {s t : State} {rd : XReg} {v : Word} (hrd : rd ≠ 0) (hi : exec i s = .next (s.setX rd v))
    (ht : exec i s = .next t) : t.readX rd = v := by
  obtain rfl := Host.Outcome.next.inj (hi.symm.trans ht)
  exact s.readX_setX_self rd v hrd

/-- What MUL leaves in an rd that is not x0 (R114). -/
theorem readX_of_mul {s t : State} {rd rs1 rs2 : XReg} (hrd : rd ≠ 0) (ht : exec (.mul rd rs1 rs2) s = .next t) :
    t.readX rd = s.readX rs1 * s.readX rs2 :=
  (readX_of_exec hrd rfl ht).trans (ofInt_toInt_mul_toInt ..)

/-- Settles O21: the identities of the operations, on the values that the instructions leave in rd. -/
theorem multiplyDivideIdentities : Obligations.MultiplyDivideIdentities := by
  intro s rd rs1 rs2 hrd a b
  refine ⟨fun hb q m hq hm => ?signed, fun hb q m hq hm => ?unsigned,
    fun l h hl => ⟨fun hh => ?mulh, fun hh => ?mulhsu, fun hh => ?mulhu⟩⟩
  case signed =>
    rw [readX_of_exec hrd rfl hq, readX_of_exec hrd rfl hm]
    exact ⟨divSigned_mul_add_remSigned hb, abs_remSigned_lt hb, divSigned_mul_add_remSigned_toInt hb⟩
  case unsigned =>
    rw [readX_of_exec hrd rfl hq, readX_of_exec hrd rfl hm]
    exact divUnsigned_mul_add_remUnsigned hb
  case mulh =>
    rw [readX_of_mul hrd hl, readX_of_exec hrd rfl hh, highWord_append_mul BitVec.ofInt_toInt BitVec.ofInt_toInt]
    exact toInt_ofInt_mul (abs_toInt_le a) ((abs_toInt_le b).trans_lt (by decide))
  case mulhsu =>
    rw [readX_of_mul hrd hl, readX_of_exec hrd rfl hh, highWord_append_mul BitVec.ofInt_toInt (ofInt_toNat b)]
    exact toInt_ofInt_mul (abs_toInt_le a) ((Nat.abs_cast b.toNat).trans_lt (Int.ofNat_lt.2 b.isLt))
  case mulhu =>
    rw [readX_of_mul hrd hl, readX_of_exec hrd rfl hh, highWord_append_mul (ofInt_toNat a) (ofInt_toNat b)]
    exact toNat_ofInt_mul a b

end Sys2Proof.Machine

/-! PROOFS. The statements of 42_rv32a.md (R122 to R135): the results of the atomic unit, and what each instruction leaves
unchanged. -/

namespace Sys2Proof.Machine

/-! ## Accepted and refused accesses -/

/-- A store of the word v followed by a write of x[rd] changes what the two write and nothing else (R19, R36). -/
theorem storesAndWritesX_of_exec {i : Instr} {s : State} {a v w : Word} {rd : XReg}
    (h : exec i s = .next ((s.storeValue a 4 v).setX rd w)) : StoresAndWritesX i s a (wordBytes v) rd w :=
  ⟨_, h, stored_storeValue s a 4 v, fun r => (s.storeValue a 4 v).readX_setX rd r w, rfl⟩

/-- An accepted LR.W writes the word in memory to x[rd] (R124). -/
theorem execLrW_of_accessible {s : State} {rs1 : XReg} (rd : XReg) (h : s.Accessible (s.readX rs1) 4) :
    execLrW rd rs1 s = .next (s.setX rd (s.wordAt (s.readX rs1))) := by
  rw [execLrW, State.memRead_of_none h.check, s.loadValue_four]

theorem execLrW_of_refused {s : State} {rs1 : XReg} {k : Stop} (rd : XReg) (h : s.accessCheck (s.readX rs1) 4 = some k) :
    execLrW rd rs1 s = .next (s.raise k) := by
  rw [execLrW, State.memRead_of_some h]

/-- An accepted SC.W stores the old x[rs2] and gives 0 (R125). -/
theorem execScW_of_accessible {s : State} {rs1 : XReg} (rd rs2 : XReg) (h : s.Accessible (s.readX rs1) 4) :
    execScW rd rs2 rs1 s = .next ((s.storeValue (s.readX rs1) 4 (s.readX rs2)).setX rd 0) := by
  rw [execScW, State.memWrite_of_none h.check]

theorem execScW_of_refused {s : State} {rs1 : XReg} {k : Stop} (rd rs2 : XReg)
    (h : s.accessCheck (s.readX rs1) 4 = some k) : execScW rd rs2 rs1 s = .next (s.raise k) := by
  rw [execScW, State.memWrite_of_some h]

/-- An accepted AMO stores the combined word and gives the old one (R123). -/
theorem amo_of_accessible {s : State} {rs1 : XReg} (rd rs2 : XReg) (op : Word → Word → Word)
    (h : s.Accessible (s.readX rs1) 4) : amo rd rs2 rs1 op s = .next
      ((s.storeValue (s.readX rs1) 4 (op (s.wordAt (s.readX rs1)) (s.readX rs2))).setX rd (s.wordAt (s.readX rs1))) := by
  rw [amo, State.memRead_of_none h.check, s.loadValue_four]

theorem amo_of_refused {s : State} {rs1 : XReg} {k : Stop} (rd rs2 : XReg) (op : Word → Word → Word)
    (h : s.accessCheck (s.readX rs1) 4 = some k) : amo rd rs2 rs1 op s = .next (s.raise k) := by
  rw [amo, State.memRead_of_some h]

/-! ## LR.W and SC.W -/

/-- Settles O22: the meanings are a load and a store of the word at x[rs1], without a reservation between them. -/
theorem loadReservedStoreConditionalResults : Obligations.LoadReservedStoreConditionalResults := by
  intro s rd rs2 rs1 aq rl a
  refine ⟨fun hacc => ⟨?load, ?store⟩, ?loadRefused, ?storeRefused⟩
  case load => exact writesX_of_exec (execLrW_of_accessible rd hacc)
  case store => exact storesAndWritesX_of_exec (execScW_of_accessible rd rs2 hacc)
  case loadRefused => exact refusesAccess_of_accessCheck fun _ hk => execLrW_of_refused rd hk
  case storeRefused => exact refusesAccess_of_accessCheck fun _ hk => execScW_of_refused rd rs2 hk

/-! ## The AMOs -/

/-- The choice of AMOMIN.W is the signed minimum (R131). -/
theorem ite_toInt_le_eq_min (a b : Word) : (if a.toInt ≤ b.toInt then a else b) = BitVec.ofInt 32 (min a.toInt b.toInt) := by
  rw [min_def, apply_ite (BitVec.ofInt 32), BitVec.ofInt_toInt, BitVec.ofInt_toInt]

/-- The choice of AMOMAX.W, which tests the operands the other way round, is the signed maximum (R132). -/
theorem ite_toInt_le_eq_max (a b : Word) : (if b.toInt ≤ a.toInt then a else b) = BitVec.ofInt 32 (max a.toInt b.toInt) := by
  rw [max_comm, max_def, apply_ite (BitVec.ofInt 32), BitVec.ofInt_toInt, BitVec.ofInt_toInt]

/-- The choice of AMOMINU.W is the unsigned minimum (R133). -/
theorem ite_toNat_le_eq_min (a b : Word) : (if a.toNat ≤ b.toNat then a else b) = BitVec.ofNat 32 (min a.toNat b.toNat) := by
  rw [min_def, apply_ite (BitVec.ofNat 32), BitVec.ofNat_toNat, BitVec.ofNat_toNat, BitVec.setWidth_eq, BitVec.setWidth_eq]

/-- The choice of AMOMAXU.W is the unsigned maximum (R134). -/
theorem ite_toNat_le_eq_max (a b : Word) : (if b.toNat ≤ a.toNat then a else b) = BitVec.ofNat 32 (max a.toNat b.toNat) := by
  rw [max_comm, max_def, apply_ite (BitVec.ofNat 32), BitVec.ofNat_toNat, BitVec.ofNat_toNat, BitVec.setWidth_eq,
    BitVec.setWidth_eq]

/-- An instruction whose meaning is the common AMO combines the old word and the old x[rs2] by its operation, or is refused. -/
theorem combines_of_amo {i : Instr} {s : State} {rd rs2 rs1 : XReg} {new : Word} (op : Word → Word → Word)
    (h : exec i s = amo rd rs2 rs1 op s) (hop : op (s.wordAt (s.readX rs1)) (s.readX rs2) = new) :
    Combines i s (s.readX rs1) rd (s.wordAt (s.readX rs1)) new :=
  ⟨fun hacc => hop ▸ storesAndWritesX_of_exec (h.trans (amo_of_accessible rd rs2 op hacc)),
    refusesAccess_of_accessCheck fun _ hk => h.trans (amo_of_refused rd rs2 op hk)⟩

/-- Settles O23: the nine instructions share the AMO and differ in the operation. -/
theorem atomicMemoryResults : Obligations.AtomicMemoryResults := by
  intro s rd rs2 rs1 aq rl a old src
  refine ⟨?swap, ?add, ?xor, ?and, ?or, ?min, ?max, ?minu, ?maxu⟩
  case swap => exact combines_of_amo (fun _ src => src) rfl rfl
  case add => exact combines_of_amo (fun old src => old + src) rfl rfl
  case xor => exact combines_of_amo (fun old src => old ^^^ src) rfl rfl
  case and => exact combines_of_amo (fun old src => old &&& src) rfl rfl
  case or => exact combines_of_amo (fun old src => old ||| src) rfl rfl
  case min => exact combines_of_amo (fun old src => if old.toInt ≤ src.toInt then old else src) rfl (ite_toInt_le_eq_min old src)
  case max => exact combines_of_amo (fun old src => if src.toInt ≤ old.toInt then old else src) rfl (ite_toInt_le_eq_max old src)
  case minu => exact combines_of_amo (fun old src => if old.toNat ≤ src.toNat then old else src) rfl (ite_toNat_le_eq_min old src)
  case maxu => exact combines_of_amo (fun old src => if src.toNat ≤ old.toNat then old else src) rfl (ite_toNat_le_eq_max old src)

end Sys2Proof.Machine

/-! PROOFS. The statements of 43_fp.md (R136 to R198): the loads and stores, the results of the floating-point units, and the
one flag they set. -/

namespace Sys2Proof.Machine

/-! ## Writes of one register -/

/-- An instruction whose meaning is one write of f[rd] changes nothing else (R22). -/
theorem writesF_of_exec {i : Instr} {s : State} {rd : FReg} {v : Dword} (h : exec i s = .next (s.setF rd v)) :
    WritesF i s rd v :=
  ⟨_, h, fun r => s.readF_setF rd r v, rfl⟩

/-- A single is written boxed (R137). -/
theorem writesF_of_exec_single {i : Instr} {s : State} {rd : FReg} {v : Word} (h : exec i s = .next (s.setS rd v)) :
    WritesF i s rd (0xFFFFFFFF#32 ++ v) :=
  writesF_of_exec h

/-- A boxed single, the value being written otherwise in the statement. -/
theorem writesF_of_exec_single_eq {i : Instr} {s : State} {rd : FReg} {v w : Word} (h : exec i s = .next (s.setS rd v))
    (hv : v = w) : WritesF i s rd (0xFFFFFFFF#32 ++ w) :=
  hv ▸ writesF_of_exec_single h

/-- A double, the value being written otherwise in the statement. -/
theorem writesF_of_exec_eq {i : Instr} {s : State} {rd : FReg} {v w : Dword} (h : exec i s = .next (s.setF rd v))
    (hv : v = w) : WritesF i s rd w :=
  hv ▸ writesF_of_exec h

/-! ## Loads -/

/-- An accepted FLW boxes the word in memory (R143). -/
theorem execFlw_of_accessible {s : State} {rs1 : XReg} {imm : BitVec 12} (rd : FReg)
    (h : s.Accessible (s.address rs1 imm) 4) :
    execFlw rd rs1 imm s = .next (s.setS rd (s.wordAt (s.address rs1 imm))) := by
  rw [execFlw, ← State.address_eq_ea, State.memRead_of_none h.check, s.loadValue_four]

theorem execFlw_of_refused {s : State} {rs1 : XReg} {imm : BitVec 12} {k : Stop} (rd : FReg)
    (h : s.accessCheck (s.address rs1 imm) 4 = some k) : execFlw rd rs1 imm s = .next (s.raise k) := by
  rw [execFlw, ← State.address_eq_ea, State.memRead_of_some h]

/-- An accepted FLD joins the two words in memory (R145). -/
theorem execFld_of_accessible {s : State} {rs1 : XReg} {imm : BitVec 12} (rd : FReg)
    (hlow : s.Accessible (s.address rs1 imm) 4) (hhigh : s.Accessible (s.address rs1 imm + 4) 4) :
    execFld rd rs1 imm s =
      .next (s.setF rd (s.wordAt (s.address rs1 imm + 4) ++ s.wordAt (s.address rs1 imm))) := by
  rw [execFld, ← State.address_eq_ea, State.memRead_of_none hlow.check, State.memRead_of_none hhigh.check,
    s.loadValue_four, s.loadValue_four]

/-- The first word of an FLD is checked first (R145). -/
theorem execFld_of_low_refused {s : State} {rs1 : XReg} {imm : BitVec 12} {k : Stop} (rd : FReg)
    (h : s.accessCheck (s.address rs1 imm) 4 = some k) : execFld rd rs1 imm s = .next (s.raise k) := by
  rw [execFld, ← State.address_eq_ea, State.memRead_of_some h]

theorem execFld_of_high_refused {s : State} {rs1 : XReg} {imm : BitVec 12} {k : Stop} (rd : FReg)
    (hlow : s.Accessible (s.address rs1 imm) 4) (h : s.accessCheck (s.address rs1 imm + 4) 4 = some k) :
    execFld rd rs1 imm s = .next (s.raise k) := by
  rw [execFld, ← State.address_eq_ea, State.memRead_of_none hlow.check, State.memRead_of_some h]

/-- Settles O24: FLW is one read of memory, FLD two in the order of their addresses, and a refused read writes no register. -/
theorem fpLoadResults : Obligations.FpLoadResults := by
  intro s rd rs1 imm ea
  refine ⟨fun h => ?flw, fun hlow hhigh => ?fld, ?flwRefused, ?fldLowRefused, fun hlow => ?fldHighRefused⟩
  case flw => exact writesF_of_exec_single (execFlw_of_accessible rd h)
  case fld => exact writesF_of_exec (execFld_of_accessible rd hlow hhigh)
  case flwRefused => exact refusesAccess_of_accessCheck fun _ hk => execFlw_of_refused rd hk
  case fldLowRefused => exact refusesAccess_of_accessCheck fun _ hk => execFld_of_low_refused rd hk
  case fldHighRefused => exact refusesAccess_of_accessCheck fun _ hk => execFld_of_high_refused rd hlow hk

/-! ## Stores -/

/-- FSW stores the low word of the register, and the bytes of the low word are the register's first bytes (R144). -/
theorem stores_fsw {s : State} {rs1 : XReg} {imm : BitVec 12} (rs2 : FReg) (h : s.Accessible (s.address rs1 imm) 4) :
    Stores (.fsw rs2 rs1 imm) s (s.address rs1 imm) (wordBytes ((s.readF rs2).extractLsb' 0 32)) := by
  have hbytes : wordBytes ((s.readF rs2).extractLsb' 0 32) =
      (List.range 4).map fun k => (s.readF rs2).extractLsb' (8 * k) 8 := by
    simp [wordBytes, List.range_succ, BitVec.extractLsb'_extractLsb'_of_le]
  exact hbytes ▸ stores_of_storeAt rfl h

/-- An FSD whose two words are accepted stores both (R146). -/
theorem execFsd_of_accessible {s : State} {rs1 : XReg} {imm : BitVec 12} (rs2 : FReg)
    (hlow : s.Accessible (s.address rs1 imm) 4) (hhigh : s.Accessible (s.address rs1 imm + 4) 4) :
    execFsd rs2 rs1 imm s = .next
      ((s.storeValue (s.address rs1 imm) 4 ((s.readF rs2).extractLsb' 0 32)).storeValue (s.address rs1 imm + 4) 4
        ((s.readF rs2).extractLsb' 32 32)) := by
  rw [State.address_eq_ea] at *
  rw [execFsd, if_neg (not_not.2 hlow.1), hlow.2, hhigh.2]
  rfl

/-- A misaligned FSD, whose two words are then both misaligned, stores nothing (R146). -/
theorem execFsd_of_misaligned {s : State} {rs1 : XReg} {imm : BitVec 12} (rs2 : FReg)
    (h : (s.address rs1 imm).toNat % 4 ≠ 0) :
    execFsd rs2 rs1 imm s = .next (s.raise (.misalignedAccess (s.address rs1 imm))) :=
  if_pos h

/-- An aligned FSD with a word that is not admitted stores nothing (R146). -/
theorem execFsd_of_not_admitted {s : State} {rs1 : XReg} {imm : BitVec 12} (rs2 : FReg)
    (haligned : (s.address rs1 imm).toNat % 4 = 0)
    (h : (s.params.admits (s.address rs1 imm).toNat 4 && s.params.admits (s.address rs1 imm + 4).toNat 4) = false) :
    execFsd rs2 rs1 imm s = .next (s.raise (.accessFault (s.fsdRefused (s.address rs1 imm)))) := by
  rw [State.address_eq_ea] at *
  rw [execFsd, if_neg (not_not.2 haligned), h]
  rfl

/-- An FSD whose first word is not admitted records its address under either reading of log 8. -/
theorem State.fsdRefused_of_low_refused {s : State} {a : Word} (h : s.params.admits a.toNat 4 = false) :
    s.fsdRefused a = a := by
  rw [State.fsdRefused, h]
  rfl

/-- The two readings of log 8 of the address that an FSD with a refused second word records. -/
theorem State.fsdRefused_of_low_admitted {s : State} {a : Word} (h : s.params.admits a.toNat 4 = true) :
    s.fsdRefused a = if s.params.fsdFaultAddress = .base then a else a + 4 := by
  rw [State.fsdRefused, if_pos h]
  cases s.params.fsdFaultAddress with
  | refusedWord => rfl
  | base => rfl

theorem refusesAccess_fsd {s : State} {rs1 : XReg} {imm : BitVec 12} (rs2 : FReg) :
    RefusesAccess (.fsd rs2 rs1 imm) s (s.address rs1 imm) 4 := by
  refine ⟨execFsd_of_misaligned rs2, fun haligned hadm => ?_⟩
  have hexec := execFsd_of_not_admitted rs2 haligned (Bool.and_eq_false_imp.2 fun h => by rw [hadm] at h; cases h)
  rwa [State.fsdRefused_of_low_refused hadm] at hexec

/-- Settles O25: FSW is one store, FSD two after both words are checked, and a refused word leaves memory as it was. -/
theorem fpStoreResults : Obligations.FpStoreResults := by
  intro s rs2 rs1 imm ea v
  refine ⟨stores_fsw rs2, fun hlow hhigh => ?fsd, refusesAccess_of_storeAt rfl, refusesAccess_fsd rs2,
    fun hlow hhigh => ?fsdHighRefused⟩
  case fsd =>
    exact ⟨_, _, execFsd_of_accessible rs2 hlow hhigh, stored_storeValue s ea 4 _, stored_storeValue _ (ea + 4) 4 _, rfl⟩
  case fsdHighRefused =>
    have hexec := execFsd_of_not_admitted rs2 hlow.1 (Bool.and_eq_false_imp.2 fun _ => hhigh)
    rwa [State.fsdRefused_of_low_admitted hlow.2] at hexec

/-! ## Raw moves -/

/-- Settles O37: each meaning is one write of a register, and the low half is the number modulo 2^32. -/
theorem fpMoveResults : Obligations.FpMoveResults := by
  intro s x f
  refine ⟨writesX_of_exec_eq rfl ?_, writesF_of_exec_single rfl⟩
  apply BitVec.eq_of_toNat_eq
  rw [BitVec.extractLsb'_toNat, Nat.shiftRight_zero, BitVec.toNat_ofNat, Nat.mod_mod]

/-! ## Sign injection -/

/-- A sign over the magnitude bits is the sign in front of the other bits (R167). -/
theorem withSign_eq_cons {n : Nat} (sign : Bool) (a : BitVec (n + 1)) : withSign sign a = BitVec.cons sign (a.setWidth n) := by
  have hlow : a.toNat % 2 ^ n < 2 ^ n := Nat.mod_lt _ (by positivity)
  apply BitVec.eq_of_toNat_eq
  rw [withSign, BitVec.toNat_ofNat, BitVec.toNat_cons', BitVec.toNat_setWidth, Nat.add_sub_cancel, Nat.pow_succ]
  generalize a.toNat % 2 ^ n = m at *
  cases sign with
  | false => simpa using Nat.mod_eq_of_lt (by omega)
  | true => simpa [Nat.shiftLeft_eq] using Nat.mod_eq_of_lt (by omega)

/-- A register's own sign over its magnitude is the register. -/
theorem withSign_msb_self {n : Nat} (a : BitVec (n + 1)) : withSign a.msb a = a := by
  rw [withSign_eq_cons, BitVec.cons_msb_setWidth]

/-- Every pattern is a sign bit in front of the magnitude bits. -/
theorem exists_eq_cons {n : Nat} (a : BitVec (n + 1)) : ∃ sign mag, a = BitVec.cons sign (mag : BitVec n) :=
  ⟨a.msb, a.setWidth n, (BitVec.cons_msb_setWidth a).symm⟩

/-- A sign over the magnitude bits as masks: the sign bit of b and the other bits of a (R168). -/
theorem withSign_eq_masks {n : Nat} (a b : BitVec (n + 1)) :
    withSign b.msb a = b &&& BitVec.cons true 0#n ||| a &&& ~~~BitVec.cons true 0#n := by
  obtain ⟨sa, ma, rfl⟩ := exists_eq_cons a
  obtain ⟨sb, mb, rfl⟩ := exists_eq_cons b
  rw [withSign_eq_cons, BitVec.not_cons, BitVec.cons_and_cons, BitVec.cons_and_cons, BitVec.cons_or_cons]
  simp

/-- A negated sign is the sign of the complement (R169). -/
theorem withSign_not_eq_masks {n : Nat} (a b : BitVec (n + 1)) :
    withSign (!b.msb) a = ~~~b &&& BitVec.cons true 0#n ||| a &&& ~~~BitVec.cons true 0#n := by
  rw [← withSign_eq_masks, BitVec.msb_not]
  simp

/-- The exclusive or of the signs flips the sign bit of a where b has it (R170). -/
theorem withSign_xor_eq_mask {n : Nat} (a b : BitVec (n + 1)) :
    withSign (a.msb ^^ b.msb) a = a ^^^ (b &&& BitVec.cons true 0#n) := by
  obtain ⟨sa, ma, rfl⟩ := exists_eq_cons a
  obtain ⟨sb, mb, rfl⟩ := exists_eq_cons b
  rw [withSign_eq_cons, BitVec.cons_and_cons, BitVec.cons_xor_cons]
  simp

/-- Settles O31: the meanings put the sign of their rule over the magnitude, which the statement writes with masks. -/
theorem signInjectionResults : Obligations.SignInjectionResults := by
  intro s rd rs1 rs2 a b d e
  exact ⟨writesF_of_exec_single_eq rfl (withSign_eq_masks a b), writesF_of_exec_single_eq rfl (withSign_not_eq_masks a b),
    writesF_of_exec_single_eq rfl (withSign_xor_eq_mask a b), writesF_of_exec_eq rfl (withSign_eq_masks d e),
    writesF_of_exec_eq rfl (withSign_not_eq_masks d e), writesF_of_exec_eq rfl (withSign_xor_eq_mask d e)⟩

/-! ## NaN-boxing -/

/-- The check of R137 on the upper half as a number. -/
theorem unbox_of_not_boxed {b : Dword} (h : b.toNat / 2 ^ 32 ≠ 0xFFFFFFFF) : unbox b = 0x7FC00000#32 := by
  refine if_neg fun hb => h ?_
  have hnum := congrArg BitVec.toNat hb
  rw [BitVec.extractLsb'_toNat, Nat.shiftRight_eq_div_pow, Nat.mod_eq_of_lt (by have := b.isLt; omega)] at hnum
  exact hnum

/-- FSGNJ.S of a register with itself reads the single and boxes it again (R137, R168). -/
theorem exec_fsgnjS_self (s : State) (rd rs1 : FReg) : exec (.fsgnjS rd rs1 rs1) s = .next (s.setS rd (s.readS rs1)) :=
  congrArg (fun v => Host.Outcome.next (s.setS rd v)) (withSign_msb_self (s.readS rs1))

/-- Settles O26: the instruction shows what a single reads as. -/
theorem singlesAreNaNBoxed : Obligations.SinglesAreNaNBoxed := by
  intro s rd rs1 v
  have hwrites := writesF_of_exec_single (exec_fsgnjS_self s rd rs1)
  refine ⟨fun h => ?_, fun h => ?_⟩
  · rwa [State.readS, unbox_of_not_boxed h] at hwrites
  · have hbox : s.readF rs1 = box v := h
    rwa [State.readS, hbox, unbox_box] at hwrites

end Sys2Proof.Machine

/-! PROOFS. The statements of 43_fp.md about rounded results (R147 to R166, R189 to R196). What the unit computes exactly is
said case by case of the operands, in the order NaN, infinity, finite; the rounding is that of Laws/Float.lean. -/

namespace Sys2Proof.Machine

/-! ## Exact ratios -/

/-- The sign of a product as a factor. -/
theorem sign_xor (a b : Bool) :
    (if (a ^^ b) then (-1 : ℚ) else 1) = (if a then -1 else 1) * (if b then -1 else 1) := by
  cases a <;> cases b <;> norm_num

/-- A signed ratio of units is zero when its numerator is. -/
theorem num_eq_zero_of_ratio {fmt : Fmt} {neg : Bool} {num den : Nat} {r : ℚ} (hd : 0 < den)
    (hr : r = (if neg then -1 else 1) * ((num / den : ℚ) / 2 ^ fmt.scale)) (h : r = 0) : num = 0 := by
  have hs : (2 : ℚ) ^ fmt.scale ≠ 0 := by positivity
  rw [hr] at h
  cases neg <;> simpa [hd.ne', hs] using h

/-- An exact ratio of zero gives the zero of its sign (R141). -/
theorem packRounded_of_zero {fmt : Fmt} {neg : Bool} {num den : Nat} {r : ℚ} (hd : 0 < den)
    (hr : r = (if neg then -1 else 1) * ((num / den : ℚ) / 2 ^ fmt.scale)) (h : r = 0) :
    packRounded fmt fmt.width (.ratio neg num den) = fpZero fmt.width neg :=
  (packRounded_ratio fmt neg num den hd).2 (num_eq_zero_of_ratio hd hr h)

/-- The signed sum of two magnitudes over a common denominator, as a number. -/
theorem signedSum_ratio (fmt : Fmt) (sa : Bool) (ma : Nat) (sb : Bool) (mb den : Nat) :
    (if (signedSum sa ma sb mb).1 then (-1 : ℚ) else 1) * (((signedSum sa ma sb mb).2 / den : ℚ) / 2 ^ fmt.scale) =
      (if sa then -1 else 1) * ((ma / den : ℚ) / 2 ^ fmt.scale) + (if sb then -1 else 1) * ((mb / den : ℚ) / 2 ^ fmt.scale) := by
  rw [← mul_div_assoc, ← mul_div_assoc, signedSum_value]
  ring

/-- A signed sum of zero over a common denominator gives the zero of R141: −0 only when both signs are. -/
theorem packRounded_signedSum_of_zero {fmt : Fmt} {sa : Bool} {ma : Nat} {sb : Bool} {mb den : Nat} {r : ℚ} (hd : 0 < den)
    (hr : r = (if (signedSum sa ma sb mb).1 then -1 else 1) * (((signedSum sa ma sb mb).2 / den : ℚ) / 2 ^ fmt.scale))
    (h : r = 0) : packRounded fmt fmt.width (.ratio (signedSum sa ma sb mb).1 (signedSum sa ma sb mb).2 den) =
      fpZero fmt.width (sa && sb) := by
  rw [packRounded_of_zero hd hr h, signedSum_zero (num_eq_zero_of_ratio hd hr h)]

/-! ## Sums and differences -/

theorem addExact_of_nan {fmt : Fmt} {a b : BitVec fmt.width} (h : fpNaN fmt a ∨ fpNaN fmt b) :
    addExact (unpack fmt a) (unpack fmt b) = .nan := by
  rcases h with h | h
  · rw [unpack_of_nan h, addExact]
  · rw [unpack_of_nan h]
    cases unpack fmt a <;> rfl

/-- The exact sum of two finite operands, as a number. -/
theorem fpReal_add (fmt : Fmt) (a b : BitVec fmt.width) :
    let sum := signedSum a.msb (unitsOf fmt (magOf a)) b.msb (unitsOf fmt (magOf b))
    fpReal fmt a + fpReal fmt b = (if sum.1 then -1 else 1) * ((sum.2 / (1 : Nat) : ℚ) / 2 ^ fmt.scale) := by
  intro sum
  rw [signedSum_ratio, Nat.cast_one, div_one, div_one, ← fpReal_eq, ← fpReal_eq]

/-- FADD is the rounded sum (R147, R153). -/
theorem isSum_fpAdd (fmt : Fmt) (a b : BitVec fmt.width) : IsSum fmt a b (fpAdd fmt a b) := by
  unfold fpAdd
  refine ⟨fun h => ?nan, fun ha hb hs => ?opposite, fun ha hb hs => ?same, fun ha hb => ?infLeft, fun ha hb => ?infRight,
    fun ha hb _ => ?rounded, fun ha hb h0 => ?zero⟩
  case nan => rw [addExact_of_nan h]; exact canonicalNaN_eq fmt
  case opposite => rw [unpack_of_inf ha, unpack_of_inf hb, addExact, if_neg hs]; exact canonicalNaN_eq fmt
  case same => rw [unpack_of_inf ha, unpack_of_inf hb, addExact, if_pos hs]; exact (eq_signed_of_inf ha).symm
  case infLeft => rw [unpack_of_inf ha, unpack_of_finite hb]; exact (eq_signed_of_inf ha).symm
  case infRight => rw [unpack_of_finite ha, unpack_of_inf hb]; exact (eq_signed_of_inf hb).symm
  case rounded =>
    rw [unpack_of_finite ha, unpack_of_finite hb]
    exact roundsTo_signed fmt _ _ 1 one_pos _ (fpReal_add fmt a b)
  case zero =>
    rw [unpack_of_finite ha, unpack_of_finite hb]
    exact packRounded_signedSum_of_zero one_pos (fpReal_add fmt a b) h0

theorem magOf_flipSign {n : Nat} (b : BitVec n) : magOf (flipSign b) = magOf b := by
  have hzero : 2 ^ (n - 1) % 2 ^ n % 2 ^ (n - 1) = 0 := by
    rw [Nat.mod_mod_of_dvd _ (Nat.pow_dvd_pow 2 (Nat.sub_le n 1)), Nat.mod_self]
  rw [magOf, flipSign, fpZero, if_pos rfl, BitVec.toNat_xor, Nat.xor_mod_two_pow, BitVec.toNat_ofNat, hzero, Nat.xor_zero, magOf]

theorem msb_flipSign (fmt : Fmt) (b : BitVec fmt.width) : (flipSign b).msb = !b.msb := by
  have hsign : (fpZero fmt.width true).msb = true := by cases fmt <;> rfl
  rw [flipSign, BitVec.msb_xor, hsign, Bool.xor_true]

/-- The fields of a pattern do not see its sign. -/
theorem fields_eq_magOf (fmt : Fmt) (b : BitVec fmt.width) :
    expField fmt b = magOf b / 2 ^ fmt.fracBits ∧ fracField fmt b = magOf b % 2 ^ fmt.fracBits := by
  have hF : 0 < 2 ^ fmt.fracBits := by positivity
  rw [magOf_eq, Nat.mul_comm, Nat.mul_add_div hF, Nat.mul_add_mod, Nat.div_eq_of_lt (fracField_lt fmt b),
    Nat.mod_eq_of_lt (fracField_lt fmt b)]
  exact ⟨rfl, rfl⟩

theorem fields_flipSign (fmt : Fmt) (b : BitVec fmt.width) :
    expField fmt (flipSign b) = expField fmt b ∧ fracField fmt (flipSign b) = fracField fmt b := by
  obtain ⟨hexp, hfrac⟩ := fields_eq_magOf fmt b
  obtain ⟨hexp', hfrac'⟩ := fields_eq_magOf fmt (flipSign b)
  rw [hexp', hfrac', magOf_flipSign]
  exact ⟨hexp.symm, hfrac.symm⟩

/-- A flipped sign is the negated value. -/
theorem unpack_flipSign (fmt : Fmt) (b : BitVec fmt.width) : unpack fmt (flipSign b) = (unpack fmt b).neg := by
  obtain ⟨hexp, hfrac⟩ := fields_flipSign fmt b
  obtain h | h | h := fp_cases fmt b
  · have hflip : fpNaN fmt (flipSign b) := ⟨hexp.trans h.1, hfrac.trans_ne h.2⟩
    rw [unpack_of_nan h, unpack_of_nan hflip, FpVal.neg]
  · have hflip : fpInf fmt (flipSign b) := ⟨hexp.trans h.1, hfrac.trans h.2⟩
    rw [unpack_of_inf h, unpack_of_inf hflip, msb_flipSign, FpVal.neg]
  · have hflip : fpFinite fmt (flipSign b) := hexp.trans_ne h
    rw [unpack_of_finite h, unpack_of_finite hflip, msb_flipSign, magOf_flipSign, FpVal.neg]

theorem fpSub_eq_fpAdd (fmt : Fmt) (a b : BitVec fmt.width) : fpSub fmt a b = fpAdd fmt a (flipSign b) := by
  rw [fpSub, fpAdd, unpack_flipSign]

/-- FSUB is the rounded sum with the sign of the second operand flipped (R148, R154). -/
theorem isSum_fpSub (fmt : Fmt) (a b : BitVec fmt.width) : IsSum fmt a (flipSign b) (fpSub fmt a b) :=
  fpSub_eq_fpAdd fmt a b ▸ isSum_fpAdd fmt a (flipSign b)

/-! ## Products -/

theorem mulExact_of_nan {fmt : Fmt} {a b : BitVec fmt.width} (h : fpNaN fmt a ∨ fpNaN fmt b) :
    mulExact fmt (unpack fmt a) (unpack fmt b) = .nan := by
  rcases h with h | h
  · rw [unpack_of_nan h, mulExact]
  · rw [unpack_of_nan h]
    cases unpack fmt a <;> rfl

/-- An infinity times a zero has no value (R141). -/
theorem mulExact_of_inf_zero {fmt : Fmt} {a b : BitVec fmt.width}
    (h : (fpInf fmt a ∧ fpFinite fmt b ∧ fpReal fmt b = 0) ∨ (fpFinite fmt a ∧ fpReal fmt a = 0 ∧ fpInf fmt b)) :
    mulExact fmt (unpack fmt a) (unpack fmt b) = .nan := by
  obtain ⟨ha, hb, h0⟩ | ⟨ha, h0, hb⟩ := h
  · rw [unpack_of_inf ha, unpack_of_finite hb, mulExact, if_pos ((fpReal_eq_zero fmt b).1 h0)]
  · rw [unpack_of_finite ha, unpack_of_inf hb, mulExact, if_pos ((fpReal_eq_zero fmt a).1 h0)]

/-- An infinity times anything else is an infinity (R141). -/
theorem mulExact_of_inf {fmt : Fmt} {a b : BitVec fmt.width}
    (h : (fpInf fmt a ∧ (fpInf fmt b ∨ (fpFinite fmt b ∧ fpReal fmt b ≠ 0))) ∨
      (fpFinite fmt a ∧ fpReal fmt a ≠ 0 ∧ fpInf fmt b)) :
    mulExact fmt (unpack fmt a) (unpack fmt b) = .inf (a.msb ^^ b.msb) := by
  obtain ⟨ha, hb | ⟨hb, h0⟩⟩ | ⟨ha, h0, hb⟩ := h
  · rw [unpack_of_inf ha, unpack_of_inf hb, mulExact]
  · rw [unpack_of_inf ha, unpack_of_finite hb, mulExact, if_neg (mt (fpReal_eq_zero fmt b).2 h0)]
  · rw [unpack_of_finite ha, unpack_of_inf hb, mulExact, if_neg (mt (fpReal_eq_zero fmt a).2 h0)]

theorem mulExact_of_finite {fmt : Fmt} {a b : BitVec fmt.width} (ha : fpFinite fmt a) (hb : fpFinite fmt b) :
    mulExact fmt (unpack fmt a) (unpack fmt b) =
      .ratio (a.msb ^^ b.msb) (unitsOf fmt (magOf a) * unitsOf fmt (magOf b)) (2 ^ fmt.scale) := by
  rw [unpack_of_finite ha, unpack_of_finite hb, mulExact]

/-- The exact product of two finite operands, as a number. -/
theorem fpReal_mul (fmt : Fmt) (a b : BitVec fmt.width) :
    fpReal fmt a * fpReal fmt b = (if (a.msb ^^ b.msb) then -1 else 1) *
      ((((unitsOf fmt (magOf a) * unitsOf fmt (magOf b) : Nat) : ℚ) / (2 ^ fmt.scale : Nat)) / 2 ^ fmt.scale) := by
  rw [fpReal_eq, fpReal_eq, sign_xor, Nat.cast_mul, Nat.cast_pow, Nat.cast_ofNat]
  ring

/-- FMUL is the rounded product (R149, R155). -/
theorem isProduct_fpMul (fmt : Fmt) (a b : BitVec fmt.width) : IsProduct fmt a b (fpMul fmt a b) := by
  unfold fpMul
  refine ⟨fun h => ?nan, fun ha hb h0 => ?infZero, fun ha h0 hb => ?zeroInf, fun ha hb => ?infLeft, fun ha h0 hb => ?infRight,
    fun ha hb _ => ?rounded, fun ha hb h0 => ?zero⟩
  case nan => rw [mulExact_of_nan h]; exact canonicalNaN_eq fmt
  case infZero => rw [mulExact_of_inf_zero (.inl ⟨ha, hb, h0⟩)]; exact canonicalNaN_eq fmt
  case zeroInf => rw [mulExact_of_inf_zero (.inr ⟨ha, h0, hb⟩)]; exact canonicalNaN_eq fmt
  case infLeft => rw [mulExact_of_inf (.inl ⟨ha, hb⟩)]; exact isInf_signed fmt _
  case infRight => rw [mulExact_of_inf (.inr ⟨ha, h0, hb⟩)]; exact isInf_signed fmt _
  case rounded =>
    rw [mulExact_of_finite ha hb]
    exact roundsTo_signed fmt _ _ _ (by positivity) _ (fpReal_mul fmt a b)
  case zero =>
    rw [mulExact_of_finite ha hb]
    exact packRounded_of_zero (by positivity) (fpReal_mul fmt a b) h0

/-! ## Quotients -/

theorem divExact_of_nan {fmt : Fmt} {a b : BitVec fmt.width} (h : fpNaN fmt a ∨ fpNaN fmt b) :
    divExact fmt (unpack fmt a) (unpack fmt b) = .nan := by
  rcases h with h | h
  · rw [unpack_of_nan h, divExact]
  · rw [unpack_of_nan h]
    cases unpack fmt a <;> rfl

/-- A finite operand over one that is not zero is a ratio of units (R141). -/
theorem divExact_of_finite {fmt : Fmt} {a b : BitVec fmt.width} (ha : fpFinite fmt a) (hb : fpFinite fmt b)
    (h0 : fpReal fmt b ≠ 0) : divExact fmt (unpack fmt a) (unpack fmt b) =
      .ratio (a.msb ^^ b.msb) (unitsOf fmt (magOf a) * 2 ^ fmt.scale) (unitsOf fmt (magOf b)) := by
  rw [unpack_of_finite ha, unpack_of_finite hb, divExact, if_neg (mt (fpReal_eq_zero fmt b).2 h0)]

/-- The exact quotient of two finite operands, as a number. -/
theorem fpReal_div (fmt : Fmt) (a b : BitVec fmt.width) :
    fpReal fmt a / fpReal fmt b = (if (a.msb ^^ b.msb) then -1 else 1) *
      ((((unitsOf fmt (magOf a) * 2 ^ fmt.scale : Nat) : ℚ) / unitsOf fmt (magOf b)) / 2 ^ fmt.scale) := by
  have hs : (2 : ℚ) ^ fmt.scale ≠ 0 := by positivity
  have hinv : (if b.msb then (-1 : ℚ) else 1)⁻¹ = if b.msb then -1 else 1 := by cases b.msb <;> norm_num
  rw [fpReal_eq, fpReal_eq, sign_xor, Nat.cast_mul, Nat.cast_pow, Nat.cast_ofNat, mul_div_mul_comm, div_eq_mul_inv (ite ..), hinv]
  field_simp

/-- FDIV is the rounded quotient (R150, R156). -/
theorem isQuotient_fpDiv (fmt : Fmt) (a b : BitVec fmt.width) : IsQuotient fmt a b (fpDiv fmt a b) := by
  unfold fpDiv
  refine ⟨fun h => ?nan, fun ha hb => ?infInf, fun ha hb ha0 hb0 => ?zeroZero, fun ha hb => ?inf, fun ha hb ha0 hb0 => ?byZero,
    fun ha hb ha0 hb0 => ?zero, fun ha hb _ hb0 => ?rounded⟩
  case nan => rw [divExact_of_nan h]; exact canonicalNaN_eq fmt
  case infInf => rw [unpack_of_inf ha, unpack_of_inf hb]; exact canonicalNaN_eq fmt
  case zeroZero =>
    rw [unpack_of_finite ha, unpack_of_finite hb, divExact, if_pos ((fpReal_eq_zero fmt b).1 hb0),
      if_pos ((fpReal_eq_zero fmt a).1 ha0)]
    exact canonicalNaN_eq fmt
  case inf => rw [unpack_of_inf ha, unpack_of_finite hb]; exact isInf_signed fmt _
  case byZero =>
    rw [unpack_of_finite ha, unpack_of_finite hb, divExact, if_pos ((fpReal_eq_zero fmt b).1 hb0),
      if_neg (mt (fpReal_eq_zero fmt a).2 ha0)]
    exact isInf_signed fmt _
  case zero =>
    have hd : 0 < unitsOf fmt (magOf b) := Nat.pos_of_ne_zero (mt (fpReal_eq_zero fmt b).2 hb0)
    rw [divExact_of_finite ha hb hb0]
    exact packRounded_of_zero hd (fpReal_div fmt a b) (by rw [ha0, zero_div])
  case rounded =>
    have hd : 0 < unitsOf fmt (magOf b) := Nat.pos_of_ne_zero (mt (fpReal_eq_zero fmt b).2 hb0)
    rw [divExact_of_finite ha hb hb0]
    exact roundsTo_signed fmt _ _ _ hd _ (fpReal_div fmt a b)

/-- Settles O27: each meaning is one boxed write of the rounded result of its operation. -/
theorem singleArithmeticResults : Obligations.SingleArithmeticResults :=
  fun s _ rs1 rs2 _ =>
    ⟨⟨_, isSum_fpAdd .single (s.readS rs1) (s.readS rs2), writesF_of_exec_single rfl⟩,
      ⟨_, isSum_fpSub .single (s.readS rs1) (s.readS rs2), writesF_of_exec_single rfl⟩,
      ⟨_, isProduct_fpMul .single (s.readS rs1) (s.readS rs2), writesF_of_exec_single rfl⟩,
      ⟨_, isQuotient_fpDiv .single (s.readS rs1) (s.readS rs2), writesF_of_exec_single rfl⟩⟩

/-- Settles O28: each meaning is one write of the rounded result of its operation. -/
theorem doubleArithmeticResults : Obligations.DoubleArithmeticResults :=
  fun s _ rs1 rs2 _ =>
    ⟨⟨_, isSum_fpAdd .double (s.readF rs1) (s.readF rs2), writesF_of_exec rfl⟩,
      ⟨_, isSum_fpSub .double (s.readF rs1) (s.readF rs2), writesF_of_exec rfl⟩,
      ⟨_, isProduct_fpMul .double (s.readF rs1) (s.readF rs2), writesF_of_exec rfl⟩,
      ⟨_, isQuotient_fpDiv .double (s.readF rs1) (s.readF rs2), writesF_of_exec rfl⟩⟩

/-! ## Fused operations -/

/-- A NaN in any place, or a product without a value, makes a fused operation's result a NaN (R141). -/
theorem fmaExact_of_nan {fmt : Fmt} (np nc : Bool) {a b c : FpVal} (h : mulExact fmt a b = .nan ∨ c = .nan) :
    fmaExact fmt np nc a b c = .nan := by
  unfold fmaExact
  rcases h with h | rfl
  · rw [h]
  · cases mulExact fmt a b <;> rfl

/-- An infinite product decides the result unless the addend is the opposite infinity (R141). -/
theorem fmaExact_of_inf_inf {fmt : Fmt} {np nc : Bool} {a b : FpVal} {sp sc : Bool} (h : mulExact fmt a b = .inf sp) :
    fmaExact fmt np nc a b (.inf sc) = if (sp ^^ np) = (sc ^^ nc) then .inf (sp ^^ np) else .nan := by
  unfold fmaExact
  rw [h]

theorem fmaExact_of_inf_fin {fmt : Fmt} {np nc : Bool} {a b : FpVal} {sp sc : Bool} {mc : Nat}
    (h : mulExact fmt a b = .inf sp) : fmaExact fmt np nc a b (.fin sc mc) = .inf (sp ^^ np) := by
  unfold fmaExact
  rw [h]

theorem fmaExact_of_ratio_inf {fmt : Fmt} {np nc : Bool} {a b : FpVal} {sp sc : Bool} {num den : Nat}
    (h : mulExact fmt a b = .ratio sp num den) : fmaExact fmt np nc a b (.inf sc) = .inf (sc ^^ nc) := by
  unfold fmaExact
  rw [h]

/-- The exact product and the addend are added over the product's denominator (R158). -/
theorem fmaExact_of_ratio_fin {fmt : Fmt} {np nc : Bool} {a b : FpVal} {sp sc : Bool} {num den mc : Nat}
    (h : mulExact fmt a b = .ratio sp num den) : fmaExact fmt np nc a b (.fin sc mc) =
      .ratio (signedSum (sp ^^ np) num (sc ^^ nc) (mc * den)).1 (signedSum (sp ^^ np) num (sc ^^ nc) (mc * den)).2 den := by
  unfold fmaExact
  rw [h]

/-- The exact value of a fused operation of finite operands, as a number (R158). -/
theorem fpReal_fused (fmt : Fmt) (np nc : Bool) (a b c : BitVec fmt.width) :
    let sum := signedSum ((a.msb ^^ b.msb) ^^ np) (unitsOf fmt (magOf a) * unitsOf fmt (magOf b)) (c.msb ^^ nc)
      (unitsOf fmt (magOf c) * 2 ^ fmt.scale)
    (if np then -1 else 1) * (fpReal fmt a * fpReal fmt b) + (if nc then -1 else 1) * fpReal fmt c =
      (if sum.1 then -1 else 1) * ((sum.2 / (2 ^ fmt.scale : Nat) : ℚ) / 2 ^ fmt.scale) := by
  intro sum
  have hs : ((2 ^ fmt.scale : Nat) : ℚ) ≠ 0 := by positivity
  rw [signedSum_ratio, fpReal_mul, fpReal_eq fmt c, sign_xor _ np, sign_xor _ nc, Nat.cast_mul (unitsOf fmt (magOf c)),
    mul_div_cancel_right₀ _ hs]
  ring

/-- The fused operations are rounded once (R158 to R166). -/
theorem isFused_fpFma (fmt : Fmt) (np nc : Bool) (a b c : BitVec fmt.width) :
    IsFused fmt np nc a b c (fpFma fmt np nc a b c) := by
  unfold fpFma IsFused
  intro sp sc p q productInf
  refine ⟨fun h => ?nan, fun h => ?noProduct, fun h hc hs => ?opposite, fun h hc => ?product, fun ha hb hc => ?addend,
    fun ha hb hc _ => ?rounded, fun ha hb hc h0 => ?zero⟩
  case nan =>
    have hnan : mulExact fmt (unpack fmt a) (unpack fmt b) = .nan ∨ unpack fmt c = .nan := by
      obtain h | h | h := h
      · exact .inl (mulExact_of_nan (.inl h))
      · exact .inl (mulExact_of_nan (.inr h))
      · exact .inr (unpack_of_nan h)
    rw [fmaExact_of_nan np nc hnan]
    exact canonicalNaN_eq fmt
  case noProduct => rw [fmaExact_of_nan np nc (.inl (mulExact_of_inf_zero h))]; exact canonicalNaN_eq fmt
  case opposite =>
    rw [unpack_of_inf hc, fmaExact_of_inf_inf (mulExact_of_inf h), if_neg hs]
    exact canonicalNaN_eq fmt
  case product =>
    obtain hc | ⟨hc, hs⟩ := hc
    · rw [unpack_of_finite hc, fmaExact_of_inf_fin (mulExact_of_inf h)]
      exact isInf_signed fmt sp
    · rw [unpack_of_inf hc, fmaExact_of_inf_inf (mulExact_of_inf h), if_pos hs]
      exact isInf_signed fmt sp
  case addend => rw [unpack_of_inf hc, fmaExact_of_ratio_inf (mulExact_of_finite ha hb)]; exact isInf_signed fmt sc
  case rounded =>
    rw [unpack_of_finite hc, fmaExact_of_ratio_fin (mulExact_of_finite ha hb)]
    exact roundsTo_signed fmt _ _ _ (by positivity) _ (fpReal_fused fmt np nc a b c)
  case zero =>
    rw [unpack_of_finite hc, fmaExact_of_ratio_fin (mulExact_of_finite ha hb)]
    exact packRounded_signedSum_of_zero (by positivity) (fpReal_fused fmt np nc a b c) h0

/-- Settles O29: each meaning is one write of the fused operation with its two signs. -/
theorem fusedResults : Obligations.FusedResults := by
  intro s rd rs1 rs2 rs3 rm a b c d e f
  exact ⟨⟨_, isFused_fpFma .single false false a b c, writesF_of_exec_single rfl⟩,
    ⟨_, isFused_fpFma .single false true a b c, writesF_of_exec_single rfl⟩,
    ⟨_, isFused_fpFma .single true false a b c, writesF_of_exec_single rfl⟩,
    ⟨_, isFused_fpFma .single true true a b c, writesF_of_exec_single rfl⟩,
    ⟨_, isFused_fpFma .double false false d e f, writesF_of_exec rfl⟩,
    ⟨_, isFused_fpFma .double false true d e f, writesF_of_exec rfl⟩,
    ⟨_, isFused_fpFma .double true false d e f, writesF_of_exec rfl⟩,
    ⟨_, isFused_fpFma .double true true d e f, writesF_of_exec rfl⟩⟩

end Sys2Proof.Machine

/-! PROOFS. The statements of 43_fp.md about square roots and conversions (R151, R152, R157, R186 to R196). -/

namespace Sys2Proof.Machine

/-! ## Square roots -/

/-- A pattern is its sign over its magnitude. -/
theorem eq_signed_magOf (fmt : Fmt) (b : BitVec fmt.width) : b = signed fmt.width b.msb (magOf b) := by
  cases fmt with
  | single => exact (withSign_msb_self b).symm
  | double => exact (withSign_msb_self b).symm

/-- The only magnitude of value zero is zero. -/
theorem magOf_eq_zero_of_fpReal {fmt : Fmt} {b : BitVec fmt.width} (h : fpReal fmt b = 0) : magOf b = 0 :=
  (unitsOf_strictMono fmt).injective (((fpReal_eq_zero fmt b).1 h).trans (unitsOf_zero fmt).symm)

theorem roundSqrt_zero (fmt : Fmt) : roundSqrt fmt 0 = 0 := by cases fmt <;> rfl

/-- A finite value is below zero when its sign is set and it is not zero. -/
theorem fpReal_neg_iff (fmt : Fmt) (a : BitVec fmt.width) :
    fpReal fmt a < 0 ↔ a.msb = true ∧ unitsOf fmt (magOf a) ≠ 0 := by
  have hs : (0 : ℚ) < 2 ^ fmt.scale := by positivity
  rw [fpReal_eq]
  cases a.msb with
  | false => simpa using div_nonneg (Nat.cast_nonneg _) hs.le
  | true => simp [hs, Nat.pos_iff_ne_zero]

/-- The test of FSQRT is that of the statements (R151). -/
theorem fpNegative_iff (fmt : Fmt) (a : BitVec fmt.width) : fpNegative fmt a = true ↔ fpBelowZero fmt a := by
  unfold fpNegative fpBelowZero IsInf
  obtain h | h | h := fp_cases fmt a
  · simp [unpack_of_nan h, not_inf_of_nan h, not_finite_of_nan h]
  · simp [unpack_of_inf h, h, not_finite_of_inf h]
  · have hinf : ¬ fpInf fmt a := fun h' => not_finite_of_inf h' h
    simp [unpack_of_finite h, h, hinf, fpReal_neg_iff]

/-- FSQRT of an operand that is not below zero is the nearest root (R151, R157). -/
theorem isSquareRoot_fpSqrt {fmt : Fmt} {a : BitVec fmt.width} (h : ¬ fpBelowZero fmt a) :
    IsSquareRoot fmt a (fpSqrt fmt a) := by
  unfold fpSqrt
  refine ⟨fun ha => ?nan, fun ha => ?inf, fun ha h0 => ?zero, fun ha h0 => ?nearest⟩
  case nan => rw [unpack_of_nan ha]; exact canonicalNaN_eq fmt
  case inf => rw [unpack_of_inf ha]; exact (eq_signed_of_inf ha).symm
  case zero =>
    have hsigned := eq_signed_magOf fmt a
    rw [magOf_eq_zero_of_fpReal h0] at hsigned
    rw [unpack_of_finite ha, (fpReal_eq_zero fmt a).1 h0]
    dsimp only
    rw [Nat.zero_mul, roundSqrt_zero]
    exact hsigned.symm
  case nearest =>
    have hsign : a.msb = false := by
      by_contra hmsb
      exact h (.inr ⟨ha, (fpReal_neg_iff fmt a).2 ⟨by simpa using hmsb, mt (fpReal_eq_zero fmt a).2 h0⟩⟩)
    have hbound : unitsOf fmt (magOf a) ≤ unitsOf fmt (fmt.infPattern - 1) :=
      (unitsOf_strictMono fmt).monotone (Nat.le_sub_one_of_lt ((fpFinite_iff fmt a).1 ha))
    have hvalue : fpReal fmt a = unitsOf fmt (magOf a) / 2 ^ fmt.scale := by
      rw [fpReal_eq, hsign, if_neg Bool.false_ne_true, one_mul]
    rw [unpack_of_finite ha, hsign]
    exact sqrt_nearest fmt _ hbound _ hvalue

theorem haltsOnRoot_of_exec {i : Instr} {s : State} {rd : FReg} (h : exec i s = .next (sqrtHalt rd s)) :
    HaltsOnRoot i s rd :=
  ⟨_, h, rfl, rfl, fun r hr => (s.setNV.readF_setF rd r _).trans (if_neg hr), rfl⟩

/-- Settles O30: the test for an operand below zero chooses between the rounded root and the halt. -/
theorem squareRootResults : Obligations.SquareRootResults := by
  intro s rd rs1 rm
  have hsingle := fpNegative_iff .single (s.readS rs1)
  have hdouble := fpNegative_iff .double (s.readF rs1)
  refine ⟨fun h => ?single, fun h => ?double, fun h => ?singleHalt, fun h => ?doubleHalt⟩
  case single => exact ⟨_, isSquareRoot_fpSqrt (fmt := .single) h, writesF_of_exec_single (if_neg (mt hsingle.1 h))⟩
  case double => exact ⟨_, isSquareRoot_fpSqrt (fmt := .double) h, writesF_of_exec (if_neg (mt hdouble.1 h))⟩
  case singleHalt => exact haltsOnRoot_of_exec (if_pos (hsingle.2 h))
  case doubleHalt => exact haltsOnRoot_of_exec (if_pos (hdouble.2 h))

/-! ## From integers -/

/-- An integer is a ratio of units with its own sign. -/
theorem intCast_eq_ratio (fmt : Fmt) (z : Int) :
    (z : ℚ) = (if decide (z < 0) then -1 else 1) *
      ((((z.natAbs * 2 ^ fmt.scale : Nat) : ℚ) / (1 : Nat)) / 2 ^ fmt.scale) := by
  have hs : (2 : ℚ) ^ fmt.scale ≠ 0 := by positivity
  have habs : (z.natAbs : ℚ) = |(z : ℚ)| := by rw [Nat.cast_natAbs, Int.cast_abs]
  rw [Nat.cast_mul, Nat.cast_pow, Nat.cast_ofNat, Nat.cast_one, div_one, mul_div_cancel_right₀ _ hs, habs]
  rcases lt_or_ge z 0 with h | h
  · rw [abs_of_neg (Int.cast_lt_zero.2 h)]; simp [h]
  · rw [abs_of_nonneg (Int.cast_nonneg h)]; simp [not_lt.2 h]

/-- The conversions from integers round the integer (R189, R190, R193, R194). -/
theorem isFromInt_cvtFromInt (fmt : Fmt) (z : Int) : IsFromInt fmt z (cvtFromInt fmt fmt.width z) := by
  refine ⟨?_, fun _ => roundsTo_signed fmt _ _ 1 one_pos _ (intCast_eq_ratio fmt z)⟩
  rintro rfl
  exact packRounded_of_zero one_pos (intCast_eq_ratio fmt 0) Int.cast_zero

/-- Settles O35: each meaning is one write of the rounded integer. -/
theorem integerToFpResults : Obligations.IntegerToFpResults :=
  fun _ _ _ _ =>
    ⟨⟨_, isFromInt_cvtFromInt .single _, writesF_of_exec_single rfl⟩,
      ⟨_, isFromInt_cvtFromInt .single _, writesF_of_exec_single rfl⟩,
      ⟨_, isFromInt_cvtFromInt .double _, writesF_of_exec rfl⟩,
      ⟨_, isFromInt_cvtFromInt .double _, writesF_of_exec rfl⟩⟩

/-! ## Between the formats -/

theorem cvtFormat_of_nan {src dst : Fmt} {a : BitVec src.width} (h : fpNaN src a) :
    cvtFormat src dst dst.width a = fpCanonicalNaN dst.width := by
  rw [cvtFormat, unpack_of_nan h]
  exact canonicalNaN_eq dst

theorem isInf_cvtFormat {src dst : Fmt} {neg : Bool} {a : BitVec src.width} (h : IsInf src neg a) :
    IsInf dst neg (cvtFormat src dst dst.width a) := by
  obtain ⟨hinf, rfl⟩ := h
  rw [cvtFormat, unpack_of_inf hinf]
  exact isInf_signed dst a.msb

/-- A finite value is rounded as a ratio of the units of the two formats. -/
theorem cvtFormat_of_finite {src dst : Fmt} {a : BitVec src.width} (h : fpFinite src a) :
    cvtFormat src dst dst.width a =
      packRounded dst dst.width (.ratio a.msb (unitsOf src (magOf a) * 2 ^ dst.scale) (2 ^ src.scale)) := by
  rw [cvtFormat, unpack_of_finite h]

theorem fpReal_eq_ratio (src dst : Fmt) (a : BitVec src.width) :
    fpReal src a = (if a.msb then -1 else 1) *
      ((((unitsOf src (magOf a) * 2 ^ dst.scale : Nat) : ℚ) / (2 ^ src.scale : Nat)) / 2 ^ dst.scale) := by
  have hs : (2 : ℚ) ^ dst.scale ≠ 0 := by positivity
  rw [fpReal_eq, Nat.cast_mul, Nat.cast_pow, Nat.cast_pow, Nat.cast_ofNat, mul_div_right_comm, mul_div_cancel_right₀ _ hs]

/-- A conversion of a finite value rounds it once (R195). -/
theorem roundsTo_cvtFormat {src dst : Fmt} {a : BitVec src.width} (h : fpFinite src a) :
    RoundsTo dst (fpReal src a) (cvtFormat src dst dst.width a) := by
  rw [cvtFormat_of_finite h]
  exact roundsTo_signed dst _ _ _ (by positivity) _ (fpReal_eq_ratio src dst a)

theorem cvtFormat_of_zero {src dst : Fmt} {a : BitVec src.width} (h : fpFinite src a) (h0 : fpReal src a = 0) :
    cvtFormat src dst dst.width a = fpZero dst.width a.msb := by
  rw [cvtFormat_of_finite h]
  exact packRounded_of_zero (by positivity) (fpReal_eq_ratio src dst a) h0

/-- A ratio that is a number of the format is not changed by rounding. -/
theorem roundRatio_exact {fmt : Fmt} {p num den : Nat} (hd : 0 < den) (hp : p < fmt.infPattern)
    (h : num = unitsOf fmt p * den) : roundRatio fmt num den = p := by
  have hmono := unitsOf_strictMono fmt
  have hdq : (den : ℚ) ≠ 0 := by exact_mod_cast hd.ne'
  have hvalue : (num / den : ℚ) = unitsOf fmt p := by rw [h, Nat.cast_mul, mul_div_cancel_right₀ _ hdq]
  have hbelow : (unitsOf fmt p : ℚ) ≤ unitsOf fmt (fmt.infPattern - 1) := by
    exact_mod_cast hmono.monotone (Nat.le_sub_one_of_lt hp)
  have habove : (unitsOf fmt p : ℚ) < unitsOf fmt fmt.infPattern := by exact_mod_cast hmono hp
  obtain ⟨-, hnear⟩ := (roundRatio_nearest fmt num den hd).1 (by rw [hvalue]; linarith)
  have hdist := (hnear p).1
  rw [hvalue, sub_self, abs_zero, abs_nonpos_iff, sub_eq_zero] at hdist
  exact hmono.injective (by exact_mod_cast hdist.symm)

/-- Every number of at most fracBits + 1 significant bits is a number of the format, or beyond its largest. -/
theorem exists_unitsOf_eq (fmt : Fmt) {m : Nat} (k : Nat) (hm : m < 2 * 2 ^ fmt.fracBits) :
    ∃ p, unitsOf fmt p = m * 2 ^ k := by
  induction k generalizing m with
  | zero => exact ⟨_, unitsOf_scaled fmt 0 m (.inl rfl) hm.le⟩
  | succ k ih =>
    rcases Nat.lt_or_ge m (2 ^ fmt.fracBits) with h | h
    · obtain ⟨p, hp⟩ := ih (m := 2 * m) (by omega)
      exact ⟨p, hp.trans (by ring)⟩
    · exact ⟨_, unitsOf_scaled fmt (k + 1) m (.inr h) hm.le⟩

/-- Every finite single is a finite double (R196). -/
theorem exists_double_of_single {m : Nat} (hm : m < Fmt.infPattern .single) :
    ∃ p < Fmt.infPattern .double, unitsOf .single m * 2 ^ Fmt.scale .double = unitsOf .double p * 2 ^ Fmt.scale .single := by
  obtain ⟨k, q, hpattern, hk, hq⟩ := pattern_scaled .single m
  have hunits : unitsOf .single m = q * 2 ^ k := hpattern ▸ unitsOf_scaled .single k q hk hq.le
  obtain ⟨p, hp⟩ := exists_unitsOf_eq .double (k + 925) (hq.trans (by decide))
  have hvalue : unitsOf .double p = unitsOf .single m * 2 ^ 925 := by rw [hp, hunits, pow_add, Nat.mul_assoc]
  have hscale : 925 + Fmt.scale .single = Fmt.scale .double := rfl
  refine ⟨p, (unitsOf_strictMono .double).lt_iff_lt.1 ?_, ?_⟩
  · calc unitsOf .double p
      _ = unitsOf .single m * 2 ^ 925 := hvalue
      _ < unitsOf .single (Fmt.infPattern .single) * 2 ^ 925 :=
        (Nat.mul_lt_mul_right (by positivity)).2 (unitsOf_strictMono .single hm)
      _ ≤ unitsOf .double (Fmt.infPattern .double) := by decide +kernel
  · rw [hvalue, Nat.mul_assoc, ← pow_add, hscale]

/-- FCVT.D.S of a finite single keeps the sign and the value (R196). -/
theorem cvtFormat_single_double {a : BitVec (Fmt.width .single)} (h : fpFinite .single a) :
    fpFinite .double (cvtFormat .single .double (Fmt.width .double) a) ∧
    (cvtFormat .single .double (Fmt.width .double) a).msb = a.msb ∧
    fpReal .double (cvtFormat .single .double (Fmt.width .double) a) = fpReal .single a := by
  obtain ⟨p, hp, hvalue⟩ := exists_double_of_single ((fpFinite_iff .single a).1 h)
  have hround : cvtFormat .single .double (Fmt.width .double) a = signed (Fmt.width .double) a.msb p := by
    rw [cvtFormat_of_finite h, packRounded]
    exact congrArg _ (roundRatio_exact (by positivity) hp hvalue)
  have hlt := hp.trans (infPattern_lt .double)
  have hmag := magOf_signed .double a.msb p hlt
  have hmsb := msb_signed .double a.msb p hlt
  rw [hround]
  refine ⟨(fpFinite_iff ..).2 (by rwa [hmag]), hmsb, ?_⟩
  have hs : ((2 ^ Fmt.scale .single : Nat) : ℚ) ≠ 0 := by positivity
  rw [fpReal_eq, hmsb, hmag, fpReal_eq_ratio .single .double a, hvalue, Nat.cast_mul, mul_div_cancel_right₀ _ hs]

/-- Settles O36: narrowing is one rounding of the value, and no single needs a rounding as a double. -/
theorem fpToFpResults : Obligations.FpToFpResults := by
  intro s rd rs1 rm a b
  refine ⟨⟨_, ?narrowNaN, ?narrowInf, ?narrowZero, ?narrowRounded, writesF_of_exec_single rfl⟩,
    ⟨_, ?widenNaN, ?widenInf, ?widenExact, writesF_of_exec rfl⟩⟩
  case narrowNaN => exact cvtFormat_of_nan (src := .double) (dst := .single)
  case narrowInf => exact fun _ => isInf_cvtFormat (src := .double) (dst := .single)
  case narrowZero => exact cvtFormat_of_zero (src := .double) (dst := .single)
  case narrowRounded => exact fun h _ => roundsTo_cvtFormat (src := .double) (dst := .single) h
  case widenNaN => exact cvtFormat_of_nan (src := .single) (dst := .double)
  case widenInf => exact fun _ => isInf_cvtFormat (src := .single) (dst := .double)
  case widenExact => exact cvtFormat_single_double

/-! ## To integers -/

/-- The nearest integer, the even one of two, is only one. -/
theorem RoundsToInt.unique {x : ℚ} {z w : Int} (hz : RoundsToInt x z) (hw : RoundsToInt x w) : z = w := by
  have hdist : |((z - w : Int) : ℚ)| ≤ |x - w| + |x - z| := by
    rw [show ((z - w : Int) : ℚ) = (x - w) - (x - z) by push_cast; ring]
    exact abs_sub _ _
  have close (h : |x - w| + |x - z| < 1) : z = w := by
    have hint : |z - w| < 1 := by exact_mod_cast hdist.trans_lt h
    exact sub_eq_zero.1 (Int.abs_lt_one_iff.1 hint)
  obtain hz | ⟨hz, hz2⟩ := hz <;> obtain hw | ⟨hw, hw2⟩ := hw
  · exact close (by linarith)
  · exact close (by linarith)
  · exact close (by linarith)
  · have hint : |z - w| ≤ 1 := by
      rw [hz, hw, add_halves] at hdist
      exact_mod_cast hdist
    have := abs_le.1 hint
    omega

/-- The rounding of a conversion to an integer is to the nearest, ties to even (R186): with q the quotient and f the fraction
that is left, the distances to q and q + 1 are f and 1 − f. -/
theorem roundsToInt_roundNat (num : Nat) {den : Nat} (hd : 0 < den) : RoundsToInt (num / den : ℚ) (roundNat num den) := by
  have hdq : (0 : ℚ) < den := by exact_mod_cast hd
  have hsplit : (num / den : ℚ) = (num / den : Nat) + (num % den : Nat) / (den : ℚ) := by
    rw [div_eq_iff hdq.ne', add_mul, div_mul_cancel₀ _ hdq.ne']
    exact_mod_cast (Nat.div_add_mod' num den).symm
  have hlow : (0 : ℚ) ≤ (num % den : Nat) / (den : ℚ) := by positivity
  have hhigh : (num % den : Nat) / (den : ℚ) < 1 := by
    rw [div_lt_one hdq]
    exact_mod_cast Nat.mod_lt num hd
  have hdown : |(num / den : ℚ) - ((num / den : Nat) : Int)| = (num % den : Nat) / (den : ℚ) := by
    rw [hsplit, Int.cast_natCast, add_sub_cancel_left, abs_of_nonneg hlow]
  have hup : |(num / den : ℚ) - ((num / den + 1 : Nat) : Int)| = 1 - (num % den : Nat) / (den : ℚ) := by
    rw [hsplit, Int.cast_natCast, Nat.cast_add_one, add_sub_add_left_eq_sub, abs_sub_comm, abs_of_pos (sub_pos.2 hhigh)]
  unfold roundNat RoundsToInt
  cases hc : compare (2 * (num % den)) den with
  | lt =>
    have hhalf : (num % den : Nat) / (den : ℚ) < 1 / 2 := by
      rw [div_lt_div_iff₀ hdq two_pos]
      exact_mod_cast (by have := Nat.compare_eq_lt.1 hc; omega : num % den * 2 < 1 * den)
    exact .inl (hdown.trans_lt hhalf)
  | eq =>
    have hhalf : (num % den : Nat) / (den : ℚ) = 1 / 2 := by
      rw [div_eq_div_iff hdq.ne' two_ne_zero]
      exact_mod_cast (by have := Nat.compare_eq_eq.1 hc; omega : num % den * 2 = 1 * den)
    obtain heven | hodd := Nat.mod_two_eq_zero_or_one (num / den)
    · simp only [heven, Nat.add_zero]
      exact .inr ⟨hdown.trans hhalf, by omega⟩
    · simp only [hodd]
      exact .inr ⟨hup.trans (by rw [hhalf]; norm_num), by omega⟩
  | gt =>
    have hhalf : 1 / 2 < (num % den : Nat) / (den : ℚ) := by
      rw [div_lt_div_iff₀ two_pos hdq]
      exact_mod_cast (by have := Nat.compare_eq_gt.1 hc; omega : 1 * den < num % den * 2)
    exact .inl (hup.trans_lt (by linarith))

theorem RoundsToInt.neg {x : ℚ} {z : Int} (h : RoundsToInt x z) : RoundsToInt (-x) (-z) := by
  have habs : |-x - ((-z : Int) : ℚ)| = |x - z| := by rw [Int.cast_neg, ← neg_sub', abs_neg]
  rw [RoundsToInt, habs]
  exact h.imp_right fun ⟨htie, heven⟩ => ⟨htie, by omega⟩

/-- Saturation is the clamp of the statements (R186). -/
theorem saturate_eq_clampInt {lo hi top r : Int} (htop : top = hi + 1) (hle : lo ≤ hi) :
    (if top ≤ r then BitVec.ofInt 32 hi else if r < lo then BitVec.ofInt 32 lo else BitVec.ofInt 32 r) =
      BitVec.ofInt 32 (clampInt lo hi r) := by
  unfold clampInt
  split_ifs
  · congr 1; omega
  · congr 1; omega
  · congr 1; omega

/-- A signed magnitude, as a number. -/
theorem fpReal_eq_signedInt (fmt : Fmt) (a : BitVec fmt.width) :
    fpReal fmt a = if a.msb then -((unitsOf fmt (magOf a) : ℚ) / 2 ^ fmt.scale) else unitsOf fmt (magOf a) / 2 ^ fmt.scale := by
  rw [fpReal_eq, ite_mul, one_mul, neg_one_mul]

theorem roundsToInt_signedInt (fmt : Fmt) (a : BitVec fmt.width) :
    RoundsToInt (fpReal fmt a) (signedInt a.msb (roundNat (unitsOf fmt (magOf a)) (2 ^ fmt.scale))) := by
  have h := roundsToInt_roundNat (unitsOf fmt (magOf a)) (den := 2 ^ fmt.scale) (by positivity)
  rw [Nat.cast_pow, Nat.cast_ofNat] at h
  rw [fpReal_eq_signedInt]
  cases a.msb with
  | false => exact h
  | true => exact h.neg

/-- FCVT.W is the rounded and saturated value (R187, R191). -/
theorem isSignedWord_cvtW (fmt : Fmt) (a : BitVec fmt.width) : IsSignedWord fmt a (cvtW fmt a) := by
  unfold cvtW
  refine ⟨fun h => ?nan, fun ⟨h, hs⟩ => ?posInf, fun ⟨h, hs⟩ => ?negInf, fun h z hz => ?finite⟩
  case nan => rw [unpack_of_nan h]; rfl
  case posInf => rw [unpack_of_inf h, hs]; rfl
  case negInf => rw [unpack_of_inf h, hs]; rfl
  case finite =>
    rw [unpack_of_finite h, hz.unique (roundsToInt_signedInt fmt a)]
    exact saturate_eq_clampInt (top := 2 ^ 31) (lo := -2 ^ 31) (hi := 2 ^ 31 - 1) (by decide) (by decide)

/-- Dropping the fraction of the magnitude truncates the value toward zero. -/
theorem truncated_fpReal (fmt : Fmt) (a : BitVec fmt.width) :
    truncated (fpReal fmt a) = signedInt a.msb (unitsOf fmt (magOf a) / 2 ^ fmt.scale) := by
  have hfloor : ⌊(unitsOf fmt (magOf a) : ℚ) / 2 ^ fmt.scale⌋ = ((unitsOf fmt (magOf a) / 2 ^ fmt.scale : Nat) : Int) := by
    have h := Int.floor_div_natCast (unitsOf fmt (magOf a) : ℚ) (2 ^ fmt.scale)
    rw [Int.floor_natCast] at h
    exact_mod_cast h
  have hnonneg : (0 : ℚ) ≤ (unitsOf fmt (magOf a) : ℚ) / 2 ^ fmt.scale := by positivity
  rw [fpReal_eq_signedInt]
  generalize (unitsOf fmt (magOf a) : ℚ) / 2 ^ fmt.scale = x at *
  cases a.msb with
  | false => exact (if_pos hnonneg).trans hfloor
  | true =>
    rcases hnonneg.eq_or_lt with h0 | hpos
    · simp [truncated, signedInt, ← hfloor, ← h0]
    · simp [truncated, signedInt, ← hfloor, hpos, Int.ceil_neg]

/-- FCVT.WU is the truncated and saturated value (R188, R192). -/
theorem isUnsignedWord_cvtWU (fmt : Fmt) (a : BitVec fmt.width) : IsUnsignedWord fmt a (cvtWU fmt a) := by
  unfold cvtWU
  refine ⟨fun h => ?nan, fun ⟨h, hs⟩ => ?posInf, fun ⟨h, hs⟩ => ?negInf, fun h => ?finite⟩
  case nan => rw [unpack_of_nan h]; rfl
  case posInf => rw [unpack_of_inf h, hs]; rfl
  case negInf => rw [unpack_of_inf h, hs]; rfl
  case finite =>
    rw [unpack_of_finite h, truncated_fpReal]
    exact saturate_eq_clampInt (top := 2 ^ 32) (lo := 0) (hi := 2 ^ 32 - 1) (by decide) (by decide)

/-- Settles O34: each meaning is one write of the converted value, which does not depend on rm. -/
theorem fpToIntegerResults : Obligations.FpToIntegerResults :=
  fun _ _ _ _ =>
    ⟨⟨_, isSignedWord_cvtW .single _, writesX_of_exec rfl⟩, ⟨_, isUnsignedWord_cvtWU .single _, writesX_of_exec rfl⟩,
      ⟨_, isSignedWord_cvtW .double _, writesX_of_exec rfl⟩, ⟨_, isUnsignedWord_cvtWU .double _, writesX_of_exec rfl⟩⟩

end Sys2Proof.Machine

/-! PROOFS. The statements of 43_fp.md about order and flags (R140, R174 to R185): the comparisons of the model are those of the
extended number line, and only an operand that is a NaN or below a root's range sets NV. -/

namespace Sys2Proof.Machine

/-! ## The order of the extended number line -/

/-- What `unpack` reads, on the extended number line of the statements; a NaN has no place there and is put at −∞. -/
def FpVal.extended (fmt : Fmt) : FpVal → WithBot (WithTop ℚ)
  | .nan => ⊥
  | .inf neg => if neg then ⊥ else ((⊤ : WithTop ℚ) : WithBot (WithTop ℚ))
  | .fin neg mag => (((signedInt neg mag : ℚ) / 2 ^ fmt.scale : ℚ) : WithTop ℚ)

theorem extended_unpack {fmt : Fmt} {b : BitVec fmt.width} (h : ¬ fpNaN fmt b) : (unpack fmt b).extended fmt = fpExt fmt b := by
  obtain h' | h' | h' := fp_cases fmt b
  · exact absurd h' h
  · rw [unpack_of_inf h', fpExt, if_pos h'.1, FpVal.extended]
  · have hvalue : (signedInt b.msb (unitsOf fmt (magOf b)) : ℚ) / 2 ^ fmt.scale = fpReal fmt b := by
      rw [fpReal_eq_signedInt, signedInt]
      cases b.msb <;> simp [neg_div]
    rw [unpack_of_finite h', fpExt, if_neg h', FpVal.extended, hvalue]

theorem unpack_ne_nan {fmt : Fmt} {b : BitVec fmt.width} (h : ¬ fpNaN fmt b) : unpack fmt b ≠ .nan := by
  obtain h' | h' | h' := fp_cases fmt b
  · exact absurd h' h
  · rw [unpack_of_inf h']; exact nofun
  · rw [unpack_of_finite h']; exact nofun

/-- Signed magnitudes of one scale compare as the numbers they stand for. -/
theorem extended_fin_le_extended_fin (fmt : Fmt) (su : Bool) (mu : Nat) (sv : Bool) (mv : Nat) :
    (FpVal.fin su mu).extended fmt ≤ (FpVal.fin sv mv).extended fmt ↔ signedInt su mu ≤ signedInt sv mv := by
  have hs : (0 : ℚ) < 2 ^ fmt.scale := by positivity
  rw [FpVal.extended, FpVal.extended, WithBot.coe_le_coe, WithTop.coe_le_coe, div_le_div_iff_of_pos_right hs, Int.cast_le]

/-- The model's ≤ is that of the extended number line. -/
theorem FpVal.le_iff (fmt : Fmt) {u v : FpVal} (hu : u ≠ .nan) (hv : v ≠ .nan) :
    u.le v = true ↔ u.extended fmt ≤ v.extended fmt := by
  match u, v with
  | .nan, _ => exact absurd rfl hu
  | _, .nan => exact absurd rfl hv
  | .inf true, .inf _ => simp [FpVal.le, FpVal.extended]
  | .inf true, .fin _ _ => simp [FpVal.le, FpVal.extended]
  | .fin _ _, .inf false => simp [FpVal.le, FpVal.extended]
  | .inf false, .inf false => simp [FpVal.le, FpVal.extended]
  | .inf false, .inf true => simp [FpVal.le, FpVal.extended]
  | .inf false, .fin _ _ => simp [FpVal.le, FpVal.extended]
  | .fin _ _, .inf true => simp [FpVal.le, FpVal.extended]
  | .fin su mu, .fin sv mv => rw [FpVal.le, decide_eq_true_iff, extended_fin_le_extended_fin]

section
variable {fmt : Fmt} {a b : BitVec fmt.width} (ha : ¬ fpNaN fmt a) (hb : ¬ fpNaN fmt b)
include ha hb

theorem le_unpack_iff : (unpack fmt a).le (unpack fmt b) = true ↔ fpExt fmt a ≤ fpExt fmt b := by
  rw [FpVal.le_iff fmt (unpack_ne_nan ha) (unpack_ne_nan hb), extended_unpack ha, extended_unpack hb]

theorem eq_unpack_iff : (unpack fmt a).eq (unpack fmt b) = true ↔ fpExt fmt a = fpExt fmt b := by
  rw [FpVal.eq, Bool.and_eq_true, le_unpack_iff ha hb, le_unpack_iff hb ha, le_antisymm_iff]

theorem lt_unpack_iff : (unpack fmt a).lt (unpack fmt b) = true ↔ fpExt fmt a < fpExt fmt b := by
  rw [FpVal.lt, Bool.and_eq_true, Bool.not_eq_true', ← Bool.not_eq_true, le_unpack_iff ha hb, le_unpack_iff hb ha,
    lt_iff_le_not_ge]

/-- The order of FMIN and FMAX puts −0 below +0 (R174). -/
theorem fpBefore_iff : fpBefore fmt a b = true ↔ fpSmaller fmt a b := by
  simp only [fpBefore, fpSmaller, Bool.or_eq_true, Bool.and_eq_true, lt_unpack_iff ha hb, eq_unpack_iff ha hb, Bool.not_eq_true',
    and_assoc]

end

/-! ## Minimum and maximum -/

/-- The NaN cases of FMIN and FMAX come before the choice between two numbers (R174). -/
theorem isMinMax_minMaxWith {fmt : Fmt} {a b chosen : BitVec fmt.width} {less : Bool}
    (hsmaller : ¬ fpNaN fmt a → ¬ fpNaN fmt b → fpSmaller fmt a b → chosen = if less then a else b)
    (hother : ¬ fpNaN fmt a → ¬ fpNaN fmt b → ¬ fpSmaller fmt a b → chosen = if less then b else a) :
    IsMinMax fmt less a b (minMaxWith fmt a b chosen) := by
  have hsignal (x : BitVec fmt.width) (h : ¬ fpNaN fmt x) : ¬ fpSNaN fmt x := fun h' => h h'.1
  have hnumbers (ha : ¬ fpNaN fmt a) (hb : ¬ fpNaN fmt b) : minMaxWith fmt a b chosen = chosen := by
    simp [minMaxWith, isSNaN_iff, isNaN_iff, ha, hb, hsignal]
  refine ⟨fun h => ?nan, fun ha hq hb => ?left, fun hb hq ha => ?right, fun ha hb hs => ?smaller, fun ha hb hs => ?other⟩
  case nan =>
    have hcond : (isSNaN fmt a || isSNaN fmt b) = true ∨ (isNaN fmt a && isNaN fmt b) = true := by
      simpa only [Bool.or_eq_true, Bool.and_eq_true, isSNaN_iff, isNaN_iff, or_assoc] using h
    rw [minMaxWith, ← canonicalNaN_eq]
    by_cases hs : (isSNaN fmt a || isSNaN fmt b) = true
    · rw [if_pos hs]
    · rw [if_neg hs, if_pos (hcond.resolve_left hs)]
  case left => simp [minMaxWith, isSNaN_iff, isNaN_iff, ha, hq, hb, hsignal]
  case right => simp [minMaxWith, isSNaN_iff, isNaN_iff, ha, hq, hb, hsignal]
  case smaller => exact (hnumbers ha hb).trans (hsmaller ha hb hs)
  case other => exact (hnumbers ha hb).trans (hother ha hb hs)

theorem isMinMax_fpMin (fmt : Fmt) (a b : BitVec fmt.width) : IsMinMax fmt true a b (fpMin fmt a b) :=
  isMinMax_minMaxWith (fun ha hb h => if_pos ((fpBefore_iff ha hb).2 h)) (fun ha hb h => if_neg (mt (fpBefore_iff ha hb).1 h))

theorem isMinMax_fpMax (fmt : Fmt) (a b : BitVec fmt.width) : IsMinMax fmt false a b (fpMax fmt a b) :=
  isMinMax_minMaxWith (fun ha hb h => if_pos ((fpBefore_iff ha hb).2 h)) (fun ha hb h => if_neg (mt (fpBefore_iff ha hb).1 h))

/-- Settles O32: each meaning is one write of the operand that the order of R174 chooses. -/
theorem minMaxResults : Obligations.MinMaxResults :=
  fun _ _ _ _ =>
    ⟨⟨_, isMinMax_fpMin .single _ _, writesF_of_exec_single rfl⟩, ⟨_, isMinMax_fpMax .single _ _, writesF_of_exec_single rfl⟩,
      ⟨_, isMinMax_fpMin .double _ _, writesF_of_exec rfl⟩, ⟨_, isMinMax_fpMax .double _ _, writesF_of_exec rfl⟩⟩

/-! ## Compares -/

/-- A compare with a NaN operand gives 0 and sets NV (R179). -/
theorem fpCompare_of_nan {fmt : Fmt} {n : Nat} {a b : BitVec n} (rd : XReg) (rel : FpVal → FpVal → Bool) (s : State)
    (h : fpNaN fmt a ∨ fpNaN fmt b) : fpCompare fmt rd a b rel s = .next (s.setNV.setX rd 0) :=
  if_pos (by rwa [Bool.or_eq_true, isNaN_iff, isNaN_iff])

/-- A compare of two numbers writes whether the relation holds (R180 to R185). -/
theorem exists_writesX_of_fpCompare {fmt : Fmt} {a b : BitVec fmt.width} {i : Instr} {s : State} {rd : XReg} {p : Prop}
    (rel : FpVal → FpVal → Bool) (h : exec i s = fpCompare fmt rd a b rel s) (ha : ¬ fpNaN fmt a) (hb : ¬ fpNaN fmt b)
    (hrel : rel (unpack fmt a) (unpack fmt b) = true ↔ p) :
    ∃ v : Word, (v = 1#32 ↔ p) ∧ (v = 0 ∨ v = 1) ∧ WritesX i s rd v := by
  have hnan : ¬ (isNaN fmt a || isNaN fmt b) = true := by
    rw [Bool.or_eq_true, isNaN_iff, isNaN_iff]
    exact not_or.2 ⟨ha, hb⟩
  refine ⟨_, ?_, ?_, writesX_of_exec (h.trans (if_neg hnan))⟩
  · rw [← hrel, boolWord]
    cases rel (unpack fmt a) (unpack fmt b) <;> decide
  · rw [boolWord]
    cases rel (unpack fmt a) (unpack fmt b) <;> decide

theorem exec_single_compare {i : Instr} {rd : XReg} {rs1 rs2 : FReg}
    (hi : i = .feqS rd rs1 rs2 ∨ i = .fltS rd rs1 rs2 ∨ i = .fleS rd rs1 rs2) (s : State) :
    ∃ rel, exec i s = fpCompare .single rd (s.readS rs1) (s.readS rs2) rel s := by
  obtain rfl | rfl | rfl := hi
  · exact ⟨FpVal.eq, rfl⟩
  · exact ⟨FpVal.lt, rfl⟩
  · exact ⟨FpVal.le, rfl⟩

theorem exec_double_compare {i : Instr} {rd : XReg} {rs1 rs2 : FReg}
    (hi : i = .feqD rd rs1 rs2 ∨ i = .fltD rd rs1 rs2 ∨ i = .fleD rd rs1 rs2) (s : State) :
    ∃ rel, exec i s = fpCompare .double rd (s.readF rs1) (s.readF rs2) rel s := by
  obtain rfl | rfl | rfl := hi
  · exact ⟨FpVal.eq, rfl⟩
  · exact ⟨FpVal.lt, rfl⟩
  · exact ⟨FpVal.le, rfl⟩

/-- Each of the six compares with a NaN operand gives 0 and sets NV, whatever its relation (R179). -/
theorem exec_compare_of_nan {i : Instr} {s : State} {rd : XReg} {rs1 rs2 : FReg}
    (h : ((i = .feqS rd rs1 rs2 ∨ i = .fltS rd rs1 rs2 ∨ i = .fleS rd rs1 rs2) ∧
        (fpNaN .single (s.readS rs1) ∨ fpNaN .single (s.readS rs2))) ∨
      ((i = .feqD rd rs1 rs2 ∨ i = .fltD rd rs1 rs2 ∨ i = .fleD rd rs1 rs2) ∧
        (fpNaN .double (s.readF rs1) ∨ fpNaN .double (s.readF rs2)))) : exec i s = .next (s.setNV.setX rd 0) := by
  obtain ⟨hi, hnan⟩ | ⟨hi, hnan⟩ := h
  · obtain ⟨rel, hexec⟩ := exec_single_compare hi s
    exact hexec.trans (fpCompare_of_nan rd rel s hnan)
  · obtain ⟨rel, hexec⟩ := exec_double_compare hi s
    exact hexec.trans (fpCompare_of_nan rd rel s hnan)

/-- Settles O33: the six instructions share the compare and differ in the relation. -/
theorem fpCompareResults : Obligations.FpCompareResults := by
  intro s rd rs1 rs2 a b d e
  refine ⟨fun ha hb => ⟨?eqS, ?ltS, ?leS⟩, fun hd he => ⟨?eqD, ?ltD, ?leD⟩, fun i h => ?nan⟩
  case eqS => exact exists_writesX_of_fpCompare (fmt := .single) FpVal.eq rfl ha hb (eq_unpack_iff (fmt := .single) ha hb)
  case ltS => exact exists_writesX_of_fpCompare (fmt := .single) FpVal.lt rfl ha hb (lt_unpack_iff (fmt := .single) ha hb)
  case leS => exact exists_writesX_of_fpCompare (fmt := .single) FpVal.le rfl ha hb (le_unpack_iff (fmt := .single) ha hb)
  case eqD => exact exists_writesX_of_fpCompare (fmt := .double) FpVal.eq rfl hd he (eq_unpack_iff (fmt := .double) hd he)
  case ltD => exact exists_writesX_of_fpCompare (fmt := .double) FpVal.lt rfl hd he (lt_unpack_iff (fmt := .double) hd he)
  case leD => exact exists_writesX_of_fpCompare (fmt := .double) FpVal.le rfl hd he (le_unpack_iff (fmt := .double) hd he)
  case nan => exact ⟨_, exec_compare_of_nan h, fun r => s.setNV.readX_setX rd r 0, rfl, rfl⟩

/-! ## The invalid flag -/

/-- An instruction that sets NV leaves fcsr8 with NV and nothing else added (R140). -/
theorem fcsr8_of_setsNV {i : Instr} {s t : State} (h : SetsNV s i) (hexec : exec i s = .next t) :
    t.fcsr8 = s.fcsr8 ||| 0x10#8 := by
  obtain ⟨rd, rs1, rs2, h⟩ | ⟨rd, rs1, rs2, h⟩ | ⟨rd, rs1, rm, rfl, h⟩ | ⟨rd, rs1, rm, rfl, h⟩ := h
  · obtain rfl := Host.Outcome.next.inj ((exec_compare_of_nan (.inl h)).symm.trans hexec)
    rfl
  · obtain rfl := Host.Outcome.next.inj ((exec_compare_of_nan (.inr h)).symm.trans hexec)
    rfl
  · obtain rfl := Host.Outcome.next.inj ((if_pos ((fpNegative_iff .single _).2 h)).symm.trans hexec)
    rfl
  · obtain rfl := Host.Outcome.next.inj ((if_pos ((fpNegative_iff .double _).2 h)).symm.trans hexec)
    rfl

/-- An effect keeps fcsr8, or it sets NV, or it is that of a CSR instruction (R140). -/
theorem Effect.fcsr8 {i : Instr} {s t : State} (h : Effect i s t) : t.fcsr8 = s.fcsr8 ∨ SetsNV s i ∨ IsCsrInstruction i := by
  cases h with
  | invalid rd h =>
    simp only [Bool.or_eq_true, isNaN_iff] at h
    obtain ⟨rs1, rs2, h⟩ | ⟨rs1, rs2, h⟩ := h
    · exact .inr (.inl (.inl ⟨rd, rs1, rs2, h⟩))
    · exact .inr (.inl (.inr (.inl ⟨rd, rs1, rs2, h⟩)))
  | root rd h =>
    obtain ⟨rs1, rm, hi, h⟩ | ⟨rs1, rm, hi, h⟩ := h
    · exact .inr (.inl (.inr (.inr (.inl ⟨rd, rs1, rm, hi, (fpNegative_iff .single _).1 h⟩))))
    · exact .inr (.inl (.inr (.inr (.inr ⟨rd, rs1, rm, hi, (fpNegative_iff .double _).1 h⟩))))
  | csr rd rs1 n v hi => exact .inr (.inr ⟨rd, n, rs1, hi⟩)
  | vload vd w base stride =>
    obtain ⟨v, p, r, h, -⟩ := loadLoop_changes vd w base stride s.vl.toNat 0 s
    exact .inl (h ▸ rfl)
  | vstore vs3 w base stride =>
    obtain ⟨m, d, p, r, h, -⟩ := storeLoop_changes vs3 w base stride s.vl.toNat 0 s
    exact .inl (h ▸ rfl)
  | _ => exact .inl rfl

/-- Settles O38: the cases that set NV are computed, and no other effect but a CSR instruction's reaches fcsr8. -/
theorem onlyComparesAndSquareRootsSetNV : Obligations.OnlyComparesAndSquareRootsSetNV := by
  intro s t i hexec
  refine ⟨fun h => fcsr8_of_setsNV h hexec, fun hnv hcsr => ?_⟩
  obtain h | h | h := (exec_effect hexec).fcsr8
  · exact h
  · exact absurd h hnv
  · exact absurd h hcsr

end Sys2Proof.Machine

/-! PROOFS. The statements of 44_zicsr.md (R200 to R207): what a CSR number reads as, what a write to it changes, and the three
instructions over the two. -/

namespace Sys2Proof.Machine

/-! ## The fields of fcsr8 as numbers (R23) -/

/-- Two adjacent fields are one number: the higher field counts in units of the lower one's range. -/
theorem append_eq_ofNat {k n : Nat} (a : BitVec k) (b : BitVec n) :
    a ++ b = BitVec.ofNat (k + n) (a.toNat * 2 ^ n + b.toNat) := by
  rw [← Nat.shiftLeft_eq, Nat.shiftLeft_add_eq_or_of_lt b.isLt, ← BitVec.toNat_append, BitVec.ofNat_toNat, BitVec.setWidth_eq]

/-- The low bits of a vector are its value modulo a power of two. -/
theorem toNat_extractLsb'_low {w : Nat} (v : BitVec w) (n : Nat) : (v.extractLsb' 0 n).toNat = v.toNat % 2 ^ n := by
  rw [BitVec.extractLsb'_toNat, Nat.shiftRight_zero]

/-- Bits 7:5 of a byte, which is frm in fcsr8. -/
theorem toNat_extractLsb'_frm (b : Byte) : (b.extractLsb' 5 3).toNat = b.toNat / 32 := by
  rw [BitVec.extractLsb'_toNat, Nat.shiftRight_eq_div_pow]
  omega

/-! ## What a CSR number reads as (R200, R32) -/

section
variable (s : State)

theorem State.csrRead_fflags : s.csrRead 0x001 = BitVec.ofNat 32 (s.fcsr8.toNat % 32) :=
  (BitVec.ofNat_toNat ..).symm.trans (congrArg _ (toNat_extractLsb'_low s.fcsr8 5))

theorem State.csrRead_frm : s.csrRead 0x002 = BitVec.ofNat 32 (s.fcsr8.toNat / 32) :=
  (BitVec.ofNat_toNat ..).symm.trans (congrArg _ (toNat_extractLsb'_frm s.fcsr8))

theorem State.csrRead_fcsr : s.csrRead 0x003 = BitVec.ofNat 32 s.fcsr8.toNat := (BitVec.ofNat_toNat 32 s.fcsr8).symm

theorem State.csrRead_vstart : s.csrRead 0x008 = s.vstart := rfl

theorem State.csrRead_vl : s.csrRead 0xC20 = s.vl := rfl

theorem State.csrRead_vtype : s.csrRead 0xC21 = BitVec.ofNat 32 s.vtype.toNat := (BitVec.ofNat_toNat 32 s.vtype).symm

theorem State.csrRead_vlenb : s.csrRead 0xC22 = 16 := rfl

/-- An unrecognized number reads as zero. -/
theorem State.csrRead_of_notMem {n : BitVec 12}
    (h : n ∉ [0x001#12, 0x002#12, 0x003#12, 0x008#12, 0xC20#12, 0xC21#12, 0xC22#12]) : s.csrRead n = 0 := by
  simp only [List.mem_cons, List.not_mem_nil, or_false, not_or] at h
  simp [State.csrRead, h]

end

/-! ## What a write to a CSR changes (R200, R32) -/

section
variable (s : State) (n : BitVec 12) (v : Word)

@[simp] theorem State.csrWrite_readX (r : XReg) : (s.csrWrite n v).readX r = s.readX r := by
  simp only [State.readX, State.csrWrite_x]

/-- fflags, frm and fcsr are views of fcsr8; no other number reaches it. -/
theorem State.csrWrite_fcsr8 : (s.csrWrite n v).fcsr8 =
    if n = 0x001 then BitVec.ofNat 8 (s.fcsr8.toNat / 32 * 32 + v.toNat % 32)
    else if n = 0x002 then BitVec.ofNat 8 (v.toNat % 8 * 32 + s.fcsr8.toNat % 32)
    else if n = 0x003 then BitVec.ofNat 8 (v.toNat % 256) else s.fcsr8 := by
  have hfflags : s.fcsr8.extractLsb' 5 3 ++ v.extractLsb' 0 5 = BitVec.ofNat 8 (s.fcsr8.toNat / 32 * 32 + v.toNat % 32) := by
    rw [append_eq_ofNat, toNat_extractLsb'_frm, toNat_extractLsb'_low]
    rfl
  have hfrm : v.extractLsb' 0 3 ++ s.fcsr8.extractLsb' 0 5 = BitVec.ofNat 8 (v.toNat % 8 * 32 + s.fcsr8.toNat % 32) := by
    rw [append_eq_ofNat, toNat_extractLsb'_low, toNat_extractLsb'_low]
    rfl
  have hfcsr : v.extractLsb' 0 8 = BitVec.ofNat 8 (v.toNat % 256) := BitVec.eq_of_toNat_eq (by simp)
  unfold State.csrWrite
  split_ifs
  · exact hfflags
  · exact hfrm
  · exact hfcsr
  · rfl
  · rfl

theorem State.csrWrite_vstart : (s.csrWrite n v).vstart = if n = 0x008 then v else s.vstart := by
  by_cases h : n = 0x008
  · subst h; rfl
  · rw [if_neg h, s.csrWrite_vstart_of_ne v h]

/-- A write reaches no field but fcsr8 and vstart. -/
theorem State.csrWrite_frame : { s.csrWrite n v with fcsr8 := s.fcsr8, vstart := s.vstart } = s := by
  unfold State.csrWrite
  split_ifs <;> rfl

/-- What the three instructions leave when they write: the new value in the CSR, then the old one in x[rd]. -/
theorem csrWritten_setX_csrWrite (rd : XReg) (old : Word) : CsrWritten s ((s.csrWrite n v).setX rd old) rd n old v := by
  refine ⟨fun r => ?_, s.csrWrite_fcsr8 n v, s.csrWrite_vstart n v, ?_⟩
  · exact ((s.csrWrite n v).readX_setX rd r old).trans (by rw [State.csrWrite_readX]; rfl)
  · calc { (s.csrWrite n v).setX rd old with x := s.x, fcsr8 := s.fcsr8, vstart := s.vstart }
      _ = { s.csrWrite n v with fcsr8 := s.fcsr8, vstart := s.vstart } := by rw [← s.csrWrite_x n v]; rfl
      _ = s := s.csrWrite_frame n v

end

/-! ## The three instructions (R201 to R205) -/

theorem csrReadOnly_iff (n : BitVec 12) : csrReadOnly n = true ↔ n ∈ [0xC20#12, 0xC21#12, 0xC22#12] := by
  simp [csrReadOnly, or_assoc]

/-- The mask operand as the statements write it (log 4). -/
theorem State.csrMask_eq (s : State) (rd rs1 : XReg) :
    s.csrMask rd rs1 = if s.params.csrSetClear = .rs1 then s.readX rs1 else s.readX rd := by
  unfold State.csrMask
  cases s.params.csrSetClear <;> rfl

theorem csrUpdate_zero (rd : XReg) (n : BitVec 12) (op : Word → Word → Word) (s : State) :
    csrUpdate rd n 0 op s = s.setX rd (s.csrRead n) := by
  rw [csrUpdate, if_pos rfl]

theorem csrUpdate_of_ne {rs1 : XReg} (h : rs1 ≠ 0) (rd : XReg) (n : BitVec 12) (op : Word → Word → Word) (s : State) :
    csrUpdate rd n rs1 op s = (s.csrWrite n (op (s.csrRead n) (s.csrMask rd rs1))).setX rd (s.csrRead n) := by
  rw [csrUpdate, if_neg h]

/-- CSRRS and CSRRC check a number only when they write it (R202). -/
theorem not_checked_zero (n : BitVec 12) : ¬ ((0 : XReg) ≠ 0 ∧ csrReadOnly n = true) := fun h => h.1 rfl

theorem exec_csrrs_of_not_checked {n : BitVec 12} {rs1 : XReg} (h : ¬ (rs1 ≠ 0 ∧ csrReadOnly n = true)) (rd : XReg)
    (s : State) : exec (.csrrs rd n rs1) s = .next (csrUpdate rd n rs1 (fun old m => old ||| m) s) :=
  if_neg h

theorem exec_csrrc_of_not_checked {n : BitVec 12} {rs1 : XReg} (h : ¬ (rs1 ≠ 0 ∧ csrReadOnly n = true)) (rd : XReg)
    (s : State) : exec (.csrrc rd n rs1) s = .next (csrUpdate rd n rs1 (fun old m => old &&& ~~~m) s) :=
  if_neg h

theorem exec_csrrs_zero (rd : XReg) (n : BitVec 12) (s : State) :
    exec (.csrrs rd n 0) s = .next (s.setX rd (s.csrRead n)) := by
  rw [exec_csrrs_of_not_checked (not_checked_zero n), csrUpdate_zero]

theorem exec_csrrc_zero (rd : XReg) (n : BitVec 12) (s : State) :
    exec (.csrrc rd n 0) s = .next (s.setX rd (s.csrRead n)) := by
  rw [exec_csrrc_of_not_checked (not_checked_zero n), csrUpdate_zero]

/-! ## The obligations -/

/-- Settles O39: CSRRS with rs1 = x0 is a plain write of the value read, and the map gives that value for each number. -/
theorem csrReadsFollowTheMap : Obligations.CsrReadsFollowTheMap := by
  intro s rd n
  have hread {n : BitVec 12} {v : Word} (h : s.csrRead n = v) : WritesX (.csrrs rd n 0) s rd v :=
    writesX_of_exec_eq (exec_csrrs_zero rd n s) h
  exact ⟨hread s.csrRead_fflags, hread s.csrRead_frm, hread s.csrRead_fcsr, hread s.csrRead_vstart, hread s.csrRead_vl,
    hread s.csrRead_vtype, hread s.csrRead_vlenb, fun h => hread (s.csrRead_of_notMem h)⟩

/-- Settles O40: the read-only check decides between the event and the write, and rs1 = x0 skips both. -/
theorem csrInstructionResults : Obligations.CsrInstructionResults := by
  intro s rd rs1 n old m
  have hwritten (h0 : rs1 ≠ 0) (op : Word → Word → Word) : CsrWritten s (csrUpdate rd n rs1 op s) rd n old (op old m) := by
    rw [csrUpdate_of_ne h0, s.csrMask_eq]
    exact csrWritten_setX_csrWrite ..
  refine ⟨fun hn => ?writable, fun hn => ?readOnly, writesX_of_exec (exec_csrrs_zero rd n s),
    writesX_of_exec (exec_csrrc_zero rd n s)⟩
  case writable =>
    have hro : ¬ csrReadOnly n = true := mt (csrReadOnly_iff n).1 hn
    have hcheck : ¬ (rs1 ≠ 0 ∧ csrReadOnly n = true) := fun h => hro h.2
    refine ⟨⟨_, if_neg hro, csrWritten_setX_csrWrite ..⟩,
      fun h0 => ⟨_, exec_csrrs_of_not_checked hcheck rd s, hwritten h0 (fun old m => old ||| m)⟩,
      fun h0 => ⟨_, exec_csrrc_of_not_checked hcheck rd s, hwritten h0 (fun old m => old &&& ~~~m)⟩⟩
  case readOnly =>
    have hro : csrReadOnly n = true := (csrReadOnly_iff n).2 hn
    exact ⟨if_pos hro, fun h0 => ⟨if_pos ⟨h0, hro⟩, if_pos ⟨h0, hro⟩⟩⟩

end Sys2Proof.Machine

/-! PROOFS. The statements of 45_vector_config_mem.md (R208 to R225): what VSETVLI configures, the checks of every other vector
instruction, and the element accesses of the vector loads and stores up to the first that is refused. -/

namespace Sys2Proof.Machine

/-! ## VSETVLI (R208) -/

theorem toNat_extractLsb'_vsew (z : BitVec 11) : (z.extractLsb' 3 2).toNat = z.toNat / 8 % 4 := by
  rw [BitVec.extractLsb'_toNat, Nat.shiftRight_eq_div_pow]

/-- The values that VSETVLI refuses, by the fields of vtypei as numbers (R208). -/
theorem vtypeiUnsupported_iff (z : BitVec 11) : vtypeiUnsupported z = true ↔
    4 ≤ z.toNat % 8 ∨ z.toNat / 8 % 4 = 3 ∨ z.toNat / 32 % 2 = 1 ∨ z.toNat / 256 ≠ 0 := by
  have hvlmul : (z.extractLsb' 0 3).toNat = z.toNat % 8 := toNat_extractLsb'_low z 3
  have hvsew : z.extractLsb' 3 2 = 3#2 ↔ z.toNat / 8 % 4 = 3 := by
    rw [← BitVec.toNat_inj, toNat_extractLsb'_vsew]
    rfl
  have hbit : z.getLsbD 5 = true ↔ z.toNat / 32 % 2 = 1 := by
    rw [BitVec.getLsbD, Nat.testBit_eq_decide_div_mod_eq, decide_eq_true_iff]
  have hhigh : z.extractLsb' 8 3 = 0#3 ↔ z.toNat / 256 = 0 := by
    rw [← BitVec.toNat_inj, BitVec.extractLsb'_toNat, Nat.shiftRight_eq_div_pow, BitVec.toNat_ofNat]
    omega
  simp only [vtypeiUnsupported, Bool.or_eq_true, decide_eq_true_iff, beq_iff_eq, bne_iff_ne, hvlmul, hvsew, hbit, ne_eq, hhigh,
    or_assoc]

/-- VLMAX by the fields of vtypei as numbers (R28). -/
theorem vlmaxOf_extractLsb' (z : BitVec 11) :
    vlmaxOf (z.extractLsb' 0 5) = 2 ^ (z.toNat % 8) * 16 / 2 ^ (z.toNat / 8 % 4) := by
  have hvlmul : (z.extractLsb' 0 5).extractLsb' 0 3 = z.extractLsb' 0 3 := by ext k hk; simp
  have hvsew : (z.extractLsb' 0 5).extractLsb' 3 2 = z.extractLsb' 3 2 := by ext k hk; simp
  rw [vlmaxOf, lmulOf, sewOf, hvlmul, hvsew, toNat_extractLsb'_low, toNat_extractLsb'_vsew]
  rfl

/-- Settles O41: the test of vtypei decides between the event and the write of vtype, vl and x[rd]. -/
theorem vsetvliResults : Obligations.VsetvliResults := by
  intro s rd rs1 z vlmul vsew vlmax n
  refine ⟨fun ⟨hlmul, hsew, hbit, hhigh⟩ => ?supported, fun h => ?unsupported⟩
  case supported =>
    have hsupported : ¬ vtypeiUnsupported z = true := by
      rw [vtypeiUnsupported_iff]
      omega
    have hvtype : z.extractLsb' 0 5 = BitVec.ofNat 5 (z.toNat % 32) :=
      BitVec.eq_of_toNat_eq (by rw [toNat_extractLsb'_low, BitVec.toNat_ofNat]; exact (Nat.mod_mod ..).symm)
    have hexec : exec (.vsetvli rd rs1 z) s = .next
        (State.setX { s with vtype := z.extractLsb' 0 5, vl := BitVec.ofNat 32 n } rd (BitVec.ofNat 32 n)) := by
      refine (if_neg hsupported).trans ?_
      rw [vlmaxOf_extractLsb']
    exact ⟨_, hexec, hvtype, rfl, fun r => State.readX_setX _ rd r _, rfl⟩
  case unsupported => exact if_pos ((vtypeiUnsupported_iff z).2 h)

/-! ## The checks (R210) -/

/-- What an instruction answers that makes the checks first: the event of a check that fails, else the state t. -/
def State.answerAfter (s : State) (check : Option Stop) (t : State) : Result :=
  match check with
  | some k => .next (s.raise k)
  | none => .next t

/-- Every vector instruction but VSETVLI makes the checks of its own EEW and groups before anything else (R210). -/
theorem exec_eq_answerAfter {i : Instr} {s : State} {eew : Option Nat} {groups : List (VReg × Nat)}
    (h : vectorOperands s.sew i = some (eew, groups)) : ∃ t, exec i s = s.answerAfter (s.vectorCheck eew groups) t := by
  cases i with
  | vle8V | vle16V | vle32V | vlse8V | vlse16V | vlse32V => cases h; exact ⟨_, rfl⟩
  | vse8V | vse16V | vse32V | vsse8V | vsse16V | vsse32V => cases h; exact ⟨_, rfl⟩
  | vaddVV | vsubVV | vminuVV | vmaxuVV | vandVV | vorVV | vxorVV | vmseqVV | vmsneVV | vmsltVV | vmsleVV | vsllVV
  | vsrlVV | vmulVV => cases h; exact ⟨_, rfl⟩
  | vaddVX | vsubVX | vminuVX | vmaxuVX | vandVX | vorVX | vxorVX | vmseqVX | vmsneVX | vmsltVX | vmsleVX | vmsgtVX
  | vsllVX | vsrlVX | vmulVX => cases h; exact ⟨_, rfl⟩
  | vaddVI | vandVI | vorVI | vxorVI | vmseqVI | vmsneVI | vmsleVI | vmsgtVI | vsllVI | vsrlVI => cases h; exact ⟨_, rfl⟩
  | vmvXS | vmvSX | vredsumVS | vwredsumuVS => cases h; exact ⟨_, rfl⟩
  | _ => cases h

theorem raises_of_vectorCheck {i : Instr} {s : State} {eew : Option Nat} {groups : List (VReg × Nat)} {k : Stop}
    (h : vectorOperands s.sew i = some (eew, groups)) (hk : s.vectorCheck eew groups = some k) : Raises i s k := by
  obtain ⟨t, ht⟩ := exec_eq_answerAfter h
  rw [Raises, ht, hk]
  rfl

/-- The check of a group is that of the statements (R210). -/
theorem groupTop_le_iff (b : VReg) (w vl : Nat) : groupTop b w vl ≤ 31 ↔ groupFits vl w b := by
  have := b.isLt
  unfold groupTop groupFits Config.vlenb
  split <;> omega

theorem groupCheck_of_first {vl : Nat} {before after : List (VReg × Nat)} {g : VReg × Nat}
    (hbefore : ∀ b ∈ before, groupFits vl b.2 b.1) (hg : ¬ groupFits vl g.2 g.1) :
    groupCheck vl (before ++ g :: after) = some (.vRegOutOfRange g.1) := by
  induction before with
  | nil => exact if_pos (not_le.1 (mt (groupTop_le_iff ..).1 hg))
  | cons b before ih =>
    obtain ⟨hb, hbefore⟩ := List.forall_mem_cons.1 hbefore
    exact (if_neg (not_lt.2 ((groupTop_le_iff ..).2 hb))).trans (ih hbefore)

/-- When vstart is 0 and a load's or store's EEW is SEW, the groups decide. -/
theorem State.vectorCheck_eq_groupCheck {s : State} {eew : Option Nat} (groups : List (VReg × Nat)) (hvstart : s.vstart = 0)
    (heew : ∀ e, eew = some e → e = s.sew) : s.vectorCheck eew groups = groupCheck s.vl.toNat groups := by
  refine (if_neg (not_not.2 hvstart)).trans ?_
  cases eew with
  | none => rfl
  | some e => exact if_neg (not_not.2 (heew e rfl))

/-- Settles O42: every vector instruction starts with the checks, and these are made in the order of the clauses. -/
theorem vectorChecksInOrder : Obligations.VectorChecksInOrder := by
  intro s i eew groups h
  refine ⟨fun hvstart => ?_, fun e hvstart heew hne => ?_, fun before g after hvstart heew hgroups hbefore hg => ?_⟩
  · exact raises_of_vectorCheck h (if_pos hvstart)
  · subst heew
    exact raises_of_vectorCheck h ((if_neg (not_not.2 hvstart)).trans (if_pos hne))
  · subst hgroups
    exact raises_of_vectorCheck h ((s.vectorCheck_eq_groupCheck _ hvstart heew).trans (groupCheck_of_first hbefore hg))

/-- The checks of a vector load or store of one group of elements as wide as SEW pass when the group fits. -/
theorem State.vectorCheck_of_fits {s : State} {r : VReg} {w : Nat} (hvstart : s.vstart = 0) (hw : w = s.sew)
    (hfits : groupFits s.vl.toNat w r) : s.vectorCheck (some w) [(r, w)] = none :=
  (s.vectorCheck_eq_none _ _).2 ⟨hvstart, by simpa using hw, by simpa [groupTop_le_iff] using hfits⟩

/-! ## Elements as runs of bytes (R25, R38) -/

theorem leBytes_leNat (bs : List Byte) : leBytes bs.length (leNat bs) = bs := by
  induction bs with
  | nil => rfl
  | cons b bs ih =>
    have hb := b.isLt
    have hlow : BitVec.ofNat 8 (leNat (b :: bs)) = b := by
      refine BitVec.eq_of_toNat_eq ?_
      rw [BitVec.toNat_ofNat, leNat]
      omega
    have hhigh : leNat (b :: bs) / 256 = leNat bs := by
      rw [leNat]
      omega
    rw [List.length_cons, leBytes, hlow, hhigh, ih]

/-- A value assembled from n bytes is stored as these bytes. -/
theorem leBytes_ofNat_leNat {bs : List Byte} {n : Nat} (h : bs.length = n) :
    leBytes n (BitVec.ofNat (8 * n) (leNat bs)).toNat = bs := by
  subst h
  have hlt : leNat bs < 2 ^ (8 * bs.length) := by
    rw [Nat.pow_mul]
    exact leNat_lt bs
  rw [BitVec.toNat_ofNat, Nat.mod_eq_of_lt hlt, leBytes_leNat]

theorem VRegs.bytes_eq_map (v : VRegs) (o n : Nat) : v.bytes o n = (List.range n).map fun k => v.byte (o + k) := by
  induction n generalizing o with
  | zero => rfl
  | succ n ih =>
    rw [VRegs.bytes, ih, List.range_succ_eq_map, List.map_cons, List.map_map]
    simp [Function.comp_def, Nat.add_right_comm, ← Nat.add_assoc]

theorem Memory.readBytes_eq_map (m : Memory) (a n : Nat) : m.readBytes a n = (List.range n).map fun k => m.read (a + k) := by
  induction n generalizing a with
  | zero => rfl
  | succ n ih =>
    rw [Memory.readBytes, ih, List.range_succ_eq_map, List.map_cons, List.map_map]
    simp [Function.comp_def, Nat.add_right_comm, ← Nat.add_assoc]

/-- The bytes of an element are the vector bytes from 16·r + el·w up (R25). -/
theorem VRegs.leBytes_elem (v : VRegs) (r : VReg) (el w : Nat) :
    leBytes w (v.elem r el w).toNat = (List.range w).map fun k => v.byte (16 * r.toNat + el * w + k) := by
  rw [VRegs.elem, leBytes_ofNat_leNat (by simp [VRegs.bytes_eq_map]), VRegs.bytes_eq_map]
  rfl

theorem State.leBytes_loadValue (s : State) (a : Word) (n : Nat) :
    leBytes n (s.loadValue a n).toNat = (List.range n).map (s.byteAt a) := by
  rw [State.loadValue, leBytes_ofNat_leNat (Memory.readBytes_length ..), Memory.readBytes_eq_map]
  rfl

/-- An element that holds a value of memory holds its bytes. -/
theorem byte_eq_byteAt_of_elem_eq {v : VRegs} {s : State} {r : VReg} {el w k : Nat} {a : Word}
    (h : v.elem r el w = s.loadValue a w) (hk : k < w) : v.byte (16 * r.toNat + el * w + k) = s.byteAt a k := by
  have hbytes := v.leBytes_elem r el w
  rw [h, s.leBytes_loadValue] at hbytes
  exact (List.map_eq_map_iff.1 hbytes k (List.mem_range.2 hk)).symm

/-! ## Vector loads (R211, R213) -/

theorem vectorLoad_of_checked {s : State} {vd : VReg} {w : Nat} (base stride : Word)
    (h : s.vectorCheck (some w) [(vd, w)] = none) :
    vectorLoad vd w base stride s = .next (loadLoop vd w base stride s.vl.toNat 0 s) := by
  rw [vectorLoad, h]

/-- The vector registers after the loads of n elements. -/
def loadedElements (s : State) (vd : VReg) (w : Nat) (base stride : Word) (n : Nat) : VRegs :=
  elementLoop vd w (fun _ j => s.loadValue (elementAddr base stride j) w) n 0 s.vr

theorem loadLoop_eq_loadedElements {s : State} {w : Nat} {base stride : Word} {n : Nat} (vd : VReg)
    (h : ∀ el, el < n → s.Accessible (base + BitVec.ofNat 32 el * stride) w) :
    loadLoop vd w base stride n 0 s = s.setVr (loadedElements s vd w base stride n) :=
  loadLoop_of_admitted vd w base stride n 0 s fun j _ hj => (h j (by omega)).check

/-- A vector load whose checks pass and whose accesses are accepted loads its elements and changes nothing else. -/
theorem loadsElements_of_vectorLoad {i : Instr} {s : State} {vd : VReg} {w : Nat} {base stride : Word}
    (h : exec i s = vectorLoad vd w base stride s) : LoadsElements i s vd w base stride := by
  rintro hacc rfl ⟨hvstart, hready⟩
  have hfits := hready vd (List.mem_singleton.2 rfl)
  have hexec : exec i s = .next (s.setVr (loadedElements s vd s.sew base stride s.vl.toNat)) := by
    rw [h, vectorLoad_of_checked base stride (State.vectorCheck_of_fits hvstart rfl hfits), loadLoop_eq_loadedElements vd hacc]
  refine ⟨_, ⟨_, hexec, rfl, rfl⟩, fun el k hel hk => ?inside, fun c hc => ?outside⟩
  case inside =>
    have hin := groupTop_inside ((groupTop_le_iff ..).2 hfits) (Nat.ne_zero_of_lt hel)
    rw [← Nat.zero_add s.vl.toNat] at hel hin
    exact byte_eq_byteAt_of_elem_eq (elementLoop_elem _ _ _ (fun _ _ _ _ _ => rfl) _ _ _ _ (Nat.zero_le el) hel hin) hk
  case outside =>
    refine elementLoop_byte_outside _ _ _ _ _ _ _ ?_
    simpa only [elemOffset, Config.vlenb, Nat.zero_mul, Nat.add_zero, Nat.zero_add] using hc

/-- Settles O43: the six instructions share the load and differ in the width and the stride. -/
theorem vectorLoadResults : Obligations.VectorLoadResults :=
  fun _ _ _ _ => ⟨loadsElements_of_vectorLoad rfl, loadsElements_of_vectorLoad rfl, loadsElements_of_vectorLoad rfl,
    loadsElements_of_vectorLoad rfl, loadsElements_of_vectorLoad rfl, loadsElements_of_vectorLoad rfl⟩

/-! ## Vector stores (R211, R213) -/

theorem vectorStore_of_checked {s : State} {vs3 : VReg} {w : Nat} (base stride : Word)
    (h : s.vectorCheck (some w) [(vs3, w)] = none) :
    vectorStore vs3 w base stride s = .next (storeLoop vs3 w base stride s.vl.toNat 0 s) := by
  rw [vectorStore, h]

/-- The state after the stores of n elements. -/
def storedElements (s : State) (vs3 : VReg) (w : Nat) (base stride : Word) (n : Nat) : State :=
  (List.range' 0 n).foldl (storeElement vs3 w base stride) s

theorem storeLoop_eq_storedElements {s : State} {w : Nat} {base stride : Word} {n : Nat} (vs3 : VReg)
    (h : ∀ el, el < n → s.Accessible (base + BitVec.ofNat 32 el * stride) w) :
    storeLoop vs3 w base stride n 0 s = storedElements s vs3 w base stride n :=
  storeLoop_of_admitted vs3 w base stride n 0 s fun j _ hj => (h j (by omega)).check

theorem storedElements_succ (s : State) (vs3 : VReg) (w : Nat) (base stride : Word) (n : Nat) :
    storedElements s vs3 w base stride (n + 1) = storeElement vs3 w base stride (storedElements s vs3 w base stride n) n := by
  simp [storedElements, List.range'_concat]

/-- The stores reach memory and Dirty alone. -/
theorem storedElements_frame (s : State) (vs3 : VReg) (w : Nat) (base stride : Word) (n : Nat) :
    ∃ m d, storedElements s vs3 w base stride n = { s with mem := m, dirty := d } :=
  (storeElements_changes vs3 w base stride n 0 s).1

/-- The store of one element stores the element's bytes, which no earlier store changed. -/
theorem stored_storedElements_succ (s : State) (vs3 : VReg) (w : Nat) (base stride : Word) (el : Nat) :
    Stored (storedElements s vs3 w base stride el) (storedElements s vs3 w base stride (el + 1))
      (base + BitVec.ofNat 32 el * stride) ((List.range w).map fun k => s.vr.byte (16 * vs3.toNat + el * w + k)) := by
  have hvr : (storedElements s vs3 w base stride el).vr = s.vr := by
    obtain ⟨m, d, h⟩ := storedElements_frame s vs3 w base stride el
    rw [h]
  rw [storedElements_succ, storeElement, hvr, ← VRegs.leBytes_elem, leBytes_toNat_eq]
  exact stored_storeValue ..

/-- A vector store whose checks pass and whose accesses are accepted stores its elements and changes nothing else. -/
theorem storesElements_of_vectorStore {i : Instr} {s : State} {vs3 : VReg} {w : Nat} {base stride : Word}
    (h : exec i s = vectorStore vs3 w base stride s) : StoresElements i s vs3 w base stride := by
  rintro hacc rfl ⟨hvstart, hready⟩
  have hchecks := State.vectorCheck_of_fits hvstart rfl (hready vs3 (List.mem_singleton.2 rfl))
  refine ⟨storedElements s vs3 s.sew base stride, rfl, ?exec, ?frame, fun el _ => stored_storedElements_succ ..⟩
  case exec => rw [h, vectorStore_of_checked base stride hchecks, storeLoop_eq_storedElements vs3 hacc]
  case frame =>
    obtain ⟨m, d, hframe⟩ := storedElements_frame s vs3 s.sew base stride s.vl.toNat
    rw [hframe]

/-- Settles O44: the six instructions share the store and differ in the width and the stride. -/
theorem vectorStoreResults : Obligations.VectorStoreResults :=
  fun _ _ _ _ => ⟨storesElements_of_vectorStore rfl, storesElements_of_vectorStore rfl, storesElements_of_vectorStore rfl,
    storesElements_of_vectorStore rfl, storesElements_of_vectorStore rfl, storesElements_of_vectorStore rfl⟩

/-! ## The first refused element (R212) -/

/-- The state with another element count. -/
def State.setVl (s : State) (n : Word) : State := { s with vl := n }

/-- A group of fewer elements fits where one of more does. -/
theorem groupFits_mono {m n w : Nat} {b : VReg} (h : groupFits n w b) (hm : m ≤ n) : groupFits m w b := by
  have := Nat.mul_le_mul_right w hm
  unfold groupFits at *
  omega

/-- Checks that pass with vl pass with fewer elements. -/
theorem State.vectorCheck_setVl {s : State} {eew : Option Nat} {groups : List (VReg × Nat)} {n : Word}
    (h : s.vectorCheck eew groups = none) (hn : n.toNat ≤ s.vl.toNat) : (s.setVl n).vectorCheck eew groups = none := by
  obtain ⟨hvstart, heew, hgroups⟩ := (s.vectorCheck_eq_none _ _).1 h
  refine ((s.setVl n).vectorCheck_eq_none _ _).2 ⟨hvstart, heew, fun g hg => (groupTop_le_iff ..).2 ?_⟩
  exact groupFits_mono ((groupTop_le_iff ..).1 (hgroups g hg)) hn

/-- The meaning ends at element k with the event e: with vl = k it leaves u, but for vl, and with the vl of s it raises e
in u, where pc and vl are still those of s. -/
def EndsAtElement (meaning : State → Result) (s : State) (k : Word) (e : Stop) : Prop :=
  ∃ u : State, u.pc = s.pc ∧ u.vl = s.vl ∧ meaning s = .next (u.raise e) ∧ meaning (s.setVl k) = .next (u.setVl k)

section
variable {s : State} {r : VReg} {w : Nat} {base stride k : Word} {e : Stop}
  (hchecks : s.vectorCheck (some w) [(r, w)] = none) (hk : k.toNat < s.vl.toNat)
  (hacc : ∀ el, el < k.toNat → s.Accessible (base + BitVec.ofNat 32 el * stride) w)
  (he : s.accessCheck (elementAddr base stride k.toNat) w = some e)
include hchecks hk hacc he

theorem endsAtElement_vectorLoad : EndsAtElement (vectorLoad r w base stride) s k e := by
  refine ⟨s.setVr (loadedElements s r w base stride k.toNat), rfl, rfl, ?all, ?first⟩
  case all =>
    rw [vectorLoad_of_checked base stride hchecks, ← loadLoop_eq_loadedElements r hacc]
    exact congrArg _ (loadLoop_of_refused r w base stride k.toNat _ 0 s e (fun j _ hj => (hacc j (by omega)).check)
      (by rwa [Nat.zero_add]) hk)
  case first =>
    rw [vectorLoad_of_checked base stride (State.vectorCheck_setVl hchecks hk.le)]
    exact congrArg _ (loadLoop_eq_loadedElements r hacc)

theorem endsAtElement_vectorStore : EndsAtElement (vectorStore r w base stride) s k e := by
  obtain ⟨m, d, hframe⟩ := storedElements_frame s r w base stride k.toNat
  refine ⟨storedElements s r w base stride k.toNat, by rw [hframe], by rw [hframe], ?all, ?first⟩
  case all =>
    rw [vectorStore_of_checked base stride hchecks, ← storeLoop_eq_storedElements r hacc]
    exact congrArg _ (storeLoop_of_refused r w base stride k.toNat _ 0 s e (fun j _ hj => (hacc j (by omega)).check)
      (by rwa [Nat.zero_add]) hk)
  case first =>
    have hvl : storedElements (s.setVl k) r w base stride k.toNat = (storedElements s r w base stride k.toNat).setVl k :=
      List.foldl_hom (State.setVl · k) fun _ _ => rfl
    rw [vectorStore_of_checked base stride (State.vectorCheck_setVl hchecks hk.le), ← hvl]
    exact congrArg _ (storeLoop_eq_storedElements r hacc)

end

/-- An instruction that accesses elements is the load or the store of its one group, whatever vl is. -/
theorem exec_of_elementAddresses {i : Instr} {s : State} {w : Nat} {groups : List (VReg × Nat)} {base stride : Word}
    (hops : vectorOperands s.sew i = some (some w, groups)) (haddr : elementAddresses s i = some (base, stride)) :
    ∃ r, groups = [(r, w)] ∧ ((∀ n, exec i (s.setVl n) = vectorLoad r w base stride (s.setVl n)) ∨
      ∀ n, exec i (s.setVl n) = vectorStore r w base stride (s.setVl n)) := by
  cases i with
  | vle8V | vle16V | vle32V | vlse8V | vlse16V | vlse32V => cases hops; cases haddr; exact ⟨_, rfl, .inl fun _ => rfl⟩
  | vse8V | vse16V | vse32V | vsse8V | vsse16V | vsse32V => cases hops; cases haddr; exact ⟨_, rfl, .inr fun _ => rfl⟩
  | _ => cases haddr

/-- An instruction whose meaning ends at element k leaves what it leaves with vl = k, but for vl, pc and the event. -/
theorem EndsAtElement.exec_eq {meaning : State → Result} {i : Instr} {s t : State} {k : Word} {e : Stop}
    (h : EndsAtElement meaning s k e) (hi : ∀ n, exec i (s.setVl n) = meaning (s.setVl n))
    (ht : exec i (s.setVl k) = .next t) : exec i s = .next { t with vl := s.vl, pc := s.pc - 4, stop := some e } := by
  obtain ⟨u, hpc, hvl, hall, hfirst⟩ := h
  obtain rfl : u.setVl k = t := Host.Outcome.next.inj (hfirst.symm.trans ((hi k).symm.trans ht))
  rw [← hpc, ← hvl]
  exact (hi s.vl).trans hall

/-- Settles O45: the loop with vl = k stops where the loop with vl raises, after the same k accepted accesses. -/
theorem vectorFaultsKeepEarlierElements : Obligations.VectorFaultsKeepEarlierElements := by
  intro s t i w groups base stride k hops haddr hw hvstart hfits hk hacc hexec a
  obtain ⟨r, rfl, hmeaning⟩ := exec_of_elementAddresses hops haddr
  have hchecks := State.vectorCheck_of_fits hvstart hw (hfits _ (List.mem_singleton.2 rfl))
  have hkn : (BitVec.ofNat 32 k).toNat = k := Nat.mod_eq_of_lt (hk.trans s.vl.isLt)
  rw [← hkn] at hk hacc
  have hends {e : Stop} (he : s.accessCheck a w = some e) :
      exec i s = .next { t with vl := s.vl, pc := s.pc - 4, stop := some e } := by
    have he : s.accessCheck (elementAddr base stride (BitVec.ofNat 32 k).toNat) w = some e := by rwa [hkn]
    obtain hload | hstore := hmeaning
    · exact (endsAtElement_vectorLoad hchecks hk hacc he).exec_eq hload hexec
    · exact (endsAtElement_vectorStore hchecks hk hacc he).exec_eq hstore hexec
  exact ⟨fun ha => hends ((s.accessCheck_eq_some a w _).2 (.inl ⟨ha, rfl⟩)),
    fun ha hadm => hends ((s.accessCheck_eq_some a w _).2 (.inr ⟨ha, hadm, rfl⟩))⟩

end Sys2Proof.Machine

/-! PROOFS. The statements of 46_vector_alu.md (R226 to R273): the element loops of the vector-vector, vector-scalar and
vector-immediate instructions, their lanes when the groups do not partly overlap, and the moves and reductions of element 0. -/

namespace Sys2Proof.Machine

/-! ## The element operations as the statements write them (R228, R237 to R240) -/

theorem ite_ult_eq_ofNat_min {S : Nat} (a b : BitVec S) :
    (if a.ult b then a else b) = BitVec.ofNat S (min a.toNat b.toNat) := by
  by_cases h : a.toNat < b.toNat
  · rw [if_pos (BitVec.ult_iff_toNat_lt.2 h), min_eq_left h.le, BitVec.ofNat_toNat, BitVec.setWidth_eq]
  · rw [if_neg (mt BitVec.ult_iff_toNat_lt.1 h), min_eq_right (not_lt.1 h), BitVec.ofNat_toNat, BitVec.setWidth_eq]

theorem ite_ult_eq_ofNat_max {S : Nat} (a b : BitVec S) :
    (if a.ult b then b else a) = BitVec.ofNat S (max a.toNat b.toNat) := by
  by_cases h : a.toNat < b.toNat
  · rw [if_pos (BitVec.ult_iff_toNat_lt.2 h), max_eq_right h.le, BitVec.ofNat_toNat, BitVec.setWidth_eq]
  · rw [if_neg (mt BitVec.ult_iff_toNat_lt.1 h), max_eq_left (not_lt.1 h), BitVec.ofNat_toNat, BitVec.setWidth_eq]

theorem boolElem_decide {S : Nat} (p : Prop) [Decidable p] : (boolElem (decide p) : BitVec S) = if p then 1 else 0 := by
  simp [boolElem]

theorem boolElem_beq {S : Nat} (a b : BitVec S) : (boolElem (a == b) : BitVec S) = if a = b then 1 else 0 :=
  boolElem_decide _

theorem boolElem_bne {S : Nat} (a b : BitVec S) : (boolElem (a != b) : BitVec S) = if a = b then 0 else 1 := by
  rw [bne, ← ite_not, ← boolElem_decide, decide_not]
  rfl

theorem boolElem_slt {S : Nat} (a b : BitVec S) : (boolElem (a.slt b) : BitVec S) = if a.toInt < b.toInt then 1 else 0 :=
  boolElem_decide _

theorem boolElem_sle {S : Nat} (a b : BitVec S) : (boolElem (a.sle b) : BitVec S) = if a.toInt ≤ b.toInt then 1 else 0 :=
  boolElem_decide _

/-! ## Vector-vector instructions (R226, R227) -/

/-- Settles O46: the eight instructions share the loop and differ in the element operation. -/
theorem vectorVectorArithmetic : Obligations.VectorVectorArithmetic := by
  intro s vd vs2 vs1 hready a b
  refine ⟨?add, ?sub, ?mul, ?minu, ?maxu, ?and, ?or, ?xor⟩
  case add => exact runsLoop_of_vectorVV (op := fun _ a b => a + b) rfl hready fun _ _ => rfl
  case sub => exact runsLoop_of_vectorVV (op := fun _ a b => a - b) rfl hready fun _ _ => rfl
  case mul => exact runsLoop_of_vectorVV (op := fun _ a b => a * b) rfl hready fun _ _ => rfl
  case minu =>
    exact runsLoop_of_vectorVV (op := fun _ a b => if a.ult b then a else b) rfl hready
      fun _ _ => ite_ult_eq_ofNat_min ..
  case maxu =>
    exact runsLoop_of_vectorVV (op := fun _ a b => if a.ult b then b else a) rfl hready
      fun _ _ => ite_ult_eq_ofNat_max ..
  case and => exact runsLoop_of_vectorVV (op := fun _ a b => a &&& b) rfl hready fun _ _ => rfl
  case or => exact runsLoop_of_vectorVV (op := fun _ a b => a ||| b) rfl hready fun _ _ => rfl
  case xor => exact runsLoop_of_vectorVV (op := fun _ a b => a ^^^ b) rfl hready fun _ _ => rfl

/-- Settles O47: the six instructions share the loop; a compare's element is 1 or 0, a shift's count is taken modulo S. -/
theorem vectorVectorComparesAndShifts : Obligations.VectorVectorComparesAndShifts := by
  intro s vd vs2 vs1 hready a b
  refine ⟨?seq, ?sne, ?slt, ?sle, ?sll, ?srl⟩
  case seq => exact runsLoop_of_vectorVV (op := fun _ a b => boolElem (a == b)) rfl hready fun _ _ => boolElem_beq ..
  case sne => exact runsLoop_of_vectorVV (op := fun _ a b => boolElem (a != b)) rfl hready fun _ _ => boolElem_bne ..
  case slt => exact runsLoop_of_vectorVV (op := fun _ a b => boolElem (a.slt b)) rfl hready fun _ _ => boolElem_slt ..
  case sle => exact runsLoop_of_vectorVV (op := fun _ a b => boolElem (a.sle b)) rfl hready fun _ _ => boolElem_sle ..
  case sll => exact runsLoop_of_vectorVV (op := fun _ a b => a <<< vectorShift b) rfl hready fun _ _ => rfl
  case srl => exact runsLoop_of_vectorVV (op := fun _ a b => a >>> vectorShift b) rfl hready fun _ _ => rfl

/-! ## Vector-scalar instructions (R226, R227) -/

theorem State.scalarOperand_eq (s : State) (rs1 : XReg) (S : Nat) : s.scalarOperand rs1 S = s.scalarBits S rs1 :=
  (BitVec.ofNat_toNat S (s.readX rs1)).symm

/-- What a vector-scalar instruction does when its checks pass, by the low S bits of x[rs1] (R226). -/
theorem runsLoop_of_vectorVX {i : Instr} {s : State} {vd vs2 : VReg} {rs1 : XReg}
    {op : (S : Nat) → BitVec S → BitVec S → BitVec S} {value : VRegs → Nat → BitVec (8 * s.sew)}
    (h : exec i s = vectorScalar vd vs2 (s.scalarOperand rs1) op s) (hready : s.VectorReady [vd, vs2])
    (hvalue : ∀ v el, op (8 * s.sew) (v.elem vs2 el s.sew) (s.scalarBits (8 * s.sew) rs1) = value v el) :
    RunsLoop i s vd value :=
  runsLoop_of_vectorScalar h hready (s.scalarOperand_eq rs1 _ ▸ hvalue)

/-- Settles O48: the eight instructions share the loop and differ in the element operation. -/
theorem vectorScalarArithmetic : Obligations.VectorScalarArithmetic := by
  intro s vd vs2 rs1 hready a b
  refine ⟨?add, ?sub, ?mul, ?minu, ?maxu, ?and, ?or, ?xor⟩
  case add => exact runsLoop_of_vectorVX (op := fun _ a b => a + b) rfl hready fun _ _ => rfl
  case sub => exact runsLoop_of_vectorVX (op := fun _ a b => a - b) rfl hready fun _ _ => rfl
  case mul => exact runsLoop_of_vectorVX (op := fun _ a b => a * b) rfl hready fun _ _ => rfl
  case minu =>
    exact runsLoop_of_vectorVX (op := fun _ a b => if a.ult b then a else b) rfl hready
      fun _ _ => ite_ult_eq_ofNat_min ..
  case maxu =>
    exact runsLoop_of_vectorVX (op := fun _ a b => if a.ult b then b else a) rfl hready
      fun _ _ => ite_ult_eq_ofNat_max ..
  case and => exact runsLoop_of_vectorVX (op := fun _ a b => a &&& b) rfl hready fun _ _ => rfl
  case or => exact runsLoop_of_vectorVX (op := fun _ a b => a ||| b) rfl hready fun _ _ => rfl
  case xor => exact runsLoop_of_vectorVX (op := fun _ a b => a ^^^ b) rfl hready fun _ _ => rfl

/-- Settles O49: the seven instructions share the loop; VMSGT is VMSLT with its operands exchanged. -/
theorem vectorScalarComparesAndShifts : Obligations.VectorScalarComparesAndShifts := by
  intro s vd vs2 rs1 hready a b
  refine ⟨?seq, ?sne, ?slt, ?sle, ?sgt, ?sll, ?srl⟩
  case seq => exact runsLoop_of_vectorVX (op := fun _ a b => boolElem (a == b)) rfl hready fun _ _ => boolElem_beq ..
  case sne => exact runsLoop_of_vectorVX (op := fun _ a b => boolElem (a != b)) rfl hready fun _ _ => boolElem_bne ..
  case slt => exact runsLoop_of_vectorVX (op := fun _ a b => boolElem (a.slt b)) rfl hready fun _ _ => boolElem_slt ..
  case sle => exact runsLoop_of_vectorVX (op := fun _ a b => boolElem (a.sle b)) rfl hready fun _ _ => boolElem_sle ..
  case sgt => exact runsLoop_of_vectorVX (op := fun _ a b => boolElem (b.slt a)) rfl hready fun _ _ => boolElem_slt ..
  case sll => exact runsLoop_of_vectorVX (op := fun _ a b => a <<< vectorShift b) rfl hready fun _ _ => rfl
  case srl => exact runsLoop_of_vectorVX (op := fun _ a b => a >>> vectorShift b) rfl hready fun _ _ => rfl

/-! ## Vector-immediate instructions (R226, R227) -/

/-- An element has at least one byte, at every vtype. -/
theorem State.one_le_sew (s : State) : 1 ≤ s.sew := Nat.one_le_two_pow

/-- A shift's immediate is not cut at any SEW, so its count is the immediate modulo S (R226, R250). -/
theorem State.vectorShift_uimm5Operand (s : State) (imm : BitVec 5) :
    vectorShift (uimm5Operand imm (8 * s.sew)) = imm.toNat % (8 * s.sew) := by
  have hsew := s.one_le_sew
  have hfits : imm.toNat < 2 ^ (8 * s.sew) := imm.isLt.trans_le (Nat.pow_le_pow_right Nat.two_pos (by omega))
  rw [vectorShift, uimm5Operand, BitVec.toNat_setWidth, Nat.mod_eq_of_lt hfits]

/-- Settles O50: the ten instructions share the loop, and the immediate fits the element at every SEW. -/
theorem vectorImmediateResults : Obligations.VectorImmediateResults := by
  intro s vd vs2 imm hready a b
  have hcount := s.vectorShift_uimm5Operand imm
  refine ⟨?add, ?and, ?or, ?xor, ?seq, ?sne, ?sle, ?sgt, ?sll, ?srl⟩
  case add => exact runsLoop_of_vectorScalar (op := fun _ a b => a + b) rfl hready fun _ _ => rfl
  case and => exact runsLoop_of_vectorScalar (op := fun _ a b => a &&& b) rfl hready fun _ _ => rfl
  case or => exact runsLoop_of_vectorScalar (op := fun _ a b => a ||| b) rfl hready fun _ _ => rfl
  case xor => exact runsLoop_of_vectorScalar (op := fun _ a b => a ^^^ b) rfl hready fun _ _ => rfl
  case seq => exact runsLoop_of_vectorScalar (op := fun _ a b => boolElem (a == b)) rfl hready fun _ _ => boolElem_beq ..
  case sne => exact runsLoop_of_vectorScalar (op := fun _ a b => boolElem (a != b)) rfl hready fun _ _ => boolElem_bne ..
  case sle => exact runsLoop_of_vectorScalar (op := fun _ a b => boolElem (a.sle b)) rfl hready fun _ _ => boolElem_sle ..
  case sgt => exact runsLoop_of_vectorScalar (op := fun _ a b => boolElem (b.slt a)) rfl hready fun _ _ => boolElem_slt ..
  case sll =>
    exact runsLoop_of_vectorScalar (op := fun _ a b => a <<< vectorShift b) rfl hready
      fun v el => congrArg (a v el <<< ·) hcount
  case srl =>
    exact runsLoop_of_vectorScalar (op := fun _ a b => a >>> vectorShift b) rfl hready
      fun v el => congrArg (a v el >>> ·) hcount

/-! ## Lanes (R227) -/

/-- The storage that the loop of R227 leaves is that of the model's element loop. -/
theorem RunsLoop.writesV_elementLoop {i : Instr} {s : State} {vd : VReg} {value : VRegs → Nat → BitVec (8 * s.sew)}
    (h : RunsLoop i s vd value) : WritesV i s (elementLoop vd s.sew value s.vl.toNat 0 s.vr) := by
  obtain ⟨V, hzero, hsucc, hwrites⟩ := h
  have hloop (n : Nat) (hn : n ≤ s.vl.toNat) : V n = elementLoop vd s.sew value n 0 s.vr := by
    induction n with
    | zero => exact hzero
    | succ n ih => rw [hsucc n hn, ih (Nat.le_of_succ_le hn), elementLoop_last, Nat.zero_add]
  rwa [hloop _ le_rfl] at hwrites

/-- A loop that combines two source groups, each vd itself or apart from it, writes the combination of their old lanes to
each lane of vd and leaves the other vector bytes (R227). -/
theorem RunsLoop.lanes {i : Instr} {s : State} {vd vs2 vs1 : VReg}
    {op : BitVec (8 * s.sew) → BitVec (8 * s.sew) → BitVec (8 * s.sew)}
    (h : RunsLoop i s vd fun v el => op (v.elem vs2 el s.sew) (v.elem vs1 el s.sew))
    (hfits : groupFits s.vl.toNat s.sew vd) (hvs2 : SameOrApart s.vl.toNat s.sew vd vs2)
    (hvs1 : SameOrApart s.vl.toNat s.sew vd vs1) :
    ∃ v, WritesV i s v ∧
      (∀ el, el < s.vl.toNat → v.elem vd el s.sew = op (s.vr.elem vs2 el s.sew) (s.vr.elem vs1 el s.sew)) ∧
      (∀ c, c < 16 * vd.toNat ∨ 16 * vd.toNat + s.vl.toNat * s.sew ≤ c → v.byte c = s.vr.byte c) := by
  refine ⟨_, h.writesV_elementLoop, fun el hel => ?lane, fun c hc => ?outside⟩
  case lane =>
    have hin := groupTop_inside ((groupTop_le_iff ..).2 hfits) (Nat.ne_zero_of_lt hel)
    refine elementLoop_elem_below vd s.sew s.vl.toNat _ (fun v e x j he hj => ?_) _ _ _ _ (Nat.zero_le el)
      (by rwa [Nat.zero_add]) (Nat.zero_add _).le (by rwa [Nat.zero_add])
    rw [elem_setElem_of_sameOrApart hvs2 v x he hj, elem_setElem_of_sameOrApart hvs1 v x he hj]
  case outside =>
    refine elementLoop_byte_outside _ _ _ _ _ _ _ ?_
    simpa only [elemOffset, Config.vlenb, Nat.zero_mul, Nat.add_zero, Nat.zero_add] using hc

/-- Settles O51: each instruction runs its loop, whose lanes depend on the old lanes alone. -/
theorem elementwiseLanes : Obligations.ElementwiseLanes := by
  intro s vd vs2 vs1 i op hready hvs2 hvs1 hi
  obtain ⟨hadd, hsub, hmul, hminu, hmaxu, hand, hor, hxor⟩ := vectorVectorArithmetic s vd vs2 vs1 hready
  obtain ⟨hseq, hsne, hslt, hsle, hsll, hsrl⟩ := vectorVectorComparesAndShifts s vd vs2 vs1 hready
  have hloop : RunsLoop i s vd fun v el => op (v.elem vs2 el s.sew) (v.elem vs1 el s.sew) := by
    obtain ⟨rfl, rfl⟩ | ⟨rfl, rfl⟩ | ⟨rfl, rfl⟩ | ⟨rfl, rfl⟩ | ⟨rfl, rfl⟩ | ⟨rfl, rfl⟩ | ⟨rfl, rfl⟩ | ⟨rfl, rfl⟩ |
      ⟨rfl, rfl⟩ | ⟨rfl, rfl⟩ | ⟨rfl, rfl⟩ | ⟨rfl, rfl⟩ | ⟨rfl, rfl⟩ | ⟨rfl, rfl⟩ := hi
    exacts [hadd, hsub, hmul, hand, hor, hxor, hminu, hmaxu, hseq, hsne, hslt, hsle, hsll, hsrl]
  exact hloop.lanes (hready.2 vd List.mem_cons_self) hvs2 hvs1

/-! ## Moves and reductions (R270 to R273) -/

/-- An instruction that first makes the checks of groups that fit answers its result. -/
theorem exec_of_groupFits {i : Instr} {s t : State} {groups : List (VReg × Nat)}
    (h : exec i s = s.answerAfter (s.vectorCheck none groups) t) (hvstart : s.vstart = 0)
    (hfits : ∀ g ∈ groups, groupFits s.vl.toNat g.2 g.1) : exec i s = .next t := by
  have hcheck : s.vectorCheck none groups = none :=
    (s.vectorCheck_eq_none none groups).2 ⟨hvstart, nofun, fun g hg => (groupTop_le_iff ..).2 (hfits g hg)⟩
  rw [h, hcheck]
  rfl

/-- An instruction whose meaning is one write of the vector registers changes nothing else. -/
theorem writesV_of_exec_eq {i : Instr} {s : State} {v v' : VRegs} (h : exec i s = .next (s.setVr v)) (hv : v = v') :
    WritesV i s v' :=
  ⟨_, h, hv, rfl⟩

theorem list_sum_map_eq_ofNat {S : Nat} (value : Nat → BitVec S) (els : List Nat) :
    (els.map value).sum = BitVec.ofNat S (els.map fun el => (value el).toNat).sum := by
  induction els with
  | nil => rfl
  | cons el els ih =>
    rw [List.map_cons, List.sum_cons, ih, List.map_cons, List.sum_cons, BitVec.ofNat_add, BitVec.ofNat_toNat,
      BitVec.setWidth_eq]

/-- The running sum of a reduction is the sum of its elements as numbers, modulo 2^S (R272, R273). -/
theorem reduceLoop_eq_ofNat {S : Nat} (value : Nat → BitVec S) (n : Nat) (acc : BitVec S) :
    reduceLoop value n 0 acc = BitVec.ofNat S (acc.toNat + ((List.range n).map fun el => (value el).toNat).sum) := by
  rw [reduceLoop_eq_sum, list_sum_map_eq_ofNat, BitVec.ofNat_add, BitVec.ofNat_toNat, BitVec.setWidth_eq, List.range_eq_range']

/-- Settles O52: element 0 is written whatever vl is, and the sums are those of the elements as numbers. -/
theorem vectorMoveAndReductionResults : Obligations.VectorMoveAndReductionResults := by
  intro s rd rs1 vd vs2 vs1 hvstart w
  refine ⟨?toX, ?toV, fun hfits => ⟨?sum, ?wideSum⟩⟩
  case toX => exact writesX_of_exec (exec_of_groupFits (groups := []) rfl hvstart nofun)
  case toV =>
    exact writesV_of_exec_eq (exec_of_groupFits (groups := []) rfl hvstart nofun)
      (congrArg (s.vr.setElem vd 0 w) (s.scalarOperand_eq rs1 _))
  case sum =>
    exact writesV_of_exec_eq (exec_of_groupFits rfl hvstart (List.forall_mem_singleton.2 hfits))
      (congrArg (s.vr.setElem vd 0 w) (reduceLoop_eq_ofNat ..))
  case wideSum =>
    have hwide (el : Nat) : ((s.vr.elem vs2 el w).setWidth (8 * (2 * w))).toNat = (s.vr.elem vs2 el w).toNat :=
      BitVec.toNat_setWidth_of_le (by omega)
    have hsum := reduceLoop_eq_ofNat (fun el => (s.vr.elem vs2 el w).setWidth (8 * (2 * w))) s.vl.toNat
      (s.vr.elem vs1 0 (2 * w))
    simp only [hwide] at hsum
    exact writesV_of_exec_eq (exec_of_groupFits rfl hvstart (List.forall_mem_singleton.2 hfits))
      (congrArg (s.vr.setElem vd 0 (2 * w)) hsum)

end Sys2Proof.Machine

/-! PROOFS. The statements of 60_exceptions.md (R274 to R281): the halts and faults that an instruction's body can end the run
with, what a fault leaves, and that a run ends once. -/

namespace Sys2Proof.Machine

/-! ## How an instruction ends the run -/

/-- The three instructions that halt, each with its own reason (R275). -/
def HaltsWith (i : Instr) (r : Stop) : Prop :=
  (i = .ecall ∧ r = .ecall) ∨ (i = .ebreak ∧ r = .ebreak) ∨
    (r = .fsqrtNegative ∧ ∃ rd rs1 rm, i = .fsqrtS rd rs1 rm ∨ i = .fsqrtD rd rs1 rm)

/-- From s to u the accesses of k elements of w bytes at base + el·stride were accepted, and nothing changed but the bytes of
these elements: in memory and Dirty when they are stored, in the group based at b when they are loaded (R212). -/
def ElementsDone (storing : Bool) (s u : State) (b : VReg) (w : Nat) (base stride : Word) (k : Nat) : Prop :=
  { u with vr := s.vr, mem := s.mem, dirty := s.dirty } = s ∧
  (∀ el, el < k → s.Accessible (base + BitVec.ofNat 32 el * stride) w) ∧
  if storing then u.vr = s.vr ∧ (∀ c ∈ s.dirty, c ∈ u.dirty) ∧
    ∀ c, u.mem.read c ≠ s.mem.read c ∨ (c ∈ u.dirty ∧ c ∉ s.dirty) →
      ∃ el, el < k ∧ (base + BitVec.ofNat 32 el * stride).toNat ≤ c ∧ c < (base + BitVec.ofNat 32 el * stride).toNat + w
  else u.mem = s.mem ∧ u.dirty = s.dirty ∧ ∀ c, u.vr.byte c ≠ s.vr.byte c → 16 * b.toNat ≤ c ∧ c < 16 * b.toNat + k * w

/-- All the ways an instruction ends the run: a halt, a fault before it has changed anything, or the fault of an element's
access after the elements before it (R212, R276, R277). -/
inductive EndsRun (i : Instr) (s : State) : State → Stop → Prop where
  | halt {t : State} {r : Stop} (hpc : t.pc = s.pc) (h : HaltsWith i r) : EndsRun i s t r
  | fault {r : Stop} (h : bodyFault r = true) : EndsRun i s (s.raise r) r
  | elementFault {u : State} {r : Stop} {w k : Nat} {b : VReg} {base stride : Word}
      (hops : vectorOperands s.sew i = some (some w, [(b, w)])) (haddr : elementAddresses s i = some (base, stride))
      (hk : k < s.vl.toNat) (hrefused : s.accessCheck (base + BitVec.ofNat 32 k * stride) w = some r)
      (hdone : ElementsDone (storesMemory i) s u b w base stride k) : EndsRun i s (u.raise r) r

theorem elementsDone_zero (storing : Bool) (s : State) (b : VReg) (w : Nat) (base stride : Word) :
    ElementsDone storing s s b w base stride 0 := by
  refine ⟨rfl, nofun, ?_⟩
  split
  · exact ⟨rfl, fun _ h => h, fun _ h => (h.elim (· rfl) fun ⟨hc, hnew⟩ => hnew hc).elim⟩
  · exact ⟨rfl, rfl, fun _ h => (h rfl).elim⟩

section
variable {s : State} {w k : Nat} {base stride : Word} (b : VReg)
  (hok : ∀ el, el < k → s.accessCheck (elementAddr base stride el) w = none)
include hok

theorem elementsDone_load :
    ElementsDone false s (s.setVr (loadedElements s b w base stride k)) b w base stride k := by
  refine ⟨rfl, fun el hel => (s.accessCheck_eq_none _ w).1 (hok el hel), rfl, rfl, fun c hc => ?_⟩
  by_contra hout
  refine hc (elementLoop_byte_outside _ _ _ _ _ _ _ ?_)
  simp only [elemOffset, Config.vlenb, Nat.zero_add]
  omega

theorem elementsDone_store : ElementsDone true s (storedElements s b w base stride k) b w base stride k := by
  obtain ⟨m, d, hframe⟩ := storedElements_frame s b w base stride k
  obtain ⟨-, hdirty, hmem⟩ := storeElements_changes b w base stride k 0 s
  refine ⟨by rw [hframe], fun el hel => (s.accessCheck_eq_none _ w).1 (hok el hel), by rw [hframe],
    fun c hc => (hdirty c).2 (.inr hc), ?_⟩
  rintro c (hc | ⟨hc, hnew⟩)
  · by_contra hout
    refine hc (hmem c fun el _ hel => ?_)
    have hnotin := mt (fun hin => ⟨el, by omega, hin⟩) hout
    rw [elementAddr]
    omega
  · obtain ⟨el, -, hel, hin⟩ := ((hdirty c).1 hc).resolve_right hnew
    exact ⟨el, by omega, hin⟩

end

/-- A vector load that ends the run was refused at an element (R212). -/
theorem endsRun_loadLoop {i : Instr} {s : State} {b : VReg} {w : Nat} {base stride : Word} {r : Stop} (hrun : s.stop = none)
    (hops : vectorOperands s.sew i = some (some w, [(b, w)])) (haddr : elementAddresses s i = some (base, stride))
    (hi : storesMemory i = false) (hr : (loadLoop b w base stride s.vl.toNat 0 s).stop = some r) :
    EndsRun i s (loadLoop b w base stride s.vl.toNat 0 s) r := by
  obtain ⟨k, -, hok, ⟨-, heq⟩ | ⟨hk, e, hrefused, heq⟩⟩ := loadLoop_eq b w base stride s.vl.toNat s
  · rw [heq] at hr
    cases hrun.symm.trans hr
  · rw [heq] at hr ⊢
    cases hr
    exact .elementFault hops haddr hk hrefused (hi ▸ elementsDone_load b hok)

/-- A vector store that ends the run was refused at an element (R212). -/
theorem endsRun_storeLoop {i : Instr} {s : State} {b : VReg} {w : Nat} {base stride : Word} {r : Stop} (hrun : s.stop = none)
    (hops : vectorOperands s.sew i = some (some w, [(b, w)])) (haddr : elementAddresses s i = some (base, stride))
    (hi : storesMemory i = true) (hr : (storeLoop b w base stride s.vl.toNat 0 s).stop = some r) :
    EndsRun i s (storeLoop b w base stride s.vl.toNat 0 s) r := by
  obtain ⟨k, -, hok, hloop⟩ := storeLoop_eq b w base stride s.vl.toNat s
  obtain ⟨m, d, hframe⟩ := storedElements_frame s b w base stride k
  obtain ⟨-, heq⟩ | ⟨hk, e, hrefused, heq⟩ := hloop
  · rw [heq, ← storedElements, hframe] at hr
    cases hrun.symm.trans hr
  · rw [heq] at hr ⊢
    cases hr
    exact .elementFault hops haddr hk hrefused (hi ▸ elementsDone_store b hok)

/-- The effects that end the run are the halts, the faults and the refused vector loads and stores. -/
theorem Effect.endsRun {i : Instr} {s t : State} {r : Stop} (h : Effect i s t) (hrun : s.stop = none)
    (hr : t.stop = some r) : EndsRun i s t r := by
  cases h with
  | ecall => cases hr; exact .halt rfl (.inl ⟨rfl, rfl⟩)
  | ebreak => cases hr; exact .halt rfl (.inr (.inl ⟨rfl, rfl⟩))
  | root rd h =>
    cases hr
    obtain ⟨rs1, rm, hi, -⟩ | ⟨rs1, rm, hi, -⟩ := h
    · exact .halt rfl (.inr (.inr ⟨rfl, rd, rs1, rm, .inl hi⟩))
    · exact .halt rfl (.inr (.inr ⟨rfl, rd, rs1, rm, .inr hi⟩))
  | raise k hk => cases hr; exact .fault hk
  | vload b w base stride hops haddr hi => exact endsRun_loadLoop hrun hops haddr hi hr
  | vstore b w base stride hops haddr hi => exact endsRun_storeLoop hrun hops haddr hi hr
  | csr rd rs1 n v => cases hrun.symm.trans ((s.csrWrite_stop n v).symm.trans hr)
  | _ => cases hrun.symm.trans hr

theorem HaltsWith.not_fault {i : Instr} {r : Stop} (h : HaltsWith i r) : r.isFault = false := by
  obtain ⟨-, rfl⟩ | ⟨-, rfl⟩ | ⟨rfl, -⟩ := h
  all_goals rfl

/-! ## The obligations -/

/-- Settles O55: a fault is raised before any change, or at the first refused element after the ones before it. -/
theorem faultsChangeNothing : Obligations.FaultsChangeNothing := by
  intro s t i r hrun hexec hr hfault
  cases (exec_effect hexec).endsRun hrun hr with
  | halt _ h => cases h.not_fault.symm.trans hfault
  | fault h =>
    refine ⟨rfl, fun _ => rfl, fun w b base stride _ _ => ?_⟩
    obtain ⟨-, hacc, hchanges⟩ := elementsDone_zero (storesMemory i) s b w base stride
    exact ⟨rfl, 0, Nat.zero_le _, hacc, .inl rfl, hchanges⟩
  | @elementFault u _ w k b base stride hops haddr hk hrefused hdone =>
    obtain ⟨hframe, hacc, hchanges⟩ := hdone
    have hpc : u.pc = s.pc := (congrArg State.pc hframe :)
    have hnot : ¬ s.Accessible (base + BitVec.ofNat 32 k * stride) w := fun h => nomatch h.check.symm.trans hrefused
    refine ⟨congrArg (· - 4) hpc, fun h => (h ⟨_, _, hops⟩).elim, fun w' b' base' stride' hops' haddr' => ?_⟩
    cases hops.symm.trans hops'
    cases haddr.symm.trans haddr'
    exact ⟨congrArg (fun v : State => { v with pc := s.pc, stop := s.stop }) hframe, k, hk.le, hacc, .inr ⟨hk, hnot⟩, hchanges⟩

/-- Settles O56: a halt is one of the three instructions', and a fault of a body is none of the fetch's. -/
theorem haltsComeFromThreeInstructions : Obligations.HaltsComeFromThreeInstructions := by
  intro s t i r hrun hexec hr
  cases (exec_effect hexec).endsRun hrun hr with
  | halt hpc h =>
    refine ⟨fun _ => ⟨hpc, h⟩, ?_⟩
    obtain ⟨-, rfl⟩ | ⟨-, rfl⟩ | ⟨rfl, -⟩ := h
    all_goals exact ⟨nofun, fun _ => ⟨nofun, nofun⟩⟩
  | fault h =>
    obtain ⟨hfault, hbody⟩ := bodyFault_isFault h
    exact ⟨fun h => (Bool.false_ne_true (h.symm.trans hfault)).elim, hbody⟩
  | elementFault _ _ _ hrefused =>
    obtain ⟨hfault, hbody⟩ := bodyFault_isFault (accessCheck_fault hrefused)
    exact ⟨fun h => (Bool.false_ne_true (h.symm.trans hfault)).elim, hbody⟩

/-- Settles O57, by induction on the run: the state it has reached is the halted one, which has no step. -/
theorem haltedRunsStayHalted : Obligations.HaltedRunsStayHalted := by
  intro s t hs hreach
  obtain ⟨r, hr⟩ := Option.ne_none_iff_exists'.1 hs
  induction hreach with
  | refl => rfl
  | tail _ hstep ih =>
    rw [ih, step_of_halted hr] at hstep
    cases hstep

end Sys2Proof.Machine

/-! PROOFS. The statements of 70_reset_and_hazards.md about the reset state (R291, R292). -/

namespace Sys2Proof.Machine

theorem legalVtype_zero : legalVtype 0 := ⟨by decide, by decide⟩

theorem sewOf_zero : sewOf 0 = 1 := by decide

theorem vlmaxOf_zero : vlmaxOf 0 = 16 := by decide

section
variable (entry : Word) (image : Memory) (p : Params)

theorem State.loaded_readX (r : XReg) : (State.loaded entry image p).readX r = 0 := by
  unfold State.readX
  split
  · rfl
  · exact Vector.getElem_replicate ..

theorem State.loaded_readF (r : FReg) : (State.loaded entry image p).readF r = 0 := Vector.getElem_replicate ..

/-- A register of zeros is not a boxed single (R137). -/
theorem State.loaded_readS (r : FReg) : (State.loaded entry image p).readS r = 0x7FC00000#32 := by
  rw [State.readS, State.loaded_readF]
  rfl

theorem State.loaded_vr_byte {b : Nat} (hb : b < 512) : (State.loaded entry image p).vr.byte b = 0 := by
  have hr : b / Config.vlenb < 32 := Nat.div_lt_of_lt_mul hb
  rw [VRegs.byte, State.loaded, Vector.getElem?_replicate, if_pos hr]
  exact BitVec.extractLsb'_zero ..

/-- Reset leaves pc and memory to the entry and the image, and every other part of the invariant to zeros (R291). -/
theorem State.loaded_inv (hentry : entry.getLsbD 0 = false) (himage : image.wf = true) :
    (State.loaded entry image p).Inv where
  x0 := rfl
  pcEven := hentry
  vtypeLegal := legalVtype_zero
  vlBound := Nat.zero_le _
  memWf := himage
  dirtyWf := rfl

end

/-- Settles O9, from what each register file and each CSR number reads after reset. -/
theorem resetLeavesTheListedState : Obligations.ResetLeavesTheListedState := by
  intro entry image p s
  exact ⟨State.loaded_readX entry image p, rfl, rfl, State.loaded_readF entry image p, State.loaded_readS entry image p, rfl,
    fun _ => State.loaded_vr_byte entry image p, rfl, rfl, rfl, rfl, rfl, rfl, sewOf_zero, vlmaxOf_zero, s.csrRead_vlenb,
    fun _ => s.csrRead_of_notMem⟩

/-- Settles O10: State.reset is the reset state of its own even entry and the empty image. -/
theorem resetMeetsTheInvariant : Obligations.ResetMeetsTheInvariant :=
  ⟨State.loaded_inv Config.entryPC [] _ rfl rfl, State.loaded_inv⟩

end Sys2Proof.Machine
